-- ==== Sys2Proof/Word.lean ====
section
/-! DEFINITION. The word types of the SC318: what the spec treats as bits. -/

namespace Sys2Proof

/-- One byte of a link message or a host frame. -/
abbrev Byte := BitVec 8

/-- A part time: microseconds since the last reset event, modulo 2^32 (00_scope section 1.5). -/
abbrev Time := BitVec 32

/-- A time of the cadence tracker: sixteenths of a microsecond, modulo 2^36 (R42). -/
abbrev TrackTime := BitVec 36

/-- A BSS id: 48 bits (00_scope section 1.4). -/
abbrev BssId := BitVec 48

end Sys2Proof
end

