-- ==== Sys2Proof/Machine/Crc.lean ====
section
/-! DEFINITION. The two cyclic checks: the CRC-8 of link messages (R149) and the capsule check (R69), and the byte order of
00_scope section 1.5. -/

namespace Sys2Proof.Machine

/-- One shift of the CRC-8 register (R149). -/
def crc8Shift (c : BitVec 8) : BitVec 8 := if c.msb then (c <<< 1) ^^^ 0x07#8 else c <<< 1

/-- The CRC-8 register after one byte (R149). -/
def crc8Byte (c : BitVec 8) (x : Byte) : BitVec 8 := Nat.iterate crc8Shift 8 (c ^^^ x)

/-- The CRC-8 of some bytes (R149). -/
def crc8 (xs : List Byte) : BitVec 8 := xs.foldl crc8Byte 0

/-- One shift of the capsule check's register (R69). -/
def crc16Shift (c : BitVec 16) : BitVec 16 := if c.msb then (c <<< 1) ^^^ 0x1021#16 else c <<< 1

/-- The capsule check's register after one byte (R69). -/
def crc16Byte (c : BitVec 16) (x : Byte) : BitVec 16 :=
  Nat.iterate crc16Shift 8 (c ^^^ ((x.zeroExtend 16) <<< 8))

/-- The capsule check of some bytes (R69). -/
def crc16 (xs : List Byte) : BitVec 16 := xs.foldl crc16Byte 0xFFFF#16

/-- The capsule bytes that a mask selects from byte *j* on, in ascending index (R68, R69). -/
def selectBytes (mask : BitVec 24) : Nat → List Byte → List Byte
  | _, [] => []
  | j, x :: xs => if mask.getLsbD j then x :: selectBytes mask (j + 1) xs else selectBytes mask (j + 1) xs

/-- The capsule check of a filter's mask (R69). -/
def capsuleCheck (mask : BitVec 24) (capsule : List Byte) : BitVec 16 := crc16 (selectBytes mask 0 capsule)

/-- A number as *n* bytes, least significant first; higher parts are dropped. -/
def leBytes : Nat → Nat → List Byte
  | 0, _ => []
  | n + 1, x => BitVec.ofNat 8 x :: leBytes n (x / 256)

/-- The number that some bytes give, least significant first. -/
def ofLeBytes : List Byte → Nat
  | [] => 0
  | x :: xs => x.toNat + 256 * ofLeBytes xs

end Sys2Proof.Machine
end

