-- ==== Sys2Proof/Syntax.lean ====
section
/-! DEFINITION. The commands of the SC318: one constructor of `Instr` per row of spec/opcode_table.json,
with the names their operands are drawn from. -/

namespace Sys2Proof

/-- Radios 0, 1 and 2, and with them links RL0 … RL2 and lanes 0 … 2 (00_scope section 1.5). -/
inductive Radio where
  | r0
  | r1
  | r2
deriving DecidableEq, Repr

/-- The four airs of the grant scheduler (R102). -/
inductive AirId where
  | l
  | h0
  | h1
  | h2
deriving DecidableEq, Repr

/-- The band set of a HELLO (R152, R168). -/
inductive BandSet where
  | bandL
  | bandH
  | both
deriving DecidableEq, Repr

/-- A maximum width, 4, 8 or 16 cells (R151, R152). -/
inductive MaxWidth where
  | w4
  | w8
  | w16
deriving DecidableEq, Repr

/-- The kind of a heard frame (R65, R168). -/
inductive HeardKind where
  | beacon
  | mgmt
  | data
  | control
deriving DecidableEq, Repr

/-- The seven kinds of condition (R84). -/
inductive CondKind where
  | oven
  | crowd
  | overrun
  | link
  | clash
  | lapse
  | noChannel
deriving DecidableEq, Repr

/-- A kind of condition with its subject (R84): band L for OVEN, a cell for CROWD, a radio for the others. -/
inductive CondKey where
  | oven
  | crowd (cell : Nat)
  | overrun (r : Radio)
  | link (r : Radio)
  | clash (r : Radio)
  | lapse (r : Radio)
  | noChannel (r : Radio)
deriving DecidableEq, Repr

/-- Why a complete link message was discarded: the four checks of R148 in their order. -/
inductive DiscardCause where
  | checkByte
  | type
  | length
  | field
deriving DecidableEq, Repr

/-- Why a link message was abandoned (R148). -/
inductive AbandonCause where
  | stopBitLow
  | gap
deriving DecidableEq, Repr

/-- Why a host command frame is malformed (R158). -/
inductive FrameFault where
  | lengthIncomplete
  | argumentsIncomplete
  | noSuchCode
  | wrongLength
deriving DecidableEq, Repr

/-- The fields of a HEARD message (R65, R156): the airtime and the level as carried, the kind, and the BSS id
and the capsule where their presence flags are set. -/
structure Summary where
  airtime : BitVec 16
  level : BitVec 16
  kind : HeardKind
  bss : Option BssId
  capsule : Option (List Byte)
deriving DecidableEq, Repr

/-- The fields of a WINDOW REQUEST message as carried (R104, R156, R168): the class and the flags are raw bytes,
which the grant scheduler reads. -/
structure WindowAsk where
  id : Byte
  cls : Byte
  length : BitVec 16
  earliest : Time
  latest : Time
  flags : Byte
deriving DecidableEq, Repr

/-- The commands of the block. Host commands carry their argument bytes as R169 sizes them; link messages carry the
link they arrive on and their fields; timed events name what expires. -/
inductive Instr where
  | powerOnReset
  | pinReset
  | fetch (clocked : Nat)
  | responseReady
  | malformedCommand (why : FrameFault)
  | emptyTransaction
  | status
  | readConditions (first count : Byte)
  | clearLatch (kind subject : Byte)
  | setReaction (kind reaction scope : Byte) (filter extension : BitVec 16)
  | setParameter (id : Byte) (value : BitVec 32)
  | getParameter (id : Byte)
  | loadPlanEntry (id start width mask : Byte)
  | deletePlanEntry (id : Byte)
  | setSpan (radio base limit : Byte)
  | setKeepClear (base limit : Byte)
  | loadOwn (index flag : Byte) (bss : BssId)
  | loadSignature (index enable : Byte) (mask : BitVec 24) (expected : BitVec 16) (action : Byte)
  | readCells (first count : Byte)
  | readTracker
  | readNeighbours (first count : Byte)
  | clearNeighbours
  | readRadio (radio clear : Byte)
  | readCosts (radio : Byte)
  | move (radio entry : Byte)
  | withdraw (radio : Byte)
  | restore (radio : Byte)
  | run
  | setup
  | softReset
  | hello (r : Radio) (version : Byte) (bands : BandSet) (width : MaxWidth)
  | keepalive (r : Radio)
  | samples (r : Radio) (first : Time) (levels : List (BitVec 16))
  | heard (r : Radio) (summary : Summary)
  | windowRequest (r : Radio) (ask : WindowAsk)
  | release (r : Radio) (id : Byte)
  | tuned (r : Radio) (start width : Byte)
  | moved (r : Radio) (id : Byte)
  | decline (r : Radio) (id reason : Byte)
  | messageDiscarded (r : Radio) (why : DiscardCause)
  | messageAbandoned (r : Radio) (why : AbandonCause)
  | reqAssertion (r : Radio)
  | reqRelease (r : Radio)
  | transmitStart (r : Radio)
  | mark (r : Radio)
  | linkLoss (r : Radio)
  | streamLapse (r : Radio)
  | anchorExpiry
  | onsetCheck
  | neighbourSweep
  | filterTimerExpiry (key : CondKey)
  | extensionTimerExpiry (key : CondKey)
  | reviewTimerExpiry (air : AirId)
  | waitLimitExpiry (r : Radio) (id : Byte)
  | grantStart (air : AirId)
  | grantExpiry (r : Radio) (id : Byte)
  | lastEndedExpiry (r : Radio)
  | holdEnd (air : AirId)
  | directiveLapse (r : Radio)
  | declineHoldExpiry (r : Radio)
  | syncByte (r : Radio)
deriving DecidableEq, Repr

end Sys2Proof
end

