-- ==== Sys2Proof/Config.lean ====
section
/-! DEFINITION. What an implementation of the SC318 fixes and the spec does not state: the model's free values. -/

namespace Sys2Proof

/-- The scope of a condition record or of a reaction configuration (R85). -/
inductive Scope where
  | footprint
  | channel
  | band
deriving DecidableEq, Repr, Inhabited

/-- FREE VALUE (log 4, DESIGN CHOICE: the spec states none): the scope that a record of a fixed kind carries. R86 gives
every record a scope copied at entry, R84 fixes the reaction and the two times of the fixed kinds and no scope. -/
opaque Config.fixedKindScope : CondKind → Scope

end Sys2Proof
end

