-- ==== Sys2Proof/Machine/State.lean ====
section
/-! DEFINITION. The state of the SC318 as plain data, its reset value, and the reasons a step could stop.

The state has four parts: the queue of waiting commands; `Env`, what every block reads and no block's own
operation writes (part time, the mode, the retained set of R166); the host command port; and `Blocks`, the
records of the other eight blocks. -/

namespace Sys2Proof.Machine

/-! ## Values kept for each radio, each air -/

/-- One value for each radio. -/
structure PerRadio (α : Type) where
  r0 : α
  r1 : α
  r2 : α
deriving DecidableEq, Repr

/-- One value for each air (R102). -/
structure PerAir (α : Type) where
  l : α
  h0 : α
  h1 : α
  h2 : α
deriving DecidableEq, Repr

/-! ## The environment: part time, mode, retained set -/

/-- SETUP or RUN (00_scope section 1.5). -/
inductive Mode where
  | setup
  | run
deriving DecidableEq, Repr

/-- The 34 parameters of the store (R162, section 9.3), each in the unit of that table. Notice alerting is 0 off,
1 on; lapse mode is 0 ASSUME, 1 REVOKE (R169). -/
structure Params where
  busyCode : Nat
  ovenMin : Nat
  ovenMax : Nat
  watchBase : Nat
  watchLimit : Nat
  periodMin : Nat
  periodMax : Nat
  lockCount : Nat
  acquireWindow : Nat
  trackWindow : Nat
  coastLimit : Nat
  guardLead : Nat
  guardTail : Nat
  neighbourAge : Nat
  crowdOn : Nat
  crowdOff : Nat
  nearCode : Nat
  noticeAlerting : Nat
  beaconCap : Nat
  mgmtCap : Nat
  dataCap : Nat
  bulkCap : Nat
  minGrant : Nat
  startLead : Nat
  immediateMax : Nat
  waitLimit : Nat
  postLimit : Nat
  lateMargin : Nat
  overrunLimit : Nat
  directiveTimeout : Nat
  lapseMode : Nat
  declineHold : Nat
  moveHysteresis : Nat
  linkTimeout : Nat
deriving DecidableEq, Repr

/-- What a condition puts in force (R84). -/
inductive Reaction where
  | note
  | flag
  | shape
  | avoid
  | bar
deriving DecidableEq, Repr

/-- The reaction configuration of one kind (R85); the times in milliseconds. -/
structure ReactionConfig where
  reaction : Reaction
  scope : Scope
  filter : Nat
  extension : Nat
deriving DecidableEq, Repr

/-- The reaction configuration of the three configurable kinds (R85). -/
structure Reactions where
  oven : ReactionConfig
  crowd : ReactionConfig
  overrun : ReactionConfig
deriving DecidableEq, Repr

/-- A channel: a start cell and a width in cells (00_scope section 1.5). -/
structure Channel where
  start : Nat
  width : Nat
deriving DecidableEq, Repr

/-- A span of cells, inclusive at both ends; empty when the limit is below the base (R11, R12). -/
structure Span where
  base : Nat
  limit : Nat
deriving DecidableEq, Repr

/-- An entry of the channel plan (R8). The mask has bit n for radio n. -/
structure PlanEntry where
  id : Nat
  chan : Channel
  mask : Byte
deriving DecidableEq, Repr

/-- The action of a signature filter (R68). -/
inductive FilterAction where
  | own
  | tag
deriving DecidableEq, Repr

/-- A signature filter (R68). -/
structure SigFilter where
  enable : Bool
  mask : BitVec 24
  expected : BitVec 16
  action : FilterAction
deriving DecidableEq, Repr

/-- The retained set of R166: what a soft reset keeps. The plan is a list in ascending id order. -/
structure Retained where
  params : Params
  reactions : Reactions
  plan : List PlanEntry
  spans : PerRadio Span
  keepClear : Span
  ownList : List (Option BssId)
  filters : List SigFilter
deriving DecidableEq, Repr

/-- What every block reads: part time, the mode and the retained set. -/
structure Env where
  now : Time
  mode : Mode
  retained : Retained
deriving DecidableEq, Repr

/-! ## Spectrum map -/

/-- The stored part of a cell record (R1); the guard level is derived. -/
structure CellRecord where
  holder : Option Radio
  current : Bool
  target : Bool
  score : Nat
  surveyed : Option Time
deriving DecidableEq, Repr

/-- The guard level of a cell (R4). -/
inductive GuardLevel where
  | clear
  | avoided
  | barred
deriving DecidableEq, Repr

/-! ## Energy lanes -/

/-- The open burst of a lane (R20, OPEN only). -/
structure OpenBurst where
  start : Time
  span : Channel
  lastBusy : Time
deriving DecidableEq, Repr

/-- An entry of the pair history (R20). -/
structure HistEntry where
  busy : Bool
  time : Time
deriving DecidableEq, Repr

/-- The open survey's counts (R20, R36, R37). -/
structure SurveyCounts where
  busy : Nat
  idle : Nat
  blind : Nat
  own : Nat
deriving DecidableEq, Repr

/-- The class counters of a lane (R20, R33). -/
structure ClassCounters where
  glitch : Nat
  frame : Nat
  ovenLike : Nat
  long : Nat
  truncated : Nat
  discarded : Nat
deriving DecidableEq, Repr

/-- The lane record (R20). The burst state is QUIET when `burst` is absent and OPEN when it is present. -/
structure Lane where
  expected : Option Time
  burst : Option OpenBurst
  history : List HistEntry
  idleRun : Nat
  blindRun : Nat
  survey : SurveyCounts
  counters : ClassCounters
deriving DecidableEq, Repr

/-! ## Cadence tracker -/

/-- The tracker's phase (R41). -/
inductive TrackerPhase where
  | search
  | acquire
  | track
  | coast
deriving DecidableEq, Repr

/-- The anchor with its expiry (R41, R46). -/
structure Anchor where
  start : Time
  duration : Nat
  span : Channel
  expiry : Time
deriving DecidableEq, Repr

/-- The tracker's counters (R41). -/
structure TrackerCounters where
  handOffs : Nat
  accepted : Nat
  duplicates : Nat
  ignored : Nat
  breaks : Nat
  missed : Nat
  locks : Nat
  losses : Nat
deriving DecidableEq, Repr

/-- The tracker record (R41). `period` is P and `onset` is T in sixteenths of a microsecond, `onTime` is D in
microseconds, `lastOnset` is A. -/
structure Tracker where
  phase : TrackerPhase
  anchor : Option Anchor
  period : Nat
  onset : TrackTime
  onTime : Nat
  matched : Nat
  misses : Nat
  lastOnset : Option TrackTime
  check : Option Time
  footprint : List Channel
  counters : TrackerCounters
deriving DecidableEq, Repr

/-! ## Survey unit -/

/-- An entry of the neighbour table (R71). -/
structure Neighbour where
  bss : BssId
  radio : Radio
  span : Channel
  first : Time
  last : Time
  frames : Nat
  airtime : Nat
  strongest : Nat
  tag : Option Nat
deriving DecidableEq, Repr

/-- The survey unit's counters (R75). -/
structure HeardCounters where
  taken : Nat
  malformed : Nat
  own : Nat
  anonymous : Nat
  neighbour : Nat
  made : Nat
  evictions : Nat
  agedOut : Nat
deriving DecidableEq, Repr

/-- The survey unit: the neighbour table newest first (R71), the counters (R75), the crowding source of each cell
(R78) and the part time of the next sweep (R74). -/
structure SurveyUnit where
  table : List Neighbour
  counters : HeardCounters
  crowding : List Bool
  nextSweep : Time
deriving DecidableEq, Repr

/-! ## Condition monitor -/

/-- The state of a condition record (R86). -/
inductive CondState where
  | pending
  | active
  | extending
  | latched
  | resolved
deriving DecidableEq, Repr

/-- A condition record (R86). The key holds the kind and the subject. -/
structure CondRecord where
  key : CondKey
  state : CondState
  config : ReactionConfig
  range : Option Span
  entered : Time
  changed : Time
  unread : Bool
  occurrences : Nat
  timer : Option Time
deriving DecidableEq, Repr

/-- The condition monitor (R86): the list oldest first, the overflow flag, the last footprint range. -/
structure Monitor where
  list : List CondRecord
  overflow : Bool
  lastRange : Option Span
deriving DecidableEq, Repr

/-! ## Grant scheduler -/

/-- The four classes of a window request (R104). -/
inductive ReqClass where
  | beacon
  | mgmt
  | data
  | bulk
deriving DecidableEq, Repr

/-- A request record (R103). -/
structure Request where
  radio : Radio
  id : Byte
  cls : ReqClass
  length : Nat
  earliest : Time
  latest : Time
  shortenable : Bool
  posted : Bool
  seq : Nat
  waitExpiry : Option Time
deriving DecidableEq, Repr

/-- SCHEDULED or ACTIVE (R103). -/
inductive GrantState where
  | scheduled
  | active
deriving DecidableEq, Repr

/-- A grant record (R103): the window [start, stop). -/
structure Grant where
  radio : Radio
  id : Byte
  start : Time
  stop : Time
  shortenable : Bool
  shortened : Bool
  exposed : Bool
  state : GrantState
deriving DecidableEq, Repr

/-- An immediate hold (R103, R124). -/
structure Hold where
  radio : Radio
  start : Time
  stop : Time
deriving DecidableEq, Repr

/-- What the scheduler keeps for an air (R103). -/
structure Air where
  grant : Option Grant
  hold : Option Hold
  review : Option Time
deriving DecidableEq, Repr

/-- How a grant ended (R118). -/
inductive EndManner where
  | expiry
  | cut
deriving DecidableEq, Repr

/-- The last ended record (R103, R118). -/
structure LastEnded where
  id : Byte
  stop : Time
  manner : EndManner
deriving DecidableEq, Repr

/-- What the scheduler keeps for a radio (R103). -/
structure RadioSched where
  waits : List Request
  posted : List Request
  headAttempts : Nat
  passThrough : List Grant
  lastEnded : Option LastEnded
  lateCount : Nat
  overrun : Bool
deriving DecidableEq, Repr

/-- A predicted on-window [start, stop) (R60). -/
structure Window where
  start : Time
  stop : Time
deriving DecidableEq, Repr

/-- The prediction as last reported (R61, R103). -/
structure Prediction where
  phase : TrackerPhase
  windows : List Window
  cells : List Nat
deriving DecidableEq, Repr

/-- The grant scheduler (R103). -/
structure Scheduler where
  airs : PerAir Air
  radios : PerRadio RadioSched
  shaping : Bool
  prediction : Prediction
  arrivals : Nat
deriving DecidableEq, Repr

/-! ## Directive controller -/

/-- The reason of a directive (R130, R168). -/
inductive MoveReason where
  | avoid
  | bar
  | host
deriving DecidableEq, Repr

/-- A pending directive (R130): the start cell and width are `chan`. -/
structure Directive where
  id : Byte
  entry : Nat
  chan : Channel
  reason : MoveReason
  expiry : Time
deriving DecidableEq, Repr

/-- A declined entry (R130, R137). -/
structure Declined where
  entry : Nat
  expiry : Time
  reason : Byte
deriving DecidableEq, Repr

/-- A move wait (R134): the retry cells in ascending order and the no-entry flag. -/
structure MoveWait where
  cells : List Nat
  noEntry : Bool
deriving DecidableEq, Repr

/-- The channel state of a radio (R130), with the LAPSE source that the controller keeps (R139). -/
structure ChanState where
  operating : Option Channel
  clash : Bool
  isolated : Bool
  directive : Option Directive
  nextId : Byte
  declined : Option Declined
  moveWait : Option MoveWait
  withdrawn : Bool
  lapseSource : Bool
deriving DecidableEq, Repr

/-! ## Radio links -/

/-- The receiver of a link controller (R148). -/
inductive Receiver where
  | hunting
  | collecting
deriving DecidableEq, Repr

/-- The port state (R151). -/
inductive PortState where
  | down
  | up
  | lost
deriving DecidableEq, Repr

/-- The capability recorded from a HELLO (R151). -/
structure Capability where
  bands : BandSet
  width : MaxWidth
deriving DecidableEq, Repr

/-- The cause of a RETRY (R156, R168). -/
inductive RetryCause where
  | moving
  | full
  | window
  | wait
deriving DecidableEq, Repr

/-- The cause of a REFUSE (R156, R168). -/
inductive RefuseCause where
  | badRequest
  | deadline
  | withdrawn
  | noChannel
  | clash
  | isolated
  | barred
deriving DecidableEq, Repr

/-- A message of the SC318 to a radio, without its stamp (R156). -/
inductive OutMsg where
  | welcome (port : Radio) (mode : Mode) (withdrawn : Bool)
  | relink
  | mark
  | grant (id : Byte) (start : Time) (length : Nat) (shortened : Bool)
  | retry (id : Byte) (cause : RetryCause) (hint : Time)
  | refuse (id : Byte) (cause : RefuseCause)
  | posted (id : Byte)
  | expired (id : Byte)
  | cut (id : Byte) (newEnd : Time)
  | move (directive : Byte) (entry : Nat) (chan : Channel) (reason : MoveReason)
deriving DecidableEq, Repr

/-- The thirteen per-radio counters (R157). -/
structure LinkCounters where
  linkErrors : Nat
  misordered : Nat
  transmitDrops : Nat
  grantsIssued : Nat
  grantsShortened : Nat
  exposedGrants : Nat
  retries : Nat
  refusals : Nat
  lateReleases : Nat
  strayReleases : Nat
  immediateGrants : Nat
  immediateDenials : Nat
  postedExpiries : Nat
deriving DecidableEq, Repr

/-- The message on TXD (R150): its bytes, its stamp, and when the line is free after it, at `freeAt` µs and
`freeTwelfths` twelfths of a µs (log 10). -/
structure Sending where
  bytes : List Byte
  stamp : Time
  freeAt : Time
  freeTwelfths : Nat
deriving DecidableEq, Repr

/-- A link controller: the receiver (R148), the port record (R151), the counters (R157), the transmit queue and the
line TXD (R150), and the level of REQ (R155). -/
structure Link where
  receiver : Receiver
  port : PortState
  liveness : Option Time
  capability : Option Capability
  linkSource : Bool
  markStart : Option Time
  counters : LinkCounters
  queue : List OutMsg
  sending : Option Sending
  req : Bool
deriving DecidableEq, Repr

/-! ## Host command port -/

/-- The status codes of a response (R160). -/
inductive Status where
  | ok
  | notReady
  | busy
  | wrongMode
  | wrongState
  | badArgument
  | noSuch
deriving DecidableEq, Repr

/-- A response: its status and its payload bytes (R159, R169). -/
structure Response where
  status : Status
  payload : List Byte
deriving DecidableEq, Repr

/-- The response slot (R159); while PREPARING, `readyBy` is the latest time at which it becomes READY. -/
inductive Slot where
  | empty
  | preparing (response : Response) (readyBy : Time)
  | ready (response : Response)
deriving DecidableEq, Repr

/-- The host command port: the response slot (R159), the pending soft reset (R165) and the bytes that the last fetch
put on MISO (log 13). -/
structure HostPort where
  slot : Slot
  softReset : Bool
  miso : List Byte
deriving DecidableEq, Repr

/-! ## The whole state -/

/-- The records of the eight blocks other than the host command port. -/
structure Blocks where
  cells : List CellRecord
  lanes : PerRadio Lane
  tracker : Tracker
  survey : SurveyUnit
  monitor : Monitor
  sched : Scheduler
  chans : PerRadio ChanState
  links : PerRadio Link
deriving DecidableEq, Repr

/-- The state of the SC318, with the queue of the commands that are waiting, first in, first out. -/
structure State where
  pending : List Instr
  env : Env
  port : HostPort
  blocks : Blocks
deriving DecidableEq, Repr

/-- Why a step stops with a fault. The spec gives the part no fault: a bad frame is answered and a bad message is
counted. -/
inductive Fault where
  /-- Raised by no command: the type would otherwise be empty. Safe. -/
  | never
deriving DecidableEq, Repr

/-- Why a step refuses a command. -/
inductive Refusal where
  /-- Raised by an arm of `exec` whose command has no meaning yet; no arm is left so. Safe. -/
  | notModelled (mnemonic : String)
deriving DecidableEq, Repr

/-! ## Reset values -/

/-- The defaults of the parameter store (section 9.3). -/
def Params.defaults : Params where
  busyCode := 36
  ovenMin := 4000
  ovenMax := 11000
  watchBase := 5
  watchLimit := 15
  periodMin := 15000
  periodMax := 21000
  lockCount := 6
  acquireWindow := 1000
  trackWindow := 500
  coastLimit := 8
  guardLead := 300
  guardTail := 300
  neighbourAge := 60
  crowdOn := 160
  crowdOff := 144
  nearCode := 60
  noticeAlerting := 0
  beaconCap := 0
  mgmtCap := 16
  dataCap := 32
  bulkCap := 32
  minGrant := 512
  startLead := 2000
  immediateMax := 400
  waitLimit := 80
  postLimit := 32
  lateMargin := 100
  overrunLimit := 4
  directiveTimeout := 50
  lapseMode := 1
  declineHold := 10
  moveHysteresis := 64
  linkTimeout := 2

/-- The retained set after a hardware reset (R8, R11, R12, R67, R68, R85, R162). -/
def Retained.reset : Retained where
  params := Params.defaults
  reactions :=
    { oven := ⟨.shape, .footprint, 0, 2000⟩
      crowd := ⟨.avoid, .footprint, 300, 5000⟩
      overrun := ⟨.note, .footprint, 0, 0⟩ }
  plan := []
  spans := ⟨⟨0, 155⟩, ⟨0, 155⟩, ⟨0, 155⟩⟩
  keepClear := ⟨1, 0⟩
  ownList := List.replicate 16 none
  filters := List.replicate 4 ⟨false, 0, 0, .own⟩

/-- A lane after either reset (R20). -/
def Lane.reset : Lane where
  expected := none
  burst := none
  history := []
  idleRun := 0
  blindRun := 0
  survey := ⟨0, 0, 0, 0⟩
  counters := ⟨0, 0, 0, 0, 0, 0⟩

/-- The tracker record after either reset (R41). -/
def Tracker.reset : Tracker where
  phase := .search
  anchor := none
  period := 0
  onset := 0
  onTime := 0
  matched := 0
  misses := 0
  lastOnset := none
  check := none
  footprint := []
  counters := ⟨0, 0, 0, 0, 0, 0, 0, 0⟩

/-- What the scheduler keeps for a radio after either reset (R103). -/
def RadioSched.reset : RadioSched where
  waits := []
  posted := []
  headAttempts := 0
  passThrough := []
  lastEnded := none
  lateCount := 0
  overrun := false

/-- The channel state of a radio after either reset (R130). -/
def ChanState.reset : ChanState where
  operating := none
  clash := false
  isolated := false
  directive := none
  nextId := 0
  declined := none
  moveWait := none
  withdrawn := false
  lapseSource := false

/-- The thirteen counters at zero (R157). -/
def LinkCounters.zero : LinkCounters := ⟨0, 0, 0, 0, 0, 0, 0, 0, 0, 0, 0, 0, 0⟩

/-- A link controller after either reset (R148, R150, R151, R157), its REQ input at the given level. -/
def Link.reset (req : Bool) : Link where
  receiver := .hunting
  port := .down
  liveness := none
  capability := none
  linkSource := false
  markStart := none
  counters := LinkCounters.zero
  queue := []
  sending := none
  req := req

/-- The blocks after either reset (R19, R20, R41, R71, R75, R78, R86, R100, R103, R130, R151), with the levels that
the radios drive on their REQ lines: an input that no reset changes. -/
def Blocks.reset (req : PerRadio Bool) : Blocks where
  cells := List.replicate 156 ⟨none, false, false, 64, none⟩
  lanes := ⟨Lane.reset, Lane.reset, Lane.reset⟩
  tracker := Tracker.reset
  survey :=
    { table := []
      counters := ⟨0, 0, 0, 0, 0, 0, 0, 0⟩
      crowding := List.replicate 156 false
      nextSweep := 1000000 }
  monitor := ⟨[], false, none⟩
  sched :=
    { airs := ⟨⟨none, none, none⟩, ⟨none, none, none⟩, ⟨none, none, none⟩, ⟨none, none, none⟩⟩
      radios := ⟨RadioSched.reset, RadioSched.reset, RadioSched.reset⟩
      shaping := false
      prediction := ⟨.search, [], []⟩
      arrivals := 0 }
  chans := ⟨ChanState.reset, ChanState.reset, ChanState.reset⟩
  links := ⟨Link.reset req.r0, Link.reset req.r1, Link.reset req.r2⟩

/-- The host command port after either reset (R159, R165). -/
def HostPort.reset : HostPort := ⟨.empty, false, []⟩

/-- The machine right after a hardware reset (R167), its queue empty and every REQ line low (log 16). -/
def State.reset : State where
  pending := []
  env := ⟨0, .setup, Retained.reset⟩
  port := HostPort.reset
  blocks := Blocks.reset ⟨false, false, false⟩

end Sys2Proof.Machine
end

