-- ==== Sys2Proof/Machine/Time.lean ====
section
/-! DEFINITION. Part times, tracker times and the arithmetic conventions of 00_scope section 1.5 and R42. -/

namespace Sys2Proof.Machine

/-! ## Part times -/

/-- *a* is at or before *b* when (*b* − *a*) modulo 2^32 is less than 2^31 (00_scope section 1.5). -/
def Time.atOrBefore (a b : Time) : Bool := decide ((b - a).toNat < 2 ^ 31)

/-- *a* is before *b*: at or before it and not equal to it. -/
def Time.before (a b : Time) : Bool := Time.atOrBefore a b && decide (a ≠ b)

/-- *a* is after *b*: not at or before it (log 29: two times exactly 2^31 µs apart are each after the other). -/
def Time.after (a b : Time) : Bool := !Time.atOrBefore a b

/-- *a* is at or after *b*: not before it. -/
def Time.atOrAfter (a b : Time) : Bool := !Time.before a b

/-- The part time *n* microseconds after *a*. -/
def Time.plus (a : Time) (n : Nat) : Time := a + BitVec.ofNat 32 n

/-- The part time *n* microseconds before *a*. -/
def Time.minus (a : Time) (n : Nat) : Time := a - BitVec.ofNat 32 n

/-- *a* − *b* modulo 2^32, read in −2^31 … 2^31 − 1 (00_scope section 1.5, R42). -/
def Time.diff (a b : Time) : Int := (a - b).toInt

/-- *a* − *b* modulo 2^32, in 0 … 2^32 − 1 (R26, R30, R74). -/
def Time.span (a b : Time) : Nat := (a - b).toNat

/-- The later of two part times. -/
def Time.later (a b : Time) : Time := if Time.atOrBefore a b then b else a

/-- The earlier of two part times. -/
def Time.earlier (a b : Time) : Time := if Time.atOrBefore a b then a else b

/-- An expiry has been reached: it is present and at or before now. -/
def Time.reached (expiry : Option Time) (now : Time) : Bool :=
  match expiry with
  | none => false
  | some t => Time.atOrBefore t now

/-- The half-open windows [*a*, *b*) and [*c*, *d*) have an instant in common. -/
def Time.meets (a b c d : Time) : Bool :=
  Time.before a b && Time.before c d && Time.before a d && Time.before c b

/-! ## Tracker times -/

/-- A burst start in tracker units, *S* = 16 × *s* modulo 2^36 (R42). -/
def TrackTime.ofStart (s : Time) : TrackTime := BitVec.ofNat 36 (16 * s.toNat)

/-- A tracker time as part time, floor(*X* / 16) (R42). -/
def TrackTime.toPart (x : TrackTime) : Time := BitVec.ofNat 32 (x.toNat / 16)

/-- A signed difference of two tracker times, in −2^35 … 2^35 − 1 (R42). -/
def TrackTime.diff (a b : TrackTime) : Int := (a - b).toInt

/-- A tracker time moved by a signed number of sixteenths, modulo 2^36. -/
def TrackTime.plus (a : TrackTime) (n : Int) : TrackTime := a + BitVec.ofInt 36 n

/-! ## Conventions of arithmetic -/

/-- A value clamped to a range (00_scope section 1.5). -/
def clampInt (lo hi x : Int) : Int := if x < lo then lo else if hi < x then hi else x

/-- A counter of 0 … limit moved by *n* and left at its maximum when it would pass it (00_scope section 1.5). -/
def satAdd (limit x n : Nat) : Nat := min (x + n) limit

/-- A counter of 0 … 65535 after one increment. -/
def bump (x : Nat) : Nat := satAdd 65535 x 1

end Sys2Proof.Machine
end

