-- ==== Sys2Proof/Machine/Ops.lean ====
section
/-! DEFINITION. The named operations over the records: reading and writing one radio's, one air's record, the
counters, and issuing a message to a radio. The block has no exception to take and no return from one. -/

namespace Sys2Proof.Machine

/-! ## One radio's record, one air's record -/

/-- The three radios in ascending number. -/
def radios : List Radio := [.r0, .r1, .r2]

/-- The four airs in the order in which reviews take them (R111). -/
def airIds : List AirId := [.l, .h0, .h1, .h2]

/-- A radio's number. -/
def Radio.number : Radio → Nat
  | .r0 => 0
  | .r1 => 1
  | .r2 => 2

/-- Air H*n* of radio *n* (R102). -/
def AirId.high : Radio → AirId
  | .r0 => .h0
  | .r1 => .h1
  | .r2 => .h2

/-- The value kept for a radio. -/
def PerRadio.get {α : Type} (p : PerRadio α) : Radio → α
  | .r0 => p.r0
  | .r1 => p.r1
  | .r2 => p.r2

/-- The values with that of one radio replaced. -/
def PerRadio.set {α : Type} (p : PerRadio α) (r : Radio) (x : α) : PerRadio α :=
  match r with
  | .r0 => { p with r0 := x }
  | .r1 => { p with r1 := x }
  | .r2 => { p with r2 := x }

/-- The values with that of one radio changed. -/
def PerRadio.modify {α : Type} (p : PerRadio α) (r : Radio) (f : α → α) : PerRadio α := p.set r (f (p.get r))

/-- Every radio's value changed. -/
def PerRadio.map {α β : Type} (f : α → β) (p : PerRadio α) : PerRadio β := ⟨f p.r0, f p.r1, f p.r2⟩

/-- The value kept for an air. -/
def PerAir.get {α : Type} (p : PerAir α) : AirId → α
  | .l => p.l
  | .h0 => p.h0
  | .h1 => p.h1
  | .h2 => p.h2

/-- The values with that of one air replaced. -/
def PerAir.set {α : Type} (p : PerAir α) (a : AirId) (x : α) : PerAir α :=
  match a with
  | .l => { p with l := x }
  | .h0 => { p with h0 := x }
  | .h1 => { p with h1 := x }
  | .h2 => { p with h2 := x }

/-- The blocks with one radio's channel state changed. -/
def Blocks.modChan (b : Blocks) (r : Radio) (f : ChanState → ChanState) : Blocks :=
  { b with chans := b.chans.modify r f }

/-- The blocks with one radio's lane changed. -/
def Blocks.modLane (b : Blocks) (r : Radio) (f : Lane → Lane) : Blocks := { b with lanes := b.lanes.modify r f }

/-- The blocks with one link changed. -/
def Blocks.modLink (b : Blocks) (r : Radio) (f : Link → Link) : Blocks := { b with links := b.links.modify r f }

/-- The blocks with what the scheduler keeps for one radio changed. -/
def Blocks.modSched (b : Blocks) (r : Radio) (f : RadioSched → RadioSched) : Blocks :=
  { b with sched := { b.sched with radios := b.sched.radios.modify r f } }

/-- What the scheduler keeps for an air. -/
def Blocks.air (b : Blocks) (a : AirId) : Air := b.sched.airs.get a

/-- The blocks with what the scheduler keeps for one air changed. -/
def Blocks.modAir (b : Blocks) (a : AirId) (f : Air → Air) : Blocks :=
  { b with sched := { b.sched with airs := b.sched.airs.set a (f (b.air a)) } }

/-- The blocks with one radio's counters changed (R157). -/
def Blocks.count (b : Blocks) (r : Radio) (f : LinkCounters → LinkCounters) : Blocks :=
  b.modLink r fun k => { k with counters := f k.counters }

/-! ## The counters of R157 -/

def LinkCounters.linkError (c : LinkCounters) : LinkCounters := { c with linkErrors := bump c.linkErrors }
def LinkCounters.misorderedBatch (c : LinkCounters) : LinkCounters := { c with misordered := bump c.misordered }
def LinkCounters.transmitDrop (c : LinkCounters) : LinkCounters := { c with transmitDrops := bump c.transmitDrops }
def LinkCounters.grantIssued (c : LinkCounters) (shortened : Bool) : LinkCounters :=
  { c with
    grantsIssued := bump c.grantsIssued
    grantsShortened := if shortened then bump c.grantsShortened else c.grantsShortened }
def LinkCounters.exposedGrant (c : LinkCounters) : LinkCounters := { c with exposedGrants := bump c.exposedGrants }
def LinkCounters.retry (c : LinkCounters) : LinkCounters := { c with retries := bump c.retries }
def LinkCounters.refusal (c : LinkCounters) : LinkCounters := { c with refusals := bump c.refusals }
def LinkCounters.lateRelease (c : LinkCounters) : LinkCounters := { c with lateReleases := bump c.lateReleases }
def LinkCounters.strayRelease (c : LinkCounters) : LinkCounters := { c with strayReleases := bump c.strayReleases }
def LinkCounters.immediateGrant (c : LinkCounters) : LinkCounters :=
  { c with immediateGrants := bump c.immediateGrants }
def LinkCounters.immediateDenial (c : LinkCounters) : LinkCounters :=
  { c with immediateDenials := bump c.immediateDenials }
def LinkCounters.postedExpiry (c : LinkCounters) : LinkCounters := { c with postedExpiries := bump c.postedExpiries }

/-! ## Issuing messages -/

/-- The most messages a transmit queue holds (R150). -/
def queueLimit : Nat := 32

/-- A message issued to a link joins its transmit queue, or is dropped and counted when the queue holds 32 (R150). -/
def Link.issue (k : Link) (m : OutMsg) : Link :=
  if k.queue.length < queueLimit then { k with queue := k.queue ++ [m] }
  else { k with counters := k.counters.transmitDrop }

/-- A message issued to a radio (R150). -/
def Blocks.send (b : Blocks) (r : Radio) (m : OutMsg) : Blocks := b.modLink r fun k => k.issue m

/-- A GRANT sent and counted (R112, R157; log 26). -/
def Blocks.sendGrant (b : Blocks) (r : Radio) (id : Byte) (start : Time) (length : Nat) (shortened : Bool) : Blocks :=
  (b.send r (.grant id start length shortened)).count r fun c => c.grantIssued shortened

/-- A RETRY sent and counted (R105, R157). -/
def Blocks.sendRetry (b : Blocks) (r : Radio) (id : Byte) (cause : RetryCause) (hint : Time) : Blocks :=
  (b.send r (.retry id cause hint)).count r LinkCounters.retry

/-- A REFUSE sent and counted (R105, R157). -/
def Blocks.sendRefuse (b : Blocks) (r : Radio) (id : Byte) (cause : RefuseCause) : Blocks :=
  (b.send r (.refuse id cause)).count r LinkCounters.refusal

/-- An EXPIRED sent and counted (R115, R123, R157). -/
def Blocks.sendExpired (b : Blocks) (r : Radio) (id : Byte) : Blocks :=
  (b.send r (.expired id)).count r LinkCounters.postedExpiry

end Sys2Proof.Machine
end

