-- ==== Sys2Proof/Machine/Operands.lean ====
section
/-! DEFINITION. What the operand bytes of commands and messages stand for: the encodings of R168, R169 and R170, and
the classification of channels and spans. -/

namespace Sys2Proof.Machine

/-! ## Channels and spans -/

/-- The number of cells of the spectrum (R1). -/
def cellCount : Nat := 156

/-- The cells of a channel in ascending order. -/
def Channel.cells (c : Channel) : List Nat := List.range' c.start c.width

/-- The cells of a span in ascending order; none when the limit is below the base (R11). -/
def Span.cells (s : Span) : List Nat := List.range' s.base (s.limit + 1 - s.base)

/-- A cell lies inside a span (R11). -/
def Span.has (s : Span) (k : Nat) : Bool := decide (s.base ≤ k) && decide (k ≤ s.limit)

/-- Two channels have a cell in common (00_scope section 1.5). -/
def Channel.meets (c d : Channel) : Bool :=
  decide (c.start < d.start + d.width) && decide (d.start < c.start + c.width) && decide (0 < c.width)
    && decide (0 < d.width)

/-- A channel lies in band L: all its cells are among 0 … 15. -/
def Channel.inBandL (c : Channel) : Bool := decide (c.start + c.width ≤ 16)

/-- A channel lies in band H: all its cells are among 16 … 155. -/
def Channel.inBandH (c : Channel) : Bool := decide (16 ≤ c.start) && decide (c.start + c.width ≤ cellCount)

/-- The test of R8 and R140: the width is 4, 8 or 16, the cells lie within 0 … 155 and in one band, and the width is
allowed in that band. -/
def Channel.valid (c : Channel) : Bool :=
  (c.inBandL && (c.width == 4 || c.width == 8))
    || (c.inBandH && (c.width == 4 || c.width == 8 || c.width == 16))

/-- A band set includes the band of a channel (R79). -/
def BandSet.includes (s : BandSet) (c : Channel) : Bool :=
  match s with
  | .bandL => c.inBandL
  | .bandH => !c.inBandL
  | .both => true

/-- A maximum width in cells (R151). -/
def MaxWidth.cells : MaxWidth → Nat
  | .w4 => 4
  | .w8 => 8
  | .w16 => 16

/-! ## Argument bytes -/

/-- A radio argument: 0, 1 or 2 (R169). -/
def radioOf (x : Byte) : Option Radio :=
  match x.toNat with
  | 0 => some .r0
  | 1 => some .r1
  | 2 => some .r2
  | _ => none

/-- A flag byte: 0 clear, 1 set, any other value none (R169). -/
def flagOf (x : Byte) : Option Bool :=
  match x.toNat with
  | 0 => some false
  | 1 => some true
  | _ => none

/-- A cell argument: 0 … 155. -/
def cellOf (x : Byte) : Option Nat := if x.toNat < cellCount then some x.toNat else none

/-- A condition kind (R170). -/
def kindOf (x : Byte) : Option CondKind :=
  match x.toNat with
  | 0 => some .oven
  | 1 => some .crowd
  | 2 => some .overrun
  | 3 => some .link
  | 4 => some .clash
  | 5 => some .lapse
  | 6 => some .noChannel
  | _ => none

/-- A kind and a subject byte as a condition's key: 0 for band L, the cell number for CROWD, the radio number for the
radio kinds (R170); none for a subject outside the values R84 gives. -/
def keyOf (kind : CondKind) (subject : Byte) : Option CondKey :=
  match kind with
  | .oven => if subject.toNat = 0 then some .oven else none
  | .crowd => (cellOf subject).map .crowd
  | .overrun => (radioOf subject).map .overrun
  | .link => (radioOf subject).map .link
  | .clash => (radioOf subject).map .clash
  | .lapse => (radioOf subject).map .lapse
  | .noChannel => (radioOf subject).map .noChannel

/-- A reaction (R170). -/
def reactionOf (x : Byte) : Option Reaction :=
  match x.toNat with
  | 0 => some .note
  | 1 => some .flag
  | 2 => some .shape
  | 3 => some .avoid
  | 4 => some .bar
  | _ => none

/-- A scope (R170). -/
def scopeOf (x : Byte) : Option Scope :=
  match x.toNat with
  | 0 => some .footprint
  | 1 => some .channel
  | 2 => some .band
  | _ => none

/-- An action of a signature filter: 0 OWN, 1 TAG (R169). -/
def actionOf (x : Byte) : Option FilterAction :=
  match x.toNat with
  | 0 => some .own
  | 1 => some .tag
  | _ => none

/-- The class of a window request (R168); none for a value of 4 or more. -/
def classOf (x : Byte) : Option ReqClass :=
  match x.toNat with
  | 0 => some .beacon
  | 1 => some .mgmt
  | 2 => some .data
  | 3 => some .bulk
  | _ => none

/-- The order of the classes: BEACON, MGMT, DATA, BULK (R107). -/
def ReqClass.rank : ReqClass → Nat
  | .beacon => 0
  | .mgmt => 1
  | .data => 2
  | .bulk => 3

/-- What a host MOVE names: an entry 0 … 63, or BEST (R169). -/
inductive MoveTarget where
  | best
  | entry (id : Nat)
deriving DecidableEq, Repr

/-- The entry argument of MOVE (R135, R169). -/
def moveTargetOf (x : Byte) : Option MoveTarget :=
  if x.toNat < 64 then some (.entry x.toNat) else if x.toNat = 255 then some .best else none

/-! ## Kinds and keys -/

/-- The kind of a condition (R84). -/
def CondKey.kind : CondKey → CondKind
  | .oven => .oven
  | .crowd _ => .crowd
  | .overrun _ => .overrun
  | .link _ => .link
  | .clash _ => .clash
  | .lapse _ => .lapse
  | .noChannel _ => .noChannel

/-- The radio a condition is about, for the radio kinds (R84). -/
def CondKey.radio : CondKey → Option Radio
  | .oven | .crowd _ => none
  | .overrun r | .link r | .clash r | .lapse r | .noChannel r => some r

/-- The reactions R84 allows each configurable kind (R85); none for a fixed kind. -/
def CondKind.allows (k : CondKind) (x : Reaction) : Bool :=
  match k, x with
  | .oven, _ => true
  | .crowd, .shape => false
  | .crowd, _ => true
  | .overrun, .note => true
  | .overrun, .flag => true
  | .overrun, _ => false
  | .link, _ | .clash, _ | .lapse, _ | .noChannel, _ => false

/-! ## Energy levels -/

/-- The blind marker −32768 (R22). -/
def blindMarker : BitVec 16 := 0x8000

/-- The code of a reported level (R22): 127 for the blind marker, else floor((*q* + 400) / 2) clamped to 0 … 126. -/
def codeOf (q : BitVec 16) : Nat :=
  if q = blindMarker then 127 else (clampInt 0 126 ((q.toInt + 400).fdiv 2)).toNat

/-- Busy, idle or blind (R23). -/
inductive SampleKind where
  | busy
  | idle
  | blind
deriving DecidableEq, Repr

/-- The classification of a code by the busy code (R23). -/
def sampleKind (busyCode code : Nat) : SampleKind :=
  if code = 127 then .blind else if busyCode ≤ code then .busy else .idle

end Sys2Proof.Machine
end

