-- ==== Sys2Proof/Machine/Flags.lean ====
section
/-! DEFINITION. What the state derives: guard levels (R4), the summaries and ALERT_N (R96), oven shaping (R97), what
the tracker publishes (R58 to R60), membership of airs (R102) and the GNT lines (R106, R116). -/

namespace Sys2Proof.Machine

/-! ## Guard levels -/

/-- A record is ACTIVE or EXTENDING. -/
def CondRecord.inForce (c : CondRecord) : Bool := c.state == .active || c.state == .extending

/-- A record's affected range covers a cell; a record without a range covers none (R4). -/
def CondRecord.covers (c : CondRecord) (k : Nat) : Bool :=
  match c.range with
  | none => false
  | some s => s.has k

/-- A BAR record that bars a cell in RUN: ACTIVE, EXTENDING or LATCHED (R4 step 1). -/
def CondRecord.bars (c : CondRecord) (k : Nat) : Bool :=
  c.config.reaction == .bar && (c.inForce || c.state == .latched) && c.covers k

/-- An AVOID record that avoids a cell in RUN: ACTIVE or EXTENDING (R4 step 2). -/
def CondRecord.avoids (c : CondRecord) (k : Nat) : Bool := c.config.reaction == .avoid && c.inForce && c.covers k

/-- The guard level of a cell (R4). -/
def guardLevel (env : Env) (m : Monitor) (k : Nat) : GuardLevel :=
  if env.retained.keepClear.has k then .barred
  else if env.mode = .run ∧ m.list.any (fun c => c.bars k) then .barred
  else if env.mode = .run ∧ m.list.any (fun c => c.avoids k) then .avoided
  else .clear

/-- The guard levels of cells 0 … 155. -/
def guardLevels (env : Env) (m : Monitor) : List GuardLevel := (List.range cellCount).map (guardLevel env m)

/-- A cell is AVOIDED or BARRED. -/
def guarded (env : Env) (m : Monitor) (k : Nat) : Bool := guardLevel env m k != .clear

/-- A level of strength: CLEAR below AVOIDED below BARRED (R4, R5). -/
def GuardLevel.strength : GuardLevel → Nat
  | .clear => 0
  | .avoided => 1
  | .barred => 2

/-- The cells of a radio's operating channel; none without one. -/
def operatingCells (b : Blocks) (r : Radio) : List Nat :=
  match (b.chans.get r).operating with
  | none => []
  | some c => c.cells

/-- Some cell of the radio's operating channel is BARRED. -/
def channelBarred (env : Env) (b : Blocks) (r : Radio) : Bool :=
  (operatingCells b r).any fun k => guardLevel env b.monitor k == .barred

/-- The cells of the radio's operating channel that are AVOIDED or BARRED. -/
def guardedCells (env : Env) (b : Blocks) (r : Radio) : List Nat :=
  (operatingCells b r).filter fun k => guarded env b.monitor k

/-! ## Summaries, ALERT_N, oven shaping -/

/-- A record counts toward its summary: ACTIVE, EXTENDING or unread (R96). -/
def CondRecord.counts (c : CondRecord) : Bool := c.inForce || c.unread

/-- The NOTICE summary (R96). -/
def notice (m : Monitor) : Bool := m.list.any fun c => c.config.reaction == .note && c.counts

/-- The FAULT summary (R96): reactions FLAG, SHAPE, AVOID and BAR. -/
def faultSummary (m : Monitor) : Bool := m.list.any fun c => c.config.reaction != .note && c.counts

/-- ALERT_N is driven low (R96). -/
def alertLow (env : Env) (m : Monitor) : Bool :=
  env.mode == .run && (faultSummary m || (notice m && env.retained.params.noticeAlerting == 1))

/-- Oven shaping as the condition monitor has it (R97). -/
def shapingHolds (env : Env) (m : Monitor) : Bool :=
  env.mode == .run && m.list.any fun c =>
    c.key == .oven && c.inForce
      && (c.config.reaction == .shape || c.config.reaction == .avoid || c.config.reaction == .bar)

/-! ## What the tracker publishes -/

/-- The oven watch span (R35). -/
def watchSpan (p : Params) : Span := ⟨p.watchBase, p.watchLimit⟩

/-- The footprint cells in ascending order: those in some span of the footprint list and in the oven watch span (R58). -/
def footprintCells (p : Params) (t : Tracker) : List Nat :=
  (watchSpan p).cells.filter fun k => t.footprint.any fun c => decide (c.start ≤ k) && decide (k < c.start + c.width)

/-- The footprint range, lowest footprint cell … highest footprint cell; absent when there is none (R58). -/
def footprintRange (p : Params) (t : Tracker) : Option Span :=
  match footprintCells p t with
  | [] => none
  | k :: ks => some ⟨k, (k :: ks).getLast?.getD k⟩

/-- The tracker is locked: TRACK or COAST (R59). -/
def Tracker.locked (t : Tracker) : Bool := t.phase == .track || t.phase == .coast

/-- Predicted on-window *k* (R60). -/
def onWindow (p : Params) (t : Tracker) (k : Nat) : Window :=
  let o := TrackTime.toPart (TrackTime.plus t.onset (Int.ofNat (k * t.period)))
  ⟨Time.minus o p.guardLead, Time.plus (Time.plus o t.onTime) p.guardTail⟩

/-- The published windows: four in TRACK and COAST, none in SEARCH and ACQUIRE (R60). -/
def onWindows (p : Params) (t : Tracker) : List Window :=
  if t.locked then (List.range 4).map (onWindow p t) else []

/-- The prediction that the tracker reports (R61). -/
def predictionOf (p : Params) (t : Tracker) : Prediction := ⟨t.phase, onWindows p t, footprintCells p t⟩

/-! ## Airs and GNT -/

/-- The air of a channel's band (R102). -/
def airOfChannel (r : Radio) (c : Channel) : AirId := if c.inBandL then .l else AirId.high r

/-- A radio is eligible for an air (R102). -/
def eligible (env : Env) (b : Blocks) (r : Radio) : Bool :=
  let c := b.chans.get r
  (b.links.get r).port == .up && env.mode == .run && c.operating.isSome && !c.clash && !c.isolated && !c.withdrawn

/-- The air a radio is a member of; none when it is not eligible (R102). -/
def airOf (env : Env) (b : Blocks) (r : Radio) : Option AirId :=
  if eligible env b r then (b.chans.get r).operating.map (airOfChannel r) else none

/-- The members of an air in ascending number (R102). -/
def members (env : Env) (b : Blocks) (a : AirId) : List Radio :=
  radios.filter fun r => airOf env b r == some a

/-- The air that holds a grant of the radio. -/
def grantAir (b : Blocks) (r : Radio) : Option AirId :=
  airIds.find? fun a => match (b.air a).grant with
    | none => false
    | some g => g.radio == r

/-- The radio's air grant. -/
def grantOf (b : Blocks) (r : Radio) : Option Grant := (grantAir b r).bind fun a => (b.air a).grant

/-- The air that holds a hold of the radio. -/
def holdAir (b : Blocks) (r : Radio) : Option AirId :=
  airIds.find? fun a => match (b.air a).hold with
    | none => false
    | some h => h.radio == r

/-- The level of a radio's GNT line: in SETUP high while REQ is asserted or a pass-through grant is live (R106), in
RUN high while the radio has an ACTIVE grant or a hold (R116). -/
def gnt (env : Env) (b : Blocks) (r : Radio) : Bool :=
  match env.mode with
  | .setup => (b.links.get r).req || !(b.sched.radios.get r).passThrough.isEmpty
  | .run =>
    (match grantOf b r with
      | none => false
      | some g => g.state == .active)
    || (holdAir b r).isSome

end Sys2Proof.Machine
end

