-- ==== Sys2Proof/Machine/Spectrum.lean ====
section
/-! DEFINITION. The spectrum map: the six holding operations of chapter 1 section 1.6 on the cell records. -/

namespace Sys2Proof.Machine

/-- The records from cell *k* on, each changed by a function of its cell number and record. -/
def mapCellsFrom (f : Nat → CellRecord → CellRecord) : Nat → List CellRecord → List CellRecord
  | _, [] => []
  | k, c :: cs => f k c :: mapCellsFrom f (k + 1) cs

/-- Every cell record changed by a function of its cell number and record. -/
def mapCells (f : Nat → CellRecord → CellRecord) (cells : List CellRecord) : List CellRecord := mapCellsFrom f 0 cells

/-- A cell lies in a channel. -/
def Channel.has (c : Channel) (k : Nat) : Bool := decide (c.start ≤ k) && decide (k < c.start + c.width)

/-- A cell is free, or held by *r* (R2). -/
def CellRecord.freeFor (c : CellRecord) (r : Radio) : Bool := c.holder == none || c.holder == some r

/-- The record of a cell that nobody holds: no holder, both marks clear, score and time kept (R1, R16). -/
def CellRecord.released (c : CellRecord) : CellRecord := { c with holder := none, current := false, target := false }

/-- Every cell of a channel satisfies a test of its number and record; false for a cell outside the map. -/
def channelAll (cells : List CellRecord) (ch : Channel) (p : Nat → CellRecord → Bool) : Bool :=
  ch.cells.all fun k => match cells[k]? with
    | none => false
    | some c => p k c

/-- Reserving a target (R13): none when some target cell is held by another radio. -/
def reserveTarget (r : Radio) (ch : Channel) (cells : List CellRecord) : Option (List CellRecord) :=
  if channelAll cells ch fun _ c => c.freeFor r then
    some (mapCells (fun k c => if ch.has k then { c with holder := some r, target := true } else c) cells)
  else none

/-- Promoting *r*'s target (R14). -/
def promoteTarget (r : Radio) (cells : List CellRecord) : List CellRecord :=
  mapCells (fun _ c =>
    if c.holder == some r then
      if c.target then { c with current := true, target := false } else c.released
    else c) cells

/-- Dropping *r*'s target (R15). -/
def dropTarget (r : Radio) (cells : List CellRecord) : List CellRecord :=
  mapCells (fun _ c =>
    if c.holder == some r && c.target then
      if c.current then { c with target := false } else c.released
    else c) cells

/-- Releasing all of *r*'s cells (R16). -/
def releaseAll (r : Radio) (cells : List CellRecord) : List CellRecord :=
  mapCells (fun _ c => if c.holder == some r then c.released else c) cells

/-- The acquisition test (R17): every cell free or held by *r*, inside *r*'s permitted span, outside the keep-clear span. -/
def acquisitionTest (env : Env) (r : Radio) (ch : Channel) (cells : List CellRecord) : Bool :=
  channelAll cells ch fun k c =>
    c.freeFor r && (env.retained.spans.get r).has k && !env.retained.keepClear.has k

/-- What a passed acquisition test does to the map (R17): every cell of the channel held by *r* with the current mark. -/
def acquire (r : Radio) (ch : Channel) (cells : List CellRecord) : List CellRecord :=
  mapCells (fun k c => if ch.has k then { c with holder := some r, current := true, target := false } else c) cells

/-- Some cell held before is free after (R18). -/
def freedAny (before after : List CellRecord) : Bool :=
  (before.zip after).any fun p => p.1.holder.isSome && p.2.holder.isNone

end Sys2Proof.Machine
end

