-- ==== Sys2Proof/Machine/Monitor.lean ====
section
/-! DEFINITION. The condition monitor: taking source reports and the life of a condition record (chapter 5). -/

namespace Sys2Proof.Machine

/-- The most records the condition list holds (R86). -/
def listLimit : Nat := 32

/-- The configuration a record of a key copies at entry: R85's for the configurable kinds, the fixed reaction and
times of R84 for the fixed kinds, whose scope is a free value (log 4). -/
def configFor (x : Reactions) (key : CondKey) : ReactionConfig :=
  match key with
  | .oven => x.oven
  | .crowd _ => x.crowd
  | .overrun _ => x.overrun
  | .link _ => ⟨.flag, Config.fixedKindScope .link, 0, 0⟩
  | .clash _ => ⟨.flag, Config.fixedKindScope .clash, 0, 0⟩
  | .lapse _ => ⟨.flag, Config.fixedKindScope .lapse, 0, 0⟩
  | .noChannel _ => ⟨.note, Config.fixedKindScope .noChannel, 0, 0⟩

/-- The affected range of a record (R91). -/
def affectedRange (key : CondKey) (scope : Scope) (last : Option Span) : Option Span :=
  match key with
  | .oven =>
    match scope with
    | .footprint => last
    | .channel => last.map fun s => ⟨s.base - 3, min 15 (s.limit + 3)⟩
    | .band => some ⟨0, 15⟩
  | .crowd k => some ⟨k, k⟩
  | .overrun _ | .link _ | .clash _ | .lapse _ | .noChannel _ => none

/-- The part time *ms* milliseconds after now. -/
def afterMillis (now : Time) (ms : Nat) : Time := Time.plus now (ms * 1000)

/-- A record's affected range computed afresh (R91). -/
def CondRecord.refresh (c : CondRecord) (last : Option Span) : CondRecord :=
  { c with range := affectedRange c.key c.config.scope last }

/-- A record enters ACTIVE (R90). -/
def CondRecord.enterActive (now : Time) (last : Option Span) (c : CondRecord) : CondRecord :=
  { c with
    state := .active
    changed := now
    unread := true
    occurrences := satAdd 255 c.occurrences 1
    timer := none
    range := affectedRange c.key c.config.scope last }

/-- A record enters PENDING with its filter timer set, or ACTIVE at once under a filter time of 0 (R88, R94). -/
def CondRecord.enterPending (now : Time) (last : Option Span) (c : CondRecord) : CondRecord :=
  let p := { c with state := .pending, changed := now, timer := some (afterMillis now c.config.filter) }
  let p := p.refresh last
  if c.config.filter = 0 then p.enterActive now last else p

/-- A new record of a key (R88). -/
def newRecord (env : Env) (last : Option Span) (key : CondKey) : CondRecord :=
  CondRecord.enterPending env.now last
    { key := key
      state := .pending
      config := configFor env.retained.reactions key
      range := none
      entered := env.now
      changed := env.now
      unread := false
      occurrences := 0
      timer := none }

/-- The extension timer's expiry (R92): the record is removed when it has been read, and else becomes RESOLVED. -/
def CondRecord.extensionEnds (now : Time) (c : CondRecord) : Option CondRecord :=
  if c.unread then some { c with state := .resolved, changed := now, timer := none } else none

/-- What a record does at a report of its source as present (R89, R90, R92, R93, R94). -/
def CondRecord.onPresent (now : Time) (last : Option Span) (c : CondRecord) : CondRecord :=
  match c.state with
  | .pending => c
  | .active => c.refresh last
  | .extending | .latched => c.enterActive now last
  | .resolved => c.enterPending now last

/-- What a record does at a report of its source as absent (R89, R90, R92, R93, R94); none removes it. -/
def CondRecord.onAbsent (now : Time) (c : CondRecord) : Option CondRecord :=
  match c.state with
  | .pending => none
  | .active =>
    if c.config.reaction = .bar then some { c with state := .latched, changed := now, unread := true, timer := none }
    else
      let x := { c with
        state := .extending, changed := now, timer := some (afterMillis now c.config.extension) }
      if c.config.extension = 0 then x.extensionEnds now else some x
  | .extending | .latched | .resolved => some c

/-- The list with the record of a key changed, or removed where the function answers none. -/
def updateKey (key : CondKey) (f : CondRecord → Option CondRecord) : List CondRecord → List CondRecord
  | [] => []
  | c :: cs =>
    if c.key = key then
      match f c with
      | none => cs
      | some d => d :: cs
    else c :: updateKey key f cs

/-- The list holds a record of a key. -/
def Monitor.holds (m : Monitor) (key : CondKey) : Bool := m.list.any fun c => c.key == key

/-- The record of a key. -/
def Monitor.find (m : Monitor) (key : CondKey) : Option CondRecord := m.list.find? fun c => c.key == key

/-- A report of a source as present (R88, and the record's own rule when the list holds one). -/
def Monitor.present (env : Env) (key : CondKey) (m : Monitor) : Monitor :=
  if m.holds key then
    { m with list := updateKey key (fun c => some (c.onPresent env.now m.lastRange)) m.list }
  else if m.list.length < listLimit then { m with list := m.list ++ [newRecord env m.lastRange key] }
  else { m with overflow := true }

/-- A report of a source as absent; nothing when the list holds no record of it (R88). -/
def Monitor.absent (env : Env) (key : CondKey) (m : Monitor) : Monitor :=
  { m with list := updateKey key (fun c => c.onAbsent env.now) m.list }

/-- A source report taken by the monitor (R87). -/
def Monitor.report (env : Env) (key : CondKey) (isPresent : Bool) (m : Monitor) : Monitor :=
  if isPresent then m.present env key else m.absent env key

/-- The OVEN report: the footprint range it carries is stored first (R87). -/
def Monitor.reportOven (env : Env) (isPresent : Bool) (range : Option Span) (m : Monitor) : Monitor :=
  Monitor.report env .oven isPresent { m with lastRange := range }

/-- The filter timer's expiry (R89). -/
def Monitor.filterExpires (env : Env) (key : CondKey) (m : Monitor) : Monitor :=
  let f := fun (c : CondRecord) =>
    if c.state = .pending ∧ Time.reached c.timer env.now then some (c.enterActive env.now m.lastRange) else some c
  { m with list := updateKey key f m.list }

/-- The extension timer's expiry (R92). -/
def Monitor.extensionExpires (env : Env) (key : CondKey) (m : Monitor) : Monitor :=
  let f := fun (c : CondRecord) =>
    if c.state = .extending ∧ Time.reached c.timer env.now then c.extensionEnds env.now else some c
  { m with list := updateKey key f m.list }

/-- The removal of the records about a radio at its WITHDRAW (R100). -/
def Monitor.forgetRadio (r : Radio) (m : Monitor) : Monitor :=
  { m with list := m.list.filter fun c => CondKey.radio c.key != some r }

/-- A source report of a radio kind: it changes no guard level and no shaping, so no other block hears of it. -/
def Blocks.report (b : Blocks) (env : Env) (key : CondKey) (isPresent : Bool) : Blocks :=
  { b with monitor := b.monitor.report env key isPresent }

end Sys2Proof.Machine
end

