-- ==== Sys2Proof/Machine/Scheduler.lean ====
section
/-! DEFINITION. The grant scheduler: the window finder, reviews, cuts, radio changes and mode changes (chapter 6). -/

namespace Sys2Proof.Machine

/-- The most waiting requests and the most posted requests of a radio (R107). -/
def waitLimitCount : Nat := 4
def postedLimitCount : Nat := 8

/-! ## Records -/

/-- A radio's air grant carries an id. -/
def ownsGrant (b : Blocks) (r : Radio) (id : Byte) : Bool :=
  match grantOf b r with
  | none => false
  | some g => g.id == id

/-- A request id is live for a radio (R103). -/
def idLive (b : Blocks) (r : Radio) (id : Byte) : Bool :=
  let x := b.sched.radios.get r
  x.waits.any (fun q => q.id == id) || x.posted.any (fun q => q.id == id) || x.passThrough.any (fun g => g.id == id)
    || ownsGrant b r id

/-- The last ended record set (R118). -/
def Blocks.setLastEnded (b : Blocks) (r : Radio) (id : Byte) (stop : Time) (manner : EndManner) : Blocks :=
  b.modSched r fun x => { x with lastEnded := some ⟨id, stop, manner⟩ }

/-- The posted queue without its head; the next request becomes head with attempt count 0 (R107). -/
def RadioSched.dropHead (x : RadioSched) : RadioSched := { x with posted := x.posted.tail, headAttempts := 0 }

/-- The wait list without the request of an id. -/
def RadioSched.dropWait (x : RadioSched) (id : Byte) : RadioSched :=
  { x with waits := x.waits.filter fun q => q.id != id }

/-- A request put in its place: by class, and behind the requests of its class (R107). -/
def insertByClass (q : Request) : List Request → List Request
  | [] => [q]
  | p :: ps =>
    if p.cls.rank < q.cls.rank ∨ (p.cls.rank = q.cls.rank ∧ p.seq ≤ q.seq) then p :: insertByClass q ps
    else q :: p :: ps

/-- Requests in order of class and, within a class, of arrival (R107, R112). -/
def sortByClass (qs : List Request) : List Request := qs.foldr insertByClass []

/-- A request put in its place by arrival. -/
def insertByArrival (q : Request) : List Request → List Request
  | [] => [q]
  | p :: ps => if p.seq ≤ q.seq then p :: insertByArrival q ps else q :: p :: ps

/-- Requests in order of arrival (R112). -/
def sortByArrival (qs : List Request) : List Request := qs.foldr insertByArrival []

/-! ## The window finder -/

/-- A finder's result: where a grant could go (R108, R109). -/
structure Placement where
  start : Time
  length : Nat
  shortened : Bool
deriving DecidableEq, Repr

/-- The end of a placement. -/
def Placement.stop (p : Placement) : Time := Time.plus p.start p.length

/-- Shaping applies to a radio (R108). -/
def shapingApplies (b : Blocks) (r : Radio) : Bool :=
  b.sched.shaping && !b.sched.prediction.windows.isEmpty
    && (operatingCells b r).any fun k => b.sched.prediction.cells.contains k

/-- The later of a time and an optional one. -/
def laterOpt (t : Time) : Option Time → Time
  | none => t
  | some u => Time.later t u

/-- The time at which the finder begins (R108). -/
def finderStart (now : Time) (air : Air) (earliest : Time) : Time :=
  let t := Time.later now earliest
  let t := laterOpt t (air.grant.map fun g => g.stop)
  laterOpt t (air.hold.map fun h => h.stop)

/-- Some gap between consecutive windows is present and at least *need* (R109). -/
def gapFits (need : Nat) : List Window → Bool
  | w :: v :: ws =>
    let g := Time.diff v.start w.stop
    (decide (0 < g) && decide ((need : Int) ≤ g)) || gapFits need (v :: ws)
  | _ => false

/-- The walk over the windows from a time *t* (R109, steps 1 to 3). -/
def walkWindows (minGrant length : Nat) (shortenable : Bool) : List Window → Time → Placement
  | [], t => ⟨t, length, false⟩
  | w :: ws, t =>
    if Time.atOrAfter t w.stop then walkWindows minGrant length shortenable ws t
    else if Time.atOrAfter t w.start then walkWindows minGrant length shortenable ws w.stop
    else
      let g := Time.span w.start t
      if length ≤ g then ⟨t, length, false⟩
      else if shortenable && decide (minGrant ≤ g) then ⟨t, g, true⟩
      else walkWindows minGrant length shortenable ws w.stop

/-- The window finder for a candidate on an air (R108, R109); none when the candidate is unplaceable. -/
def findWindow (env : Env) (b : Blocks) (air : Air) (q : Request) : Option Placement :=
  let t0 := finderStart env.now air q.earliest
  let minGrant := env.retained.params.minGrant
  if shapingApplies b q.radio then
    let ws := b.sched.prediction.windows
    let need := if q.shortenable then min q.length minGrant else q.length
    if gapFits need ws then some (walkWindows minGrant q.length q.shortenable ws t0) else none
  else some ⟨t0, q.length, false⟩

/-! ## Reviews -/

/-- What a review gathers as it goes: the blocks, the starts of the candidates passed over (the backfill limit of
R112) and the starts of the too-early ones (R113). -/
structure Review where
  blocks : Blocks
  passed : List Time
  early : List Time

/-- The placement's start is at or before now + start lead (R110). -/
def withinLead (env : Env) (p : Placement) : Bool :=
  Time.atOrBefore p.start (Time.plus env.now env.retained.params.startLead)

/-- The air holds no grant and the placement ends no later than every start passed over (R112). -/
def Review.admits (v : Review) (a : AirId) (p : Placement) : Bool :=
  (v.blocks.air a).grant.isNone && v.passed.all fun t => Time.atOrBefore p.stop t

/-- A candidate is placed: the grant enters the air and GRANT is sent (R112). -/
def enterGrant (env : Env) (a : AirId) (q : Request) (p : Placement) (b : Blocks) : Blocks :=
  let g : Grant :=
    { radio := q.radio
      id := q.id
      start := p.start
      stop := p.stop
      shortenable := q.shortenable
      shortened := p.shortened
      exposed := false
      state := if p.start = env.now then .active else .scheduled }
  (b.modAir a fun x => { x with grant := some g }).sendGrant q.radio q.id p.start p.length p.shortened

/-- A waiting request taken in a review (R110, R112): none is placed, nor leaves, while a cell of its radio's channel is
BARRED. -/
def reviewWaiting (env : Env) (a : AirId) (v : Review) (q : Request) : Review :=
  let leave := v.blocks.modSched q.radio fun x => x.dropWait q.id
  if channelBarred env v.blocks q.radio then v
  else
    match findWindow env v.blocks (v.blocks.air a) q with
    | none => { v with blocks := leave.sendRetry q.radio q.id .window 0 }
    | some p =>
      if Time.after p.start q.latest then { v with blocks := leave.sendRetry q.radio q.id .window p.start }
      else if withinLead env p then
        if v.admits a p then { v with blocks := enterGrant env a q p leave }
        else { v with passed := v.passed ++ [p.start] }
      else { v with passed := v.passed ++ [p.start], early := v.early ++ [p.start] }

/-- A posted head considered and not placed gains an attempt, and is dropped with EXPIRED at the post limit (R115). -/
def attemptHead (env : Env) (q : Request) (b : Blocks) : Blocks :=
  let n := satAdd 255 (b.sched.radios.get q.radio).headAttempts 1
  if env.retained.params.postLimit ≤ n then (b.modSched q.radio RadioSched.dropHead).sendExpired q.radio q.id
  else b.modSched q.radio fun x => { x with headAttempts := n }

/-- A posted head is skipped: its radio has a pending directive or a BARRED cell in its channel (R112). -/
def skipsHead (env : Env) (b : Blocks) (r : Radio) : Bool := (b.chans.get r).directive.isSome || channelBarred env b r

/-- A posted head taken in a review (R110, R112, R115). -/
def reviewHead (env : Env) (a : AirId) (v : Review) (q : Request) : Review :=
  if skipsHead env v.blocks q.radio || (v.blocks.air a).grant.isSome then v
  else
    match findWindow env v.blocks (v.blocks.air a) q with
    | none => { v with blocks := attemptHead env q v.blocks }
    | some p =>
      if withinLead env p then
        if v.admits a p then
          { v with blocks := enterGrant env a q p (v.blocks.modSched q.radio RadioSched.dropHead) }
        else { v with blocks := attemptHead env q v.blocks, passed := v.passed ++ [p.start] }
      else
        { blocks := attemptHead env q v.blocks, passed := v.passed ++ [p.start], early := v.early ++ [p.start] }

/-- The waiting candidates of an air, merged across its members (R112). -/
def waitingCandidates (env : Env) (b : Blocks) (a : AirId) : List Request :=
  sortByClass ((members env b a).flatMap fun r => (b.sched.radios.get r).waits)

/-- The posted heads of an air's members, in order of arrival (R112). -/
def headCandidates (env : Env) (b : Blocks) (a : AirId) : List Request :=
  sortByArrival ((members env b a).flatMap fun r => (b.sched.radios.get r).posted.take 1)

/-- The earliest of some times; none of none. -/
def earliestOf : List Time → Option Time
  | [] => none
  | t :: ts =>
    match earliestOf ts with
    | none => some t
    | some u => some (Time.earlier t u)

/-- A review of an air (R112, R113). -/
def reviewAir (env : Env) (a : AirId) (b : Blocks) : Blocks :=
  let b := b.modAir a fun x => { x with review := none }
  let v := (waitingCandidates env b a).foldl (reviewWaiting env a) ⟨b, [], []⟩
  let v := (headCandidates env b a).foldl (reviewHead env a) v
  if (v.blocks.air a).grant.isNone then
    v.blocks.modAir a fun x =>
      { x with review := (earliestOf v.early).map fun t => Time.minus t env.retained.params.startLead }
  else v.blocks

/-- A review of each air that a test picks, in the order air L, H0, H1, H2 (R111). -/
def reviewAirs (env : Env) (p : AirId → Bool) (b : Blocks) : Blocks :=
  (airIds.filter p).foldl (fun b a => reviewAir env a b) b

/-! ## Cuts and ends -/

/-- What happens to the grant of a radio or an air: it ends with no message, or is cut to now (withdrawn when
SCHEDULED) with CUT (R120, R122). -/
inductive GrantEnd where
  | silent
  | cut
deriving DecidableEq, Repr

/-- An air's grant cut to now when ACTIVE and withdrawn when SCHEDULED, with CUT and the last ended record (R118, R120;
log 9: a withdrawn grant's end is its start). -/
def cutGrant (env : Env) (a : AirId) (b : Blocks) : Blocks :=
  match (b.air a).grant with
  | none => b
  | some g =>
    let newEnd := if g.state = .active then env.now else g.start
    ((b.modAir a fun x => { x with grant := none }).send g.radio (.cut g.id newEnd)).setLastEnded g.radio g.id newEnd .cut

/-- An air's grant ended with no message and no last ended record (R118, R122). -/
def dropGrant (a : AirId) (b : Blocks) : Blocks := b.modAir a fun x => { x with grant := none }

/-- A radio's air grant ended in one of the two ways, if it has one. -/
def endGrantOf (env : Env) (r : Radio) (how : GrantEnd) (b : Blocks) : Blocks :=
  match grantAir b r with
  | none => b
  | some a =>
    match how with
    | .silent => dropGrant a b
    | .cut => cutGrant env a b

/-- A radio's hold ended, if it has one (R125). -/
def endHoldOf (r : Radio) (b : Blocks) : Blocks :=
  match holdAir b r with
  | none => b
  | some a => b.modAir a fun x => { x with hold := none }

/-- The cut of one air's grant by the first window that its remainder meets (R120). -/
def shapeGrant (env : Env) (b : Blocks) (a : AirId) : Blocks :=
  match (b.air a).grant with
  | none => b
  | some g =>
    if shapingApplies b g.radio then
      let t := Time.later env.now g.start
      match b.sched.prediction.windows.find? (fun w => Time.meets t g.stop w.start w.stop) with
      | none => b
      | some w =>
        if g.shortenable then
          if (env.retained.params.minGrant : Int) ≤ Time.diff w.start t then
            (b.modAir a fun x => { x with grant := some { g with stop := w.start } }).send g.radio (.cut g.id w.start)
          else cutGrant env a b
        else if g.exposed then b
        else
          (b.modAir a fun x => { x with grant := some { g with exposed := true } }).count g.radio
            LinkCounters.exposedGrant
    else b

/-- What follows a prediction change or a shaping change once its value is stored: the cuts, then the review of every
air (R111, R120). -/
def applyShaping (env : Env) (b : Blocks) : Blocks := reviewAirs env (fun _ => true) (airIds.foldl (shapeGrant env) b)

/-- A prediction change report taken (R61, R120). -/
def takePrediction (env : Env) (p : Prediction) (b : Blocks) : Blocks :=
  applyShaping env { b with sched := { b.sched with prediction := p } }

/-- A shaping change report taken (R97, R120). -/
def takeShaping (env : Env) (on : Bool) (b : Blocks) : Blocks :=
  applyShaping env { b with sched := { b.sched with shaping := on } }

/-! ## Radio changes -/

/-- The answer that a radio's state alone gives a request: the rows of R105 from "withdrawn flag set" to "a directive
pending". -/
inductive GateAnswer where
  | refuse (cause : RefuseCause)
  | retryMoving
deriving DecidableEq, Repr

/-- The first of those rows that applies to a radio (R105, R122). -/
def gate (env : Env) (b : Blocks) (r : Radio) : Option GateAnswer :=
  let c := b.chans.get r
  if c.withdrawn then some (.refuse .withdrawn)
  else if c.operating.isNone then some (.refuse .noChannel)
  else if c.clash then some (.refuse .clash)
  else if c.isolated then some (.refuse .isolated)
  else if channelBarred env b r then some (.refuse .barred)
  else if c.directive.isSome then some .retryMoving
  else none

/-- A request answered by a row of R105. -/
def answerGate (b : Blocks) (r : Radio) (id : Byte) : GateAnswer → Blocks
  | .refuse cause => b.sendRefuse r id cause
  | .retryMoving => b.sendRetry r id .moving 0

/-- Every waiting request of a radio answered by one row, in wait list order, and the wait list emptied. -/
def answerWaits (b : Blocks) (r : Radio) (x : GateAnswer) : Blocks :=
  let waits := (b.sched.radios.get r).waits
  waits.foldl (fun b q => answerGate b r q.id x) (b.modSched r fun y => { y with waits := [] })

/-- A radio's waiting requests tested again (R122). -/
def retestWaits (env : Env) (b : Blocks) (r : Radio) : Blocks :=
  match gate env b r with
  | none => b
  | some x => answerWaits b r x

/-- The airs that hold a grant or a hold of a radio. -/
def heldAirs (b : Blocks) (r : Radio) : List AirId := (grantAir b r).toList ++ (holdAir b r).toList

/-- The waiting requests of some radios tested again, in the order given, and then one review of each of some airs and of
the airs those radios are in now (R111, R122). -/
def retestAndReview (env : Env) (airs : List AirId) (rs : List Radio) (b : Blocks) : Blocks :=
  let b := rs.foldl (retestWaits env) b
  let reached := airs ++ rs.flatMap fun r => (airOf env b r).toList
  reviewAirs env reached.contains b

/-- The scheduler's part of a change of a radio's channel state, with that of the radios that clash resolution gave their
cells in the same event (R122, R142): the effect on the radio's grant and hold, the test of the waiting requests, and then
one review of the old air, the new airs and any air that lost a grant or a hold (R111; log 21). -/
def radioChange (env : Env) (r : Radio) (how : Option GrantEnd) (oldAir : Option AirId) (gained : List Radio)
    (b : Blocks) : Blocks :=
  let lost := match how with
    | none => []
    | some _ => heldAirs b r
  let b := match how with
    | none => b
    | some h => endHoldOf r (endGrantOf env r h b)
  retestAndReview env (oldAir.toList ++ lost) (r :: gained) b

/-- The end of a radio's session, at a link loss and at a restart (R123): grant, hold and pass-through grants end with no
message, its requests are dropped without answers, its last ended record becomes absent. The review of its air follows the
controller's part of the event (log 21). -/
def endSession (env : Env) (r : Radio) (b : Blocks) : Blocks :=
  (endHoldOf r (endGrantOf env r .silent b)).modSched r fun x =>
    { x with waits := [], posted := [], headAttempts := 0, passThrough := [], lastEnded := none }

/-- A radio's pass-through grants cut to now, each with CUT and the last ended record (R118, R123, R127). DESIGN CHOICE
(log 33): R103 calls them a set and gives no order; they are cut in the order they were entered, so the latest stays on
record. -/
def cutPassThrough (env : Env) (r : Radio) (b : Blocks) : Blocks :=
  let gs := (b.sched.radios.get r).passThrough
  gs.foldl (fun b g => (b.send r (.cut g.id env.now)).setLastEnded r g.id env.now .cut)
    (b.modSched r fun x => { x with passThrough := [] })

/-- The scheduler's part of a WITHDRAW (R119, R123): the grants cut, the hold ended, the requests answered, and the late
count and overrun source cleared. -/
def withdrawSched (env : Env) (r : Radio) (b : Blocks) : Blocks :=
  let b := endGrantOf env r .cut b
  let b := cutPassThrough env r b
  let b := endHoldOf r b
  let b := answerWaits b r (.refuse .withdrawn)
  let posted := (b.sched.radios.get r).posted
  posted.foldl (fun b q => b.sendExpired r q.id)
    (b.modSched r fun x => { x with posted := [], headAttempts := 0, lateCount := 0, overrun := false })

/-- The scheduler's part of a guard change report (R111, R121): in RUN it cuts the grant and the hold of each radio with a
BARRED cell in its channel and refuses its waiting requests; then it reviews those airs and the air of each member
radio whose channel the report names. -/
def takeGuardChange (env : Env) (changed : List Nat) (b : Blocks) : Blocks :=
  if env.mode = .run then
    let hit := radios.filter fun r => channelBarred env b r
    let lost := hit.flatMap (heldAirs b)
    let act := fun (b : Blocks) (r : Radio) => answerWaits (endHoldOf r (endGrantOf env r .cut b)) r (.refuse .barred)
    let b := hit.foldl act b
    let named := radios.filter fun r => (operatingCells b r).any fun k => changed.contains k
    let airs := lost ++ named.flatMap fun r => (airOf env b r).toList
    reviewAirs env (fun a => airs.contains a) b
  else b

/-! ## Requests -/

/-- A pass-through GRANT: start now, its end now + L′, entered in the radio's set (R106). -/
def passThrough (env : Env) (r : Radio) (id : Byte) (length : Nat) (shortenable : Bool) (b : Blocks) : Blocks :=
  let g : Grant :=
    { radio := r
      id := id
      start := env.now
      stop := Time.plus env.now length
      shortenable := shortenable
      shortened := false
      exposed := false
      state := .active }
  (b.modSched r fun x => { x with passThrough := x.passThrough ++ [g] }).sendGrant r id env.now length false

/-- The class cap of a class, in units of 128 µs (R128). -/
def classCap (p : Params) : ReqClass → Nat
  | .beacon => p.beaconCap
  | .mgmt => p.mgmtCap
  | .data => p.dataCap
  | .bulk => p.bulkCap

/-- The clamped and capped length L′ (R104). -/
def cappedLength (p : Params) (c : ReqClass) (length : Nat) : Nat :=
  let l := min length 16384
  if classCap p c = 0 then l else min l (classCap p c * 128)

/-- The first failing check of a request's form (R104); none when it passes. -/
def formFault (env : Env) (b : Blocks) (r : Radio) (q : WindowAsk) : Option RefuseCause :=
  if (classOf q.cls).isNone then some .badRequest
  else if q.length = 0 then some .badRequest
  else if Time.before q.latest q.earliest then some .badRequest
  else if idLive b r q.id then some .badRequest
  else if Time.before q.latest env.now then some .deadline
  else none

/-- The request record of a request that passed R104 (R103, R104): BEACON and MGMT are not shortenable, only BULK may be
posted. -/
def requestOf (env : Env) (b : Blocks) (r : Radio) (q : WindowAsk) (c : ReqClass) : Request :=
  { radio := r
    id := q.id
    cls := c
    length := cappedLength env.retained.params c q.length.toNat
    earliest := q.earliest
    latest := q.latest
    shortenable := q.flags.getLsbD 0 && (c == .data || c == .bulk)
    posted := q.flags.getLsbD 1 && c == .bulk
    seq := b.sched.arrivals
    waitExpiry := none }

/-- The next arrival sequence number taken (R105). -/
def Blocks.takeSeq (b : Blocks) : Blocks := { b with sched := { b.sched with arrivals := b.sched.arrivals + 1 } }

/-- A request joins the back of the posted queue and is answered POSTED; it becomes the head of an empty queue with
attempt count 0 (R105, R107). -/
def joinPosted (r : Radio) (q : Request) (b : Blocks) : Blocks :=
  let join := fun (x : RadioSched) =>
    { x with
      posted := x.posted ++ [q]
      headAttempts := if x.posted.isEmpty then 0 else x.headAttempts }
  (b.takeSeq.modSched r join).send r (.posted q.id)

/-- A request joins the wait list, and the radio's air is reviewed (R105). -/
def joinWaits (env : Env) (r : Radio) (q : Request) (b : Blocks) : Blocks :=
  let limit := env.retained.params.waitLimit
  let q := { q with waitExpiry := if limit = 0 then none else some (Time.plus env.now (limit * 64)) }
  let b := b.takeSeq.modSched r fun x => { x with waits := insertByClass q x.waits }
  reviewAirs env (fun a => airOf env b r == some a) b

/-- A request that passed R104, in RUN (R105). -/
def requestInRun (env : Env) (r : Radio) (q : Request) (b : Blocks) : Blocks :=
  match gate env b r with
  | some x => answerGate b r q.id x
  | none =>
    let x := b.sched.radios.get r
    if q.posted then
      if postedLimitCount ≤ x.posted.length then b.sendRetry r q.id .full 0 else joinPosted r q b
    else if waitLimitCount ≤ x.waits.length then b.sendRetry r q.id .full 0
    else joinWaits env r q b

/-- A WINDOW REQUEST taken by the scheduler (R104, R105, R106). -/
def takeRequest (env : Env) (r : Radio) (ask : WindowAsk) (b : Blocks) : Blocks :=
  match formFault env b r ask, classOf ask.cls with
  | some cause, _ => b.sendRefuse r ask.id cause
  | none, none => b.sendRefuse r ask.id .badRequest
  | none, some c =>
    let q := requestOf env b r ask c
    match env.mode with
    | .setup => passThrough env r q.id q.length q.shortenable b
    | .run => requestInRun env r q b

/-! ## Releases and the overrun source -/

/-- A late release (R118, R119): counted, and the overrun source becomes present and is reported when the count reaches
the overrun limit. -/
def lateRelease (env : Env) (r : Radio) (b : Blocks) : Blocks :=
  let b := b.count r LinkCounters.lateRelease
  let n := satAdd 255 (b.sched.radios.get r).lateCount 1
  let b := b.modSched r fun x => { x with lateCount := n }
  if env.retained.params.overrunLimit ≤ n ∧ (b.sched.radios.get r).overrun = false then
    (b.modSched r fun x => { x with overrun := true }).report env (.overrun r) true
  else b

/-- A RELEASE whose id is not live, judged against the last ended record (R118). -/
def deadRelease (env : Env) (r : Radio) (id : Byte) (b : Blocks) : Blocks :=
  match (b.sched.radios.get r).lastEnded with
  | none => b.count r LinkCounters.strayRelease
  | some e =>
    if e.id = id then
      let b := b.modSched r fun x => { x with lastEnded := none }
      if e.manner = .expiry ∧ Time.after env.now (Time.plus e.stop env.retained.params.lateMargin) then
        lateRelease env r b
      else b
    else b.count r LinkCounters.strayRelease

/-- A RELEASE taken by the scheduler (R117). -/
def takeRelease (env : Env) (r : Radio) (id : Byte) (b : Blocks) : Blocks :=
  let x := b.sched.radios.get r
  let mine := fun (a : AirId) => airOf env b r == some a
  if ownsGrant b r id then
    let a := grantAir b r
    let b := (endGrantOf env r .silent b).setLastEnded r id env.now .expiry
    reviewAirs env (fun k => a == some k) b
  else if x.passThrough.any (fun g => g.id == id) then
    b.modSched r fun x => { x with passThrough := x.passThrough.filter fun g => g.id != id }
  else if x.waits.any (fun q => q.id == id) then
    reviewAirs env mine (b.modSched r fun x => x.dropWait id)
  else if x.posted.any (fun q => q.id == id) then
    let isHead := (x.posted.head?.map fun q => q.id == id).getD false
    let drop := fun (x : RadioSched) =>
      { x with
        posted := x.posted.filter fun q => q.id != id
        headAttempts := if isHead then 0 else x.headAttempts }
    reviewAirs env mine (b.modSched r drop)
  else deadRelease env r id b

/-- The scheduler's part of a survey completion of a radio's lane (R38, R119). -/
def surveyDone (env : Env) (r : Radio) (b : Blocks) : Blocks :=
  let b := b.modSched r fun x =>
    { x with overrun := if x.lateCount < env.retained.params.overrunLimit then false else x.overrun }
  let b := b.report env (.overrun r) (b.sched.radios.get r).overrun
  b.modSched r fun x => { x with lateCount := 0 }

/-! ## The immediate path -/

/-- The conditions under which an assertion of REQ in RUN is given an immediate hold, with its air (R124). -/
def holdAllowed (env : Env) (b : Blocks) (r : Radio) : Option AirId :=
  let stop := Time.plus env.now env.retained.params.immediateMax
  match airOf env b r with
  | none => none
  | some a =>
    let x := b.air a
    let grantClear := match x.grant with
      | none => true
      | some g => !Time.meets g.start g.stop env.now stop
    let windowClear := !shapingApplies b r
      || b.sched.prediction.windows.all fun w => !Time.meets w.start w.stop env.now stop
    if !channelBarred env b r && x.hold.isNone && grantClear && windowClear then some a else none

/-- An assertion of REQ in RUN (R124). -/
def assertInRun (env : Env) (r : Radio) (b : Blocks) : Blocks :=
  match holdAllowed env b r with
  | some a =>
    let h : Hold := ⟨r, env.now, Time.plus env.now env.retained.params.immediateMax⟩
    (b.modAir a fun x => { x with hold := some h }).count r LinkCounters.immediateGrant
  | none => b.count r LinkCounters.immediateDenial

/-- A radio's hold ended and its air reviewed (R125); nothing when it has none. -/
def finishHold (env : Env) (r : Radio) (b : Blocks) : Blocks :=
  match holdAir b r with
  | none => b
  | some a => reviewAir env a (endHoldOf r b)

/-! ## Mode changes -/

/-- One air at the entry to SETUP (R126): its hold ends, an ACTIVE grant becomes a pass-through grant with the same end, a
SCHEDULED grant is withdrawn with CUT, its review timer is cancelled. -/
def airToSetup (env : Env) (b : Blocks) (a : AirId) : Blocks :=
  let b := b.modAir a fun x => { x with hold := none, review := none }
  match (b.air a).grant with
  | none => b
  | some g =>
    if g.state = .active then
      (dropGrant a b).modSched g.radio fun x => { x with passThrough := x.passThrough ++ [g] }
    else cutGrant env a b

/-- One radio's requests at the entry to SETUP, waiting and then posted, answered with pass-through GRANTs (R126). -/
def requestsToSetup (env : Env) (b : Blocks) (r : Radio) : Blocks :=
  let x := b.sched.radios.get r
  (x.waits ++ x.posted).foldl (fun b q => passThrough env r q.id q.length q.shortenable b)
    (b.modSched r fun x => { x with waits := [], posted := [], headAttempts := 0 })

/-- The scheduler's part of the entry to SETUP (R126). -/
def schedToSetup (env : Env) (b : Blocks) : Blocks :=
  radios.foldl (requestsToSetup env) (airIds.foldl (airToSetup env) b)

/-- The scheduler's part of the entry to RUN (R127): every pass-through grant ends with CUT, and each radio joins its air,
which is reviewed (R111). -/
def schedToRun (env : Env) (b : Blocks) : Blocks :=
  reviewAirs env (fun _ => true) (radios.foldl (fun b r => cutPassThrough env r b) b)

end Sys2Proof.Machine
end

