-- ==== Sys2Proof/Machine/Lane.lean ====
section
/-! DEFINITION. The energy lane: one sample's effect on the burst machine, closing and classing a burst, the survey
counts, the lane restart (chapter 2). -/

namespace Sys2Proof.Machine

/-- The class of a burst (R33). -/
inductive BurstClass where
  | glitch
  | frame
  | ovenLike
  | long
deriving DecidableEq, Repr

/-- A burst that has closed (R30, R31). -/
structure ClosedBurst where
  start : Time
  duration : Nat
  span : Channel
  cls : BurstClass
  truncated : Bool
deriving DecidableEq, Repr

/-- The class of a duration (R33). -/
def burstClass (p : Params) (d : Nat) : BurstClass :=
  if d < 200 then .glitch
  else if d < p.ovenMin then .frame
  else if d ≤ p.ovenMax then .ovenLike
  else .long

/-- The class counted, and the truncated counter for a truncated burst (R31, R33). -/
def ClassCounters.closed (c : ClassCounters) (cls : BurstClass) (truncated : Bool) : ClassCounters :=
  let c := match cls with
    | .glitch => { c with glitch := bump c.glitch }
    | .frame => { c with frame := bump c.frame }
    | .ovenLike => { c with ovenLike := bump c.ovenLike }
    | .long => { c with long := bump c.long }
  if truncated then { c with truncated := bump c.truncated } else c

/-- QUIET with an empty pair history and both runs at 0 (R27, R30, R31). -/
def Lane.quiet (l : Lane) : Lane := { l with burst := none, history := [], idleRun := 0, blindRun := 0 }

/-- The closing of an open burst: its end is last busy + 50, its duration end − start (R30, R31). -/
def closeBurst (p : Params) (truncated : Bool) (o : OpenBurst) (l : Lane) : Lane × ClosedBurst :=
  let d := Time.span (Time.plus o.lastBusy 50) o.start
  let cls := burstClass p d
  ({ l.quiet with counters := l.counters.closed cls truncated }, ⟨o.start, d, o.span, cls, truncated⟩)

/-- An entry appended to the pair history; a sixth pushes out the oldest (R20). -/
def pushHistory (h : List HistEntry) (e : HistEntry) : List HistEntry :=
  if h.length < 5 then h ++ [e] else h.tail ++ [e]

/-- A sample taken in QUIET (R28). -/
def Lane.feedQuiet (chan : Channel) (t : Time) (k : SampleKind) (l : Lane) : Lane :=
  match k with
  | .blind => l
  | .idle => { l with history := pushHistory l.history ⟨false, t⟩ }
  | .busy =>
    match l.history.find? (fun e => e.busy) with
    | none => { l with history := pushHistory l.history ⟨true, t⟩ }
    | some e => { l with burst := some ⟨e.time, chan, t⟩, history := [], idleRun := 0, blindRun := 0 }

/-- A sample's effect on the runs of an open burst (R29, the table). -/
def Lane.followBurst (t : Time) (k : SampleKind) (o : OpenBurst) (l : Lane) : Lane × OpenBurst :=
  match k with
  | .busy => let o := { o with lastBusy := t }; ({ l with burst := some o, idleRun := 0, blindRun := 0 }, o)
  | .idle => ({ l with idleRun := l.idleRun + 1, blindRun := 0 }, o)
  | .blind => ({ l with blindRun := l.blindRun + 1 }, o)

/-- A sample taken in OPEN, and the tests for closure in their order (R29). -/
def Lane.feedOpen (p : Params) (t : Time) (k : SampleKind) (o : OpenBurst) (l : Lane) : Lane × Option ClosedBurst :=
  let (l, o) := l.followBurst t k o
  if l.idleRun = 10 then let (l, c) := closeBurst p false o l; (l, some c)
  else if l.blindRun = 40 then let (l, c) := closeBurst p true o l; (l, some c)
  else if Time.atOrBefore (Time.plus o.start (2 ^ 30)) t then let (l, c) := closeBurst p true o l; (l, some c)
  else (l, none)

/-- One sample's effect on the burst machine (R28, R29). -/
def Lane.feed (p : Params) (chan : Channel) (t : Time) (k : SampleKind) (l : Lane) : Lane × Option ClosedBurst :=
  match l.burst with
  | none => (l.feedQuiet chan t k, none)
  | some o => l.feedOpen p t k o

/-- An open burst closed as truncated, and the lane left QUIET with an empty history either way (R26, R27). -/
def Lane.truncate (p : Params) (l : Lane) : Lane :=
  match l.burst with
  | none => l.quiet
  | some o => (closeBurst p true o l).1

/-- A received sample counted in the open survey (R36). -/
def SurveyCounts.add (s : SurveyCounts) (k : SampleKind) : SurveyCounts :=
  match k with
  | .busy => { s with busy := s.busy + 1 }
  | .idle => { s with idle := s.idle + 1 }
  | .blind => { s with blind := s.blind + 1 }

/-- The samples a survey has counted (R38). -/
def SurveyCounts.total (s : SurveyCounts) : Nat := s.busy + s.idle + s.blind

/-- An empty survey. -/
def SurveyCounts.zero : SurveyCounts := ⟨0, 0, 0, 0⟩

/-- The lane record after a restart (R21): an open burst is discarded and counted (R32), the class counters are kept. -/
def Lane.restart (l : Lane) : Lane :=
  { Lane.reset with
    counters := if l.burst.isSome then { l.counters with discarded := bump l.counters.discarded } else l.counters }

/-- A lane restart: the lane record (R21, R32, R39), and the scheduler's new late-release count (R39, R119). -/
def restartLane (r : Radio) (b : Blocks) : Blocks :=
  (b.modLane r Lane.restart).modSched r fun x => { x with lateCount := 0 }

/-- The lane restarts when the operating channel after an event differs from the one before (R21). -/
def restartIfMoved (r : Radio) (before : Option Channel) (b : Blocks) : Blocks :=
  if (b.chans.get r).operating = before then b else restartLane r b

/-- The lane takes batches: the port is UP, the radio has an operating channel and is not withdrawn (R21, R37). -/
def laneTakes (b : Blocks) (r : Radio) : Bool :=
  (b.links.get r).port == .up && (b.chans.get r).operating.isSome && !(b.chans.get r).withdrawn

end Sys2Proof.Machine
end

