-- ==== Sys2Proof/Machine/Costs.lean ====
section
/-! DEFINITION. Plan costs: availability, cost and current cost (R79 to R81), and the choice of an entry (R133). -/

namespace Sys2Proof.Machine

/-- Why a plan entry is UNAVAILABLE to a radio, in the order of the tests (R79). -/
inductive Unavailable where
  | mask
  | band
  | width
  | declined
  | span
  | barred
  | avoided
  | held
deriving DecidableEq, Repr

/-- The capability rules out an entry's band: none recorded, or the band is not in it (R79 test 2). -/
def bandRefused (k : Option Capability) (c : Channel) : Bool :=
  match k with
  | none => true
  | some x => !BandSet.includes x.bands c

/-- The entry's width exceeds the recorded maximum width (R79 test 3). -/
def widthRefused (k : Option Capability) (c : Channel) : Bool :=
  match k with
  | none => false
  | some x => decide (MaxWidth.cells x.width < c.width)

/-- The entry is the radio's declined entry and its hold has not expired (R79 test 4). -/
def declinedNow (now : Time) (d : Option Declined) (id : Nat) : Bool :=
  match d with
  | none => false
  | some x => x.entry == id && Time.before now x.expiry

/-- The reason for which a present plan entry is UNAVAILABLE to a radio; none when it is available (R79). -/
def unavailable (env : Env) (b : Blocks) (r : Radio) (e : PlanEntry) : Option Unavailable :=
  let cells := e.chan.cells
  let capability := (b.links.get r).capability
  if !e.mask.getLsbD (Radio.number r) then some .mask
  else if bandRefused capability e.chan then some .band
  else if widthRefused capability e.chan then some .width
  else if declinedNow env.now (b.chans.get r).declined e.id then some .declined
  else if cells.any fun k => !(env.retained.spans.get r).has k then some .span
  else if cells.any fun k => guardLevel env b.monitor k == .barred then some .barred
  else if cells.any fun k => guardLevel env b.monitor k == .avoided then some .avoided
  else if !channelAll b.cells e.chan fun _ c => c.freeFor r then some .held
  else none

/-- The oven cells of a channel (R80): its footprint cells while the OVEN record is ACTIVE or EXTENDING. -/
def ovenCells (env : Env) (b : Blocks) (c : Channel) : Nat :=
  if b.monitor.list.any fun x => x.key == .oven && x.inForce then
    ((footprintCells env.retained.params b.tracker).filter c.has).length
  else 0

/-- The near count of a channel (R80). -/
def nearCount (env : Env) (b : Blocks) (c : Channel) : Nat :=
  (b.survey.table.filter fun n =>
    n.tag.isNone && decide (env.retained.params.nearCode ≤ n.strongest) && n.span.meets c).length

/-- The sum of the scores of a channel's cells. -/
def scoreSum (b : Blocks) (c : Channel) : Nat :=
  (c.cells.map fun k => ((b.cells[k]?).map fun x => x.score).getD 0).sum

/-- The cost of a channel by the formula of R80. -/
def channelCost (env : Env) (b : Blocks) (c : Channel) : Nat :=
  4 * (scoreSum b c + 64 * ovenCells env b c) / c.width + 16 * min (nearCount env b c) 8

/-- The current cost of a radio; none without an operating channel (R81). -/
def currentCost (env : Env) (b : Blocks) (r : Radio) : Option Nat :=
  (b.chans.get r).operating.map (channelCost env b)

/-- The better of a choice so far and an entry behind it in the plan: a lower cost wins, and among equals the one of lower
id, which stands first (R133). -/
def betterEntry (env : Env) (b : Blocks) (r : Radio) (best : Option (PlanEntry × Nat)) (e : PlanEntry) :
    Option (PlanEntry × Nat) :=
  match unavailable env b r e with
  | some _ => best
  | none =>
    let c := channelCost env b e.chan
    match best with
    | none => some (e, c)
    | some (x, d) => if c < d then some (e, c) else some (x, d)

/-- The available entry of lowest cost for a radio with its cost; none when every entry is UNAVAILABLE (R133). -/
def chooseEntry (env : Env) (b : Blocks) (r : Radio) : Option (PlanEntry × Nat) :=
  env.retained.plan.foldl (betterEntry env b r) none

end Sys2Proof.Machine
end

