-- ==== Sys2Proof/Machine/Directive.lean ====
section
/-! DEFINITION. The directive controller: issuing and ending directives, move waits, clash resolution, TUNED reports,
link loss, restart and withdrawal (chapter 7). -/

namespace Sys2Proof.Machine

/-! ## Move waits -/

/-- A radio's move wait ended; NOCHANNEL is reported absent when its no-entry flag was set (R134). -/
def endMoveWait (env : Env) (r : Radio) (b : Blocks) : Blocks :=
  match (b.chans.get r).moveWait with
  | none => b
  | some w =>
    let b := b.modChan r fun c => { c with moveWait := none }
    if w.noEntry then b.report env (.noChannel r) false else b

/-- The union of two lists of cells, in ascending order. -/
def unionCells (a b : List Nat) : List Nat := (List.range cellCount).filter fun k => a.contains k || b.contains k

/-- A guard-triggered choice found no entry: the radio enters a move wait, or adds the cells to the one it has, with the
no-entry flag set; NOCHANNEL is reported present unless it was present already (R134). -/
def enterMoveWait (env : Env) (r : Radio) (cells : List Nat) (b : Blocks) : Blocks :=
  let old := (b.chans.get r).moveWait
  let was := (old.map fun w => w.noEntry).getD false
  let all := unionCells ((old.map fun w => w.cells).getD []) cells
  let b := b.modChan r fun c => { c with moveWait := some ⟨all, true⟩ }
  if was then b else b.report env (.noChannel r) true

/-- Some retry cell of a move wait is still AVOIDED or BARRED (R134). -/
def waitGuarded (env : Env) (b : Blocks) (w : MoveWait) : Bool := w.cells.any fun k => guarded env b.monitor k

/-! ## Issuing a directive -/

/-- The issue of a MOVE to a radio for an entry (R136); none when the reservation is refused. -/
def issueMove (env : Env) (r : Radio) (e : PlanEntry) (reason : MoveReason) (b : Blocks) : Option Blocks :=
  match reserveTarget r e.chan b.cells with
  | none => none
  | some cells =>
    let air := airOf env b r
    let c := b.chans.get r
    let d : Directive :=
      { id := c.nextId
        entry := e.id
        chan := e.chan
        reason := reason
        expiry := afterMillis env.now env.retained.params.directiveTimeout }
    let b := { b with cells := cells }
    let b := b.modChan r fun c => { c with directive := some d, nextId := c.nextId + 1 }
    let b := endMoveWait env r b
    let b := radioChange env r none air [] b
    some (b.send r (.move d.id e.id e.chan reason))

/-- The reason of a guard-triggered directive: BAR when some cell of the operating channel is BARRED, else AVOID (R132). -/
def guardReason (env : Env) (b : Blocks) (r : Radio) : MoveReason := if channelBarred env b r then .bar else .avoid

/-- A guard-triggered choice (R132 step 4, R134, R136): a MOVE, or none when no entry is available or the reservation is
refused. -/
def guardChoice (env : Env) (r : Radio) (b : Blocks) : Option Blocks :=
  match chooseEntry env b r with
  | none => none
  | some (e, _) => issueMove env r e (guardReason env b r) b

/-- A radio cannot be directed: its port is not UP, or its clash, isolated or withdrawn flag is set (R132, R135). -/
def cannotDirect (b : Blocks) (r : Radio) : Bool :=
  let c := b.chans.get r
  (b.links.get r).port != .up || c.clash || c.isolated || c.withdrawn

/-- A move request naming cells, taken for a radio (R132). -/
def moveRequest (env : Env) (r : Radio) (cells : List Nat) (b : Blocks) : Blocks :=
  if (b.chans.get r).directive.isSome then b
  else if cannotDirect b r then b
  else if (guardedCells env b r).isEmpty then b
  else
    match guardChoice env r b with
    | some b' => b'
    | none => enterMoveWait env r cells b

/-- The controller's part of a survey completion of a radio's lane (R134). -/
def retryMove (env : Env) (r : Radio) (b : Blocks) : Blocks :=
  match (b.chans.get r).moveWait with
  | none => b
  | some w =>
    if waitGuarded env b w then
      match guardChoice env r b with
      | some b' => b'
      | none => enterMoveWait env r [] b
    else endMoveWait env r b

/-- The controller's part of a guard change report, in RUN: every move wait without a guarded retry cell ends (R134). -/
def endClearedWaits (env : Env) (b : Blocks) : Blocks :=
  let act := fun (b : Blocks) (r : Radio) =>
    match (b.chans.get r).moveWait with
    | none => b
    | some w => if waitGuarded env b w then b else endMoveWait env r b
  radios.foldl act b

/-! ## Sources kept by the controller -/

/-- The LAPSE source made absent, and reported absent when it was present (R139, R140). -/
def endLapse (env : Env) (r : Radio) (b : Blocks) : Blocks :=
  if (b.chans.get r).lapseSource then
    (b.modChan r fun c => { c with lapseSource := false }).report env (.lapse r) false
  else b

/-- The clash flag set to a value, and the CLASH source reported at a change of it (R141). -/
def setClash (env : Env) (r : Radio) (clash : Bool) (b : Blocks) : Blocks :=
  if (b.chans.get r).clash = clash then b
  else (b.modChan r fun c => { c with clash := clash }).report env (.clash r) clash

/-! ## Clash resolution -/

/-- One clashed radio's turn in clash resolution (R18, R142): on a passed test it acquires its recorded channel, its clash
flag clears and is reported. -/
def resolveOne (env : Env) (except : Option Radio) (b : Blocks) (c : Radio) : Blocks :=
  let x := b.chans.get c
  match x.operating with
  | none => b
  | some ch =>
    if x.clash && except != some c && acquisitionTest env c ch b.cells then
      setClash env c false { b with cells := acquire c ch b.cells }
    else b

/-- Clash resolution: a single pass in ascending radio number, when the operations before it freed a cell (R18). The
scheduler is told of the radios it served when the controller's part of the event is done (R142; log 21). -/
def resolveClashes (env : Env) (except : Option Radio) (freed : Bool) (b : Blocks) : Blocks :=
  if freed then radios.foldl (resolveOne env except) b else b

/-- The radios whose clash flag one step of an event cleared, in ascending number (R142). -/
def unclashed (before after : Blocks) : List Radio :=
  radios.filter fun c => (before.chans.get c).clash && !(after.chans.get c).clash

/-! ## Ending a directive -/

/-- The pending target dropped and the directive cleared, where one is pending (R15). -/
def dropDirective (r : Radio) (b : Blocks) : Blocks :=
  if (b.chans.get r).directive.isSome then
    { b with cells := dropTarget r b.cells }.modChan r fun c => { c with directive := none }
  else b

/-- The promotion check (R138), in RUN: guarded cells of the new operating channel are handled as a move request. -/
def promotionCheck (env : Env) (r : Radio) (b : Blocks) : Blocks :=
  let cells := guardedCells env b r
  if env.mode = .run ∧ cells ≠ [] then moveRequest env r cells b else b

/-- A directive carried out (R14, R137): the target is promoted and becomes the operating channel, clash resolution
follows, the scheduler ends the grant and the hold, the lane restarts when the channel changed, and the promotion check
is applied. -/
def carryOut (env : Env) (r : Radio) (d : Directive) (except : Option Radio) (b : Blocks) : Blocks :=
  let air := airOf env b r
  let chan := (b.chans.get r).operating
  let before := b.cells
  let b := { b with cells := promoteTarget r b.cells }
  let b := b.modChan r fun c => { c with operating := some d.chan, directive := none }
  let b' := resolveClashes env except (freedAny before b.cells) b
  let b := radioChange env r (some .silent) air (unclashed b b') b'
  let b := restartIfMoved r chan b
  promotionCheck env r b

/-- A MOVED taken by the controller (R137). -/
def takeMoved (env : Env) (r : Radio) (id : Byte) (b : Blocks) : Blocks :=
  match (b.chans.get r).directive with
  | none => b
  | some d => if d.id = id then carryOut env r d none b else b

/-- The move wait after a matching DECLINE (R137): its retry cells are the guarded cells of the operating channel, its
no-entry flag is clear. -/
def waitAfterDecline (env : Env) (r : Radio) (reason : MoveReason) (b : Blocks) : Blocks :=
  let cells := guardedCells env b r
  if reason ≠ .host ∧ env.mode = .run ∧ cells ≠ [] then
    b.modChan r fun c => { c with moveWait := some ⟨cells, false⟩ }
  else b

/-- A DECLINE taken by the controller (R137). -/
def takeDecline (env : Env) (r : Radio) (id reason : Byte) (b : Blocks) : Blocks :=
  match (b.chans.get r).directive with
  | none => b
  | some d =>
    if d.id = id then
      let air := airOf env b r
      let before := b.cells
      let hold := Time.plus env.now (env.retained.params.declineHold * 1000000)
      let b := dropDirective r b
      let b := b.modChan r fun c => { c with declined := some ⟨d.entry, hold, reason⟩ }
      let b' := resolveClashes env none (freedAny before b.cells) b
      let b := radioChange env r none air (unclashed b b') b'
      waitAfterDecline env r d.reason b
    else b

/-- A directive's lapse under lapse mode ASSUME (R139): carried out, then a momentary LAPSE source (R87). -/
def lapseAssume (env : Env) (r : Radio) (d : Directive) (b : Blocks) : Blocks :=
  let b := carryOut env r d none b
  (b.report env (.lapse r) true).report env (.lapse r) false

/-- A directive's lapse under lapse mode REVOKE (R139): the target is dropped, the radio isolated, LAPSE present, the
grant cut and the hold ended. -/
def lapseRevoke (env : Env) (r : Radio) (b : Blocks) : Blocks :=
  let air := airOf env b r
  let before := b.cells
  let b := dropDirective r b
  let b' := resolveClashes env none (freedAny before b.cells) b
  let gained := unclashed b b'
  let b := b'.modChan r fun c => { c with isolated := true, lapseSource := true }
  let b := b.report env (.lapse r) true
  radioChange env r (some .cut) air gained b

/-- A directive's timeout (R139). -/
def takeLapse (env : Env) (r : Radio) (b : Blocks) : Blocks :=
  match (b.chans.get r).directive with
  | none => b
  | some d =>
    if Time.atOrBefore d.expiry env.now then
      if env.retained.params.lapseMode = 0 then lapseAssume env r d b else lapseRevoke env r b
    else b

/-! ## TUNED reports -/

/-- The map and flags at a TUNED reporting off (R141). -/
def tunedOff (env : Env) (r : Radio) (b : Blocks) : Blocks :=
  let b := { b with cells := releaseAll r b.cells }
  let b := b.modChan r fun c => { c with operating := none, isolated := false }
  setClash env r false b

/-- The map and flags at a TUNED reporting a channel (R141): the acquisition test after the release of the old cells. -/
def tunedChannel (env : Env) (r : Radio) (ch : Channel) (b : Blocks) : Blocks :=
  let b := { b with cells := releaseAll r b.cells }
  if acquisitionTest env r ch b.cells then
    let b := { b with cells := acquire r ch b.cells }
    let b := b.modChan r fun c => { c with operating := some ch, isolated := false }
    setClash env r false b
  else setClash env r true (b.modChan r fun c => { c with operating := some ch })

/-- A TUNED that is not taken as MOVED (R140, R141): the pending target is dropped, the report is handled, clash
resolution follows among the other clashed radios, the scheduler is told, the lane restarts when the channel changed.
A cell was freed when the radio held one that the drop and the release let go. -/
def tunedAfresh (env : Env) (r : Radio) (report : Option Channel) (b : Blocks) : Blocks :=
  let air := airOf env b r
  let chan := (b.chans.get r).operating
  let freed := freedAny b.cells (releaseAll r b.cells)
  let b := dropDirective r b
  let b := match report with
    | none => tunedOff env r b
    | some ch => tunedChannel env r ch b
  let b' := resolveClashes env (some r) freed b
  let b := radioChange env r (some .silent) air (unclashed b b') b'
  restartIfMoved r chan b

/-- A TUNED taken: off (none) or a well-formed channel (R140). -/
def takeTuned (env : Env) (r : Radio) (report : Option Channel) (b : Blocks) : Blocks :=
  let b := endMoveWait env r b
  let b := endLapse env r b
  match (b.chans.get r).directive with
  | some d => if report = some d.chan then carryOut env r d (some r) b else tunedAfresh env r report b
  | none => tunedAfresh env r report b

/-! ## Link loss, restart, withdrawal -/

/-- The end of an event that took a radio out of its air with nothing left there: clash resolution among the clashed
radios, the scheduler told of those it served, and one review of each air reached (R18, R111, R142; log 21). -/
def resolveAndReview (env : Env) (airs : List AirId) (freed : Bool) (b : Blocks) : Blocks :=
  let b' := resolveClashes env none freed b
  retestAndReview env airs (unclashed b b') b'

/-- The scheduler's and the controller's parts of a link loss (R123, R143, R154). -/
def lossDirective (env : Env) (r : Radio) (airs : List AirId) (b : Blocks) : Blocks :=
  let airs := airs ++ heldAirs b r
  let before := b.cells
  let b := dropDirective r (endSession env r b)
  let freed := freedAny before b.cells
  resolveAndReview env airs freed (endMoveWait env r b)

/-- The channel context returned to its starting point (R144, R145): target dropped, cells released, channel absent, clash
and isolated flags clear, move wait ended, sources absent. -/
def clearContext (env : Env) (r : Radio) (b : Blocks) : Blocks :=
  let b := dropDirective r b
  let b := { b with cells := releaseAll r b.cells }
  let b := b.modChan r fun c => { c with operating := none, isolated := false }
  let b := endMoveWait env r b
  let b := setClash env r false b
  endLapse env r b

/-- The scheduler's and the controller's parts of a HELLO restart (R123, R144): the declined entry becomes absent too, and
the lane restarts when the operating channel was present. -/
def restartContext (env : Env) (r : Radio) (b : Blocks) : Blocks :=
  let airs := (airOf env b r).toList ++ heldAirs b r
  let chan := (b.chans.get r).operating
  let freed := freedAny b.cells (releaseAll r b.cells)
  let b := (endSession env r b).modChan r fun c => { c with declined := none }
  let b := resolveAndReview env airs freed (clearContext env r b)
  restartIfMoved r chan b

/-- A WITHDRAW of a radio whose withdrawn flag is clear (R100, R119, R123, R145). -/
def withdrawRadio (env : Env) (r : Radio) (b : Blocks) : Blocks :=
  let airs := (airOf env b r).toList ++ heldAirs b r
  let chan := (b.chans.get r).operating
  let freed := freedAny b.cells (releaseAll r b.cells)
  let b := b.modChan r fun c => { c with withdrawn := true }
  let b := clearContext env r b
  let b := { b with monitor := b.monitor.forgetRadio r }
  let b := resolveAndReview env airs freed (withdrawSched env r b)
  restartIfMoved r chan b

end Sys2Proof.Machine
end

