-- ==== Sys2Proof/Machine/Reports.lean ====
section
/-! DEFINITION. What the condition monitor issues at the end of an event: the guard change report, the move requests and
the shaping change report (R5, R97, R98, R101). -/

namespace Sys2Proof.Machine

/-- The cells whose guard level differs between two states (R5). -/
def changedCells (env0 : Env) (m0 : Monitor) (env : Env) (m : Monitor) : List Nat :=
  (List.range cellCount).filter fun k => guardLevel env0 m0 k != guardLevel env m k

/-- The cells whose guard level rose between two states: a change toward BARRED (R5). -/
def risenCells (env0 : Env) (m0 : Monitor) (env : Env) (m : Monitor) : List Nat :=
  (List.range cellCount).filter fun k =>
    decide ((guardLevel env0 m0 k).strength < (guardLevel env m k).strength)

/-- The move request of a guard change report for one radio, where cells of its operating channel rose (R98). -/
def requestMove (env : Env) (risen : List Nat) (b : Blocks) (r : Radio) : Blocks :=
  let cells := (operatingCells b r).filter risen.contains
  if cells.isEmpty then b else moveRequest env r cells b

/-- A guard change report delivered (R5, R98): the scheduler takes it first; in RUN the controller then ends the move
waits that are clear and takes the move requests in ascending radio number. -/
def deliverGuardChange (env : Env) (changed risen : List Nat) (b : Blocks) : Blocks :=
  let b := takeGuardChange env changed b
  match env.mode with
  | .setup => b
  | .run => radios.foldl (requestMove env risen) (endClearedWaits env b)

/-- The reports that an event of the monitor calls for, from the environment and monitor before it and the blocks after
it (R101; log 6: the guard change report, the move requests, the shaping change report, in this order). -/
def settleMonitor (env0 : Env) (m0 : Monitor) (env : Env) (b : Blocks) : Blocks :=
  let changed := changedCells env0 m0 env b.monitor
  let risen := risenCells env0 m0 env b.monitor
  let on := shapingHolds env b.monitor
  let b := if changed.isEmpty then b else deliverGuardChange env changed risen b
  if shapingHolds env0 m0 = on then b else takeShaping env on b

/-- An event that changes the monitor alone, with the reports it calls for. -/
def monitorEvent (env : Env) (f : Monitor → Monitor) (b : Blocks) : Blocks :=
  settleMonitor env b.monitor env { b with monitor := f b.monitor }

end Sys2Proof.Machine
end

