-- ==== Sys2Proof/Machine/Tracking.lean ====
section
/-! DEFINITION. The cadence tracker: judging a burst, the onset check, the anchor's expiry, the return to SEARCH, and the
reports these cause (chapter 3). -/

namespace Sys2Proof.Machine

/-- A burst handed to the tracker: the lane's number, which is its radio's, the start, the duration and the burst span
(R34, R44). No rule of the judgement reads the lane. -/
structure HandOff where
  lane : Radio
  start : Time
  duration : Nat
  span : Channel
deriving DecidableEq, Repr

/-- What a tracker event did: the record after it, and whether an oven source report follows (R59). -/
structure Judged where
  tracker : Tracker
  report : Bool
deriving DecidableEq, Repr

/-- The most spans a footprint list holds (R57). -/
def footprintLimit : Nat := 8

/-- A span added to the footprint list (R57): to the front, out of its old place when present, and the oldest dropped when
the list is full. -/
def addSpan (l : List Channel) (c : Channel) : List Channel := c :: (l.filter (fun d => d != c)).take (footprintLimit - 1)

/-- The check time of an onset under a window *w*: floor(T / 16) + *w* + oven maximum on-time + 1000 (R47, R49, R52, R53). -/
def checkTime (p : Params) (w : Nat) (onset : TrackTime) : Time :=
  Time.plus (TrackTime.toPart onset) (w + p.ovenMax + 1000)

/-- A period clamped to 16 × period minimum … 16 × period maximum (R49, R53). -/
def clampPeriod (p : Params) (x : Int) : Nat := (clampInt (16 * p.periodMin) (16 * p.periodMax) x).toNat

/-- D + truncated((*d* − D) / 8) (R49, R53). -/
def nextOnTime (D d : Nat) : Nat := ((D : Int) + ((d : Int) - D).tdiv 8).toNat

/-- The counters with one of them moved. -/
def TrackerCounters.handOff (c : TrackerCounters) : TrackerCounters := { c with handOffs := bump c.handOffs }
def TrackerCounters.accept (c : TrackerCounters) : TrackerCounters := { c with accepted := bump c.accepted }
def TrackerCounters.duplicate (c : TrackerCounters) : TrackerCounters := { c with duplicates := bump c.duplicates }
def TrackerCounters.ignore (c : TrackerCounters) : TrackerCounters := { c with ignored := bump c.ignored }
def TrackerCounters.break (c : TrackerCounters) : TrackerCounters := { c with breaks := bump c.breaks }
def TrackerCounters.miss (c : TrackerCounters) : TrackerCounters := { c with missed := bump c.missed }
def TrackerCounters.lock (c : TrackerCounters) : TrackerCounters := { c with locks := bump c.locks }
def TrackerCounters.loss (c : TrackerCounters) : TrackerCounters := { c with losses := bump c.losses }

/-- The return to SEARCH (R43): everything but the counters at its reset value, the anchor absent. -/
def Tracker.toSearch (t : Tracker) : Tracker := { Tracker.reset with counters := t.counters }

/-- The anchor made from a burst (R46). -/
def anchorOf (p : Params) (h : HandOff) : Anchor :=
  ⟨h.start, h.duration, h.span, Time.plus h.start (p.periodMax + p.ovenMax + 1000)⟩

/-- A burst ignored (R46, R50, R54). -/
def Tracker.ignoreBurst (t : Tracker) : Judged := ⟨{ t with counters := t.counters.ignore }, false⟩

/-- The entry to ACQUIRE from an anchor and a burst (R47). -/
def Tracker.enterAcquire (p : Params) (a : Anchor) (h : HandOff) (t : Tracker) : Tracker :=
  let s := TrackTime.ofStart h.start
  let period := 16 * (Time.diff h.start a.start).toNat
  let onset := TrackTime.plus s period
  { phase := .acquire
    anchor := none
    period := period
    onset := onset
    onTime := (a.duration + h.duration) / 2
    matched := 2
    misses := 0
    lastOnset := some s
    check := some (checkTime p p.acquireWindow onset)
    footprint := addSpan (addSpan t.footprint a.span) h.span
    counters := t.counters.accept }

/-- A burst judged in SEARCH (R46). -/
def Tracker.judgeSearch (p : Params) (h : HandOff) (t : Tracker) : Judged :=
  match t.anchor with
  | none => ⟨{ t with anchor := some (anchorOf p h) }, false⟩
  | some a =>
    let i := Time.diff h.start a.start
    if i < p.periodMin then t.ignoreBurst
    else if i ≤ p.periodMax then ⟨t.enterAcquire p a h, true⟩
    else ⟨{ t with anchor := some (anchorOf p h) }, false⟩

/-- The lock (R52), when matches has reached the lock count. -/
def Tracker.lockIfDue (p : Params) (t : Tracker) : Tracker :=
  if p.lockCount ≤ t.matched then
    { t with
      phase := .track
      misses := 0
      check := some (checkTime p p.trackWindow t.onset)
      counters := t.counters.lock }
  else t

/-- A burst accepted in ACQUIRE with error *e* (R49, R52). -/
def Tracker.acceptAcquire (p : Params) (h : HandOff) (e : Int) (t : Tracker) : Tracker :=
  let s := TrackTime.ofStart h.start
  let period := clampPeriod p (t.period + e.tdiv 4)
  let onset := TrackTime.plus s period
  Tracker.lockIfDue p
    { t with
      period := period
      onset := onset
      onTime := nextOnTime t.onTime h.duration
      lastOnset := some s
      matched := t.matched + 1
      footprint := addSpan t.footprint h.span
      check := some (checkTime p p.acquireWindow onset)
      counters := t.counters.accept }

/-- A burst judged in ACQUIRE (R49, R50). -/
def Tracker.judgeAcquire (p : Params) (h : HandOff) (t : Tracker) : Judged :=
  let e := TrackTime.diff (TrackTime.ofStart h.start) t.onset
  if e.natAbs ≤ 16 * p.acquireWindow then ⟨t.acceptAcquire p h e, true⟩
  else if e < 0 then t.ignoreBurst
  else
    let s := t.toSearch
    ⟨{ s with anchor := some (anchorOf p h), counters := s.counters.break }, true⟩

/-- A burst accepted in TRACK or COAST with error *e* (R53). -/
def Tracker.acceptTrack (p : Params) (h : HandOff) (e : Int) (t : Tracker) : Tracker :=
  let period := clampPeriod p (t.period + e.tdiv 64)
  let onset := TrackTime.plus t.onset (period + e.tdiv 4)
  { t with
    phase := .track
    onset := onset
    period := period
    onTime := nextOnTime t.onTime h.duration
    lastOnset := some (TrackTime.ofStart h.start)
    misses := 0
    footprint := addSpan t.footprint h.span
    check := some (checkTime p p.trackWindow onset)
    counters := t.counters.accept }

/-- A burst judged in TRACK or COAST (R53, R54). -/
def Tracker.judgeLocked (p : Params) (h : HandOff) (t : Tracker) : Judged :=
  let e := TrackTime.diff (TrackTime.ofStart h.start) t.onset
  if e.natAbs ≤ 16 * p.trackWindow then ⟨t.acceptTrack p h e, true⟩ else t.ignoreBurst

/-- The current window W (R45). -/
def Tracker.window (p : Params) (t : Tracker) : Nat := if t.phase = .acquire then p.acquireWindow else p.trackWindow

/-- The duplicate rule's test (R45). -/
def Tracker.isDuplicate (p : Params) (h : HandOff) (t : Tracker) : Bool :=
  match t.lastOnset with
  | none => false
  | some a => decide ((TrackTime.diff (TrackTime.ofStart h.start) a).natAbs ≤ 16 * t.window p)

/-- A burst judged by the state, the duplicate rule first outside SEARCH (R44, R45). -/
def Tracker.judge (p : Params) (h : HandOff) (t : Tracker) : Judged :=
  let t := { t with counters := t.counters.handOff }
  if t.phase ≠ .search ∧ t.isDuplicate p h then
    ⟨{ t with footprint := addSpan t.footprint h.span, counters := t.counters.duplicate }, true⟩
  else
    match t.phase with
    | .search => t.judgeSearch p h
    | .acquire => t.judgeAcquire p h
    | .track | .coast => t.judgeLocked p h

/-- T moved one period on, with the check time of the new T (R55, R56). -/
def Tracker.advance (p : Params) (t : Tracker) : Tracker :=
  let onset := TrackTime.plus t.onset t.period
  { t with onset := onset, check := some (checkTime p p.trackWindow onset) }

/-- The onset check reached (R51, R55, R56). -/
def Tracker.onsetChecked (p : Params) (t : Tracker) : Tracker :=
  let t := { t with counters := t.counters.miss }
  match t.phase with
  | .search => t
  | .acquire => let s := t.toSearch; { s with counters := s.counters.break }
  | .track => { (t.advance p) with phase := .coast, misses := 1 }
  | .coast =>
    if p.coastLimit ≤ t.misses + 1 then let s := t.toSearch; { s with counters := s.counters.loss }
    else { (t.advance p) with misses := t.misses + 1 }

/-- A tracker event's record put in place, with the oven source report (R59) and then, where T, P, D, the state or the
footprint cells changed, the prediction change report (R61; log 5 for the order, log 8 for the footprint). -/
def trackerEvent (env : Env) (j : Judged) (b : Blocks) : Blocks :=
  let p := env.retained.params
  let old := b.tracker
  let t := j.tracker
  let b := { b with tracker := t }
  let b := if j.report then monitorEvent env (Monitor.reportOven env t.locked (footprintRange p t)) b else b
  let same := old.onset == t.onset && old.period == t.period && old.onTime == t.onTime && old.phase == t.phase
    && footprintCells p old == footprintCells p t
  if same then b else takePrediction env (predictionOf p t) b

/-- A hand-off taken by the tracker (R44). -/
def takeHandOff (env : Env) (h : HandOff) (b : Blocks) : Blocks :=
  trackerEvent env (b.tracker.judge env.retained.params h) b

end Sys2Proof.Machine
end

