-- ==== Sys2Proof/Machine/Survey.lean ====
section
/-! DEFINITION. The survey unit: heard-frame summaries, the neighbour table, survey completion and cell scores
(chapter 4). -/

namespace Sys2Proof.Machine

/-- The most entries of the neighbour table (R71). -/
def tableLimit : Nat := 48

/-! ## Heard frames -/

/-- How a summary was matched (R66). -/
inductive Match where
  | own
  | anonymous
  | neighbour (bss : BssId) (tag : Option Nat)
deriving DecidableEq, Repr

/-- The first enabled filter, from index *j* on, whose check equals its expected check (R70). -/
def firstFilter (capsule : List Byte) : Nat → List SigFilter → Option (Nat × FilterAction)
  | _, [] => none
  | j, f :: fs =>
    if f.enable ∧ capsuleCheck f.mask capsule = f.expected then some (j, f.action)
    else firstFilter capsule (j + 1) fs

/-- The filter that matches a summary; none without a capsule (R70). -/
def matchingFilter (x : Retained) (h : Summary) : Option (Nat × FilterAction) :=
  match h.capsule with
  | none => none
  | some c => firstFilter c 0 x.filters

/-- The four steps of matching (R66). -/
def matchSummary (x : Retained) (h : Summary) : Match :=
  match h.bss with
  | some id =>
    if x.ownList.contains (some id) then .own
    else
      match matchingFilter x h with
      | some (_, .own) => .own
      | some (j, .tag) => .neighbour id (some j)
      | none => .neighbour id none
  | none =>
    match matchingFilter x h with
    | some (_, .own) => .own
    | some (_, .tag) => .anonymous
    | none => .anonymous

/-- The airtime of a summary, clamped to 32767 (R65). -/
def heardAirtime (h : Summary) : Nat := min h.airtime.toNat 32767

/-- A malformed summary: a blind level or an airtime of 0 (R65). -/
def malformed (h : Summary) : Bool := h.level == blindMarker || h.airtime == 0

/-- The entry of a BSS id. -/
def findNeighbour (table : List Neighbour) (bss : BssId) : Option Neighbour := table.find? fun n => n.bss == bss

/-- The table without the entry of a BSS id. -/
def dropNeighbour (table : List Neighbour) (bss : BssId) : List Neighbour := table.filter fun n => n.bss != bss

/-- A summary as a new entry (R71, "set at entry"). -/
def newNeighbour (now : Time) (r : Radio) (ch : Channel) (h : Summary) (bss : BssId) (tag : Option Nat) : Neighbour :=
  { bss := bss
    radio := r
    span := ch
    first := now
    last := now
    frames := 1
    airtime := heardAirtime h
    strongest := codeOf h.level
    tag := tag }

/-- An entry updated with a summary (R71, R72). -/
def Neighbour.update (now : Time) (r : Radio) (ch : Channel) (h : Summary) (tag : Option Nat) (n : Neighbour) :
    Neighbour :=
  { n with
    radio := r
    span := ch
    last := now
    frames := bump n.frames
    airtime := satAdd (2 ^ 32 - 1) n.airtime (heardAirtime h)
    strongest := max n.strongest (codeOf h.level)
    tag := if tag.isSome then tag else n.tag }

/-- The counters with one of them moved (R75). -/
def HeardCounters.take (c : HeardCounters) : HeardCounters := { c with taken := bump c.taken }
def HeardCounters.malform (c : HeardCounters) : HeardCounters := { c with malformed := bump c.malformed }
def HeardCounters.ownFrame (c : HeardCounters) : HeardCounters := { c with own := bump c.own }
def HeardCounters.anon (c : HeardCounters) : HeardCounters := { c with anonymous := bump c.anonymous }
def HeardCounters.neighbourFrame (c : HeardCounters) : HeardCounters := { c with neighbour := bump c.neighbour }
def HeardCounters.entry (c : HeardCounters) : HeardCounters := { c with made := bump c.made }
def HeardCounters.evict (c : HeardCounters) : HeardCounters := { c with evictions := bump c.evictions }
def HeardCounters.aged (c : HeardCounters) (n : Nat) : HeardCounters := { c with agedOut := satAdd 65535 c.agedOut n }

/-- The survey unit with its counters changed. -/
def SurveyUnit.count (u : SurveyUnit) (f : HeardCounters → HeardCounters) : SurveyUnit :=
  { u with counters := f u.counters }

/-- A neighbour frame updated in or entered into the table (R72, R73). -/
def SurveyUnit.enter (now : Time) (r : Radio) (ch : Channel) (h : Summary) (bss : BssId) (tag : Option Nat)
    (u : SurveyUnit) : SurveyUnit :=
  match findNeighbour u.table bss with
  | some n =>
    let table := n.update now r ch h tag :: dropNeighbour u.table bss
    { u with table := table, counters := u.counters.neighbourFrame }
  | none =>
    if h.kind = .control then u.count HeardCounters.anon
    else
      let new := newNeighbour now r ch h bss tag
      let counters := u.counters.neighbourFrame.entry
      if u.table.length < tableLimit then { u with table := new :: u.table, counters := counters }
      else { u with table := new :: u.table.take (tableLimit - 1), counters := counters.evict }

/-- Own airtime credited to the open survey of a radio's lane (R37). -/
def creditOwn (r : Radio) (airtime : Nat) (b : Blocks) : Blocks :=
  b.modLane r fun l => { l with survey := { l.survey with own := satAdd (2 ^ 32 - 1) l.survey.own airtime } }

/-- The blocks with the survey unit changed. -/
def Blocks.modSurvey (b : Blocks) (f : SurveyUnit → SurveyUnit) : Blocks := { b with survey := f b.survey }

/-- A summary acted on by its outcome (R66). -/
def actOnSummary (env : Env) (r : Radio) (ch : Channel) (h : Summary) (b : Blocks) : Blocks :=
  match matchSummary env.retained h with
  | .own => creditOwn r (heardAirtime h) (b.modSurvey fun u => u.count HeardCounters.ownFrame)
  | .anonymous => b.modSurvey fun u => u.count HeardCounters.anon
  | .neighbour bss tag => b.modSurvey (SurveyUnit.enter env.now r ch h bss tag)

/-- A HEARD taken by the survey unit; dropped without an operating channel or while withdrawn (R65). -/
def takeHeard (env : Env) (r : Radio) (h : Summary) (b : Blocks) : Blocks :=
  match (b.chans.get r).operating with
  | none => b
  | some ch =>
    if (b.chans.get r).withdrawn then b
    else
      let b := b.modSurvey fun u => u.count HeardCounters.take
      if malformed h then b.modSurvey fun u => u.count HeardCounters.malform else actOnSummary env r ch h b

/-- An entry is older than the neighbour age at a sweep (R74). -/
def tooOld (env : Env) (n : Neighbour) : Bool :=
  decide (env.retained.params.neighbourAge * 1000000 < Time.span env.now n.last)

/-- A sweep of the neighbour table (R74); the next one falls 1 000 000 µs after this one's time. -/
def SurveyUnit.sweep (env : Env) (u : SurveyUnit) : SurveyUnit :=
  let kept := u.table.filter fun n => !tooOld env n
  { u with
    table := kept
    counters := u.counters.aged (u.table.length - kept.length)
    nextSweep := Time.plus u.nextSweep 1000000 }

/-! ## Survey completion -/

/-- The foreign fraction of a survey; none when it was wholly blind (R77). -/
def foreignFraction (s : SurveyCounts) : Option Nat :=
  let n := s.busy + s.idle
  if n = 0 then none
  else
    let busyTime := 50 * s.busy
    let own := min s.own busyTime
    some (min (256 * (busyTime - own) / (50 * n)) 255)

/-- A score moved a truncated eighth of the way toward *f* (R77). -/
def nextScore (f score : Nat) : Nat := ((score : Int) + ((f : Int) - score).tdiv 8).toNat

/-- The cells of a surveyed channel with their new scores and time (R77). -/
def scoreCells (now : Time) (ch : Channel) (f : Nat) (cells : List CellRecord) : List CellRecord :=
  mapCells (fun k c => if ch.has k then { c with score := nextScore f c.score, surveyed := some now } else c) cells

/-- A cell's crowding source from its new score and its old source (R78). -/
def crowdingAfter (p : Params) (score : Nat) (old : Bool) : Bool :=
  if p.crowdOn ≤ score then true else if score < p.crowdOff then false else old

/-- The crowding sources, from cell *k* on, after a survey of a channel (R78). -/
def updateCrowding (p : Params) (ch : Channel) : Nat → List CellRecord → List Bool → List Bool
  | k, c :: cs, x :: xs =>
    (if ch.has k then crowdingAfter p c.score x else x) :: updateCrowding p ch (k + 1) cs xs
  | _, _, xs => xs

/-- The crowding reports of a surveyed channel's cells, in ascending cell order (R78). -/
def crowdingReports (env : Env) (ch : Channel) (crowding : List Bool) (m : Monitor) : Monitor :=
  ch.cells.foldl (fun m k => m.report env (.crowd k) (crowding[k]?.getD false)) m

/-- The survey unit's part of a survey completion: scores, crowding sources, and the monitor's event (R77, R78, R101). -/
def scoreSurvey (env : Env) (ch : Channel) (s : SurveyCounts) (b : Blocks) : Blocks :=
  match foreignFraction s with
  | none => b
  | some f =>
    let cells := scoreCells env.now ch f b.cells
    let crowding := updateCrowding env.retained.params ch 0 cells b.survey.crowding
    let b := { b with cells := cells, survey := { b.survey with crowding := crowding } }
    monitorEvent env (crowdingReports env ch crowding) b

/-- A survey completion (R38): the survey unit, then the grant scheduler, then the directive controller; the counts then
return to zero. -/
def completeSurvey (env : Env) (r : Radio) (ch : Channel) (b : Blocks) : Blocks :=
  let b := scoreSurvey env ch (b.lanes.get r).survey b
  let b := surveyDone env r b
  let b := retryMove env r b
  b.modLane r fun l => { l with survey := SurveyCounts.zero }

/-! ## Batches -/

/-- The samples that complete a survey (R38). -/
def surveyLength : Nat := 2048

/-- A closed burst goes to the tracker when it closed normally, is OVEN-LIKE and its span meets the watch span (R34). -/
def handsOff (p : Params) (c : ClosedBurst) : Bool :=
  !c.truncated && c.cls == .ovenLike
    && decide (c.span.start ≤ p.watchLimit) && decide (p.watchBase < c.span.start + c.span.width)

/-- One sample's effect on the burst machine, with the hand-off it may cause (R28 to R34). -/
def feedSample (env : Env) (r : Radio) (ch : Channel) (t : Time) (k : SampleKind) (b : Blocks) : Blocks :=
  let (l, closed) := (b.lanes.get r).feed env.retained.params ch t k
  let b := b.modLane r fun _ => l
  match closed with
  | none => b
  | some c => if handsOff env.retained.params c then takeHandOff env ⟨r, c.start, c.duration, c.span⟩ b else b

/-- One received sample used: the burst machine, then the survey and its completion (R24, R36, R38; log 7). -/
def useSample (env : Env) (r : Radio) (ch : Channel) (b : Blocks) (x : Time × BitVec 16) : Blocks :=
  let k := sampleKind env.retained.params.busyCode (codeOf x.2)
  let b := feedSample env r ch x.1 k b
  let b := b.modLane r fun l => { l with survey := l.survey.add k }
  if (b.lanes.get r).survey.total = surveyLength then completeSurvey env r ch b else b

/-- Sample times from *f* in steps of 50 µs (R24). -/
def sampleTimes (f : Time) (n : Nat) : List Time := (List.range n).map fun i => Time.plus f (50 * i)

/-- The eight samples of a batch used in time order, and the expected time set (R24). -/
def useBatch (env : Env) (r : Radio) (ch : Channel) (f : Time) (levels : List (BitVec 16)) (b : Blocks) : Blocks :=
  let b := ((sampleTimes f levels.length).zip levels).foldl (useSample env r ch) b
  b.modLane r fun l => { l with expected := some (Time.plus f 400) }

/-- The missing samples of a short gap fed to the burst machine as blind samples (R26). -/
def feedMissing (env : Env) (r : Radio) (ch : Channel) (x : Time) (m : Nat) (b : Blocks) : Blocks :=
  (sampleTimes x m).foldl (fun b t => feedSample env r ch t .blind b) b

/-- A gap before a batch (R26): missing samples after a short gap, a truncated burst and a cleared history after a long
one. -/
def takeGap (env : Env) (r : Radio) (ch : Channel) (x f : Time) (b : Blocks) : Blocks :=
  let m := Time.span f x / 50
  if m ≤ 10 then feedMissing env r ch x m b else b.modLane r (Lane.truncate env.retained.params)

/-- A SAMPLES batch taken by a radio's lane; dropped when the lane takes none (R21, R24, R25, R26). DEDUCED (log 34): of the two
sentences of R27 on a misordered batch, the model follows the one that agrees with R25, and the lapse stays. -/
def takeBatch (env : Env) (r : Radio) (f : Time) (levels : List (BitVec 16)) (b : Blocks) : Blocks :=
  match (b.chans.get r).operating with
  | none => b
  | some ch =>
    if laneTakes b r then
      match (b.lanes.get r).expected with
      | none => useBatch env r ch f levels b
      | some x =>
        if Time.before f x then b.count r LinkCounters.misorderedBatch
        else if f = x then useBatch env r ch f levels b
        else useBatch env r ch f levels (takeGap env r ch x f b)
    else b

end Sys2Proof.Machine
end

