-- ==== Sys2Proof/Machine/Frames.lean ====
section
/-! DEFINITION. Bytes put out by the part: the frames of part-to-radio messages (R168) and the records returned to the host
(R170). -/

namespace Sys2Proof.Machine

/-! ## Fields -/

/-- One byte. -/
def u8 (n : Nat) : List Byte := leBytes 1 n

/-- Two bytes, little-endian. -/
def u16 (n : Nat) : List Byte := leBytes 2 n

/-- A part time: four bytes (R168, R170). -/
def timeBytes (t : Time) : List Byte := leBytes 4 t.toNat

/-- A flag byte: 0 clear, 1 set (R168). -/
def flagByte (x : Bool) : List Byte := u8 (if x then 1 else 0)

/-- A channel: a start cell and a width (R170). -/
def channelBytes (c : Channel) : List Byte := u8 c.start ++ u8 c.width

/-- A span: two cells, low then high (R170). -/
def spanBytes (s : Span) : List Byte := u8 s.base ++ u8 s.limit

/-- An optional item: a flag byte, then the item, sent as *n* zeros when absent (R170). -/
def optBytes {α : Type} (n : Nat) (f : α → List Byte) : Option α → List Byte
  | none => flagByte false ++ List.replicate n 0
  | some x => flagByte true ++ f x

/-- An optional item whose presence is a bit of a flags byte: the item, or *n* zeros (R170). -/
def zeroOr {α : Type} (n : Nat) (f : α → List Byte) : Option α → List Byte
  | none => List.replicate n 0
  | some x => f x

/-- A byte of flags, bit 0 first. -/
def flagBits (a b c : Bool) : List Byte :=
  u8 ((if a then 1 else 0) + (if b then 2 else 0) + (if c then 4 else 0))

/-! ## Part-to-radio messages -/

/-- The encodings of R168. -/
def Mode.code : Mode → Nat
  | .setup => 0
  | .run => 1

def RetryCause.code : RetryCause → Nat
  | .moving => 0
  | .full => 1
  | .window => 2
  | .wait => 3

def RefuseCause.code : RefuseCause → Nat
  | .badRequest => 0
  | .deadline => 1
  | .withdrawn => 2
  | .noChannel => 3
  | .clash => 4
  | .isolated => 5
  | .barred => 6

def MoveReason.code : MoveReason → Nat
  | .avoid => 0
  | .bar => 1
  | .host => 2

def BandSet.code : BandSet → Nat
  | .bandL => 1
  | .bandH => 2
  | .both => 3

/-- The type of a part-to-radio message (R168). -/
def OutMsg.type : OutMsg → Byte
  | .welcome .. => 0x81
  | .relink => 0x82
  | .mark => 0x83
  | .grant .. => 0x84
  | .retry .. => 0x85
  | .refuse .. => 0x86
  | .posted .. => 0x87
  | .expired .. => 0x88
  | .cut .. => 0x89
  | .move .. => 0x8A

/-- The payload of a part-to-radio message behind its stamp (R168). -/
def OutMsg.fields : OutMsg → List Byte
  | .welcome r m w => u8 (Radio.number r) ++ u8 m.code ++ flagByte w
  | .relink => []
  | .mark => []
  | .grant id start length shortened => [id] ++ timeBytes start ++ u16 length ++ flagByte shortened
  | .retry id cause hint => [id] ++ u8 cause.code ++ timeBytes hint
  | .refuse id cause => [id] ++ u8 cause.code
  | .posted id => [id]
  | .expired id => [id]
  | .cut id t => [id] ++ timeBytes t
  | .move d e c reason => [d] ++ u8 e ++ channelBytes c ++ u8 reason.code

/-- The envelope of a link message around a type and a payload (R168): sync, length, type, payload, check byte. -/
def envelope (type : Byte) (payload : List Byte) : List Byte :=
  let body := BitVec.ofNat 8 payload.length :: type :: payload
  0x5A :: body ++ [crc8 body]

/-- A message as it goes out on TXD with its stamp (R150, R168). -/
def OutMsg.bytes (m : OutMsg) (stamp : Time) : List Byte := envelope m.type (timeBytes stamp ++ m.fields)

/-! ## Records returned to the host -/

/-- The encodings of R169 and R170. -/
def Status.code : Status → Byte
  | .ok => 0x00
  | .notReady => 0x01
  | .busy => 0x02
  | .wrongMode => 0x03
  | .wrongState => 0x04
  | .badArgument => 0x05
  | .noSuch => 0x06

def CondKind.code : CondKind → Nat
  | .oven => 0
  | .crowd => 1
  | .overrun => 2
  | .link => 3
  | .clash => 4
  | .lapse => 5
  | .noChannel => 6

def CondState.code : CondState → Nat
  | .pending => 0
  | .active => 1
  | .extending => 2
  | .latched => 3
  | .resolved => 4

def Reaction.code : Reaction → Nat
  | .note => 0
  | .flag => 1
  | .shape => 2
  | .avoid => 3
  | .bar => 4

def Scope.code : Scope → Nat
  | .footprint => 0
  | .channel => 1
  | .band => 2

def TrackerPhase.code : TrackerPhase → Nat
  | .search => 0
  | .acquire => 1
  | .track => 2
  | .coast => 3

def PortState.code : PortState → Nat
  | .down => 0
  | .up => 1
  | .lost => 2

def GrantState.code : GrantState → Nat
  | .scheduled => 0
  | .active => 1

def AirId.code : AirId → Nat
  | .l => 0
  | .h0 => 1
  | .h1 => 2
  | .h2 => 3

def Unavailable.code : Unavailable → Nat
  | .mask => 1
  | .band => 2
  | .width => 3
  | .declined => 4
  | .span => 5
  | .barred => 6
  | .avoided => 7
  | .held => 8

/-- The subject byte of a condition: 0 for band L, the cell, or the radio number (R170). -/
def CondKey.subject : CondKey → Nat
  | .oven => 0
  | .crowd k => k
  | .overrun r | .link r | .clash r | .lapse r | .noChannel r => Radio.number r

/-- The 9-byte cell record of READ CELLS (R7, R170). -/
def cellBytes (env : Env) (m : Monitor) (k : Nat) (c : CellRecord) : List Byte :=
  u8 k ++ u8 ((c.holder.map Radio.number).getD 255) ++ flagBits c.current c.target c.surveyed.isSome
    ++ u8 (guardLevel env m k).strength ++ u8 c.score ++ zeroOr 4 timeBytes c.surveyed

/-- The READ CELLS payload (R7, R170). -/
def cellsPayload (env : Env) (b : Blocks) (first count : Nat) : List Byte :=
  let ks := List.range' first (min (first + count) cellCount - first)
  u8 cellCount ++ u8 ks.length
    ++ ks.flatMap fun k => ((b.cells[k]?).map (cellBytes env b.monitor k)).getD []

/-- The 25-byte condition record of READ CONDITIONS (R95, R170). -/
def condBytes (c : CondRecord) : List Byte :=
  u8 (CondKind.code (CondKey.kind c.key)) ++ u8 (CondKey.subject c.key) ++ u8 c.state.code ++ u8 c.config.reaction.code
    ++ u8 (Scope.code c.config.scope) ++ flagBits c.unread c.range.isSome c.timer.isSome ++ zeroOr 2 spanBytes c.range
    ++ u8 c.occurrences ++ u16 c.config.filter ++ u16 c.config.extension ++ timeBytes c.entered ++ timeBytes c.changed
    ++ zeroOr 4 timeBytes c.timer

/-- The records at positions first … first + count − 1 of a list that exist. -/
def page {α : Type} (l : List α) (first count : Nat) : List α := (l.drop first).take count

/-- The READ CONDITIONS payload (R95, R170). -/
def conditionsPayload (m : Monitor) (first count : Nat) : List Byte :=
  let records := page m.list first count
  u8 m.list.length ++ u8 records.length ++ records.flatMap condBytes

/-- The 25-byte neighbour entry of READ NEIGHBOURS (R170). -/
def neighbourBytes (n : Neighbour) : List Byte :=
  leBytes 6 n.bss.toNat ++ u8 (Radio.number n.radio) ++ channelBytes n.span ++ timeBytes n.first ++ timeBytes n.last
    ++ u16 n.frames ++ leBytes 4 n.airtime ++ u8 n.strongest ++ u8 (n.tag.getD 255)

/-- The eight counters of R75. -/
def HeardCounters.bytes (c : HeardCounters) : List Byte :=
  [c.taken, c.malformed, c.own, c.anonymous, c.neighbour, c.made, c.evictions, c.agedOut].flatMap u16

/-- The READ NEIGHBOURS payload (R76, R170). -/
def neighboursPayload (u : SurveyUnit) (first count : Nat) : List Byte :=
  let entries := page u.table first count
  u8 u.table.length ++ u.counters.bytes ++ u8 entries.length ++ entries.flatMap neighbourBytes

/-- The anchor of READ TRACKER: start, duration, span, expiry (R64; log 14). DESIGN CHOICE (log 14): the burst span goes out as the
start cell and the width that R41 defines it by, and not as the two cells, low then high, that R170 gives a span. -/
def anchorBytes (a : Anchor) : List Byte :=
  timeBytes a.start ++ u16 a.duration ++ channelBytes a.span ++ timeBytes a.expiry

/-- A tracker time: six bytes (R170). -/
def trackBytes (n : Nat) : List Byte := leBytes 6 n

/-- The eight counters of R41. -/
def TrackerCounters.bytes (c : TrackerCounters) : List Byte :=
  [c.handOffs, c.accepted, c.duplicates, c.ignored, c.breaks, c.missed, c.locks, c.losses].flatMap u16

/-- The four windows of READ TRACKER, or none published (R64). -/
def publishedWindows (p : Params) (t : Tracker) : Option (List Window) := if t.locked then some (onWindows p t) else none

/-- The READ TRACKER payload (R64, R170; log 14). DESIGN CHOICE (log 14): each burst span of the footprint list goes out as its start
cell and its width (R57), the footprint range, which R58 gives by its lowest and highest cell, as R170's span. -/
def trackerPayload (p : Params) (t : Tracker) : List Byte :=
  u8 t.phase.code ++ optBytes 12 anchorBytes t.anchor ++ trackBytes t.period ++ trackBytes t.onset.toNat ++ u16 t.onTime
    ++ timeBytes (TrackTime.toPart t.onset) ++ u8 t.matched ++ u8 t.misses
    ++ optBytes 6 (fun (a : TrackTime) => trackBytes a.toNat) t.lastOnset ++ optBytes 4 timeBytes t.check
    ++ u8 t.footprint.length ++ t.footprint.flatMap channelBytes ++ optBytes 2 spanBytes (footprintRange p t)
    ++ optBytes 32 (fun ws => ws.flatMap fun (w : Window) => timeBytes w.start ++ timeBytes w.stop) (publishedWindows p t)
    ++ t.counters.bytes

/-- The lane items of READ RADIO (R40; log 14). DESIGN CHOICE (log 14): the open burst's span goes out as the start cell and the width
that R20 defines it by, and not as the two cells, low then high, that R170 gives a span. -/
def laneBytes (l : Lane) : List Byte :=
  let c := l.counters
  u8 (if l.burst.isSome then 1 else 0)
    ++ optBytes 6 (fun (o : OpenBurst) => timeBytes o.start ++ channelBytes o.span) l.burst
    ++ u16 l.survey.busy ++ u16 l.survey.idle ++ u16 l.survey.blind ++ leBytes 4 l.survey.own
    ++ [c.glitch, c.frame, c.ovenLike, c.long, c.truncated, c.discarded].flatMap u16

/-- The air grant of READ RADIO (R129). -/
def grantBytes (g : Grant) : List Byte :=
  [g.id] ++ timeBytes g.start ++ timeBytes g.stop ++ u8 g.state.code ++ flagByte g.shortened ++ flagByte g.exposed

/-- The scheduler items of READ RADIO (R129). DESIGN CHOICE (log 14): the head's attempt count is one byte with no presence flag, 0
while the posted queue is empty. -/
def schedBytes (env : Env) (b : Blocks) (r : Radio) : List Byte :=
  let x := b.sched.radios.get r
  u8 (((airOf env b r).map AirId.code).getD 255) ++ optBytes 12 grantBytes (grantOf b r) ++ flagByte (holdAir b r).isSome
    ++ u8 x.waits.length ++ u8 x.posted.length ++ u8 x.headAttempts ++ u8 x.lateCount ++ flagByte x.overrun

/-- A pending directive (R147). -/
def directiveBytes (d : Directive) : List Byte :=
  [d.id] ++ u8 d.entry ++ channelBytes d.chan ++ u8 d.reason.code ++ timeBytes d.expiry

/-- A declined entry (R147). -/
def declinedBytes (d : Declined) : List Byte := u8 d.entry ++ timeBytes d.expiry ++ [d.reason]

/-- A move wait: the lowest and the highest retry cell, and the no-entry flag (R147). -/
def moveWaitBytes (w : MoveWait) : List Byte :=
  u8 (w.cells.head?.getD 0) ++ u8 (w.cells.getLast?.getD 0) ++ flagByte w.noEntry

/-- The channel state of READ RADIO (R147). -/
def chanBytes (c : ChanState) : List Byte :=
  optBytes 2 channelBytes c.operating ++ flagByte c.clash ++ flagByte c.isolated ++ flagByte c.withdrawn
    ++ optBytes 9 directiveBytes c.directive ++ [c.nextId] ++ optBytes 6 declinedBytes c.declined
    ++ optBytes 3 moveWaitBytes c.moveWait

/-- The thirteen counters in the order of the table of R157. -/
def LinkCounters.bytes (c : LinkCounters) : List Byte :=
  [c.linkErrors, c.misordered, c.transmitDrops, c.grantsIssued, c.grantsShortened, c.exposedGrants, c.retries,
    c.refusals, c.lateReleases, c.strayReleases, c.immediateGrants, c.immediateDenials, c.postedExpiries].flatMap u16

/-- The port items of READ RADIO (R157). -/
def linkBytes (k : Link) : List Byte :=
  u8 k.port.code
    ++ optBytes 2 (fun (c : Capability) => u8 (BandSet.code c.bands) ++ u8 (MaxWidth.cells c.width)) k.capability
    ++ flagByte k.linkSource ++ k.counters.bytes

/-- The READ RADIO payload (R170). -/
def radioPayload (env : Env) (b : Blocks) (r : Radio) : List Byte :=
  laneBytes (b.lanes.get r) ++ schedBytes env b r ++ chanBytes (b.chans.get r) ++ linkBytes (b.links.get r)

/-- The 6-byte entry record of READ COSTS (R82, R170). -/
def costBytes (env : Env) (b : Blocks) (r : Radio) (e : PlanEntry) : List Byte :=
  match unavailable env b r e with
  | some why => u8 e.id ++ u16 0xFFFF ++ u8 why.code ++ u8 0 ++ u8 0
  | none =>
    u8 e.id ++ u16 (channelCost env b e.chan) ++ u8 0 ++ u8 (ovenCells env b e.chan) ++ u8 (nearCount env b e.chan)

/-- The READ COSTS payload (R82, R170). -/
def costsPayload (env : Env) (b : Blocks) (r : Radio) : List Byte :=
  let plan := env.retained.plan
  optBytes 2 u16 (currentCost env b r) ++ u8 plan.length ++ u8 plan.length ++ plan.flatMap (costBytes env b r)

/-- The records of a list in one state. -/
def countState (m : Monitor) (x : CondState) : Nat := (m.list.filter fun c => c.state == x).length

/-- The STATUS payload (R161; log 15 for ALERT_N: 0 low, 1 released high). -/
def statusPayload (env : Env) (b : Blocks) : List Byte :=
  let m := b.monitor
  u8 env.mode.code ++ timeBytes env.now ++ flagByte (notice m) ++ flagByte (faultSummary m)
    ++ flagByte (!alertLow env m) ++ u8 m.list.length
    ++ [CondState.pending, .active, .extending, .latched, .resolved].flatMap (fun x => u8 (countState m x))
    ++ flagByte m.overflow
    ++ radios.flatMap (fun r =>
        u8 (b.links.get r).port.code ++ flagByte (b.chans.get r).withdrawn ++ flagByte (b.chans.get r).operating.isSome)
    ++ u8 b.tracker.phase.code ++ u8 1

end Sys2Proof.Machine
end

