-- ==== Sys2Proof/Decode.lean ====
section
/-! DEFINITION. From bytes to commands and back: the messages of the radio links (R148, R156, R168) and the transactions of
the host port (R158, R169). No row of the opcode table has bits (log 28). -/

namespace Sys2Proof

/-- The command that a table word spells: none, since no row of spec/opcode_table.json gives bits (log 28). -/
def decodeTableWord (_nbits _w : Nat) : Option Instr := none

namespace Machine

/-! ## Fields -/

/-- The byte at an offset. -/
def byteAt (p : List Byte) (i : Nat) : Byte := p.getD i 0

/-- The number in *n* bytes from an offset on, least significant first. -/
def numAt (p : List Byte) (i n : Nat) : Nat := ofLeBytes ((p.drop i).take n)

/-- A part time at an offset. -/
def timeAt (p : List Byte) (i : Nat) : Time := BitVec.ofNat 32 (numAt p i 4)

/-- A band set (R168). -/
def bandSetOf (x : Byte) : Option BandSet :=
  match x.toNat with
  | 1 => some .bandL
  | 2 => some .bandH
  | 3 => some .both
  | _ => none

/-- A maximum width (R168). -/
def maxWidthOf (x : Byte) : Option MaxWidth :=
  match x.toNat with
  | 4 => some .w4
  | 8 => some .w8
  | 16 => some .w16
  | _ => none

/-- The kind of a heard frame (R168). -/
def heardKindOf (x : Byte) : Option HeardKind :=
  match x.toNat with
  | 0 => some .beacon
  | 1 => some .mgmt
  | 2 => some .data
  | 3 => some .control
  | _ => none

/-- The byte of a kind (R168). -/
def HeardKind.code : HeardKind → Nat
  | .beacon => 0
  | .mgmt => 1
  | .data => 2
  | .control => 3

/-! ## Radio-to-part messages -/

/-- The payload length that a HEARD with some presence flags has (R168). -/
def heardLength (flags : Byte) : Nat :=
  6 + (if flags.getLsbD 0 then 6 else 0) + (if flags.getLsbD 1 then 24 else 0)

/-- The type is one of the nine radio-to-part types (R148 step 2). -/
def isRadioType (type : Byte) : Bool := decide (1 ≤ type.toNat) && decide (type.toNat ≤ 9)

/-- The payload length is one that the type allows (R148 step 3, R168). -/
def lengthAllowed (type : Byte) (p : List Byte) : Bool :=
  match type.toNat with
  | 1 => p.length == 3
  | 2 => p.length == 0
  | 3 => p.length == 20
  | 4 => decide (6 ≤ p.length) && p.length == heardLength (byteAt p 5)
  | 5 => p.length == 13
  | 6 => p.length == 1
  | 7 => p.length == 2
  | 8 => p.length == 1
  | 9 => p.length == 2
  | _ => false

/-- The eight levels of a batch (R168). -/
def levelsOf (p : List Byte) : List (BitVec 16) := (List.range 8).map fun i => BitVec.ofNat 16 (numAt p (4 + 2 * i) 2)

/-- A HELLO's command (R156). -/
def helloOf (r : Radio) (p : List Byte) : Option Instr :=
  match bandSetOf (byteAt p 1), maxWidthOf (byteAt p 2) with
  | some x, some w => some (.hello r (byteAt p 0) x w)
  | _, _ => none

/-- A HEARD's command (R156, R168); bits 2 … 7 of its flags are clear. -/
def heardOf (r : Radio) (p : List Byte) : Option Instr :=
  let flags := byteAt p 5
  let afterBss := if flags.getLsbD 0 then 12 else 6
  match heardKindOf (byteAt p 4) with
  | none => none
  | some k =>
    if flags.toNat < 4 then
      some (.heard r
        { airtime := BitVec.ofNat 16 (numAt p 0 2)
          level := BitVec.ofNat 16 (numAt p 2 2)
          kind := k
          bss := if flags.getLsbD 0 then some (BitVec.ofNat 48 (numAt p 6 6)) else none
          capsule := if flags.getLsbD 1 then some (p.drop afterBss) else none })
    else none

/-- The command of a message of a type whose length is allowed; none when a field that the link controller checks holds an
undefined value (R148 step 4, R156). -/
def messageFields (r : Radio) (type : Byte) (p : List Byte) : Option Instr :=
  match type.toNat with
  | 1 => helloOf r p
  | 2 => some (.keepalive r)
  | 3 => some (.samples r (timeAt p 0) (levelsOf p))
  | 4 => heardOf r p
  | 5 =>
    some (.windowRequest r
      { id := byteAt p 0
        cls := byteAt p 1
        length := BitVec.ofNat 16 (numAt p 2 2)
        earliest := timeAt p 4
        latest := timeAt p 8
        flags := byteAt p 12 })
  | 6 => some (.release r (byteAt p 0))
  | 7 => some (.tuned r (byteAt p 0) (byteAt p 1))
  | 8 => some (.moved r (byteAt p 0))
  | 9 => some (.decline r (byteAt p 0) (byteAt p 1))
  | _ => none

/-- A complete message's command: the four checks of R148 in their order. -/
def checkMessage (r : Radio) (type : Byte) (p : List Byte) (check : Byte) : Instr :=
  if crc8 (BitVec.ofNat 8 p.length :: type :: p) ≠ check then .messageDiscarded r .checkByte
  else if !isRadioType type then .messageDiscarded r .type
  else if !lengthAllowed type p then .messageDiscarded r .length
  else (messageFields r type p).getD (.messageDiscarded r .field)

/-- The command that the bytes of one complete message on a link stand for; none when the bytes are no complete message:
no sync byte, or another number of bytes than the length byte gives (R148). -/
def decodeMessage (r : Radio) : List Byte → Option Instr
  | sync :: length :: type :: rest =>
    if sync = 0x5A ∧ rest.length = length.toNat + 1 then
      some (checkMessage r type (rest.take length.toNat) (byteAt rest length.toNat))
    else none
  | _ => none

/-- The payload of a HEARD (R168). -/
def heardPayload (h : Summary) : List Byte :=
  let flags := (if h.bss.isSome then 1 else 0) + (if h.capsule.isSome then 2 else 0)
  u16 h.airtime.toNat ++ u16 h.level.toNat ++ u8 (HeardKind.code h.kind) ++ u8 flags
    ++ ((h.bss.map fun x => leBytes 6 x.toNat).getD []) ++ h.capsule.getD []

/-- The bytes of one radio-to-part message (R168); none for the commands that are no message. -/
def encodeMessage : Instr → Option (List Byte)
  | .hello _ version bands width => some (envelope 1 (version :: u8 (BandSet.code bands) ++ u8 (MaxWidth.cells width)))
  | .keepalive _ => some (envelope 2 [])
  | .samples _ first levels => some (envelope 3 (timeBytes first ++ levels.flatMap fun q => u16 q.toNat))
  | .heard _ h => some (envelope 4 (heardPayload h))
  | .windowRequest _ q =>
    some (envelope 5
      ([q.id, q.cls] ++ u16 q.length.toNat ++ timeBytes q.earliest ++ timeBytes q.latest ++ [q.flags]))
  | .release _ id => some (envelope 6 [id])
  | .tuned _ start width => some (envelope 7 [start, width])
  | .moved _ id => some (envelope 8 [id])
  | .decline _ id reason => some (envelope 9 [id, reason])
  | _ => none

/-! ## Host transactions -/

/-- The fetch code (R169). -/
def fetchCode : Byte := 0xF0

/-- The argument length of a command code, by the sizes of R169; none for a code that names no command. -/
def argumentLength (code : Byte) : Option Nat :=
  match code.toNat with
  | 0x01 => some 0
  | 0x02 => some 2
  | 0x03 => some 2
  | 0x04 => some 7
  | 0x05 => some 5
  | 0x06 => some 1
  | 0x07 => some 4
  | 0x08 => some 1
  | 0x09 => some 3
  | 0x0A => some 2
  | 0x0B => some 8
  | 0x0C => some 8
  | 0x0D => some 2
  | 0x0E => some 0
  | 0x0F => some 2
  | 0x10 => some 0
  | 0x11 => some 2
  | 0x12 => some 1
  | 0x13 => some 2
  | 0x14 => some 1
  | 0x15 => some 1
  | 0x16 => some 0
  | 0x17 => some 0
  | 0x18 => some 0
  | _ => none

/-- The command of a code with its argument bytes (R169). -/
def hostCommand (code : Byte) (x : List Byte) : Instr :=
  match code.toNat with
  | 0x01 => .status
  | 0x02 => .readConditions (byteAt x 0) (byteAt x 1)
  | 0x03 => .clearLatch (byteAt x 0) (byteAt x 1)
  | 0x04 =>
    .setReaction (byteAt x 0) (byteAt x 1) (byteAt x 2) (BitVec.ofNat 16 (numAt x 3 2)) (BitVec.ofNat 16 (numAt x 5 2))
  | 0x05 => .setParameter (byteAt x 0) (BitVec.ofNat 32 (numAt x 1 4))
  | 0x06 => .getParameter (byteAt x 0)
  | 0x07 => .loadPlanEntry (byteAt x 0) (byteAt x 1) (byteAt x 2) (byteAt x 3)
  | 0x08 => .deletePlanEntry (byteAt x 0)
  | 0x09 => .setSpan (byteAt x 0) (byteAt x 1) (byteAt x 2)
  | 0x0A => .setKeepClear (byteAt x 0) (byteAt x 1)
  | 0x0B => .loadOwn (byteAt x 0) (byteAt x 1) (BitVec.ofNat 48 (numAt x 2 6))
  | 0x0C =>
    .loadSignature (byteAt x 0) (byteAt x 1) (BitVec.ofNat 24 (numAt x 2 3)) (BitVec.ofNat 16 (numAt x 5 2)) (byteAt x 7)
  | 0x0D => .readCells (byteAt x 0) (byteAt x 1)
  | 0x0E => .readTracker
  | 0x0F => .readNeighbours (byteAt x 0) (byteAt x 1)
  | 0x10 => .clearNeighbours
  | 0x11 => .readRadio (byteAt x 0) (byteAt x 1)
  | 0x12 => .readCosts (byteAt x 0)
  | 0x13 => .move (byteAt x 0) (byteAt x 1)
  | 0x14 => .withdraw (byteAt x 0)
  | 0x15 => .restore (byteAt x 0)
  | 0x16 => .run
  | 0x17 => .setup
  | 0x18 => .softReset
  | _ => .malformedCommand .noSuchCode

/-- The command of a frame behind its code (R158): the argument length, then that many argument bytes; bytes after them are
ignored. -/
def decodeFrame (code : Byte) : List Byte → Instr
  | low :: high :: rest =>
    let n := low.toNat + 256 * high.toNat
    if rest.length < n then .malformedCommand .argumentsIncomplete
    else
      match argumentLength code with
      | none => .malformedCommand .noSuchCode
      | some k => if n = k then hostCommand code (rest.take n) else .malformedCommand .wrongLength
  | _ => .malformedCommand .lengthIncomplete

/-- The command that the whole bytes of one transaction on MOSI stand for (R158). -/
def decodeTransaction : List Byte → Instr
  | [] => .emptyTransaction
  | code :: rest => if code = fetchCode then .fetch rest.length else decodeFrame code rest

/-- A command frame (R158, R169). -/
def frame (code : Byte) (x : List Byte) : List Byte := code :: u16 x.length ++ x

/-- The bytes of one transaction on MOSI that stands for a command of the host; none for the commands that are none. A
malformed frame has no one spelling. -/
def encodeTransaction : Instr → Option (List Byte)
  | .emptyTransaction => some []
  | .fetch n => some (fetchCode :: List.replicate n 0)
  | .status => some (frame 0x01 [])
  | .readConditions first count => some (frame 0x02 [first, count])
  | .clearLatch kind subject => some (frame 0x03 [kind, subject])
  | .setReaction kind reaction scope filter extension =>
    some (frame 0x04 ([kind, reaction, scope] ++ u16 filter.toNat ++ u16 extension.toNat))
  | .setParameter id value => some (frame 0x05 (id :: leBytes 4 value.toNat))
  | .getParameter id => some (frame 0x06 [id])
  | .loadPlanEntry id start width mask => some (frame 0x07 [id, start, width, mask])
  | .deletePlanEntry id => some (frame 0x08 [id])
  | .setSpan radio base limit => some (frame 0x09 [radio, base, limit])
  | .setKeepClear base limit => some (frame 0x0A [base, limit])
  | .loadOwn index flag bss => some (frame 0x0B ([index, flag] ++ leBytes 6 bss.toNat))
  | .loadSignature index enable mask expected action =>
    some (frame 0x0C ([index, enable] ++ leBytes 3 mask.toNat ++ u16 expected.toNat ++ [action]))
  | .readCells first count => some (frame 0x0D [first, count])
  | .readTracker => some (frame 0x0E [])
  | .readNeighbours first count => some (frame 0x0F [first, count])
  | .clearNeighbours => some (frame 0x10 [])
  | .readRadio radio clear => some (frame 0x11 [radio, clear])
  | .readCosts radio => some (frame 0x12 [radio])
  | .move radio entry => some (frame 0x13 [radio, entry])
  | .withdraw radio => some (frame 0x14 [radio])
  | .restore radio => some (frame 0x15 [radio])
  | .run => some (frame 0x16 [])
  | .setup => some (frame 0x17 [])
  | .softReset => some (frame 0x18 [])
  | _ => none

end Machine

end Sys2Proof
end

