-- ==== Sys2Proof/Machine/LinkPort.lean ====
section
/-! DEFINITION. The radio link controllers: receiving a message, HELLO, liveness, link loss, transmission (chapter 8). -/

namespace Sys2Proof.Machine

/-- The receiver back at hunting (R148). -/
def Blocks.hunt (b : Blocks) (r : Radio) : Blocks := b.modLink r fun k => { k with receiver := .hunting }

/-- The liveness expiry restarted (R154). -/
def restartLiveness (env : Env) (r : Radio) (b : Blocks) : Blocks :=
  b.modLink r fun k => { k with liveness := some (afterMillis env.now env.retained.params.linkTimeout) }

/-- A message discarded or abandoned: counted as a link error, the receiver back at hunting (R148). -/
def linkError (r : Radio) (b : Blocks) : Blocks := (b.hunt r).count r LinkCounters.linkError

/-- A good message other than HELLO (R151, R153, R154): in UP the liveness expiry restarts and the owning block takes the
message; in DOWN and LOST it is dropped and RELINK is issued. -/
def receive (env : Env) (r : Radio) (handler : Blocks → Blocks) (b : Blocks) : Blocks :=
  let b := b.hunt r
  if (b.links.get r).port = .up then handler (restartLiveness env r b) else b.send r .relink

/-- The waiting messages other than RELINK removed from the transmit queue (R150). -/
def purgeQueue (r : Radio) (b : Blocks) : Blocks :=
  b.modLink r fun k => { k with queue := k.queue.filter fun m => m == .relink }

/-- WELCOME issued (R152). -/
def welcome (env : Env) (r : Radio) (b : Blocks) : Blocks :=
  b.send r (.welcome r env.mode (b.chans.get r).withdrawn)

/-- The LINK source made absent, and reported absent when it was present (R152). -/
def endLinkSource (env : Env) (r : Radio) (b : Blocks) : Blocks :=
  if (b.links.get r).linkSource then
    (b.modLink r fun k => { k with linkSource := false }).report env (.link r) false
  else b

/-- An accepted HELLO in DOWN or LOST (R152): the radio joins its air when it is eligible, and that air is reviewed
(R111). -/
def helloOpens (env : Env) (r : Radio) (capability : Capability) (b : Blocks) : Blocks :=
  let b := b.modLink r fun k => { k with capability := some capability, port := .up }
  let b := restartLiveness env r b
  let b := endLinkSource env r b
  let b := welcome env r b
  reviewAirs env (fun a => airOf env b r == some a) b

/-- An accepted HELLO in UP (R152): the old session ends before the new one begins. -/
def helloRestarts (env : Env) (r : Radio) (capability : Capability) (b : Blocks) : Blocks :=
  let b := restartContext env r (purgeQueue r b)
  let b := b.modLink r fun k => { k with capability := some capability }
  welcome env r b

/-- A good HELLO (R152, R154): a version other than 1 is a link error. -/
def takeHello (env : Env) (r : Radio) (version : Byte) (capability : Capability) (b : Blocks) : Blocks :=
  let b := b.hunt r
  let isUp := (b.links.get r).port == .up
  let b := if isUp then restartLiveness env r b else b
  if version ≠ 1 then b.count r LinkCounters.linkError
  else if isUp then helloRestarts env r capability b
  else helloOpens env r capability b

/-- A link loss (R154): the link controller, the scheduler, the directive controller and the lane in turn. -/
def loseLink (env : Env) (r : Radio) (b : Blocks) : Blocks :=
  let air := airOf env b r
  let b := b.modLink r fun k => { k with port := .lost, liveness := none, markStart := none, linkSource := true }
  let b := (purgeQueue r b).report env (.link r) true
  let b := lossDirective env r air.toList b
  restartLane r b

/-! ## Transmission -/

/-- TXD is free: no message is being sent, or the last one has been sent whole (R150). -/
def txdFree (now : Time) (k : Link) : Bool :=
  match k.sending with
  | none => true
  | some x => Time.atOrBefore x.freeAt now

/-- The message on TXD from now on: each character takes 5/12 µs, and the message begins when the line became free within
this microsecond, else at its start (R148, R150; log 10). -/
def beginSending (now : Time) (m : OutMsg) (last : Option Sending) : Sending :=
  let bytes := m.bytes now
  let lead := match last with
    | none => 0
    | some x => if x.freeAt = now then x.freeTwelfths else 0
  let n := lead + 5 * bytes.length
  { bytes := bytes, stamp := now, freeAt := Time.plus now (n / 12), freeTwelfths := n % 12 }

/-- A line that has been free since an earlier microsecond keeps no record of the message it sent (R150; log 10). -/
def Link.idleLine (now : Time) (k : Link) : Link :=
  match k.sending with
  | none => k
  | some x => if Time.before x.freeAt now then { k with sending := none } else k

/-- A link may begin to send (R150). -/
def canSend (now : Time) (k : Link) : Bool := !k.queue.isEmpty && txdFree now k

/-- The head of the transmit queue begins to be sent (R150); in UP the MARK interval restarts. -/
def Link.transmit (now : Time) (k : Link) : Link :=
  match k.queue with
  | [] => k
  | m :: rest =>
    if txdFree now k then
      { k with
        queue := rest
        sending := some (beginSending now m k.sending)
        markStart := if k.port = .up then some now else k.markStart }
    else k

/-- A MARK is due: the port is UP and 10 000 µs have passed since the last message to the radio began (R150). -/
def markDue (now : Time) (k : Link) : Bool :=
  k.port == .up && Time.reached (k.markStart.map fun t => Time.plus t 10000) now

/-- The MARK issued; the interval start is absent until the next message begins (R150; log 20). -/
def issueMark (env : Env) (r : Radio) (b : Blocks) : Blocks :=
  if markDue env.now (b.links.get r) then (b.modLink r fun k => { k with markStart := none }).send r .mark else b

end Sys2Proof.Machine
end

