-- ==== Sys2Proof/Machine/ParamStore.lean ====
section
/-! DEFINITION. The parameter store: reading and writing a parameter by its id, its range, and the constraints of R35, R63
and R83 (R162, section 9.3). -/

namespace Sys2Proof.Machine

/-- The value of the parameter of an id; none for an id that names no parameter (R162, R169). -/
def Params.read (p : Params) (id : Nat) : Option Nat :=
  match id with
  | 1 => some p.busyCode
  | 2 => some p.ovenMin
  | 3 => some p.ovenMax
  | 4 => some p.watchBase
  | 5 => some p.watchLimit
  | 6 => some p.periodMin
  | 7 => some p.periodMax
  | 8 => some p.lockCount
  | 9 => some p.acquireWindow
  | 10 => some p.trackWindow
  | 11 => some p.coastLimit
  | 12 => some p.guardLead
  | 13 => some p.guardTail
  | 14 => some p.neighbourAge
  | 15 => some p.crowdOn
  | 16 => some p.crowdOff
  | 17 => some p.nearCode
  | 18 => some p.noticeAlerting
  | 19 => some p.beaconCap
  | 20 => some p.mgmtCap
  | 21 => some p.dataCap
  | 22 => some p.bulkCap
  | 23 => some p.minGrant
  | 24 => some p.startLead
  | 25 => some p.immediateMax
  | 26 => some p.waitLimit
  | 27 => some p.postLimit
  | 28 => some p.lateMargin
  | 29 => some p.overrunLimit
  | 30 => some p.directiveTimeout
  | 31 => some p.lapseMode
  | 32 => some p.declineHold
  | 33 => some p.moveHysteresis
  | 34 => some p.linkTimeout
  | _ => none

/-- The store with the parameter of an id set; unchanged for an id that names no parameter. -/
def Params.write (p : Params) (id v : Nat) : Params :=
  match id with
  | 1 => { p with busyCode := v }
  | 2 => { p with ovenMin := v }
  | 3 => { p with ovenMax := v }
  | 4 => { p with watchBase := v }
  | 5 => { p with watchLimit := v }
  | 6 => { p with periodMin := v }
  | 7 => { p with periodMax := v }
  | 8 => { p with lockCount := v }
  | 9 => { p with acquireWindow := v }
  | 10 => { p with trackWindow := v }
  | 11 => { p with coastLimit := v }
  | 12 => { p with guardLead := v }
  | 13 => { p with guardTail := v }
  | 14 => { p with neighbourAge := v }
  | 15 => { p with crowdOn := v }
  | 16 => { p with crowdOff := v }
  | 17 => { p with nearCode := v }
  | 18 => { p with noticeAlerting := v }
  | 19 => { p with beaconCap := v }
  | 20 => { p with mgmtCap := v }
  | 21 => { p with dataCap := v }
  | 22 => { p with bulkCap := v }
  | 23 => { p with minGrant := v }
  | 24 => { p with startLead := v }
  | 25 => { p with immediateMax := v }
  | 26 => { p with waitLimit := v }
  | 27 => { p with postLimit := v }
  | 28 => { p with lateMargin := v }
  | 29 => { p with overrunLimit := v }
  | 30 => { p with directiveTimeout := v }
  | 31 => { p with lapseMode := v }
  | 32 => { p with declineHold := v }
  | 33 => { p with moveHysteresis := v }
  | 34 => { p with linkTimeout := v }
  | _ => p

/-- The lowest and the highest value of a parameter's range (section 9.3; R23, R35, R62, R83, R96, R128, R131, R154). -/
def paramRange (id : Nat) : Nat × Nat :=
  match id with
  | 1 => (0, 126)
  | 2 => (1000, 16000)
  | 3 => (1000, 16000)
  | 4 => (0, 15)
  | 5 => (0, 15)
  | 6 => (12000, 25000)
  | 7 => (12000, 25000)
  | 8 => (3, 15)
  | 9 => (100, 2000)
  | 10 => (50, 2000)
  | 11 => (1, 15)
  | 12 => (0, 2000)
  | 13 => (0, 2000)
  | 14 => (1, 600)
  | 15 => (1, 255)
  | 16 => (0, 254)
  | 17 => (0, 126)
  | 18 => (0, 1)
  | 19 => (0, 64)
  | 20 => (0, 64)
  | 21 => (0, 64)
  | 22 => (0, 64)
  | 23 => (128, 4096)
  | 24 => (0, 8000)
  | 25 => (50, 1000)
  | 26 => (0, 255)
  | 27 => (1, 255)
  | 28 => (0, 1000)
  | 29 => (1, 255)
  | 30 => (5, 500)
  | 31 => (0, 1)
  | 32 => (0, 600)
  | 33 => (0, 1404)
  | 34 => (1, 20)
  | _ => (1, 0)

/-- A value lies in the range and on the step of its parameter: the on-times go in steps of 50 (R35). -/
def inRange (id v : Nat) : Bool :=
  decide ((paramRange id).1 ≤ v) && decide (v ≤ (paramRange id).2) && (!(id == 2 || id == 3) || v % 50 == 0)

/-- A lane parameter (R35). -/
def isLaneParam (id : Nat) : Bool := decide (1 ≤ id) && decide (id ≤ 5)

/-- A tracker parameter (R62). -/
def isTrackerParam (id : Nat) : Bool := decide (6 ≤ id) && decide (id ≤ 13)

/-- A parameter set in SETUP alone: the lane and the tracker parameters (R162). -/
def setupOnly (id : Nat) : Bool := isLaneParam id || isTrackerParam id

/-- The lane constraints of R35: on-times in order, watch cells in order. -/
def Params.laneOk (p : Params) : Bool := decide (p.ovenMin ≤ p.ovenMax) && decide (p.watchBase ≤ p.watchLimit)

/-- The three configuration constraints of R63. -/
def Params.trackerOk (p : Params) : Bool :=
  decide (p.periodMin < p.periodMax) && decide (p.trackWindow ≤ p.acquireWindow)
    && decide (p.ovenMax + p.acquireWindow + 1000 < p.periodMin)

/-- The threshold constraint of R83. -/
def Params.crowdOk (p : Params) : Bool := decide (p.crowdOff < p.crowdOn)

/-- The store that would result keeps the constraints of the parameter's owning rule (R35, R63, R83, R162). -/
def constraintsOk (id : Nat) (p : Params) : Bool :=
  if isLaneParam id then p.laneOk && p.trackerOk
  else if isTrackerParam id then p.trackerOk
  else if id = 15 ∨ id = 16 then p.crowdOk
  else true

end Sys2Proof.Machine
end

