-- ==== Sys2Proof/Machine/Port.lean ====
section
/-! DEFINITION. The host command port: taking a command and its response, fetching, and the resets (chapter 9). -/

namespace Sys2Proof.Machine

/-- The outcome of a command of the block: always a next state. -/
abbrev Result := Host.Outcome State Fault Refusal

/-! ## Responses -/

/-- The longest preparation of a response, in µs (R159). -/
def prepareLimit : Nat := 50

/-- A command's response placed in the slot (R158, R159): the slot becomes PREPARING, its previous response is discarded,
a pending soft reset is cancelled (R165). -/
def HostPort.take (now : Time) (x : Response) (p : HostPort) : HostPort :=
  { p with slot := .preparing x (Time.plus now prepareLimit), softReset := false }

/-- A command answered with a response, its other effects being already in the state. -/
def State.answer (s : State) (x : Response) : State := { s with port := s.port.take s.env.now x }

/-- A command answered OK with a payload (R160). -/
def State.ok (s : State) (payload : List Byte) : State := s.answer ⟨.ok, payload⟩

/-- A command answered with a status other than OK: no payload, and no other block changes (R160). -/
def State.reject (s : State) (x : Status) : State := s.answer ⟨x, []⟩

/-- The response under preparation becomes READY (R159); the other slots are unchanged. -/
def Slot.prepared : Slot → Slot
  | .preparing x _ => .ready x
  | .empty => .empty
  | .ready x => .ready x

/-! ## Fetching -/

/-- The bytes a fetch returns after the fetch code, before the 0xFF that follows them (R159, R169). -/
def Slot.bytes : Slot → List Byte
  | .empty => [Status.noSuch.code, 0, 0]
  | .preparing _ _ => [Status.notReady.code]
  | .ready x => x.status.code :: u16 x.payload.length ++ x.payload

/-- What MISO carries in a fetch of some clocked bytes: 0xFF during the fetch code, the slot's bytes, then 0xFF (R159). -/
def misoBytes (slot : Slot) (clocked : Nat) : List Byte :=
  0xFF :: (slot.bytes ++ List.replicate clocked 0xFF).take clocked

/-- A fetch reads the response: the slot is READY and every byte of it is clocked out (R159). -/
def wholeRead (slot : Slot) (clocked : Nat) : Bool :=
  match slot with
  | .ready _ => decide (slot.bytes.length ≤ clocked)
  | .empty | .preparing _ _ => false

/-! ## Resets -/

/-- The levels that the radios drive on their REQ lines (log 16). -/
def reqLevels (b : Blocks) : PerRadio Bool := b.links.map fun k => k.req

/-- A hardware reset (R167): every item of state returns to its reset value; the queue and the REQ inputs are the outside
world's. -/
def hardwareReset (s : State) : State :=
  { State.reset with pending := s.pending, blocks := Blocks.reset (reqLevels s.blocks) }

/-- A soft reset (R166): every block returns to its reset values, except the retained set. -/
def softResetState (s : State) : State :=
  { hardwareReset s with env := ⟨0, .setup, s.env.retained⟩ }

end Sys2Proof.Machine
end

