-- ==== Sys2Proof/WellFormed.lean ====
section
/-! DEFINITION. Which commands are well formed: the facts about a command's operands that its type does not say. -/

namespace Sys2Proof

/-- The subject of a CROWD record is one of the cells 0 … 155 (R84). -/
def CondKey.wf : CondKey → Bool
  | .crowd cell => decide (cell < 156)
  | .oven | .overrun _ | .link _ | .clash _ | .lapse _ | .noChannel _ => true

/-- A capsule, where present, is exactly 24 bytes (R65). -/
def Summary.wf (h : Summary) : Bool :=
  match h.capsule with
  | none => true
  | some c => c.length == 24

/-- A batch carries eight levels (R24, R168), a capsule 24 bytes (R65), a timed event of a condition record a
subject that R84 gives its kind. Every other command's operands are well formed by their types. -/
def Instr.wf : Instr → Bool
  | .samples _ _ levels => levels.length == 8
  | .heard _ h => h.wf
  | .filterTimerExpiry key | .extensionTimerExpiry key => key.wf
  | .powerOnReset | .pinReset | .fetch .. | .responseReady | .malformedCommand .. | .emptyTransaction | .status
  | .readConditions .. | .clearLatch .. | .setReaction .. | .setParameter .. | .getParameter .. | .loadPlanEntry ..
  | .deletePlanEntry .. | .setSpan .. | .setKeepClear .. | .loadOwn .. | .loadSignature .. | .readCells ..
  | .readTracker | .readNeighbours .. | .clearNeighbours | .readRadio .. | .readCosts .. | .move .. | .withdraw ..
  | .restore .. | .run | .setup | .softReset | .hello .. | .keepalive .. | .windowRequest .. | .release ..
  | .tuned .. | .moved .. | .decline .. | .messageDiscarded .. | .messageAbandoned .. | .reqAssertion ..
  | .reqRelease .. | .transmitStart .. | .mark .. | .linkLoss .. | .streamLapse .. | .anchorExpiry | .onsetCheck
  | .neighbourSweep | .reviewTimerExpiry .. | .waitLimitExpiry .. | .grantStart .. | .grantExpiry ..
  | .lastEndedExpiry .. | .holdEnd .. | .directiveLapse .. | .declineHoldExpiry .. | .syncByte .. => true

end Sys2Proof
end

