-- ==== Sys2Proof/Machine/LinkCommands.lean ====
section
/-! DEFINITION. The meanings of what arrives on and leaves by a radio link: the receiver's events, the nine messages, the
edges of REQ, the transmitter's events (R104, R117, R124, R125, R137, R140, R148 to R155). -/

namespace Sys2Proof.Machine

/-- The state with its blocks changed. -/
def State.withBlocks (s : State) (f : Env → Blocks → Blocks) : State := { s with blocks := f s.env s.blocks }

/-! ## The receiver -/

/-- SYNC_BYTE (R148): a receiver that is hunting starts collecting; one that is collecting takes the character as part of
its message. -/
def execSyncByte (r : Radio) (s : State) : Result :=
  .next (s.withBlocks fun _ b => b.modLink r fun k => { k with receiver := .collecting })

/-- MESSAGE_DISCARDED (R148), whichever check failed. -/
def execMessageDiscarded (r : Radio) (_why : DiscardCause) (s : State) : Result :=
  .next (s.withBlocks fun _ b => linkError r b)

/-- MESSAGE_ABANDONED (R148), for either cause. -/
def execMessageAbandoned (r : Radio) (_why : AbandonCause) (s : State) : Result :=
  .next (s.withBlocks fun _ b => linkError r b)

/-! ## Messages -/

/-- HELLO (R152). -/
def execHello (r : Radio) (version : Byte) (bands : BandSet) (width : MaxWidth) (s : State) : Result :=
  .next (s.withBlocks fun env b => takeHello env r version ⟨bands, width⟩ b)

/-- KEEPALIVE (R153, R154): its only effect in UP is the liveness restart. -/
def execKeepalive (r : Radio) (s : State) : Result := .next (s.withBlocks fun env b => receive env r id b)

/-- SAMPLES (R24, R153): a message of another length than eight levels fails step 3 of R148 (log 24). -/
def execSamples (r : Radio) (first : Time) (levels : List (BitVec 16)) (s : State) : Result :=
  .next (s.withBlocks fun env b =>
    if levels.length = 8 then receive env r (takeBatch env r first levels) b else linkError r b)

/-- HEARD (R65, R153): a capsule of another length than 24 bytes fails step 3 of R148 (log 24). -/
def execHeard (r : Radio) (h : Summary) (s : State) : Result :=
  .next (s.withBlocks fun env b => if h.wf then receive env r (takeHeard env r h) b else linkError r b)

/-- WINDOW_REQUEST (R104 to R106, R153). -/
def execWindowRequest (r : Radio) (ask : WindowAsk) (s : State) : Result :=
  .next (s.withBlocks fun env b => receive env r (takeRequest env r ask) b)

/-- RELEASE (R117, R118, R153). -/
def execRelease (r : Radio) (id : Byte) (s : State) : Result :=
  .next (s.withBlocks fun env b => receive env r (takeRelease env r id) b)

/-- A TUNED in UP (R140): discarded with no count while withdrawn (log 32); width 0 reports off; a channel that is not well
formed is a link error. -/
def tunedMessage (env : Env) (r : Radio) (start width : Byte) (b : Blocks) : Blocks :=
  let ch : Channel := ⟨start.toNat, width.toNat⟩
  if (b.chans.get r).withdrawn then b
  else if width.toNat = 0 then takeTuned env r none b
  else if ch.valid then takeTuned env r (some ch) b
  else b.count r LinkCounters.linkError

/-- TUNED (R140, R153). -/
def execTuned (r : Radio) (start width : Byte) (s : State) : Result :=
  .next (s.withBlocks fun env b => receive env r (tunedMessage env r start width) b)

/-- MOVED (R137, R153). -/
def execMoved (r : Radio) (id : Byte) (s : State) : Result :=
  .next (s.withBlocks fun env b => receive env r (takeMoved env r id) b)

/-- DECLINE (R137, R153). -/
def execDecline (r : Radio) (id reason : Byte) (s : State) : Result :=
  .next (s.withBlocks fun env b => receive env r (takeDecline env r id reason) b)

/-! ## REQ -/

/-- The level of REQ after an edge (R155). -/
def setReq (r : Radio) (level : Bool) (b : Blocks) : Blocks := b.modLink r fun k => { k with req := level }

/-- REQ_ASSERTION, a rising edge of REQ (R124, R155): passed through in SETUP (R106). A line already high has no rising
edge (log 16). -/
def execReqAssertion (r : Radio) (s : State) : Result :=
  if (s.blocks.links.get r).req then .next s
  else
    .next (s.withBlocks fun env b =>
      match env.mode with
      | .setup => setReq r true b
      | .run => assertInRun env r (setReq r true b))

/-- REQ_RELEASE, a falling edge of REQ (R125, R155): it ends the radio's hold. A line already low has no falling edge
(log 16). -/
def execReqRelease (r : Radio) (s : State) : Result :=
  if (s.blocks.links.get r).req then .next (s.withBlocks fun env b => finishHold env r (setReq r false b)) else .next s

/-! ## The transmitter -/

/-- TRANSMIT_START (R150): the head of the transmit queue begins to be sent when TXD is free. -/
def execTransmitStart (r : Radio) (s : State) : Result :=
  .next (s.withBlocks fun env b => b.modLink r fun k => k.transmit env.now)

/-- MARK (R150). -/
def execMark (r : Radio) (s : State) : Result := .next (s.withBlocks fun env b => issueMark env r b)

end Sys2Proof.Machine
end

