-- ==== Sys2Proof/Machine/TimedEvents.lean ====
section
/-! DEFINITION. The meanings of the timed events. Each acts when part time has reached its expiry, and changes nothing when
the expiry is absent or lies ahead (log 2). -/

namespace Sys2Proof.Machine

/-! ## Links and lanes -/

/-- The liveness expiry of a link is reached in UP (R154). -/
def lossDue (env : Env) (b : Blocks) (r : Radio) : Bool :=
  (b.links.get r).port == .up && Time.reached (b.links.get r).liveness env.now

/-- LINK_LOSS (R154). -/
def execLinkLoss (r : Radio) (s : State) : Result :=
  .next (s.withBlocks fun env b => if lossDue env b r then loseLink env r b else b)

/-- A lane's stream has lapsed: 100 000 µs have passed since its expected time (R27). -/
def lapseDue (env : Env) (b : Blocks) (r : Radio) : Bool :=
  Time.reached ((b.lanes.get r).expected.map fun t => Time.plus t 100000) env.now

/-- STREAM_LAPSE (R27). -/
def execStreamLapse (r : Radio) (s : State) : Result :=
  .next (s.withBlocks fun env b =>
    if lapseDue env b r then
      b.modLane r fun l => { l.truncate env.retained.params with expected := none }
    else b)

/-! ## The tracker and the survey unit -/

/-- The anchor expiry is reached in SEARCH (R48). -/
def anchorDue (env : Env) (b : Blocks) : Bool :=
  b.tracker.phase == .search && Time.reached (b.tracker.anchor.map fun a => a.expiry) env.now

/-- ANCHOR_EXPIRY (R48). -/
def execAnchorExpiry (s : State) : Result :=
  .next (s.withBlocks fun env b =>
    if anchorDue env b then { b with tracker := { b.tracker with anchor := none } } else b)

/-- The onset check is reached in ACQUIRE, TRACK or COAST (R51, R55, R56). -/
def checkDue (env : Env) (b : Blocks) : Bool := b.tracker.phase != .search && Time.reached b.tracker.check env.now

/-- ONSET_CHECK (R51, R55, R56, R59). -/
def execOnsetCheck (s : State) : Result :=
  .next (s.withBlocks fun env b =>
    if checkDue env b then trackerEvent env ⟨b.tracker.onsetChecked env.retained.params, true⟩ b else b)

/-- The next sweep is reached (R74). -/
def sweepDue (env : Env) (b : Blocks) : Bool := Time.atOrBefore b.survey.nextSweep env.now

/-- NEIGHBOUR_SWEEP (R74). -/
def execNeighbourSweep (s : State) : Result :=
  .next (s.withBlocks fun env b => if sweepDue env b then b.modSurvey (SurveyUnit.sweep env) else b)

/-! ## Condition records -/

/-- FILTER_TIMER_EXPIRY of the record of a key (R89, R101). -/
def execFilterTimerExpiry (key : CondKey) (s : State) : Result :=
  .next (s.withBlocks fun env b => monitorEvent env (Monitor.filterExpires env key) b)

/-- EXTENSION_TIMER_EXPIRY of the record of a key (R92, R101). -/
def execExtensionTimerExpiry (key : CondKey) (s : State) : Result :=
  .next (s.withBlocks fun env b => monitorEvent env (Monitor.extensionExpires env key) b)

/-! ## The grant scheduler -/

/-- REVIEW_TIMER_EXPIRY of an air (R111, R113). -/
def execReviewTimerExpiry (a : AirId) (s : State) : Result :=
  .next (s.withBlocks fun env b => if Time.reached (b.air a).review env.now then reviewAir env a b else b)

/-- The waiting request of an id whose wait limit has expired (R114). -/
def expiredWait (env : Env) (b : Blocks) (r : Radio) (id : Byte) : Option Request :=
  (b.sched.radios.get r).waits.find? fun q => q.id == id && Time.reached q.waitExpiry env.now

/-- The hint of a RETRY(WAIT): the finder's start, 0 when the request is unplaceable or its radio is in no air (R114). -/
def waitHint (env : Env) (b : Blocks) (q : Request) : Time :=
  match airOf env b q.radio with
  | none => 0
  | some a => ((findWindow env b (b.air a) q).map fun p => p.start).getD 0

/-- WAIT_LIMIT_EXPIRY of a waiting request (R114). -/
def execWaitLimitExpiry (r : Radio) (id : Byte) (s : State) : Result :=
  .next (s.withBlocks fun env b =>
    match expiredWait env b r id with
    | none => b
    | some q => (b.modSched r fun x => x.dropWait id).sendRetry r id .wait (waitHint env b q))

/-- An air's SCHEDULED grant has reached its start (R116). -/
def startDue (env : Env) (b : Blocks) (a : AirId) : Bool :=
  match (b.air a).grant with
  | none => false
  | some g => g.state == .scheduled && Time.atOrBefore g.start env.now

/-- GRANT_START of an air's grant (R116). -/
def execGrantStart (a : AirId) (s : State) : Result :=
  .next (s.withBlocks fun env b =>
    if startDue env b a then
      b.modAir a fun x => { x with grant := x.grant.map fun g => { g with state := .active } }
    else b)

/-- A radio's air grant has the id and has reached its end (R118). -/
def grantDue (env : Env) (b : Blocks) (r : Radio) (id : Byte) : Bool :=
  match grantOf b r with
  | none => false
  | some g => g.id == id && Time.atOrBefore g.stop env.now

/-- The pass-through grant of an id that has reached its end (R118). -/
def expiredPass (env : Env) (b : Blocks) (r : Radio) (id : Byte) : Option Grant :=
  (b.sched.radios.get r).passThrough.find? fun g => g.id == id && Time.atOrBefore g.stop env.now

/-- The end of an air grant by expiry (R118): the last ended record is set with the grant's end, the air is reviewed. -/
def expireGrant (env : Env) (r : Radio) (b : Blocks) : Blocks :=
  match grantAir b r, grantOf b r with
  | some a, some g => reviewAir env a ((dropGrant a b).setLastEnded r g.id g.stop .expiry)
  | _, _ => b

/-- The end of a pass-through grant by expiry (R106, R118). -/
def expirePass (r : Radio) (g : Grant) (b : Blocks) : Blocks :=
  (b.modSched r fun x => { x with passThrough := x.passThrough.filter fun h => h.id != g.id }).setLastEnded r g.id
    g.stop .expiry

/-- GRANT_EXPIRY of a radio's grant with an id (R118). -/
def execGrantExpiry (r : Radio) (id : Byte) (s : State) : Result :=
  .next (s.withBlocks fun env b =>
    if grantDue env b r id then expireGrant env r b
    else
      match expiredPass env b r id with
      | none => b
      | some g => expirePass r g b)

/-- A radio's last ended record is 1 000 000 µs past its end (R118). -/
def lastEndedDue (env : Env) (b : Blocks) (r : Radio) : Bool :=
  Time.reached ((b.sched.radios.get r).lastEnded.map fun e => Time.plus e.stop 1000000) env.now

/-- LAST_ENDED_EXPIRY (R118). -/
def execLastEndedExpiry (r : Radio) (s : State) : Result :=
  .next (s.withBlocks fun env b =>
    if lastEndedDue env b r then b.modSched r fun x => { x with lastEnded := none } else b)

/-- An air's hold has reached its end (R125). -/
def holdDue (env : Env) (b : Blocks) (a : AirId) : Bool := Time.reached ((b.air a).hold.map fun h => h.stop) env.now

/-- HOLD_END of an air's hold (R125): the hold is removed and the air reviewed. -/
def execHoldEnd (a : AirId) (s : State) : Result :=
  .next (s.withBlocks fun env b =>
    if holdDue env b a then reviewAir env a (b.modAir a fun x => { x with hold := none }) else b)

/-! ## The directive controller -/

/-- DIRECTIVE_LAPSE of a radio's pending directive (R139). -/
def execDirectiveLapse (r : Radio) (s : State) : Result := .next (s.withBlocks fun env b => takeLapse env r b)

/-- A declined entry has reached its hold expiry (R137). -/
def declineDue (env : Env) (b : Blocks) (r : Radio) : Bool :=
  Time.reached ((b.chans.get r).declined.map fun d => d.expiry) env.now

/-- DECLINE_HOLD_EXPIRY (R137). -/
def execDeclineHoldExpiry (r : Radio) (s : State) : Result :=
  .next (s.withBlocks fun env b => if declineDue env b r then b.modChan r fun c => { c with declined := none } else b)

end Sys2Proof.Machine
end

