-- ==== Sys2Proof/Machine/Clock.lean ====
section
/-! DEFINITION. What the part does on an empty queue (log 1): the timed commands that are due now are put into the queue, and
where none is due part time advances by 1 µs. -/

namespace Sys2Proof.Machine

/-- A command when it is due. -/
def whenDue (due : Bool) (i : Instr) : List Instr := if due then [i] else []

/-- The host port's response has been in preparation for its longest time (R159). -/
def readyDue (env : Env) (p : HostPort) : Bool :=
  match p.slot with
  | .preparing _ t => Time.atOrBefore t env.now
  | .empty | .ready _ => false

/-- A record's timer as the command of its expiry, when reached (R89, R92). -/
def recordDue (env : Env) (c : CondRecord) : List Instr :=
  match c.state with
  | .pending => whenDue (Time.reached c.timer env.now) (.filterTimerExpiry c.key)
  | .extending => whenDue (Time.reached c.timer env.now) (.extensionTimerExpiry c.key)
  | .active | .latched | .resolved => []

/-- A directive's timeout is reached (R139). -/
def directiveDue (env : Env) (b : Blocks) (r : Radio) : Bool :=
  Time.reached ((b.chans.get r).directive.map fun d => d.expiry) env.now

/-- The grants of a radio that have reached their end (R118). -/
def endedGrants (env : Env) (b : Blocks) (r : Radio) : List Instr :=
  let mine := (grantOf b r).toList ++ (b.sched.radios.get r).passThrough
  mine.flatMap fun g => whenDue (Time.atOrBefore g.stop env.now) (.grantExpiry r g.id)

/-- The waiting requests of a radio whose wait limit has expired (R114). -/
def endedWaits (env : Env) (b : Blocks) (r : Radio) : List Instr :=
  (b.sched.radios.get r).waits.flatMap fun q => whenDue (Time.reached q.waitExpiry env.now) (.waitLimitExpiry r q.id)

/-- The timed commands that are due, ends before starts (log 1). -/
def dueCommands (env : Env) (p : HostPort) (b : Blocks) : List Instr :=
  whenDue (readyDue env p) .responseReady
    ++ radios.flatMap (fun r => whenDue (lossDue env b r) (.linkLoss r))
    ++ radios.flatMap (fun r => whenDue (directiveDue env b r) (.directiveLapse r))
    ++ radios.flatMap (fun r => whenDue (declineDue env b r) (.declineHoldExpiry r))
    ++ radios.flatMap (fun r => whenDue (lapseDue env b r) (.streamLapse r))
    ++ whenDue (anchorDue env b) .anchorExpiry
    ++ whenDue (checkDue env b) .onsetCheck
    ++ whenDue (sweepDue env b) .neighbourSweep
    ++ b.monitor.list.flatMap (recordDue env)
    ++ airIds.flatMap (fun a => whenDue (holdDue env b a) (.holdEnd a))
    ++ radios.flatMap (endedGrants env b)
    ++ airIds.flatMap (fun a => whenDue (startDue env b a) (.grantStart a))
    ++ radios.flatMap (endedWaits env b)
    ++ airIds.flatMap (fun a => whenDue (Time.reached (b.air a).review env.now) (.reviewTimerExpiry a))
    ++ radios.flatMap (fun r => whenDue (lastEndedDue env b r) (.lastEndedExpiry r))
    ++ radios.flatMap (fun r => whenDue (markDue env.now (b.links.get r)) (.mark r))
    ++ radios.flatMap (fun r => whenDue (canSend env.now (b.links.get r)) (.transmitStart r))

/-- The state one microsecond later: part time counts, and the lines that became free before are idle (R150). -/
def State.tick (s : State) : State :=
  let now := Time.plus s.env.now 1
  { s with
    env := { s.env with now := now }
    blocks := { s.blocks with links := s.blocks.links.map (Link.idleLine now) } }

/-- The step on an empty queue (log 1). -/
def idleStep (s : State) : State :=
  match dueCommands s.env s.port s.blocks with
  | [] => s.tick
  | due => { s with pending := due }

end Sys2Proof.Machine
end

