-- ==== Sys2Proof/Machine/ConfigCommands.lean ====
section
/-! DEFINITION. The meanings of the host commands that configure the part: reactions, parameters, plan, spans, own-network
list, signature filters (R9 to R12, R67, R68, R85, R162). -/

namespace Sys2Proof.Machine

/-- The state with the retained set changed. -/
def State.modRetained (s : State) (f : Retained → Retained) : State :=
  { s with env := { s.env with retained := f s.env.retained } }

/-- The reaction configuration with that of one configurable kind replaced (R85); the fixed kinds have none. -/
def Reactions.set (x : Reactions) (kind : CondKind) (c : ReactionConfig) : Reactions :=
  match kind with
  | .oven => { x with oven := c }
  | .crowd => { x with crowd := c }
  | .overrun => { x with overrun := c }
  | .link | .clash | .lapse | .noChannel => x

/-- The configuration that the arguments of SET REACTION give; none when one of the checks of R85 fails. -/
def reactionArgs (kind reaction scope : Byte) (filter extension : BitVec 16) : Option (CondKind × ReactionConfig) :=
  match kindOf kind, reactionOf reaction, scopeOf scope with
  | some k, some x, some c =>
    if CondKind.allows k x ∧ filter.toNat ≤ 60000 ∧ extension.toNat ≤ 60000 then
      some (k, ⟨x, c, filter.toNat, extension.toNat⟩)
    else none
  | _, _, _ => none

/-- SET_REACTION (R85), in both modes. -/
def execSetReaction (kind reaction scope : Byte) (filter extension : BitVec 16) (s : State) : Result :=
  match reactionArgs kind reaction scope filter extension with
  | none => .next (s.reject .badArgument)
  | some (k, c) => .next ((s.modRetained fun x => { x with reactions := x.reactions.set k c }).ok [])

/-- SET_PARAMETER (R162): id, mode, range and constraints in this order; an accepted lane or tracker parameter returns the
tracker to SEARCH (R43). -/
def execSetParameter (id : Byte) (value : BitVec 32) (s : State) : Result :=
  let p := s.env.retained.params
  let n := id.toNat
  let v := value.toNat
  if (p.read n).isNone then .next (s.reject .badArgument)
  else if setupOnly n ∧ s.env.mode = .run then .next (s.reject .wrongMode)
  else if !inRange n v || !constraintsOk n (p.write n v) then .next (s.reject .badArgument)
  else
    let t := s.modRetained fun x => { x with params := p.write n v }
    if setupOnly n then
      .next ({ t with blocks := trackerEvent t.env ⟨s.blocks.tracker.toSearch, true⟩ s.blocks }.ok [])
    else .next (t.ok [])

/-- GET_PARAMETER (R162), in both modes: the id and the present value. -/
def execGetParameter (id : Byte) (s : State) : Result :=
  match s.env.retained.params.read id.toNat with
  | none => .next (s.reject .badArgument)
  | some v => .next (s.ok ([id] ++ leBytes 4 v))

/-- The entry that the arguments of LOAD PLAN ENTRY give; none when one of the checks of R9 fails. -/
def planArgs (id start width mask : Byte) : Option PlanEntry :=
  let c : Channel := ⟨start.toNat, width.toNat⟩
  if id.toNat < 64 ∧ start.toNat < cellCount ∧ (width = 4 ∨ width = 8 ∨ width = 16) ∧ mask.toNat ≠ 0 ∧ mask.toNat < 8
      ∧ c.valid then
    some ⟨id.toNat, c, mask⟩
  else none

/-- The plan with an entry stored under its id, in ascending id order (R9). -/
def storeEntry (e : PlanEntry) : List PlanEntry → List PlanEntry
  | [] => [e]
  | x :: xs => if e.id < x.id then e :: x :: xs else if e.id = x.id then e :: xs else x :: storeEntry e xs

/-- LOAD_PLAN_ENTRY (R9). -/
def execLoadPlanEntry (id start width mask : Byte) (s : State) : Result :=
  if s.env.mode = .run then .next (s.reject .wrongMode)
  else
    match planArgs id start width mask with
    | none => .next (s.reject .badArgument)
    | some e => .next ((s.modRetained fun x => { x with plan := storeEntry e x.plan }).ok [])

/-- The plan entry of an id. -/
def findEntry (plan : List PlanEntry) (id : Nat) : Option PlanEntry := plan.find? fun e => e.id == id

/-- DELETE_PLAN_ENTRY (R10). -/
def execDeletePlanEntry (id : Byte) (s : State) : Result :=
  if s.env.mode = .run then .next (s.reject .wrongMode)
  else if 64 ≤ id.toNat then .next (s.reject .badArgument)
  else if (findEntry s.env.retained.plan id.toNat).isNone then .next (s.reject .noSuch)
  else .next ((s.modRetained fun x => { x with plan := x.plan.filter fun e => e.id != id.toNat }).ok [])

/-- A span from two cell arguments; none when one lies outside 0 … 155 (R11, R12). -/
def spanArgs (base limit : Byte) : Option Span :=
  match cellOf base, cellOf limit with
  | some x, some y => some ⟨x, y⟩
  | _, _ => none

/-- SET_SPAN (R11). -/
def execSetSpan (radio base limit : Byte) (s : State) : Result :=
  if s.env.mode = .run then .next (s.reject .wrongMode)
  else
    match radioOf radio, spanArgs base limit with
    | some r, some x => .next ((s.modRetained fun y => { y with spans := y.spans.set r x }).ok [])
    | _, _ => .next (s.reject .badArgument)

/-- SET_KEEP_CLEAR (R12): an event under R5. -/
def execSetKeepClear (base limit : Byte) (s : State) : Result :=
  if s.env.mode = .run then .next (s.reject .wrongMode)
  else
    match spanArgs base limit with
    | none => .next (s.reject .badArgument)
    | some x =>
      let t := s.modRetained fun y => { y with keepClear := x }
      .next ({ t with blocks := settleMonitor s.env s.blocks.monitor t.env s.blocks }.ok [])

/-- LOAD_OWN (R67, R169): a loaded BSS id leaves the neighbour table. -/
def execLoadOwn (index flag : Byte) (bss : BssId) (s : State) : Result :=
  if 16 ≤ index.toNat then .next (s.reject .badArgument)
  else
    match flagOf flag with
    | none => .next (s.reject .badArgument)
    | some present =>
      let entry := if present then some bss else none
      let t := s.modRetained fun x => { x with ownList := x.ownList.set index.toNat entry }
      let drop := fun (u : SurveyUnit) => if present then { u with table := dropNeighbour u.table bss } else u
      .next ({ t with blocks := t.blocks.modSurvey drop }.ok [])

/-- LOAD_SIGNATURE (R68, R169). -/
def execLoadSignature (index enable : Byte) (mask : BitVec 24) (expected : BitVec 16) (action : Byte) (s : State) :
    Result :=
  if 4 ≤ index.toNat then .next (s.reject .badArgument)
  else
    match flagOf enable, actionOf action with
    | some x, some a =>
      let f : SigFilter := ⟨x, mask, expected, a⟩
      .next ((s.modRetained fun y => { y with filters := y.filters.set index.toNat f }).ok [])
    | _, _ => .next (s.reject .badArgument)

end Sys2Proof.Machine
end

