-- ==== Sys2Proof/Machine/ControlCommands.lean ====
section
/-! DEFINITION. The meanings of the host commands that act on radios and on the mode (R99, R126, R127, R135, R145, R146,
R163, R164). -/

namespace Sys2Proof.Machine

/-! ## MOVE -/

/-- A host MOVE issued for an entry (R135, R136): OK with the outcome ISSUED, or WRONG_STATE when the reservation is
refused. -/
def issueHostMove (r : Radio) (e : PlanEntry) (cost : Nat) (s : State) : State :=
  match issueMove s.env r e .host s.blocks with
  | none => s.reject .wrongState
  | some b => { s with blocks := b }.ok (u8 1 ++ [(s.blocks.chans.get r).nextId] ++ u8 e.id ++ u16 cost)

/-- A host MOVE to a named entry (R135). -/
def moveNamed (r : Radio) (id : Nat) (s : State) : State :=
  match findEntry s.env.retained.plan id with
  | none => s.reject .noSuch
  | some e =>
    if (unavailable s.env s.blocks r e).isSome then s.reject .badArgument
    else issueHostMove r e (channelCost s.env s.blocks e.chan) s

/-- The radio is kept where it is: the best cost and the hysteresis exceed its current cost (R135). -/
def keepsChannel (env : Env) (b : Blocks) (r : Radio) (best : Nat) : Option Nat :=
  match currentCost env b r with
  | none => none
  | some now => if now < best + env.retained.params.moveHysteresis then some now else none

/-- A host MOVE BEST (R135). -/
def moveBest (r : Radio) (s : State) : State :=
  match chooseEntry s.env s.blocks r with
  | none => s.reject .noSuch
  | some (e, c) =>
    match keepsChannel s.env s.blocks r c with
    | some now => s.ok (u8 0 ++ u8 e.id ++ u16 c ++ u16 now)
    | none => issueHostMove r e c s

/-- MOVE (R135): the first row of its table that applies. -/
def execMove (radio entry : Byte) (s : State) : Result :=
  match radioOf radio, moveTargetOf entry with
  | some r, some x =>
    if s.env.mode = .setup then .next (s.reject .wrongMode)
    else if (s.blocks.chans.get r).directive.isSome then .next (s.reject .busy)
    else if cannotDirect s.blocks r then .next (s.reject .wrongState)
    else
      match x with
      | .entry id => .next (moveNamed r id s)
      | .best => .next (moveBest r s)
  | _, _ => .next (s.reject .badArgument)

/-! ## WITHDRAW and RESTORE -/

/-- WITHDRAW (R145): no effect on a radio already withdrawn. -/
def execWithdraw (radio : Byte) (s : State) : Result :=
  match radioOf radio with
  | none => .next (s.reject .badArgument)
  | some r =>
    if (s.blocks.chans.get r).withdrawn then .next (s.ok [])
    else .next ({ s with blocks := withdrawRadio s.env r s.blocks }.ok [])

/-- RESTORE (R146). -/
def execRestore (radio : Byte) (s : State) : Result :=
  match radioOf radio with
  | none => .next (s.reject .badArgument)
  | some r => .next ({ s with blocks := s.blocks.modChan r fun c => { c with withdrawn := false } }.ok [])

/-! ## Mode changes -/

/-- The radio-kind sources of a radio with their presence as they stand, in the order OVERRUN, LINK, CLASH, LAPSE,
NOCHANNEL (R87, R99). -/
def radioSources (b : Blocks) (r : Radio) : List (CondKey × Bool) :=
  let c := b.chans.get r
  [(.overrun r, (b.sched.radios.get r).overrun), (.link r, (b.links.get r).linkSource), (.clash r, c.clash),
    (.lapse r, c.lapseSource), (.noChannel r, (c.moveWait.map fun w => w.noEntry).getD false)]

/-- Fresh reports of every radio-kind source, of radio 0, then 1, then 2 (R99). -/
def freshReports (env : Env) (b : Blocks) : Blocks :=
  (radios.flatMap (radioSources b)).foldl (fun b x => b.report env x.1 x.2) b

/-- The condition list emptied; the overflow flag and the last footprint range are kept (R99). -/
def Monitor.emptied (m : Monitor) : Monitor := { m with list := [] }

/-- The entry to RUN from SETUP (R99, R127, R163): the list is emptied with no report, fresh source reports are taken, the
pass-through grants are cut and each radio joins its air. -/
def enterRun (s : State) : State :=
  let env := { s.env with mode := .run }
  let b := freshReports env { s.blocks with monitor := s.blocks.monitor.emptied }
  { s with env := env, blocks := schedToRun env b }

/-- The entry to SETUP from RUN (R99, R126, R134, R164): move waits end, the list is emptied with its guard change and
shaping reports, fresh source reports are taken, grants and requests become pass-through grants. -/
def enterSetup (s : State) : State :=
  let env := { s.env with mode := .setup }
  let b := radios.foldl (fun b r => endMoveWait env r b) s.blocks
  let b := settleMonitor s.env b.monitor env { b with monitor := b.monitor.emptied }
  let b := freshReports env b
  { s with env := env, blocks := schedToSetup env b }

/-- RUN (R163): no effect in RUN. -/
def execRun (s : State) : Result :=
  match s.env.mode with
  | .run => .next (s.ok [])
  | .setup => .next ((enterRun s).ok [])

/-- SETUP (R164): no effect in SETUP. -/
def execSetup (s : State) : Result :=
  match s.env.mode with
  | .setup => .next (s.ok [])
  | .run => .next ((enterSetup s).ok [])

end Sys2Proof.Machine
end

