-- ==== Sys2Proof/Machine/ReadCommands.lean ====
section
/-! DEFINITION. The meanings of the host commands that read the part or clear what has been read (R7, R40, R64, R76, R82,
R93, R95, R129, R147, R157, R161). -/

namespace Sys2Proof.Machine

/-- STATUS (R161): the overflow flag is cleared after its value has been placed in the response (R88). -/
def execStatus (s : State) : Result :=
  let b := { s.blocks with monitor := { s.blocks.monitor with overflow := false } }
  .next ({ s with blocks := b }.ok (statusPayload s.env s.blocks))

/-- The list after a read of some positions (R95): unread is cleared on every returned record, and the returned RESOLVED
records are removed. -/
def Monitor.markRead (first count : Nat) (m : Monitor) : Monitor :=
  let seen := (page m.list first count).filter fun c => c.state != .resolved
  { m with
    list := m.list.take first ++ seen.map (fun c => { c with unread := false }) ++ (m.list.drop first).drop count }

/-- READ_CONDITIONS (R95). -/
def execReadConditions (first count : Byte) (s : State) : Result :=
  if first.toNat < 32 ∧ 1 ≤ count.toNat ∧ count.toNat ≤ 8 then
    let b := monitorEvent s.env (Monitor.markRead first.toNat count.toNat) s.blocks
    .next ({ s with blocks := b }.ok (conditionsPayload s.blocks.monitor first.toNat count.toNat))
  else .next (s.reject .badArgument)

/-- CLEAR_LATCH (R93): the removal is an event under R5. -/
def execClearLatch (kind subject : Byte) (s : State) : Result :=
  match (kindOf kind).bind fun k => keyOf k subject with
  | none => .next (s.reject .badArgument)
  | some key =>
    match s.blocks.monitor.find key with
    | none => .next (s.reject .noSuch)
    | some c =>
      if c.state = .latched then
        let remove := fun (m : Monitor) => { m with list := updateKey key (fun _ => none) m.list }
        .next ({ s with blocks := monitorEvent s.env remove s.blocks }.ok [])
      else .next (s.reject .wrongState)

/-- READ_CELLS (R7). -/
def execReadCells (first count : Byte) (s : State) : Result :=
  if first.toNat < cellCount ∧ 1 ≤ count.toNat ∧ count.toNat ≤ 32 then
    .next (s.ok (cellsPayload s.env s.blocks first.toNat count.toNat))
  else .next (s.reject .badArgument)

/-- READ_TRACKER (R64). -/
def execReadTracker (s : State) : Result := .next (s.ok (trackerPayload s.env.retained.params s.blocks.tracker))

/-- READ_NEIGHBOURS (R76). -/
def execReadNeighbours (first count : Byte) (s : State) : Result :=
  if first.toNat < tableLimit ∧ 1 ≤ count.toNat ∧ count.toNat ≤ 8 then
    .next (s.ok (neighboursPayload s.blocks.survey first.toNat count.toNat))
  else .next (s.reject .badArgument)

/-- CLEAR_NEIGHBOURS (R76): the counters and the sweep times stand. -/
def execClearNeighbours (s : State) : Result :=
  .next ({ s with blocks := s.blocks.modSurvey fun u => { u with table := [] } }.ok [])

/-- The counters that READ RADIO's clear flag sets to zero: the six class counters and the thirteen (R40, R157). -/
def clearCounters (r : Radio) (b : Blocks) : Blocks :=
  (b.modLane r fun l => { l with counters := ⟨0, 0, 0, 0, 0, 0⟩ }).count r fun _ => LinkCounters.zero

/-- READ_RADIO (R40, R129, R147, R157): the counters are cleared after they have been placed in the response. -/
def execReadRadio (radio clear : Byte) (s : State) : Result :=
  match radioOf radio, flagOf clear with
  | some r, some x =>
    let b := if x then clearCounters r s.blocks else s.blocks
    .next ({ s with blocks := b }.ok (radioPayload s.env s.blocks r))
  | _, _ => .next (s.reject .badArgument)

/-- READ_COSTS (R82). -/
def execReadCosts (radio : Byte) (s : State) : Result :=
  match radioOf radio with
  | none => .next (s.reject .badArgument)
  | some r => .next (s.ok (costsPayload s.env s.blocks r))

end Sys2Proof.Machine
end

