-- ==== Sys2Proof/Machine/Transactions.lean ====
section
/-! DEFINITION. The meanings of the reset events and of the host port's own transactions (R158, R159, R165 to R167). -/

namespace Sys2Proof.Machine

/-- POWER_ON_RESET: the supply rises through its threshold (R167). -/
def execPowerOnReset (s : State) : Result := .next (hardwareReset s)

/-- PIN_RESET: RESET_N is driven low and released (R167; log 18). -/
def execPinReset (s : State) : Result := .next (hardwareReset s)

/-- The port after a fetch that does not end a soft reset (R159): MISO carried the slot's bytes, and a whole read empties
the slot. -/
def HostPort.fetched (clocked : Nat) (p : HostPort) : HostPort :=
  { p with
    slot := if wholeRead p.slot clocked then .empty else p.slot
    miso := misoBytes p.slot clocked }

/-- FETCH of some clocked bytes after the fetch code (R159): a whole read of the response of a SOFT RESET makes the soft
reset take effect at the end of the transaction (R165, R166; the bytes returned stay on record, log 13). -/
def execFetch (clocked : Nat) (s : State) : Result :=
  if wholeRead s.port.slot clocked && s.port.softReset then
    let t := softResetState s
    .next { t with port := { t.port with miso := misoBytes s.port.slot clocked } }
  else .next { s with port := s.port.fetched clocked }

/-- RESPONSE_READY: the preparation of a command's response completes (R159). -/
def execResponseReady (s : State) : Result := .next { s with port := { s.port with slot := s.port.slot.prepared } }

/-- MALFORMED_COMMAND: taken with no effect and answered BAD_ARGUMENT, whatever the fault of the frame (R158). -/
def execMalformedCommand (_why : FrameFault) (s : State) : Result := .next (s.reject .badArgument)

/-- EMPTY_TRANSACTION: ignored (R158). -/
def execEmptyTransaction (s : State) : Result := .next s

/-- SOFT_RESET: a pending soft reset is recorded, and the response OK is prepared (R165). -/
def execSoftReset (s : State) : Result :=
  let t := s.ok []
  .next { t with port := { t.port with softReset := true } }

end Sys2Proof.Machine
end

