-- ==== Sys2Proof/Machine/Dispatch.lean ====
section
/-! DEFINITION. One arm for each command: a direct call of its meaning. -/

namespace Sys2Proof.Machine

def exec (i : Instr) (s : State) : Host.Outcome State Fault Refusal :=
  match i with
  | .powerOnReset => Sys2Proof.Machine.execPowerOnReset s
  | .pinReset => Sys2Proof.Machine.execPinReset s
  | .fetch clocked => Sys2Proof.Machine.execFetch clocked s
  | .responseReady => Sys2Proof.Machine.execResponseReady s
  | .malformedCommand why => Sys2Proof.Machine.execMalformedCommand why s
  | .emptyTransaction => Sys2Proof.Machine.execEmptyTransaction s
  | .status => Sys2Proof.Machine.execStatus s
  | .readConditions first count => Sys2Proof.Machine.execReadConditions first count s
  | .clearLatch kind subject => Sys2Proof.Machine.execClearLatch kind subject s
  | .setReaction kind reaction scope filter extension => Sys2Proof.Machine.execSetReaction kind reaction scope filter extension s
  | .setParameter id value => Sys2Proof.Machine.execSetParameter id value s
  | .getParameter id => Sys2Proof.Machine.execGetParameter id s
  | .loadPlanEntry id start width mask => Sys2Proof.Machine.execLoadPlanEntry id start width mask s
  | .deletePlanEntry id => Sys2Proof.Machine.execDeletePlanEntry id s
  | .setSpan radio base limit => Sys2Proof.Machine.execSetSpan radio base limit s
  | .setKeepClear base limit => Sys2Proof.Machine.execSetKeepClear base limit s
  | .loadOwn index flag bss => Sys2Proof.Machine.execLoadOwn index flag bss s
  | .loadSignature index enable mask expected action => Sys2Proof.Machine.execLoadSignature index enable mask expected action s
  | .readCells first count => Sys2Proof.Machine.execReadCells first count s
  | .readTracker => Sys2Proof.Machine.execReadTracker s
  | .readNeighbours first count => Sys2Proof.Machine.execReadNeighbours first count s
  | .clearNeighbours => Sys2Proof.Machine.execClearNeighbours s
  | .readRadio radio clear => Sys2Proof.Machine.execReadRadio radio clear s
  | .readCosts radio => Sys2Proof.Machine.execReadCosts radio s
  | .move radio entry => Sys2Proof.Machine.execMove radio entry s
  | .withdraw radio => Sys2Proof.Machine.execWithdraw radio s
  | .restore radio => Sys2Proof.Machine.execRestore radio s
  | .run => Sys2Proof.Machine.execRun s
  | .setup => Sys2Proof.Machine.execSetup s
  | .softReset => Sys2Proof.Machine.execSoftReset s
  | .hello r version bands width => Sys2Proof.Machine.execHello r version bands width s
  | .keepalive r => Sys2Proof.Machine.execKeepalive r s
  | .samples r first levels => Sys2Proof.Machine.execSamples r first levels s
  | .heard r summary => Sys2Proof.Machine.execHeard r summary s
  | .windowRequest r ask => Sys2Proof.Machine.execWindowRequest r ask s
  | .release r id => Sys2Proof.Machine.execRelease r id s
  | .tuned r start width => Sys2Proof.Machine.execTuned r start width s
  | .moved r id => Sys2Proof.Machine.execMoved r id s
  | .decline r id reason => Sys2Proof.Machine.execDecline r id reason s
  | .messageDiscarded r why => Sys2Proof.Machine.execMessageDiscarded r why s
  | .messageAbandoned r why => Sys2Proof.Machine.execMessageAbandoned r why s
  | .reqAssertion r => Sys2Proof.Machine.execReqAssertion r s
  | .reqRelease r => Sys2Proof.Machine.execReqRelease r s
  | .transmitStart r => Sys2Proof.Machine.execTransmitStart r s
  | .mark r => Sys2Proof.Machine.execMark r s
  | .linkLoss r => Sys2Proof.Machine.execLinkLoss r s
  | .streamLapse r => Sys2Proof.Machine.execStreamLapse r s
  | .anchorExpiry => Sys2Proof.Machine.execAnchorExpiry s
  | .onsetCheck => Sys2Proof.Machine.execOnsetCheck s
  | .neighbourSweep => Sys2Proof.Machine.execNeighbourSweep s
  | .filterTimerExpiry key => Sys2Proof.Machine.execFilterTimerExpiry key s
  | .extensionTimerExpiry key => Sys2Proof.Machine.execExtensionTimerExpiry key s
  | .reviewTimerExpiry air => Sys2Proof.Machine.execReviewTimerExpiry air s
  | .waitLimitExpiry r id => Sys2Proof.Machine.execWaitLimitExpiry r id s
  | .grantStart air => Sys2Proof.Machine.execGrantStart air s
  | .grantExpiry r id => Sys2Proof.Machine.execGrantExpiry r id s
  | .lastEndedExpiry r => Sys2Proof.Machine.execLastEndedExpiry r s
  | .holdEnd air => Sys2Proof.Machine.execHoldEnd air s
  | .directiveLapse r => Sys2Proof.Machine.execDirectiveLapse r s
  | .declineHoldExpiry r => Sys2Proof.Machine.execDeclineHoldExpiry r s
  | .syncByte r => Sys2Proof.Machine.execSyncByte r s

end Sys2Proof.Machine
end

