-- ==== Sys2Proof/Safety.lean ====
section
/-! DEFINITION. What a sound state is: the laws that the spec states of the whole part at all times (R1 to R3, R8, R11, R12,
R35, R41, R47, R57, R61, R63, R71, R83, R85, R86, R97, R107, R150, R162), as predicates over the state. -/

namespace Sys2Proof.Machine

/-! ## The retained set -/

/-- Every parameter lies in its range (section 9.3), and the constraints between parameters hold (R35, R63, R83). -/
def Params.sound (p : Params) : Bool :=
  ((List.range 35).all fun id => ((p.read id).map (inRange id)).getD true) && p.laneOk && p.trackerOk && p.crowdOk

/-- A plan entry that may be present: an id 0 … 63, a valid channel, a mask of one to three radios (R8). -/
def PlanEntry.sound (e : PlanEntry) : Bool :=
  decide (e.id < 64) && e.chan.valid && decide (e.mask.toNat ≠ 0) && decide (e.mask.toNat < 8)

/-- A span's base and limit are cells 0 … 155 (R11, R12). -/
def Span.sound (x : Span) : Bool := decide (x.base < cellCount) && decide (x.limit < cellCount)

/-- The configuration of a kind holds a reaction that R84 allows it, and times of 0 … 60 000 ms (R85). -/
def ReactionConfig.sound (k : CondKind) (c : ReactionConfig) : Bool :=
  CondKind.allows k c.reaction && decide (c.filter ≤ 60000) && decide (c.extension ≤ 60000)

/-- The retained set keeps the laws of R8, R11, R12, R67, R68, R85 and R162. -/
structure Retained.Sound (x : Retained) : Prop where
  params : x.params.sound = true
  entries : ∀ e ∈ x.plan, e.sound = true
  ids : (x.plan.map PlanEntry.id).Pairwise (· < ·)
  spans : ∀ r, (x.spans.get r).sound = true
  keepClear : x.keepClear.sound = true
  own : x.ownList.length = 16
  filters : x.filters.length = 4
  oven : x.reactions.oven.sound .oven = true
  crowd : x.reactions.crowd.sound .crowd = true
  overrun : x.reactions.overrun.sound .overrun = true

/-! ## The spectrum map and the channel states -/

/-- The holder and the two marks of a cell agree (R1), and its score lies in 0 … 255 (R6). -/
def CellRecord.sound (c : CellRecord) : Bool := (c.holder.isNone == (!c.current && !c.target)) && decide (c.score ≤ 255)

/-- Every cell of a channel is held by a radio with the current mark set (R3). -/
def holdsCurrent (cells : List CellRecord) (r : Radio) (ch : Channel) : Bool :=
  channelAll cells ch fun _ c => c.holder == some r && c.current

/-- Every cell of a channel is held by a radio with the target mark set (R13). -/
def holdsTarget (cells : List CellRecord) (r : Radio) (ch : Channel) : Bool :=
  channelAll cells ch fun _ c => c.holder == some r && c.target

/-- What a radio's channel state says of the map: the relation of R3, a pending directive's target (R13), and that a radio
that is clashed or waits for a move has no directive pending (R132, R134, R136, R140). -/
structure ChanState.Sound (cells : List CellRecord) (r : Radio) (x : ChanState) : Prop where
  current : ∀ ch, x.operating = some ch → x.clash = false → holdsCurrent cells r ch = true
  target : ∀ d, x.directive = some d → holdsTarget cells r d.chan = true
  clashed : x.clash = true → x.directive = none ∧ x.moveWait = none
  waiting : x.moveWait.isSome = true → x.directive = none

/-- The map holds one sound record for each cell, and agrees with the channel states (R1, R3). -/
structure MapSound (b : Blocks) : Prop where
  length : b.cells.length = cellCount
  cells : ∀ c ∈ b.cells, c.sound = true
  chans : ∀ r, (b.chans.get r).Sound b.cells r

/-! ## Bounded collections -/

/-- A record of a radio kind has no affected range (R91). -/
def CondRecord.ranged (c : CondRecord) : Prop := (CondKey.radio c.key).isSome → c.range = none

/-- At most 32 condition records, no two of one kind and subject (R86), none of a radio kind with an affected range
(R91). -/
structure Monitor.Sound (m : Monitor) : Prop where
  length : m.list.length ≤ listLimit
  keys : (m.list.map CondRecord.key).Nodup
  ranges : ∀ c ∈ m.list, c.ranged

/-- At most 48 neighbour entries, no two of one BSS id (R71). -/
structure SurveyUnit.Sound (u : SurveyUnit) : Prop where
  length : u.table.length ≤ tableLimit
  ids : (u.table.map Neighbour.bss).Nodup

/-- What the scheduler keeps for a radio holds at most 4 waiting and 8 posted requests (R107), and the records in it are that
radio's own. -/
structure RadioSched.Sound (r : Radio) (x : RadioSched) : Prop where
  waiting : x.waits.length ≤ waitLimitCount
  queued : x.posted.length ≤ postedLimitCount
  waits : ∀ q ∈ x.waits, q.radio = r
  posted : ∀ q ∈ x.posted, q.radio = r
  passed : ∀ g ∈ x.passThrough, g.radio = r

/-- Every radio's requests are sound. -/
def requestsSound (b : Blocks) : Prop := ∀ r, (b.sched.radios.get r).Sound r

/-- A grant that an air holds is of a radio whose air it is (R102, R122), so no radio has a grant in two airs. -/
def grantsHome (env : Env) (b : Blocks) : Prop := ∀ a g, (b.air a).grant = some g → airOf env b g.radio = some a

/-- At most 32 messages wait in each transmit queue (R150). -/
def queuesBounded (b : Blocks) : Prop := ∀ r, (b.links.get r).queue.length ≤ queueLimit

/-- A line that holds the record of a message becomes free now or within the longest message, 16 bytes, or 8 µs (R148,
R150; log 10): TXD never reads busy for a message sent long ago. -/
def linesCurrent (now : Time) (b : Blocks) : Prop :=
  ∀ r x, (b.links.get r).sending = some x → (x.freeAt - now).toNat ≤ 8 ∧ x.freeTwelfths < 12

/-! ## The tracker and what is reported -/

/-- A tracker in SEARCH holds nothing but an anchor and its counters (R41, R43). -/
def Tracker.searchClear (t : Tracker) : Prop :=
  t.phase = .search →
    t.period = 0 ∧ t.onset = 0 ∧ t.onTime = 0 ∧ t.matched = 0 ∧ t.misses = 0 ∧ t.lastOnset = none ∧ t.check = none
      ∧ t.footprint = []

/-- The laws of the tracker record: SEARCH is clear, the period lies in its limits outside SEARCH (R47), the footprint list
holds at most 8 spans, no two equal (R57). -/
structure Tracker.Sound (p : Params) (t : Tracker) : Prop where
  search : t.searchClear
  period : t.phase ≠ .search → 16 * p.periodMin ≤ t.period ∧ t.period ≤ 16 * p.periodMax
  anchor : t.phase ≠ .search → t.anchor = none
  length : t.footprint.length ≤ footprintLimit
  spans : t.footprint.Nodup

/-- The scheduler's stored shaping and prediction are what the condition monitor and the tracker have (R61, R97, R103). -/
def reportsCurrent (env : Env) (b : Blocks) : Prop :=
  b.sched.shaping = shapingHolds env b.monitor ∧ b.sched.prediction = predictionOf env.retained.params b.tracker

/-! ## What a command leaves alone -/

/-- A link is the same but for its transmit queue and its counters. -/
def SameLink (k k' : Link) : Prop := k' = { k with queue := k'.queue, counters := k'.counters }

/-- Nothing but the scheduler's airs, requests and radio records and the links' queues and counters has changed. -/
structure SchedOnly (b b' : Blocks) : Prop where
  cells : b'.cells = b.cells
  lanes : b'.lanes = b.lanes
  tracker : b'.tracker = b.tracker
  survey : b'.survey = b.survey
  monitor : b'.monitor = b.monitor
  chans : b'.chans = b.chans
  shaping : b'.sched.shaping = b.sched.shaping
  prediction : b'.sched.prediction = b.sched.prediction
  links : ∀ r, SameLink (b.links.get r) (b'.links.get r)

/-- What a command about one radio leaves alone: the other radios' lanes, their channel states but for the clash flag that
clash resolution clears (R18), their links but for the transmit queue and the counters, every cell's score and survey
time (R6), the tracker, the survey unit, the scheduler's stored reports, and the OVEN and CROWD records. -/
structure RadioOnly (r : Radio) (b b' : Blocks) : Prop where
  lanes : ∀ q, q ≠ r → b'.lanes.get q = b.lanes.get q
  chans : ∀ q, q ≠ r → b'.chans.get q = { b.chans.get q with clash := (b'.chans.get q).clash }
  links : ∀ q, q ≠ r → SameLink (b.links.get q) (b'.links.get q)
  scores : b'.cells.map (fun c => (c.score, c.surveyed)) = b.cells.map (fun c => (c.score, c.surveyed))
  tracker : b'.tracker = b.tracker
  survey : b'.survey = b.survey
  shaping : b'.sched.shaping = b.sched.shaping
  prediction : b'.sched.prediction = b.sched.prediction
  records : b'.monitor.list.filter (fun c => (CondKey.radio c.key).isNone)
    = b.monitor.list.filter (fun c => (CondKey.radio c.key).isNone)
  range : b'.monitor.lastRange = b.monitor.lastRange

/-- The radio that a command is about; none for the commands of the whole part, and for SAMPLES and HEARD, which reach the
tracker and the survey unit. -/
def aboutRadio : Instr → Option Radio
  | .move x _ | .withdraw x | .restore x => radioOf x
  | .hello r _ _ _ | .keepalive r | .windowRequest r _ | .release r _ | .tuned r _ _ | .moved r _ | .decline r _ _
  | .messageDiscarded r _ | .messageAbandoned r _ | .syncByte r | .reqAssertion r | .reqRelease r | .transmitStart r
  | .mark r | .linkLoss r | .streamLapse r | .waitLimitExpiry r _ | .grantExpiry r _ | .lastEndedExpiry r
  | .directiveLapse r | .declineHoldExpiry r => some r
  | _ => none

/-- The messages that only a port in UP hands on (R153). -/
def sessionMessage : Instr → Option Radio
  | .keepalive r | .windowRequest r _ | .release r _ | .tuned r _ _ | .moved r _ | .decline r _ _ => some r
  | .samples r _ levels => if levels.length = 8 then some r else none
  | .heard r h => if h.wf then some r else none
  | _ => none

/-- The commands of the host (R160's table). -/
def hostCommandOf : Instr → Bool
  | .status | .readConditions .. | .clearLatch .. | .setReaction .. | .setParameter .. | .getParameter .. | .loadPlanEntry ..
  | .deletePlanEntry .. | .setSpan .. | .setKeepClear .. | .loadOwn .. | .loadSignature .. | .readCells .. | .readTracker
  | .readNeighbours .. | .clearNeighbours | .readRadio .. | .readCosts .. | .move .. | .withdraw .. | .restore .. | .run
  | .setup | .softReset => true
  | _ => false

/-- The host commands that write the retained set (R166). -/
def writesRetained : Instr → Bool
  | .setReaction .. | .setParameter .. | .loadPlanEntry .. | .deletePlanEntry .. | .setSpan .. | .setKeepClear ..
  | .loadOwn .. | .loadSignature .. => true
  | _ => false

/-- The events that can put the part back to its reset values: the two reset events, and the fetch that ends a soft
reset. -/
def mayReset : Instr → Bool
  | .powerOnReset | .pinReset | .fetch _ => true
  | _ => false

/-- What a good message on a link in UP does before its block takes it: the receiver hunts again (R148), the liveness expiry
restarts (R154). -/
def heardOn (env : Env) (r : Radio) (b : Blocks) : Blocks :=
  b.modLink r fun k =>
    { k with receiver := .hunting, liveness := some (Time.plus env.now (env.retained.params.linkTimeout * 1000)) }

/-- What MISO carries beyond the end of a response: 0xFF (R159). -/
def idleBytes (n : Nat) : List Byte := List.replicate n 0xFF

/-- No radio has a request waiting or posted. -/
def noRequests (b : Blocks) : Prop := ∀ r, (b.sched.radios.get r).waits = [] ∧ (b.sched.radios.get r).posted = []

/-- A report of a source as present has left a record of it, or has found the list full (R88). -/
def recordedOrFull (m : Monitor) (key : CondKey) : Prop := m.holds key = true ∨ m.overflow = true

/-- No cell is held by a radio. -/
def holdsNothing (b : Blocks) (r : Radio) : Prop := ∀ c ∈ b.cells, c.holder ≠ some r

/-- A message is the last of a link's transmit queue, or the queue is full (R150). -/
def sentLast (k : Link) (m : OutMsg) : Prop := k.queue.getLast? = some m ∨ queueLimit ≤ k.queue.length

/-- A message is in a link's transmit queue, or the queue is full (R150). -/
def sent (k : Link) (m : OutMsg) : Prop := m ∈ k.queue ∨ queueLimit ≤ k.queue.length

/-! ## The whole state -/

/-- A sound state. -/
structure State.Sound (s : State) : Prop where
  retained : s.env.retained.Sound
  map : MapSound s.blocks
  monitor : s.blocks.monitor.Sound
  survey : s.blocks.survey.Sound
  requests : requestsSound s.blocks
  grants : grantsHome s.env s.blocks
  queues : queuesBounded s.blocks
  lines : linesCurrent s.env.now s.blocks
  tracker : s.blocks.tracker.Sound s.env.retained.params
  reports : reportsCurrent s.env s.blocks

end Sys2Proof.Machine
end

