-- ==== Sys2Proof/Certificates/Slice0/Obligations.lean ====
section
/-! DEFINITION. The statements about the model of the SC318. Each says what a command does when it completes: `exec` answers
the next state given, for every state and all operands that meet the hypotheses. -/

open Sys2Proof Sys2Proof.Machine

/-! ## The machine as a whole -/

/-- A step runs the command at the front of the queue, with the queue's rest (log 1). -/
def Obligations.StepRunsFrontCommand : Prop :=
  ∀ (c : Instr) (rest : List Instr) (s : State), s.pending = c :: rest → step s = exec c { s with pending := rest }

/-- The model's choice (log 1): on an empty queue a step puts the timed commands that are due into the queue; where none is
due, part time advances by 1 µs, a line that became free before then keeps no record of the message it sent (log 10), and
nothing else changes. -/
def Obligations.EmptyQueueStep : Prop :=
  ∀ s : State, s.pending = [] →
    (dueCommands s.env s.port s.blocks = [] →
      ∃ t, step s = .next t
        ∧ t = { s with env := { s.env with now := s.env.now + 1 }, blocks := { s.blocks with links := t.blocks.links } }
        ∧ ∀ r, t.blocks.links.get r = { s.blocks.links.get r with
            sending := (s.blocks.links.get r).sending.filter fun x => !Time.before x.freeAt (s.env.now + 1) })
      ∧ (dueCommands s.env s.port s.blocks ≠ [] →
        step s = .next { s with pending := dueCommands s.env s.port s.blocks })

/-- Every command completes in every state, and none touches the queue: the part has no fault, and a command that the spec
refuses is answered. -/
def Obligations.EveryCommandCompletes : Prop :=
  ∀ (c : Instr) (s : State), ∃ t, exec c s = .next t ∧ t.pending = s.pending

/-- A command other than a reset and a fetch (which may end a soft reset) changes no part time, and but for RUN and SETUP no
mode; a command other than the eight configuration commands and the hardware resets changes nothing of the retained set (R9 to
R12, R67, R68, R85, R162 to R167). -/
def Obligations.ModeTimeAndConfigurationKept : Prop :=
  ∀ (c : Instr) (s t : State), exec c s = .next t →
    (mayReset c = false → t.env.now = s.env.now)
      ∧ (mayReset c = false → c ≠ .run → c ≠ .setup → t.env.mode = s.env.mode)
      ∧ (c ≠ .powerOnReset → c ≠ .pinReset → writesRetained c = false → t.env.retained = s.env.retained)

/-- A command about one radio leaves alone part time, the mode and the retained set, and of the blocks all that `RadioOnly`
names: the other radios' lanes, their channel states but for a clash flag, their links but for queue and counters, scores,
tracker, survey unit, the scheduler's stored reports, the OVEN and CROWD records (R18, R122, R143 to R147, R153). A radio's
event, which is no host command, leaves the host port alone too. -/
def Obligations.RadioCommandsLeaveTheRest : Prop :=
  ∀ (c : Instr) (r : Radio) (s t : State), aboutRadio c = some r → exec c s = .next t →
    t.env = s.env ∧ RadioOnly r s.blocks t.blocks ∧ (hostCommandOf c = false → t.port = s.port)

/-! ## Resets and the host command port -/

/-- The three resets (R165 to R167). Both hardware resets return every item of state to its reset value; SOFT RESET is recorded
and answered OK, and the fetch that reads its response whole makes it take effect, keeping the retained set alone. The levels
that the radios drive on REQ and the queue are the outside world's (log 16), and the record of what MISO carried is empty after
a hardware reset (log 13). -/
def Obligations.Resets : Prop :=
  ∀ (n : Nat) (s : State),
    (∃ t, exec .powerOnReset s = .next t ∧ exec .pinReset s = .next t
      ∧ t.pending = s.pending ∧ t.env = ⟨0, .setup, Retained.reset⟩ ∧ t.port = ⟨.empty, false, []⟩
      ∧ (∀ r, t.blocks.links.get r = Link.reset (s.blocks.links.get r).req)
      ∧ t.blocks = { State.reset.blocks with links := t.blocks.links })
    ∧ exec .softReset s
      = .next { s with
          port := { s.port with slot := .preparing ⟨.ok, []⟩ (Time.plus s.env.now 50), softReset := true } }
    ∧ (∀ x, s.port.slot = .ready x → s.port.softReset = true → 3 + x.payload.length ≤ n →
      ∃ t, exec (.fetch n) s = .next t ∧ t.pending = s.pending ∧ t.env = ⟨0, .setup, s.env.retained⟩
        ∧ t.port.slot = .empty ∧ t.port.softReset = false
        ∧ (∀ r, t.blocks.links.get r = Link.reset (s.blocks.links.get r).req)
        ∧ t.blocks = { State.reset.blocks with links := t.blocks.links })

/-- What either reset leaves of the spectrum map, the plan, the spans and the guard levels (R19). The soft reset takes effect
at the end of the fetch that reads its response. -/
def Obligations.ResetsOfTheSpectrumMap : Prop :=
  ∀ (s : State) (x : Response) (n : Nat),
    s.port.slot = .ready x → s.port.softReset = true → 3 + x.payload.length ≤ n →
    ∃ t u, exec .powerOnReset s = .next t ∧ exec .pinReset s = .next t ∧ exec (.fetch n) s = .next u
      ∧ (∀ v, v = t ∨ v = u →
          v.blocks.cells
            = List.replicate 156 { holder := none, current := false, target := false, score := 64, surveyed := none }
          ∧ (∀ r, v.blocks.chans.get r = ChanState.reset) ∧ v.env.mode = .setup ∧ v.blocks.monitor.list = []
          ∧ (∀ r, (v.blocks.links.get r).queue = []) ∧ v.pending = s.pending)
      ∧ t.env.retained.plan = [] ∧ (∀ r, t.env.retained.spans.get r = ⟨0, 155⟩) ∧ t.env.retained.keepClear = ⟨1, 0⟩
      ∧ u.env.retained.plan = s.env.retained.plan ∧ u.env.retained.spans = s.env.retained.spans
      ∧ u.env.retained.keepClear = s.env.retained.keepClear
      ∧ (∀ k, guardLevel t.env t.blocks.monitor k = .clear)
      ∧ (∀ k, guardLevel u.env u.blocks.monitor k
          = if s.env.retained.keepClear.base ≤ k ∧ k ≤ s.env.retained.keepClear.limit then .barred else .clear)

/-- What a fetch returns and what it leaves in the slot: EMPTY, PREPARING, READY read in part, READY read whole (R159).
RESPONSE_READY makes a response under preparation READY (R159), at whatever time the outside world gives it (log 12); a
malformed frame is answered BAD_ARGUMENT and does nothing else, an empty transaction does nothing (R158). The bytes that MISO
carried stay on record (log 13). -/
def Obligations.FetchesAndPortEvents : Prop :=
  ∀ (n : Nat) (s : State),
    (s.port.slot = .empty →
      exec (.fetch n) s
        = .next { s with port := { s.port with miso := 0xFF :: ([0x06, 0x00, 0x00] ++ idleBytes n).take n } })
    ∧ (∀ x t, s.port.slot = .preparing x t →
      exec (.fetch n) s = .next { s with port := { s.port with miso := 0xFF :: ([0x01] ++ idleBytes n).take n } }
        ∧ exec .responseReady s = .next { s with port := { s.port with slot := .ready x } })
    ∧ (∀ x, s.port.slot = .ready x →
      let bytes :=
        x.status.code :: BitVec.ofNat 8 x.payload.length :: BitVec.ofNat 8 (x.payload.length / 256) :: x.payload
      (n < bytes.length → exec (.fetch n) s = .next { s with port := { s.port with miso := 0xFF :: bytes.take n } })
      ∧ (bytes.length ≤ n → s.port.softReset = false →
        exec (.fetch n) s
          = .next { s with
              port := { s.port with slot := .empty, miso := 0xFF :: (bytes ++ idleBytes (n - bytes.length)) } }))
    ∧ ((∀ x t, s.port.slot ≠ .preparing x t) → exec .responseReady s = .next s)
    ∧ (∀ why, exec (.malformedCommand why) s
        = .next { s with
            port := { s.port with slot := .preparing ⟨.badArgument, []⟩ (Time.plus s.env.now 50), softReset := false } })
    ∧ exec .emptyTransaction s = .next s

/-- Every host command discards the previous response and prepares its own, to be ready within 50 µs, and cancels a pending
soft reset unless it is SOFT RESET itself (that the slot keeps the latest time is log 12); a response other than OK has no
payload and its command changed nothing outside the port (R158, R159, R160, R165). -/
def Obligations.HostCommandsAreAnswered : Prop :=
  ∀ (c : Instr) (s : State), hostCommandOf c = true →
    ∃ t x, exec c s = .next t
      ∧ t.port = { s.port with
          slot := .preparing x (Time.plus s.env.now 50), softReset := decide (c = .softReset) }
      ∧ (x.status ≠ .ok → x.payload = [] ∧ t.env = s.env ∧ t.blocks = s.blocks)

/-! ## Configuration commands -/

/-- SET PARAMETER's checks in their order, its effect, and GET PARAMETER (R162): the parameter named takes the value and every
other keeps its own. The 34 ranges are those of section 9.3, the on-times go in steps of 50, and the constraints (R35, R63,
R83) are each tested with the new value and the present value of every other parameter. An accepted lane or tracker parameter,
whatever its value, returns the tracker to SEARCH, keeps its counters, and reports the oven source absent with no footprint
range (R43, R59, R62). That GET PARAMETER returns the value in four bytes is the model's reading (log 14). -/
def Obligations.ParameterStore : Prop :=
  ∀ (id : Byte) (value : BitVec 32) (s : State),
    let p := s.env.retained.params
    let n := id.toNat
    let v := value.toNat
    let ranges : List (Nat × Nat) :=
      [(0, 126), (1000, 16000), (1000, 16000), (0, 15), (0, 15), (12000, 25000), (12000, 25000), (3, 15), (100, 2000),
       (50, 2000), (1, 15), (0, 2000), (0, 2000), (1, 600), (1, 255), (0, 254), (0, 126), (0, 1), (0, 64), (0, 64),
       (0, 64), (0, 64), (128, 4096), (0, 8000), (50, 1000), (0, 255), (1, 255), (0, 1000), (1, 255), (5, 500), (0, 1),
       (0, 600), (0, 1404), (1, 20)]
    let named := 1 ≤ n ∧ n ≤ 34
    let then' := fun j => if j = n then v else (p.read j).getD 0
    let lawful := (∃ x, ranges[n - 1]? = some x ∧ x.1 ≤ v ∧ v ≤ x.2) ∧ (n = 2 ∨ n = 3 → v % 50 = 0)
      ∧ (n ≤ 5 → then' 2 ≤ then' 3 ∧ then' 4 ≤ then' 5)
      ∧ (n ≤ 13 → then' 6 < then' 7 ∧ then' 10 ≤ then' 9 ∧ then' 3 + then' 9 + 1000 < then' 6)
      ∧ (n = 15 ∨ n = 16 → then' 16 < then' 15)
    (¬ named → exec (.setParameter id value) s = .next (s.reject .badArgument)
      ∧ exec (.getParameter id) s = .next (s.reject .badArgument))
    ∧ (1 ≤ n → n ≤ 13 → s.env.mode = .run → exec (.setParameter id value) s = .next (s.reject .wrongMode))
    ∧ (named → (13 < n ∨ s.env.mode = .setup) → ¬ lawful →
      exec (.setParameter id value) s = .next (s.reject .badArgument))
    ∧ (13 < n → named → lawful →
      ∃ q : Params,
        exec (.setParameter id value) s
          = .next ({ s with env := { s.env with retained := { s.env.retained with params := q } } }.ok [])
        ∧ q.read n = some v ∧ ∀ j, j ≠ n → q.read j = p.read j)
    ∧ (1 ≤ n → n ≤ 13 → s.env.mode = .setup → lawful →
      ∃ t q, exec (.setParameter id value) s = .next t ∧ t.port = (s.ok []).port
        ∧ t.env = { s.env with retained := { s.env.retained with params := q } }
        ∧ q.read n = some v ∧ (∀ j, j ≠ n → q.read j = p.read j)
        ∧ t.blocks.tracker = { Tracker.reset with counters := s.blocks.tracker.counters }
        ∧ t.blocks.monitor = Monitor.absent s.env .oven { s.blocks.monitor with lastRange := none }
        ∧ t.blocks.cells = s.blocks.cells ∧ t.blocks.lanes = s.blocks.lanes ∧ t.blocks.survey = s.blocks.survey
        ∧ t.blocks.chans = s.blocks.chans)
    ∧ (named → ∃ w, p.read n = some w ∧ exec (.getParameter id) s = .next (s.ok (id :: leBytes 4 w)))

/-- LOAD PLAN ENTRY: WRONG_MODE in RUN, BAD_ARGUMENT where a check fails, and else the entry is stored under its id, replacing
what was there, and no other entry changes (R9). DELETE PLAN ENTRY: WRONG_MODE in RUN, BAD_ARGUMENT outside 0 … 63, NO_SUCH
without an entry; else the entry is gone, every other stays, no block and no radio's current cost changes, and the id can be
loaded again (R10). -/
def Obligations.PlanEntries : Prop :=
  (∀ (id start width mask : Byte) (s : State),
     let lawful := id.toNat < 64 ∧ start.toNat < 156 ∧ (width = 4 ∨ width = 8 ∨ width = 16)
       ∧ (1 ≤ mask.toNat ∧ mask.toNat ≤ 7)
       ∧ ((start.toNat + width.toNat ≤ 16 ∧ width ≠ 16) ∨ (16 ≤ start.toNat ∧ start.toNat + width.toNat ≤ 156))
     (s.env.mode = .run → exec (.loadPlanEntry id start width mask) s = .next (s.reject .wrongMode))
     ∧ (s.env.mode = .setup → ¬ lawful → exec (.loadPlanEntry id start width mask) s = .next (s.reject .badArgument))
     ∧ (s.env.mode = .setup → lawful →
       ∃ plan, exec (.loadPlanEntry id start width mask) s
           = .next ({ s with env := { s.env with retained := { s.env.retained with plan := plan } } }.ok [])
         ∧ findEntry plan id.toNat = some ⟨id.toNat, ⟨start.toNat, width.toNat⟩, mask⟩
         ∧ ∀ j, j ≠ id.toNat → findEntry plan j = findEntry s.env.retained.plan j))
  ∧ ∀ (id : Byte) (s : State),
      (s.env.mode = .run → exec (.deletePlanEntry id) s = .next (s.reject .wrongMode))
      ∧ (s.env.mode = .setup → 64 ≤ id.toNat → exec (.deletePlanEntry id) s = .next (s.reject .badArgument))
      ∧ (s.env.mode = .setup → id.toNat < 64 → findEntry s.env.retained.plan id.toNat = none →
        exec (.deletePlanEntry id) s = .next (s.reject .noSuch))
      ∧ (∀ e, s.env.mode = .setup → id.toNat < 64 → findEntry s.env.retained.plan id.toNat = some e →
        ∃ plan t, exec (.deletePlanEntry id) s = .next t
          ∧ t = { s with env := { s.env with retained := { s.env.retained with plan := plan } } }.ok []
          ∧ findEntry plan id.toNat = none ∧ (∀ j, j ≠ id.toNat → findEntry plan j = findEntry s.env.retained.plan j)
          ∧ (∀ r, currentCost t.env t.blocks r = currentCost s.env s.blocks r)
          ∧ ∀ start width mask d, planArgs id start width mask = some d →
            ∃ u, exec (.loadPlanEntry id start width mask) t = .next u
              ∧ findEntry u.env.retained.plan id.toNat = some d)

/-- SET SPAN and SET KEEP CLEAR (R11, R12): WRONG_MODE in RUN, BAD_ARGUMENT for a radio or a cell outside its range; else the
one span is the one given and no holder, mark or other state changes. SET REACTION (R85): BAD_ARGUMENT where one of the five
checks fails, and else the four items of the one kind are set. LOAD OWN and LOAD SIGNATURE (R67, R68, R169): an index or an
enumerated byte outside its values is answered BAD_ARGUMENT; else the one entry or filter is set, and a BSS id loaded into the
own-network list leaves the neighbour table. -/
def Obligations.SpansReactionsAndLists : Prop :=
  (∀ (x base limit : Byte) (s : State),
     (s.env.mode = .run → exec (.setSpan x base limit) s = .next (s.reject .wrongMode)
       ∧ exec (.setKeepClear base limit) s = .next (s.reject .wrongMode))
     ∧ (s.env.mode = .setup → 3 ≤ x.toNat ∨ 156 ≤ base.toNat ∨ 156 ≤ limit.toNat →
       exec (.setSpan x base limit) s = .next (s.reject .badArgument))
     ∧ (s.env.mode = .setup → 156 ≤ base.toNat ∨ 156 ≤ limit.toNat →
       exec (.setKeepClear base limit) s = .next (s.reject .badArgument))
     ∧ (∀ r, s.env.mode = .setup → x.toNat = Radio.number r → base.toNat < 156 → limit.toNat < 156 →
       ∃ spans, exec (.setSpan x base limit) s
           = .next ({ s with env := { s.env with retained := { s.env.retained with spans := spans } } }.ok [])
         ∧ spans.get r = ⟨base.toNat, limit.toNat⟩ ∧ ∀ q, q ≠ r → spans.get q = s.env.retained.spans.get q)
     ∧ (s.env.mode = .setup → base.toNat < 156 → limit.toNat < 156 →
       exec (.setKeepClear base limit) s
         = .next ({ s with
             env := { s.env with
               retained := { s.env.retained with keepClear := ⟨base.toNat, limit.toNat⟩ } } }.ok [])))
  ∧ (∀ (kind reaction scope : Byte) (filter extension : BitVec 16) (s : State),
       (3 ≤ kind.toNat ∨ 5 ≤ reaction.toNat ∨ (kind = 1 ∧ reaction = 2) ∨ (kind = 2 ∧ 2 ≤ reaction.toNat)
           ∨ 3 ≤ scope.toNat ∨ 60000 < filter.toNat ∨ 60000 < extension.toNat →
         exec (.setReaction kind reaction scope filter extension) s = .next (s.reject .badArgument))
       ∧ (∀ x c, reactionOf reaction = some x → scopeOf scope = some c → filter.toNat ≤ 60000 → extension.toNat ≤ 60000 →
         let config : ReactionConfig := ⟨x, c, filter.toNat, extension.toNat⟩
         let after := fun y => (s.modRetained fun z => { z with reactions := y }).ok []
         (kind = 0 → exec (.setReaction kind reaction scope filter extension) s
             = .next (after { s.env.retained.reactions with oven := config }))
         ∧ (kind = 1 → reaction ≠ 2 → exec (.setReaction kind reaction scope filter extension) s
             = .next (after { s.env.retained.reactions with crowd := config }))
         ∧ (kind = 2 → reaction.toNat < 2 → exec (.setReaction kind reaction scope filter extension) s
             = .next (after { s.env.retained.reactions with overrun := config }))))
  ∧ ∀ (index flag action : Byte) (bss : BssId) (mask : BitVec 24) (expected : BitVec 16) (s : State),
      (16 ≤ index.toNat ∨ 2 ≤ flag.toNat → exec (.loadOwn index flag bss) s = .next (s.reject .badArgument))
      ∧ (index.toNat < 16 → flag = 0 →
        exec (.loadOwn index flag bss) s
          = .next ((s.modRetained fun x => { x with ownList := x.ownList.set index.toNat none }).ok []))
      ∧ (index.toNat < 16 → flag = 1 →
        let t := s.modRetained fun x => { x with ownList := x.ownList.set index.toNat (some bss) }
        exec (.loadOwn index flag bss) s
          = .next ({ t with
              blocks := { s.blocks with
                survey := { s.blocks.survey with table := s.blocks.survey.table.filter fun n => n.bss != bss } } }.ok []))
      ∧ (4 ≤ index.toNat ∨ 2 ≤ flag.toNat ∨ 2 ≤ action.toNat →
        exec (.loadSignature index flag mask expected action) s = .next (s.reject .badArgument))
      ∧ (∀ x a, index.toNat < 4 → flagOf flag = some x → actionOf action = some a →
        exec (.loadSignature index flag mask expected action) s
          = .next ((s.modRetained fun y =>
              { y with filters := y.filters.set index.toNat ⟨x, mask, expected, a⟩ }).ok []))

/-! ## Reading commands -/

/-- The reading commands (R7, R40, R64, R76, R82, R88, R95, R157, R161). Each answers OK with the payload whose bytes
RecordPayloads and StatePayloads say, and BAD_ARGUMENT for a first, a count, a radio or a flag outside its values. READ
TRACKER, READ CELLS, READ NEIGHBOURS and READ COSTS change nothing. READ CONDITIONS clears unread on the records it returns and
removes the RESOLVED ones among them, STATUS clears the overflow flag, READ RADIO on request its counters, CLEAR NEIGHBOURS the
table; the response carries the values before the clearing, and nothing else changes. -/
def Obligations.ReadCommands : Prop :=
  (∀ (first count x : Byte) (s : State),
     exec .readTracker s = .next (s.ok (trackerPayload s.env.retained.params s.blocks.tracker))
     ∧ (first.toNat < 156 → 1 ≤ count.toNat → count.toNat ≤ 32 →
       exec (.readCells first count) s = .next (s.ok (cellsPayload s.env s.blocks first.toNat count.toNat)))
     ∧ (156 ≤ first.toNat ∨ count.toNat = 0 ∨ 32 < count.toNat →
       exec (.readCells first count) s = .next (s.reject .badArgument))
     ∧ (first.toNat < 48 → 1 ≤ count.toNat → count.toNat ≤ 8 →
       exec (.readNeighbours first count) s = .next (s.ok (neighboursPayload s.blocks.survey first.toNat count.toNat)))
     ∧ (48 ≤ first.toNat ∨ count.toNat = 0 ∨ 8 < count.toNat →
       exec (.readNeighbours first count) s = .next (s.reject .badArgument))
     ∧ (∀ r, x.toNat = Radio.number r → exec (.readCosts x) s = .next (s.ok (costsPayload s.env s.blocks r)))
     ∧ (3 ≤ x.toNat → exec (.readCosts x) s = .next (s.reject .badArgument)))
  ∧ ∀ (first count x clear : Byte) (s : State),
      let l := s.blocks.monitor.list
      let records := (l.drop first.toNat).take count.toNat
      let kept := (records.filter fun c => c.state != .resolved).map fun c => { c with unread := false }
      (32 ≤ first.toNat ∨ count.toNat = 0 ∨ 8 < count.toNat →
        exec (.readConditions first count) s = .next (s.reject .badArgument))
      ∧ (first.toNat < 32 → 1 ≤ count.toNat → count.toNat ≤ 8 →
        exec (.readConditions first count) s
          = .next ({ s with
              blocks := { s.blocks with
                monitor := { s.blocks.monitor with
                  list := l.take first.toNat ++ kept ++ l.drop (first.toNat + count.toNat) } } }.ok
              (BitVec.ofNat 8 l.length :: BitVec.ofNat 8 records.length :: records.flatMap condBytes)))
      ∧ exec .status s
        = .next ({ s with blocks := { s.blocks with monitor := { s.blocks.monitor with overflow := false } } }.ok
            (statusPayload s.env s.blocks))
      ∧ exec .clearNeighbours s
        = .next ({ s with blocks := { s.blocks with survey := { s.blocks.survey with table := [] } } }.ok [])
      ∧ (3 ≤ x.toNat ∨ 2 ≤ clear.toNat → exec (.readRadio x clear) s = .next (s.reject .badArgument))
      ∧ (∀ r, x.toNat = Radio.number r → clear = 0 →
        exec (.readRadio x clear) s = .next (s.ok (radioPayload s.env s.blocks r)))
      ∧ (∀ r, x.toNat = Radio.number r → clear = 1 →
        exec (.readRadio x clear) s
          = .next ({ s with
              blocks := (s.blocks.modLane r fun l => { l with counters := ⟨0, 0, 0, 0, 0, 0⟩ }).modLink r fun k =>
                { k with counters := LinkCounters.zero } }.ok (radioPayload s.env s.blocks r)))

/-- The payloads that return records (R7, R76, R82, R95, R170): the collection's length and the number of records returned, and
record *i* at its offset with its fields as they stand, a BSS id little-endian (log 25). READ CELLS: 9 bytes at 2 + 9*i*; READ
CONDITIONS: 25 bytes at 2 + 25*i*; READ NEIGHBOURS: 25 bytes at 18 + 25*i*, behind the eight counters; READ COSTS: 6 bytes at 5
+ 6*i*, behind the current cost. -/
def Obligations.RecordPayloads : Prop :=
  (∀ (first count : Nat) (env : Env) (b : Blocks), b.cells.length = 156 → first < 156 → count ≤ 32 →
    let n := min (first + count) 156 - first
    let p := cellsPayload env b first count
    p.length = 2 + 9 * n ∧ p.take 2 = [156, BitVec.ofNat 8 n]
      ∧ ∀ (i : Nat) (c : CellRecord), i < n → b.cells[first + i]? = some c →
        (p.drop (2 + 9 * i)).take 9 =
          [ BitVec.ofNat 8 (first + i),
            match c.holder with
            | none => 0xFF
            | some r => BitVec.ofNat 8 (Radio.number r),
            BitVec.ofNat 8
              ((if c.current then 1 else 0) + (if c.target then 2 else 0) + (if c.surveyed.isSome then 4 else 0)),
            match guardLevel env b.monitor (first + i) with
            | .clear => 0
            | .avoided => 1
            | .barred => 2,
            BitVec.ofNat 8 c.score ] ++ (match c.surveyed with
            | none => ([0, 0, 0, 0] : List Byte)
            | some t => leBytes 4 t.toNat))
  ∧ (∀ (m : Monitor) (first count : Nat),
    let n := min count (m.list.length - first)
    let p := BitVec.ofNat 8 m.list.length :: BitVec.ofNat 8 ((m.list.drop first).take count).length
      :: ((m.list.drop first).take count).flatMap condBytes
    p.length = 2 + 25 * n ∧ p.take 2 = [BitVec.ofNat 8 m.list.length, BitVec.ofNat 8 n]
      ∧ ∀ (i : Nat) (c : CondRecord), i < n → m.list[first + i]? = some c →
        let kind : Nat × Nat := match c.key with
          | .oven => (0, 0)
          | .crowd k => (1, k)
          | .overrun r => (2, Radio.number r)
          | .link r => (3, Radio.number r)
          | .clash r => (4, Radio.number r)
          | .lapse r => (5, Radio.number r)
          | .noChannel r => (6, Radio.number r)
        let state := match c.state with
          | .pending => 0
          | .active => 1
          | .extending => 2
          | .latched => 3
          | .resolved => 4
        let reaction := match c.config.reaction with
          | .note => 0
          | .flag => 1
          | .shape => 2
          | .avoid => 3
          | .bar => 4
        let scope := match c.config.scope with
          | .footprint => 0
          | .channel => 1
          | .band => 2
        let flags := (if c.unread then 1 else 0) + (if c.range.isSome then 2 else 0) + (if c.timer.isSome then 4 else 0)
        (p.drop (2 + 25 * i)).take 25 =
          [BitVec.ofNat 8 kind.1, BitVec.ofNat 8 kind.2, BitVec.ofNat 8 state, BitVec.ofNat 8 reaction,
            BitVec.ofNat 8 scope, BitVec.ofNat 8 flags]
            ++ (match c.range with
              | none => [0, 0]
              | some x => [BitVec.ofNat 8 x.base, BitVec.ofNat 8 x.limit])
            ++ [BitVec.ofNat 8 c.occurrences] ++ leBytes 2 c.config.filter ++ leBytes 2 c.config.extension
            ++ leBytes 4 c.entered.toNat ++ leBytes 4 c.changed.toNat
            ++ (match c.timer with
              | none => [0, 0, 0, 0]
              | some t => leBytes 4 t.toNat))
  ∧ (∀ (u : SurveyUnit) (first count : Nat),
    let n := min count (u.table.length - first)
    let p := neighboursPayload u first count
    let c := u.counters
    p.length = 18 + 25 * n
      ∧ p.take 18 = [BitVec.ofNat 8 u.table.length]
          ++ ([c.taken, c.malformed, c.own, c.anonymous, c.neighbour, c.made, c.evictions, c.agedOut].flatMap (leBytes 2))
          ++ [BitVec.ofNat 8 n]
      ∧ ∀ (i : Nat) (e : Neighbour), i < n → u.table[first + i]? = some e →
        (p.drop (18 + 25 * i)).take 25 =
          leBytes 6 e.bss.toNat
            ++ [BitVec.ofNat 8 (Radio.number e.radio), BitVec.ofNat 8 e.span.start, BitVec.ofNat 8 e.span.width]
            ++ leBytes 4 e.first.toNat ++ leBytes 4 e.last.toNat ++ leBytes 2 e.frames ++ leBytes 4 e.airtime
            ++ [BitVec.ofNat 8 e.strongest, match e.tag with
              | none => 0xFF
              | some t => BitVec.ofNat 8 t])
  ∧ ∀ (env : Env) (b : Blocks) (r : Radio),
    let plan := env.retained.plan
    let p := costsPayload env b r
    p.length = 5 + 6 * plan.length
      ∧ p.take 5 = (match currentCost env b r with
          | none => [0, 0, 0]
          | some x => 1 :: leBytes 2 x) ++ [BitVec.ofNat 8 plan.length, BitVec.ofNat 8 plan.length]
      ∧ ∀ (i : Nat) (e : PlanEntry), plan[i]? = some e →
        (p.drop (5 + 6 * i)).take 6 = match unavailable env b r e with
          | none => BitVec.ofNat 8 e.id :: leBytes 2 (channelCost env b e.chan)
              ++ [0, BitVec.ofNat 8 (ovenCells env b e.chan), BitVec.ofNat 8 (nearCount env b e.chan)]
          | some why => [BitVec.ofNat 8 e.id, 0xFF, 0xFF, match why with
              | .mask => 1
              | .band => 2
              | .width => 3
              | .declined => 4
              | .span => 5
              | .barred => 6
              | .avoided => 7
              | .held => 8, 0, 0]

/-- The payloads of STATUS (R161), READ TRACKER (R64) and READ RADIO (R40, R129, R147, R157), item by item in the order of
their rules, with the sizes and encodings of R170. The model's readings: the level of ALERT_N is one byte, 1 for high (log 15);
where R170 gives an item no table, log 14 lays it out, a burst span goes out as its start cell and its width, and the head's
attempt count as one byte without a flag. -/
def Obligations.StatePayloads : Prop :=
  ∀ (env : Env) (b : Blocks) (r : Radio),
    let byte := fun n : Nat => BitVec.ofNat 8 n
    let bit := fun x : Bool => (if x then 1 else 0 : Byte)
    let m := b.monitor
    let p := env.retained.params
    let k := b.tracker
    let phase : Byte := match k.phase with
      | .search => 0
      | .acquire => 1
      | .track => 2
      | .coast => 3
    let portOf := fun q : Radio => match (b.links.get q).port with
      | .down => (0 : Byte)
      | .up => 1
      | .lost => 2
    let count := fun x : CondState => byte (m.list.countP fun c => c.state == x)
    let chan := fun c : Channel => [byte c.start, byte c.width]
    let time := fun t : Time => leBytes 4 t.toNat
    let ofRadio := fun q : Radio => [portOf q, bit (b.chans.get q).withdrawn, bit (b.chans.get q).operating.isSome]
    let l := b.lanes.get r
    let x := b.sched.radios.get r
    let c := b.chans.get r
    let y := b.links.get r
    statusPayload env b
      = (match env.mode with
          | .setup => (0 : Byte)
          | .run => 1) :: time env.now
        ++ [bit (notice m), bit (faultSummary m), bit (!alertLow env m), byte m.list.length, count .pending, count .active,
          count .extending, count .latched, count .resolved, bit m.overflow]
        ++ ofRadio .r0 ++ ofRadio .r1 ++ ofRadio .r2 ++ [phase, 1]
    ∧ trackerPayload p k
      = phase :: (match k.anchor with
          | none => List.replicate 13 0
          | some a => 1 :: time a.start ++ leBytes 2 a.duration ++ chan a.span ++ time a.expiry)
        ++ leBytes 6 k.period ++ leBytes 6 k.onset.toNat ++ leBytes 2 k.onTime ++ leBytes 4 (k.onset.toNat / 16)
        ++ [byte k.matched, byte k.misses]
        ++ (match k.lastOnset with
          | none => List.replicate 7 0
          | some a => 1 :: leBytes 6 a.toNat)
        ++ (match k.check with
          | none => List.replicate 5 0
          | some t => 1 :: time t)
        ++ [byte k.footprint.length] ++ k.footprint.flatMap chan
        ++ (match footprintRange p k with
          | none => [0, 0, 0]
          | some z => [1, byte z.base, byte z.limit])
        ++ (match onWindows p k with
          | [] => List.replicate 33 0
          | ws => 1 :: ws.flatMap fun w => time w.start ++ time w.stop)
        ++ [k.counters.handOffs, k.counters.accepted, k.counters.duplicates, k.counters.ignored, k.counters.breaks,
          k.counters.missed, k.counters.locks, k.counters.losses].flatMap (leBytes 2)
    ∧ radioPayload env b r
      = (match l.burst with
          | none => List.replicate 8 0
          | some o => [1, 1] ++ time o.start ++ chan o.span)
        ++ leBytes 2 l.survey.busy ++ leBytes 2 l.survey.idle ++ leBytes 2 l.survey.blind ++ leBytes 4 l.survey.own
        ++ [l.counters.glitch, l.counters.frame, l.counters.ovenLike, l.counters.long, l.counters.truncated,
          l.counters.discarded].flatMap (leBytes 2)
        ++ [match airOf env b r with
          | none => (0xFF : Byte)
          | some .l => 0
          | some .h0 => 1
          | some .h1 => 2
          | some .h2 => 3]
        ++ (match grantOf b r with
          | none => List.replicate 13 0
          | some g => [1, g.id] ++ time g.start ++ time g.stop
              ++ [bit (g.state == .active), bit g.shortened, bit g.exposed])
        ++ [bit (holdAir b r).isSome, byte x.waits.length, byte x.posted.length, byte x.headAttempts, byte x.lateCount,
          bit x.overrun]
        ++ (match c.operating with
          | none => [0, 0, 0]
          | some z => 1 :: chan z)
        ++ [bit c.clash, bit c.isolated, bit c.withdrawn]
        ++ (match c.directive with
          | none => List.replicate 10 0
          | some d => [1, d.id, byte d.entry] ++ chan d.chan ++ [match d.reason with
              | .avoid => (0 : Byte)
              | .bar => 1
              | .host => 2] ++ time d.expiry)
        ++ [c.nextId]
        ++ (match c.declined with
          | none => List.replicate 7 0
          | some d => [1, byte d.entry] ++ time d.expiry ++ [d.reason])
        ++ (match c.moveWait with
          | none => [0, 0, 0, 0]
          | some w => [1, byte (w.cells.head?.getD 0), byte (w.cells.getLast?.getD 0), bit w.noEntry])
        ++ [portOf r]
        ++ (match y.capability with
          | none => [0, 0, 0]
          | some z => [(1 : Byte), match z.bands with
              | .bandL => 1
              | .bandH => 2
              | .both => 3, match z.width with
              | .w4 => 4
              | .w8 => 8
              | .w16 => 16])
        ++ [bit y.linkSource]
        ++ [y.counters.linkErrors, y.counters.misordered, y.counters.transmitDrops, y.counters.grantsIssued,
          y.counters.grantsShortened, y.counters.exposedGrants, y.counters.retries, y.counters.refusals,
          y.counters.lateReleases, y.counters.strayReleases, y.counters.immediateGrants, y.counters.immediateDenials,
          y.counters.postedExpiries].flatMap (leBytes 2)

/-- CLEAR LATCH (R93): BAD_ARGUMENT, NO_SUCH and WRONG_STATE in their cases, and else the record is gone, and every cell has
the guard level that the rest of R4 gives it, so the cells that only this record barred have fallen. -/
def Obligations.ClearLatch : Prop :=
  ∀ (kind subject : Byte) (s : State),
    let key := (kindOf kind).bind fun k => keyOf k subject
    (key = none → exec (.clearLatch kind subject) s = .next (s.reject .badArgument))
    ∧ (∀ k, key = some k → s.blocks.monitor.find k = none →
      exec (.clearLatch kind subject) s = .next (s.reject .noSuch))
    ∧ (∀ k c, key = some k → s.blocks.monitor.find k = some c → c.state ≠ .latched →
      exec (.clearLatch kind subject) s = .next (s.reject .wrongState))
    ∧ (∀ k c, key = some k → s.blocks.monitor.find k = some c → c.state = .latched → s.blocks.monitor.Sound →
      ∃ t, exec (.clearLatch kind subject) s = .next t ∧ t.port = (s.ok []).port ∧ t.env = s.env
        ∧ t.blocks.monitor.find k = none
        ∧ (∀ j, j ≠ k → (CondKey.radio j).isNone → t.blocks.monitor.find j = s.blocks.monitor.find j)
        ∧ (∀ n, guardLevel t.env t.blocks.monitor n
            = guardLevel s.env { s.blocks.monitor with list := s.blocks.monitor.list.filter fun x => x.key != k } n)
        ∧ t.blocks.cells = s.blocks.cells ∧ t.blocks.lanes = s.blocks.lanes ∧ t.blocks.tracker = s.blocks.tracker
        ∧ t.blocks.survey = s.blocks.survey
        ∧ (∀ r, t.blocks.chans.get r
            = { s.blocks.chans.get r with moveWait := (t.blocks.chans.get r).moveWait }))

/-! ## Host commands on radios and on the mode -/

/-- Which plan entry is chosen, and what it costs. An entry is UNAVAILABLE for the first test that holds, in their order (R79).
The cost of a channel is its base, four times the sum of the scores of its cells and 64 for each oven cell over its width, and
16 for each near neighbour up to eight; there are oven cells while an OVEN record is ACTIVE or EXTENDING (R58, R80). The choice
is the available entry of lowest cost, and of lowest id among equals, and none when every entry is UNAVAILABLE (R133). The plan
stands in the order of its ids (StepKeepsRetainedSound). -/
def Obligations.EntryChoice : Prop :=
  ∀ (env : Env) (b : Blocks) (r : Radio),
    (∀ e : PlanEntry,
      let cells := List.range' e.chan.start e.chan.width
      let inBandL := e.chan.start + e.chan.width ≤ 16
      let capability := (b.links.get r).capability
      let widest := fun x : MaxWidth => match x with
        | .w4 => 4
        | .w8 => 8
        | .w16 => 16
      let tests : List (Prop × Unavailable) :=
        [ (e.mask.getLsbD (Radio.number r) = false, .mask),
          (∀ k, capability = some k → (k.bands = .bandH ∧ inBandL) ∨ (k.bands = .bandL ∧ ¬ inBandL), .band),
          (∃ k, capability = some k ∧ widest k.width < e.chan.width, .width),
          (∃ d, (b.chans.get r).declined = some d ∧ d.entry = e.id ∧ Time.before env.now d.expiry = true, .declined),
          (∃ k ∈ cells, k < (env.retained.spans.get r).base ∨ (env.retained.spans.get r).limit < k, .span),
          (∃ k ∈ cells, guardLevel env b.monitor k = .barred, .barred),
          (∃ k ∈ cells, guardLevel env b.monitor k = .avoided, .avoided),
          (∃ k ∈ cells, ∀ c : CellRecord, b.cells[k]? = some c → c.holder ≠ none ∧ c.holder ≠ some r, .held) ]
      (∀ (i : Nat) (x : Prop × Unavailable), tests[i]? = some x → x.1 →
        (∀ (j : Nat) (y : Prop × Unavailable), j < i → tests[j]? = some y → ¬ y.1) → unavailable env b r e = some x.2)
      ∧ ((∀ x ∈ tests, ¬ x.1) → unavailable env b r e = none))
    ∧ (∀ c : Channel,
      let p := env.retained.params
      let cells := List.range' c.start c.width
      let scores := (cells.map fun k => match b.cells[k]? with
        | none => 0
        | some x => x.score).sum
      let hot := ∃ x ∈ b.monitor.list, x.key = .oven ∧ (x.state = .active ∨ x.state = .extending)
      let near := b.survey.table.countP fun n => decide (n.tag = none ∧ p.nearCode ≤ n.strongest
        ∧ ∃ k ∈ cells, n.span.start ≤ k ∧ k < n.span.start + n.span.width)
      nearCount env b c = near
      ∧ (hot → ovenCells env b c
        = (List.range' p.watchBase (p.watchLimit + 1 - p.watchBase)).countP fun k =>
            decide (k ∈ cells ∧ ∃ x ∈ b.tracker.footprint, x.start ≤ k ∧ k < x.start + x.width))
      ∧ (¬ hot → ovenCells env b c = 0)
      ∧ channelCost env b c = 4 * (scores + 64 * ovenCells env b c) / c.width + 16 * min near 8)
    ∧ (chooseEntry env b r = none ↔ ∀ e ∈ env.retained.plan, unavailable env b r e ≠ none)
    ∧ (∀ e cost, (env.retained.plan.map PlanEntry.id).Pairwise (· < ·) → chooseEntry env b r = some (e, cost) →
      e ∈ env.retained.plan ∧ unavailable env b r e = none ∧ cost = channelCost env b e.chan
        ∧ ∀ x ∈ env.retained.plan, unavailable env b r x = none →
          cost ≤ channelCost env b x.chan ∧ (channelCost env b x.chan = cost → e.id ≤ x.id))

/-- MOVE's refusals in the order of its table, and the outcome KEPT of MOVE BEST (R135): none changes any state outside the
port. What the choice and the costs are, EntryChoice says. The layout of KEPT's payload is the model's reading (R170; log 14).
-/
def Obligations.HostMoveAnswered : Prop :=
  ∀ (x entry : Byte) (s : State),
    (3 ≤ x.toNat ∨ (64 ≤ entry.toNat ∧ entry ≠ 0xFF) → exec (.move x entry) s = .next (s.reject .badArgument))
    ∧ (∀ r, x.toNat = Radio.number r → entry.toNat < 64 ∨ entry = 0xFF →
      let c := s.blocks.chans.get r
      let shut := (s.blocks.links.get r).port ≠ .up ∨ c.clash = true ∨ c.isolated = true ∨ c.withdrawn = true
      (s.env.mode = .setup → exec (.move x entry) s = .next (s.reject .wrongMode))
      ∧ (s.env.mode = .run → c.directive ≠ none → exec (.move x entry) s = .next (s.reject .busy))
      ∧ (s.env.mode = .run → c.directive = none → shut → exec (.move x entry) s = .next (s.reject .wrongState))
      ∧ (s.env.mode = .run → c.directive = none → ¬ shut → entry ≠ 0xFF →
        findEntry s.env.retained.plan entry.toNat = none → exec (.move x entry) s = .next (s.reject .noSuch))
      ∧ (∀ e, s.env.mode = .run → c.directive = none → ¬ shut → entry ≠ 0xFF →
        findEntry s.env.retained.plan entry.toNat = some e → unavailable s.env s.blocks r e ≠ none →
        exec (.move x entry) s = .next (s.reject .badArgument))
      ∧ (s.env.mode = .run → c.directive = none → ¬ shut → entry = 0xFF → chooseEntry s.env s.blocks r = none →
        exec (.move x entry) s = .next (s.reject .noSuch))
      ∧ (∀ e best now, s.env.mode = .run → c.directive = none → ¬ shut → entry = 0xFF →
        chooseEntry s.env s.blocks r = some (e, best) → currentCost s.env s.blocks r = some now →
        now < best + s.env.retained.params.moveHysteresis →
        exec (.move x entry) s
          = .next (s.ok ([0, BitVec.ofNat 8 e.id] ++ leBytes 2 best ++ leBytes 2 now))))

/-- MOVE issued (R135, R136): the directive is recorded with the next id, the entry and its timeout, the entry's cells are held
by the radio with the target mark and no other cell changes, the move wait is over, no request waits, and MOVE is the last
message in the link's queue unless that is full. What the choice and the cost are, EntryChoice says. The layout of ISSUED's
payload is the model's reading (R170; log 14). -/
def Obligations.HostMoveIssued : Prop :=
  ∀ (x entry : Byte) (s : State) (r : Radio) (e : PlanEntry) (cost : Nat),
    let c := s.blocks.chans.get r
    x.toNat = Radio.number r → s.env.mode = .run → c.directive = none → (s.blocks.links.get r).port = .up →
    c.clash = false → c.isolated = false → c.withdrawn = false →
    ((entry.toNat < 64 ∧ findEntry s.env.retained.plan entry.toNat = some e ∧ unavailable s.env s.blocks r e = none
        ∧ cost = channelCost s.env s.blocks e.chan)
      ∨ (entry = 0xFF ∧ chooseEntry s.env s.blocks r = some (e, cost)
        ∧ ∀ now, currentCost s.env s.blocks r = some now → cost + s.env.retained.params.moveHysteresis ≤ now)) →
    ∃ t, exec (.move x entry) s = .next t
      ∧ t.port = (s.ok ([1, c.nextId, BitVec.ofNat 8 e.id] ++ leBytes 2 cost)).port
      ∧ t.blocks.chans.get r = { c with
          directive := some
            { id := c.nextId
              entry := e.id
              chan := e.chan
              reason := .host
              expiry := Time.plus s.env.now (s.env.retained.params.directiveTimeout * 1000) }
          nextId := c.nextId + 1
          moveWait := none }
      ∧ (∀ k, t.blocks.cells[k]? = (s.blocks.cells[k]?).map fun y =>
          if e.chan.start ≤ k ∧ k < e.chan.start + e.chan.width then { y with holder := some r, target := true } else y)
      ∧ (t.blocks.sched.radios.get r).waits = []
      ∧ sentLast (t.blocks.links.get r) (.move c.nextId e.id e.chan .host)

/-- WITHDRAW and RESTORE (R100, R119, R123, R145, R146): a withdrawn radio has no channel, no directive, no request and no
condition record, and holds no cell; a second WITHDRAW does nothing; RESTORE clears the flag and nothing else. -/
def Obligations.WithdrawAndRestore : Prop :=
  ∀ (x : Byte) (s : State),
    (3 ≤ x.toNat →
      exec (.withdraw x) s = .next (s.reject .badArgument) ∧ exec (.restore x) s = .next (s.reject .badArgument))
    ∧ (∀ r, x.toNat = Radio.number r →
      (exec (.restore x) s
        = .next ({ s with blocks := s.blocks.modChan r fun c => { c with withdrawn := false } }.ok []))
      ∧ ((s.blocks.chans.get r).withdrawn = true → exec (.withdraw x) s = .next (s.ok []))
      ∧ ((s.blocks.chans.get r).withdrawn = false → requestsSound s.blocks →
        ∃ t, exec (.withdraw x) s = .next t ∧ t.port = (s.ok []).port
          ∧ t.blocks.chans.get r = { ChanState.reset with
              nextId := (s.blocks.chans.get r).nextId
              declined := (s.blocks.chans.get r).declined
              withdrawn := true }
          ∧ holdsNothing t.blocks r
          ∧ (∃ e, t.blocks.sched.radios.get r = { RadioSched.reset with lastEnded := e })
          ∧ (∀ c ∈ t.blocks.monitor.list, CondKey.radio c.key ≠ some r)
          ∧ ((s.blocks.chans.get r).operating.isSome →
            t.blocks.lanes.get r = Lane.restart (s.blocks.lanes.get r))))

/-- RUN and SETUP (R99, R126, R127, R134, R163, R164): no effect in the mode itself. At the entry to RUN the condition list
holds fresh radio-kind records alone; every pass-through grant has ended with a CUT to now, and the last ended record is the
last of them with manner cut, the order of entry being the model's choice (log 33); the lanes, the tracker, the survey unit,
the map and the directives go on. At the entry to SETUP every move wait is over and no air holds a grant, a hold or a review
timer; an ACTIVE air grant has become a pass-through grant with the same end, a SCHEDULED one is withdrawn with CUT (whose
record holds the grant's start, log 9); each waiting and then each posted request is a pass-through grant from now for its L′,
and GRANT is sent; the condition list holds fresh radio-kind records alone. -/
def Obligations.ModeChanges : Prop :=
  ∀ s : State,
    (s.env.mode = .run → exec .run s = .next (s.ok []))
    ∧ (s.env.mode = .setup →
      ∃ t, exec .run s = .next t ∧ t.port = (s.ok []).port ∧ t.env = { s.env with mode := .run }
        ∧ (∀ r, (t.blocks.sched.radios.get r).passThrough = []
            ∧ (∀ g ∈ (s.blocks.sched.radios.get r).passThrough, sent (t.blocks.links.get r) (.cut g.id s.env.now))
            ∧ (t.blocks.sched.radios.get r).lastEnded
              = match (s.blocks.sched.radios.get r).passThrough.getLast? with
                | none => (s.blocks.sched.radios.get r).lastEnded
                | some g => some ⟨g.id, s.env.now, .cut⟩)
        ∧ (∀ c ∈ t.blocks.monitor.list, CondKey.radio c.key ≠ none ∧ c.entered = s.env.now)
        ∧ (∀ r, (s.blocks.chans.get r).clash = true → t.blocks.monitor.holds (.clash r) = true)
        ∧ (∀ r, (s.blocks.links.get r).linkSource = true → t.blocks.monitor.holds (.link r) = true)
        ∧ SchedOnly { s.blocks with monitor := t.blocks.monitor } t.blocks)
    ∧ (s.env.mode = .setup → exec .setup s = .next (s.ok []))
    ∧ (s.env.mode = .run →
      ∃ t, exec .setup s = .next t ∧ t.port = (s.ok []).port ∧ t.env = { s.env with mode := .setup }
        ∧ (∀ r, t.blocks.chans.get r = { s.blocks.chans.get r with moveWait := none })
        ∧ (∀ a, t.blocks.air a = ⟨none, none, none⟩)
        ∧ (∀ r, (t.blocks.sched.radios.get r).waits = [] ∧ (t.blocks.sched.radios.get r).posted = []
            ∧ (t.blocks.sched.radios.get r).passThrough = (s.blocks.sched.radios.get r).passThrough
                ++ ((airIds.filterMap fun a => (s.blocks.air a).grant).filter fun g =>
                  g.radio == r && g.state == .active)
                ++ (((s.blocks.sched.radios.get r).waits ++ (s.blocks.sched.radios.get r).posted).map fun q =>
                  ({ radio := r
                     id := q.id
                     start := s.env.now
                     stop := Time.plus s.env.now q.length
                     shortenable := q.shortenable
                     shortened := false
                     exposed := false
                     state := .active } : Grant))
            ∧ (∀ q ∈ (s.blocks.sched.radios.get r).waits ++ (s.blocks.sched.radios.get r).posted,
                sent (t.blocks.links.get r) (.grant q.id s.env.now q.length false))
            ∧ (t.blocks.sched.radios.get r).lateCount = (s.blocks.sched.radios.get r).lateCount
            ∧ (t.blocks.sched.radios.get r).overrun = (s.blocks.sched.radios.get r).overrun)
        ∧ (∀ a g, (s.blocks.air a).grant = some g → g.state = .scheduled →
            sent (t.blocks.links.get g.radio) (.cut g.id g.start)
              ∧ ((∀ a' g', a' ≠ a → (s.blocks.air a').grant = some g' → g'.radio ≠ g.radio) →
                (t.blocks.sched.radios.get g.radio).lastEnded = some ⟨g.id, g.start, .cut⟩))
        ∧ (∀ c ∈ t.blocks.monitor.list, CondKey.radio c.key ≠ none ∧ c.entered = s.env.now)
        ∧ t.blocks.cells = s.blocks.cells ∧ t.blocks.lanes = s.blocks.lanes ∧ t.blocks.tracker = s.blocks.tracker
        ∧ t.blocks.survey = s.blocks.survey)

/-! ## Radio links -/

/-- The receiver of a link (R148, R152, R154): a sync byte starts a message; a message discarded or abandoned, and a HELLO of
another version than 1, are counted as link errors and the receiver hunts again; nothing else changes, but for the liveness
expiry that a good HELLO restarts in UP. A good message other than HELLO is dropped and answered RELINK in DOWN and LOST, and
changes no other state; in UP a KEEPALIVE restarts the liveness expiry and does nothing else (R153, R154), and no more do a
batch and a summary of a radio without a channel or withdrawn (R21, R65). -/
def Obligations.ReceiverAndSessions : Prop :=
  (∀ (r : Radio) (s : State),
     let error := fun k : Link =>
       { k with
         receiver := .hunting
         counters := { k.counters with linkErrors := min (k.counters.linkErrors + 1) 65535 } }
     exec (.syncByte r) s = .next { s with blocks := s.blocks.modLink r fun k => { k with receiver := .collecting } }
     ∧ (∀ why, exec (.messageDiscarded r why) s = .next { s with blocks := s.blocks.modLink r error })
     ∧ (∀ why, exec (.messageAbandoned r why) s = .next { s with blocks := s.blocks.modLink r error })
     ∧ (∀ version bands width, version ≠ 1 → (s.blocks.links.get r).port ≠ .up →
       exec (.hello r version bands width) s = .next { s with blocks := s.blocks.modLink r error })
     ∧ (∀ version bands width, version ≠ 1 → (s.blocks.links.get r).port = .up →
       exec (.hello r version bands width) s = .next { s with blocks := (heardOn s.env r s.blocks).modLink r error }))
  ∧ ∀ (c : Instr) (r : Radio) (s : State),
      let port := (s.blocks.links.get r).port
      let chan := s.blocks.chans.get r
      (sessionMessage c = some r → port ≠ .up →
        exec c s = .next { s with blocks := s.blocks.modLink r fun k => Link.issue { k with receiver := .hunting } .relink })
      ∧ (port = .up → exec (.keepalive r) s = .next { s with blocks := heardOn s.env r s.blocks })
      ∧ (∀ f levels, levels.length = 8 → port = .up → chan.operating = none ∨ chan.withdrawn = true →
        exec (.samples r f levels) s = .next { s with blocks := heardOn s.env r s.blocks })
      ∧ (∀ h, h.wf = true → port = .up → chan.operating = none ∨ chan.withdrawn = true →
        exec (.heard r h) s = .next { s with blocks := heardOn s.env r s.blocks })

/-- A HELLO of version 1. In DOWN or LOST it opens a session (R143, R152, R154): the capability is recorded, the port is UP,
the liveness expiry runs, the LINK source is absent and reported so if it was present, WELCOME is in the link's queue unless
that is full, and the channel states, the cells and the lanes stand. In UP it restarts the radio (R123, R144, R150, R152): its
channel state returns to its starting point but for the withdrawn flag and the next directive id, it holds no cell, its
requests are gone, its capability is the new one and WELCOME is the last message in the link's queue unless that is full. -/
def Obligations.HelloSessions : Prop :=
  ∀ (r : Radio) (bands : BandSet) (width : MaxWidth) (s : State),
    let expiry := some (Time.plus s.env.now (s.env.retained.params.linkTimeout * 1000))
    ((s.blocks.links.get r).port ≠ .up →
      ∃ t, exec (.hello r 1 bands width) s = .next t
        ∧ (t.blocks.links.get r).port = .up ∧ (t.blocks.links.get r).capability = some ⟨bands, width⟩
        ∧ (t.blocks.links.get r).receiver = .hunting ∧ (t.blocks.links.get r).linkSource = false
        ∧ (t.blocks.links.get r).liveness = expiry
        ∧ sent (t.blocks.links.get r) (.welcome r s.env.mode (s.blocks.chans.get r).withdrawn)
        ∧ t.blocks.chans = s.blocks.chans ∧ t.blocks.cells = s.blocks.cells ∧ t.blocks.lanes = s.blocks.lanes
        ∧ t.blocks.monitor = (if (s.blocks.links.get r).linkSource then s.blocks.monitor.absent s.env (.link r)
            else s.blocks.monitor))
    ∧ ((s.blocks.links.get r).port = .up →
      ∃ t, exec (.hello r 1 bands width) s = .next t
        ∧ (t.blocks.links.get r).port = .up ∧ (t.blocks.links.get r).capability = some ⟨bands, width⟩
        ∧ (t.blocks.links.get r).receiver = .hunting ∧ (t.blocks.links.get r).liveness = expiry
        ∧ sentLast (t.blocks.links.get r) (.welcome r s.env.mode (s.blocks.chans.get r).withdrawn)
        ∧ t.blocks.chans.get r = { ChanState.reset with
            nextId := (s.blocks.chans.get r).nextId
            withdrawn := (s.blocks.chans.get r).withdrawn }
        ∧ holdsNothing t.blocks r
        ∧ (t.blocks.sched.radios.get r).waits = [] ∧ (t.blocks.sched.radios.get r).posted = []
        ∧ (t.blocks.sched.radios.get r).passThrough = [] ∧ (t.blocks.sched.radios.get r).lastEnded = none
        ∧ ((s.blocks.chans.get r).operating.isSome → t.blocks.lanes.get r = Lane.restart (s.blocks.lanes.get r)))

/-- The liveness expiry reached in UP loses the link (R21, R123, R143, R154): the port is LOST, the LINK source is present and
reported, the requests are gone, the directive and the move wait are cancelled, the lane restarts, and the radio keeps its
operating channel; in another port state nothing happens, and nothing for a command given before the expiry (log 2). -/
def Obligations.LinkLoss : Prop :=
  ∀ (r : Radio) (s : State),
    let due := (s.blocks.links.get r).port = .up
      ∧ ∃ t0, (s.blocks.links.get r).liveness = some t0 ∧ Time.atOrBefore t0 s.env.now = true
    (¬ due → exec (.linkLoss r) s = .next s)
    ∧ (due →
      ∃ t, exec (.linkLoss r) s = .next t
        ∧ (t.blocks.links.get r).port = .lost ∧ (t.blocks.links.get r).liveness = none
        ∧ (t.blocks.links.get r).markStart = none ∧ (t.blocks.links.get r).linkSource = true
        ∧ recordedOrFull t.blocks.monitor (.link r)
        ∧ (t.blocks.sched.radios.get r).waits = [] ∧ (t.blocks.sched.radios.get r).posted = []
        ∧ (t.blocks.sched.radios.get r).passThrough = [] ∧ (t.blocks.sched.radios.get r).lastEnded = none
        ∧ t.blocks.chans.get r = { s.blocks.chans.get r with
            directive := none
            moveWait := none
            clash := (t.blocks.chans.get r).clash }
        ∧ t.blocks.lanes.get r = Lane.restart (s.blocks.lanes.get r))

/-- The transmitter (R150): with TXD free, the head of the queue begins to be sent with the present part time as its stamp; a
MARK is issued when 10 000 µs have passed since the last message began. That a command given before its time does nothing is
log 2, and that the interval has no start between the issue of a MARK and the next message is log 20. -/
def Obligations.Transmitter : Prop :=
  ∀ (r : Radio) (s : State),
    let k := s.blocks.links.get r
    let due := k.port = .up ∧ ∃ t, k.markStart = some t ∧ Time.atOrBefore (Time.plus t 10000) s.env.now = true
    (∀ m rest, k.queue = m :: rest → (∀ x, k.sending = some x → Time.atOrBefore x.freeAt s.env.now = true) →
      ∃ x, exec (.transmitStart r) s
          = .next { s with
              blocks := s.blocks.modLink r fun k =>
                { k with
                  queue := rest
                  sending := some x
                  markStart := if k.port = .up then some s.env.now else k.markStart } }
        ∧ x.stamp = s.env.now ∧ x.bytes = envelope m.type (leBytes 4 s.env.now.toNat ++ m.fields))
    ∧ (k.queue = [] ∨ (∃ x, k.sending = some x ∧ Time.atOrBefore x.freeAt s.env.now = false) →
      exec (.transmitStart r) s = .next s)
    ∧ (due → exec (.mark r) s
        = .next { s with blocks := s.blocks.modLink r fun k => Link.issue { k with markStart := none } .mark })
    ∧ (¬ due → exec (.mark r) s = .next s)

/-! ## Lanes and the survey unit -/

/-- A batch whose first sample lies before the expected time is discarded whole and counted (R25). A batch more than 2^31 µs
after the expected time compares as before it. -/
def Obligations.MisorderedBatch : Prop :=
  (∀ (r : Radio) (f x : Time) (levels : List (BitVec 16)) (s : State) (ch : Channel),
    levels.length = 8 → (s.blocks.links.get r).port = .up → (s.blocks.chans.get r).operating = some ch →
    (s.blocks.chans.get r).withdrawn = false → (s.blocks.lanes.get r).expected = some x → Time.before f x = true →
    exec (.samples r f levels) s
      = .next { s with
          blocks := (heardOn s.env r s.blocks).modLink r fun k =>
            { k with counters := { k.counters with misordered := min (k.counters.misordered + 1) 65535 } } })
  ∧ ∀ f x : Time, 2 ^ 31 < (f - x).toNat → Time.before f x = true

/-- A batch that is not misordered and short of a survey's end, and closes no burst that goes to the tracker (R24, R26, R34,
R36; for one that does, BurstHandedOff). After a gap of *m* missing samples the lane first feeds its burst machine *m* blind
samples when *m* is at most 10, and else closes an open burst as truncated and starts QUIET with an empty history and both runs
at 0. Then the eight samples go through the burst machine in time order, 50 µs apart (BurstMachine says which kind a level is
and how the machine moves), and are counted in the survey by kind, the missing ones not; the next batch is expected 400 µs
after this one; nothing else changes. -/
def Obligations.BatchUsed : Prop :=
  ∀ (r : Radio) (f : Time) (levels : List (BitVec 16)) (s : State) (ch : Channel),
    let p := s.env.retained.params
    let lane := s.blocks.lanes.get r
    let kinds := levels.map fun q => sampleKind p.busyCode (codeOf q)
    let times := [0, 50, 100, 150, 200, 250, 300, 350].map fun n => Time.plus f n
    let quiet := fun l : Lane => { l with burst := none, history := [], idleRun := 0, blindRun := 0 }
    let cut := match lane.burst with
      | none => quiet lane
      | some o =>
        let d := (o.lastBusy + 50 - o.start).toNat
        let c := lane.counters
        let up := fun n : Nat => min (n + 1) 65535
        { quiet lane with
          counters :=
            if d < 200 then { c with glitch := up c.glitch, truncated := up c.truncated }
            else if d < p.ovenMin then { c with frame := up c.frame, truncated := up c.truncated }
            else if d ≤ p.ovenMax then { c with ovenLike := up c.ovenLike, truncated := up c.truncated }
            else { c with long := up c.long, truncated := up c.truncated } }
    let use := fun (l : Lane × List ClosedBurst) (x : Time × SampleKind) =>
      let y := l.1.feed p ch x.1 x.2
      (y.1, l.2 ++ y.2.toList)
    let ready : Lane × List ClosedBurst := match lane.expected with
      | none => (lane, [])
      | some x =>
        let m := (f - x).toNat / 50
        if m ≤ 10 then ((List.range m).map fun i => (Time.plus x (50 * i), .blind)).foldl use (lane, []) else (cut, [])
    let fed := (times.zip kinds).foldl use ready
    levels.length = 8 → (s.blocks.links.get r).port = .up → (s.blocks.chans.get r).operating = some ch →
    (s.blocks.chans.get r).withdrawn = false → (∀ x, lane.expected = some x → Time.before f x = false) →
    lane.survey.busy + lane.survey.idle + lane.survey.blind + 8 < 2048 →
    (∀ c ∈ fed.2, c.truncated = false → c.cls = .ovenLike →
      ¬ (c.span.start ≤ p.watchLimit ∧ p.watchBase < c.span.start + c.span.width)) →
    exec (.samples r f levels) s
      = .next { s with
          blocks := (heardOn s.env r s.blocks).modLane r fun l =>
            { fed.1 with
              expected := some (f + 400)
              survey :=
                { busy := l.survey.busy + (kinds.filter fun k => k == .busy).length
                  idle := l.survey.idle + (kinds.filter fun k => k == .idle).length
                  blind := l.survey.blind + (kinds.filter fun k => k == .blind).length
                  own := l.survey.own } } }

/-- A level's code and kind (R22, R23), and one sample in the burst machine of a lane (R28 to R31, R33). The code of a level
*q* is floor((*q* + 400) / 2) clamped to 0 … 126, and 127 for the blind marker; a code below the busy code is idle. QUIET: a
blind sample changes nothing; an idle one, and a busy one with no busy entry in the pair history, joins the history, which
keeps its latest five; a busy one with a busy entry opens a burst from that entry. OPEN: the runs and last busy move, and then
an idle run of 10 closes the burst normally, a blind run of 40 or an age of 2^30 µs closes it as truncated; its end is last
busy + 50, its class is counted, and the lane is QUIET with an empty history and both runs at 0. -/
def Obligations.BurstMachine : Prop :=
  (∀ q : BitVec 16,
     (q.toInt = -32768 → codeOf q = 127)
     ∧ (q.toInt ≠ -32768 → q.toInt < -400 → codeOf q = 0)
     ∧ (-400 ≤ q.toInt → q.toInt < -146 →
       2 * (codeOf q : Int) ≤ q.toInt + 400 ∧ q.toInt + 400 < 2 * (codeOf q : Int) + 2)
     ∧ (-146 ≤ q.toInt → codeOf q = 126))
  ∧ (∀ busyCode code : Nat,
      (code = 127 → sampleKind busyCode code = .blind)
      ∧ (code ≠ 127 → busyCode ≤ code → sampleKind busyCode code = .busy)
      ∧ (code ≠ 127 → code < busyCode → sampleKind busyCode code = .idle))
  ∧ ∀ (p : Params) (ch : Channel) (t : Time) (k : SampleKind) (l : Lane),
     let pushed := fun e : HistEntry => { l with history := (l.history ++ [e]).drop (l.history.length - 4) }
     (l.burst = none → l.history.length ≤ 5 →
       (k = .blind → l.feed p ch t k = (l, none))
       ∧ (k = .idle → l.feed p ch t k = (pushed ⟨false, t⟩, none))
       ∧ (k = .busy → (∀ e ∈ l.history, e.busy = false) → l.feed p ch t k = (pushed ⟨true, t⟩, none))
       ∧ (∀ e, k = .busy → l.history.filter (fun e => e.busy) = [e] →
         l.feed p ch t k
           = ({ l with burst := some ⟨e.time, ch, t⟩, history := [], idleRun := 0, blindRun := 0 }, none)))
     ∧ (∀ o, l.burst = some o →
       let lastBusy := if k = .busy then t else o.lastBusy
       let idle := match k with
         | .busy => 0
         | .idle => l.idleRun + 1
         | .blind => l.idleRun
       let blind := match k with
         | .busy => 0
         | .idle => 0
         | .blind => l.blindRun + 1
       let aged := Time.atOrBefore (o.start + BitVec.ofNat 32 (2 ^ 30)) t = true
       let d := (lastBusy + 50 - o.start).toNat
       let c := l.counters
       let up := fun n : Nat => min (n + 1) 65535
       let cls := if d < 200 then BurstClass.glitch else if d < p.ovenMin then .frame
         else if d ≤ p.ovenMax then .ovenLike else .long
       let counted := match cls with
         | .glitch => { c with glitch := up c.glitch }
         | .frame => { c with frame := up c.frame }
         | .ovenLike => { c with ovenLike := up c.ovenLike }
         | .long => { c with long := up c.long }
       let closed := fun n : ClassCounters =>
         { l with burst := none, history := [], idleRun := 0, blindRun := 0, counters := n }
       (idle = 10 → l.feed p ch t k = (closed counted, some ⟨o.start, d, o.span, cls, false⟩))
       ∧ (idle ≠ 10 → blind = 40 ∨ aged →
         l.feed p ch t k
           = (closed { counted with truncated := up c.truncated }, some ⟨o.start, d, o.span, cls, true⟩))
       ∧ (idle ≠ 10 → blind ≠ 40 → ¬ aged →
         l.feed p ch t k
           = ({ l with burst := some { o with lastBusy := lastBusy }, idleRun := idle, blindRun := blind }, none)))

/-- A burst that closes in a batch (R30, R33, R34, R44): with a burst open on *i* idle samples, eight idle samples close it
normally when the idle run reaches 10. It is handed to the tracker with the lane's number, its start, its duration and its
burst span when its class is OVEN-LIKE and its span meets the oven watch span, and the tracker judges it (BurstsJudged says
how); any other burst leaves the tracker as it was. The class is counted either way. -/
def Obligations.BurstHandedOff : Prop :=
  ∀ (r : Radio) (f : Time) (levels : List (BitVec 16)) (s : State) (ch : Channel) (o : OpenBurst),
    let p := s.env.retained.params
    let lane := s.blocks.lanes.get r
    let i := lane.idleRun
    let d := (o.lastBusy + 50 - o.start).toNat
    let c := lane.counters
    let up := fun n : Nat => min (n + 1) 65535
    let ovenLike := 200 ≤ d ∧ p.ovenMin ≤ d ∧ d ≤ p.ovenMax
    let meets := o.span.start ≤ p.watchLimit ∧ p.watchBase < o.span.start + o.span.width
    let judged := s.blocks.tracker.judge p ⟨r, o.start, d, o.span⟩
    levels.length = 8 → (∀ q ∈ levels, sampleKind p.busyCode (codeOf q) = .idle) →
    (s.blocks.links.get r).port = .up → (s.blocks.chans.get r).operating = some ch →
    (s.blocks.chans.get r).withdrawn = false → lane.expected = some f → lane.burst = some o → 2 ≤ i → i ≤ 9 →
    (∀ j, j < 8 → Time.atOrBefore (o.start + BitVec.ofNat 32 (2 ^ 30)) (Time.plus f (50 * j)) = false) →
    lane.survey.busy + lane.survey.idle + lane.survey.blind + 8 < 2048 →
    ∃ t, exec (.samples r f levels) s = .next t
      ∧ (t.blocks.lanes.get r).burst = none ∧ (t.blocks.lanes.get r).expected = some (f + 400)
      ∧ (t.blocks.lanes.get r).history.length = min (i - 2) 5
      ∧ (t.blocks.lanes.get r).counters
        = (if d < 200 then { c with glitch := up c.glitch }
          else if d < p.ovenMin then { c with frame := up c.frame }
          else if d ≤ p.ovenMax then { c with ovenLike := up c.ovenLike }
          else { c with long := up c.long })
      ∧ (ovenLike → meets → t.blocks.tracker = judged.tracker
        ∧ (judged.report = true → t.blocks.monitor.lastRange = footprintRange p judged.tracker))
      ∧ (¬ (ovenLike ∧ meets) → t.blocks.tracker = s.blocks.tracker ∧ t.blocks.monitor = s.blocks.monitor
        ∧ t.blocks.sched = s.blocks.sched)
      ∧ t.env = s.env ∧ t.blocks.survey = s.blocks.survey ∧ t.port = s.port

/-- A survey that completes in a batch that closes no burst which goes to the tracker (R34, R38, R77, R78, R119): the sample
that makes 2048 ends it, and the batch's later samples count in the next. Unless every sample was blind, each cell of the
channel moves a truncated eighth of the way to the foreign fraction, has now as its last surveyed time, and has its crowding
source set from its new score and reported, and no other cell's score or source changes. The late count is 0 and the overrun
source falls below the limit. The burst machine goes on as it was. -/
def Obligations.SurveyCompletes : Prop :=
  ∀ (r : Radio) (f : Time) (levels : List (BitVec 16)) (s : State) (ch : Channel),
    let p := s.env.retained.params
    let lane := s.blocks.lanes.get r
    let kinds := levels.map fun q => sampleKind p.busyCode (codeOf q)
    let times := [0, 50, 100, 150, 200, 250, 300, 350].map fun n => Time.plus f n
    let fed := (times.zip kinds).foldl (fun (l : Lane × List ClosedBurst) (x : Time × SampleKind) =>
      let y := l.1.feed p ch x.1 x.2
      (y.1, l.2 ++ y.2.toList)) (lane, [])
    let total := lane.survey.busy + lane.survey.idle + lane.survey.blind
    let before := kinds.take (2048 - total)
    let later := kinds.drop (2048 - total)
    let number := fun (l : List SampleKind) (k : SampleKind) => (l.filter fun x => x == k).length
    let busy := lane.survey.busy + number before .busy
    let heard := busy + lane.survey.idle + number before .idle
    let fraction := min (256 * (50 * busy - min lane.survey.own (50 * busy)) / (50 * heard)) 255
    let x := s.blocks.sched.radios.get r
    levels.length = 8 → (s.blocks.links.get r).port = .up → (s.blocks.chans.get r).operating = some ch →
    (s.blocks.chans.get r).withdrawn = false → (lane.expected = none ∨ lane.expected = some f) →
    total < 2048 → 2048 ≤ total + 8 →
    (∀ c ∈ fed.2, c.truncated = false → c.cls = .ovenLike →
      ¬ (c.span.start ≤ p.watchLimit ∧ p.watchBase < c.span.start + c.span.width)) →
    ∃ t, exec (.samples r f levels) s = .next t
      ∧ t.blocks.lanes.get r = { fed.1 with
          expected := some (f + 400)
          survey := ⟨number later .busy, number later .idle, number later .blind, 0⟩ }
      ∧ (heard = 0 → t.blocks.survey = s.blocks.survey
        ∧ ∀ k : Nat, (t.blocks.cells[k]?).map (fun c => (c.score, c.surveyed))
          = (s.blocks.cells[k]?).map fun c => (c.score, c.surveyed))
      ∧ (0 < heard →
        (∀ (k : Nat) (c : CellRecord), s.blocks.cells[k]? = some c →
          let score := if ch.start ≤ k ∧ k < ch.start + ch.width then
              (c.score + ((fraction : Int) - c.score).tdiv 8).toNat else c.score
          (∃ c' : CellRecord, t.blocks.cells[k]? = some c' ∧ c'.score = score
            ∧ c'.surveyed = if ch.start ≤ k ∧ k < ch.start + ch.width then some s.env.now else c.surveyed)
          ∧ ∀ old, s.blocks.survey.crowding[k]? = some old →
            let source := if ch.start ≤ k ∧ k < ch.start + ch.width then
                (if p.crowdOn ≤ score then true else if score < p.crowdOff then false else old) else old
            t.blocks.survey.crowding[k]? = some source
              ∧ (ch.start ≤ k ∧ k < ch.start + ch.width → source = true → recordedOrFull t.blocks.monitor (.crowd k)))
        ∧ t.blocks.survey = { s.blocks.survey with crowding := t.blocks.survey.crowding })
      ∧ (t.blocks.sched.radios.get r).lateCount = 0
      ∧ (t.blocks.sched.radios.get r).overrun = (x.overrun && decide (p.overrunLimit ≤ x.lateCount))
      ∧ t.blocks.tracker = s.blocks.tracker ∧ t.env = s.env ∧ t.port = s.port

/-- How a summary is matched (R66, R69, R70), the first step that decides ending it: a BSS id of the own-network list is own;
the first enabled filter in index order whose check over the capsule bytes its mask selects equals its expected check decides
by its action, OWN as own, TAG as a tagged neighbour frame or, without a BSS id, as anonymous; and else a frame with a BSS id
is an untagged neighbour frame and one without is anonymous. The capsule check begins at 0xFFFF; each byte goes into its upper
eight bits, and it is shifted eight times with the generator 0x1021. -/
def Obligations.SummariesMatched : Prop :=
  (∀ (x : Retained) (h : Summary),
     let own := ∃ id, h.bss = some id ∧ some id ∈ x.ownList
     let selected := fun (mask : BitVec 24) (capsule : List Byte) =>
       (List.range capsule.length).filterMap fun j => if mask.getLsbD j then capsule[j]? else none
     let matched := fun (j : Nat) (f : SigFilter) => x.filters[j]? = some f ∧ f.enable = true
       ∧ ∃ capsule, h.capsule = some capsule ∧ crc16 (selected f.mask capsule) = f.expected
     let first := fun (j : Nat) (f : SigFilter) => matched j f ∧ ∀ i g, i < j → ¬ matched i g
     (own → matchSummary x h = .own)
     ∧ (∀ j f, ¬ own → first j f →
       (f.action = .own → matchSummary x h = .own)
       ∧ (f.action = .tag → matchSummary x h = match h.bss with
         | none => .anonymous
         | some id => .neighbour id (some j)))
     ∧ (¬ own → (∀ j f, ¬ matched j f) →
       matchSummary x h = match h.bss with
         | none => .anonymous
         | some id => .neighbour id none))
  ∧ crc16 [] = 0xFFFF
  ∧ ∀ (xs : List Byte) (x : Byte),
    let shift := fun c : BitVec 16 => if c.msb then (c <<< 1) ^^^ 0x1021#16 else c <<< 1
    crc16 (xs ++ [x]) = Nat.iterate shift 8 (crc16 xs ^^^ (x.zeroExtend 16 <<< 8))

/-- The neighbour table. A HEARD in UP on a radio with a channel (R65, R66, R71 to R73, R75; SummariesMatched says which frame
is which): a malformed one is counted and dropped; an own frame credits the lane's survey; a frame of a network in the table
updates its entry and brings it to the front; one of a new network makes an entry at the front, the oldest leaving a full
table; a CONTROL frame makes none. The sweep (R74): at its time the entries last heard more than the neighbour age before are
removed and counted, the others close up in their order, and the next sweep falls 1 000 000 µs later; a command given before
its time does nothing (log 2). -/
def Obligations.NeighbourTable : Prop :=
  (∀ (r : Radio) (h : Summary) (s : State) (ch : Channel),
     let u := s.blocks.survey
     let b := heardOn s.env r s.blocks
     let counted := fun (f : HeardCounters → HeardCounters) => f u.counters.take
     let airtime := min h.airtime.toNat 32767
     let new := fun (bss : BssId) (tag : Option Nat) =>
       ({ bss := bss
          radio := r
          span := ch
          first := s.env.now
          last := s.env.now
          frames := 1
          airtime := airtime
          strongest := codeOf h.level
          tag := tag } : Neighbour)
     let after := fun (b : Blocks) (u : SurveyUnit) =>
       (Host.Outcome.next { s with blocks := { b with survey := u } } : Host.Outcome State Fault Refusal)
     h.wf = true → (s.blocks.links.get r).port = .up → (s.blocks.chans.get r).operating = some ch →
     (s.blocks.chans.get r).withdrawn = false →
     ((h.level = 0x8000 ∨ h.airtime = 0) →
       exec (.heard r h) s = after b { u with counters := counted HeardCounters.malform })
     ∧ (h.level ≠ 0x8000 → h.airtime ≠ 0 →
       (matchSummary s.env.retained h = .own →
         exec (.heard r h) s
           = after
               (b.modLane r fun l =>
                 { l with
                   survey := { l.survey with own := min (l.survey.own + airtime) (2 ^ 32 - 1) } })
               { u with counters := counted HeardCounters.ownFrame })
       ∧ (matchSummary s.env.retained h = .anonymous →
         exec (.heard r h) s = after b { u with counters := counted HeardCounters.anon })
       ∧ (∀ bss tag n, matchSummary s.env.retained h = .neighbour bss tag → findNeighbour u.table bss = some n →
         exec (.heard r h) s
           = after b { u with
               table :=
                 { n with
                   radio := r
                   span := ch
                   last := s.env.now
                   frames := min (n.frames + 1) 65535
                   airtime := min (n.airtime + airtime) (2 ^ 32 - 1)
                   strongest := max n.strongest (codeOf h.level)
                   tag := tag <|> n.tag } :: u.table.filter fun m => m.bss != bss
               counters := counted HeardCounters.neighbourFrame })
       ∧ (∀ bss tag, matchSummary s.env.retained h = .neighbour bss tag → findNeighbour u.table bss = none →
         (h.kind = .control → exec (.heard r h) s = after b { u with counters := counted HeardCounters.anon })
         ∧ (h.kind ≠ .control → u.table.length < 48 →
           exec (.heard r h) s
             = after b { u with
                 table := new bss tag :: u.table
                 counters := counted fun c => c.neighbourFrame.entry })
         ∧ (h.kind ≠ .control → u.table.length = 48 →
           exec (.heard r h) s
             = after b { u with
                 table := new bss tag :: u.table.take 47
                 counters := counted fun c => c.neighbourFrame.entry.evict }))))
  ∧ ∀ s : State,
      let u := s.blocks.survey
      let old := fun n : Neighbour =>
        decide (s.env.retained.params.neighbourAge * 1000000 < (s.env.now - n.last).toNat)
      (Time.atOrBefore u.nextSweep s.env.now = false → exec .neighbourSweep s = .next s)
      ∧ (Time.atOrBefore u.nextSweep s.env.now = true →
        exec .neighbourSweep s
          = .next { s with
              blocks := { s.blocks with
                survey := { u with
                  table := u.table.filter fun n => !old n
                  counters := { u.counters with agedOut := min (u.counters.agedOut + u.table.countP old) 65535 }
                  nextSweep := Time.plus u.nextSweep 1000000 } } })

/-- A lane whose stream has lapsed (R27, R31, R33): 100 000 µs after the expected time an open burst closes as truncated with
its class counted, the lane is QUIET with an empty history and both runs at 0, the expected time is absent, the survey counts
are kept; with no expected time nothing happens, and nothing for a command given before then (log 2). That the time runs from the
expected time alone, so that a misordered batch does not put the lapse off, is the model's reading of R27 (log 34, DEDUCED). -/
def Obligations.StreamLapse : Prop :=
  ∀ (r : Radio) (s : State),
    let lane := s.blocks.lanes.get r
    let due := ∃ x, lane.expected = some x ∧ Time.atOrBefore (Time.plus x 100000) s.env.now = true
    let p := s.env.retained.params
    (¬ due → exec (.streamLapse r) s = .next s)
    ∧ (due → lane.burst = none →
      exec (.streamLapse r) s
        = .next { s with
            blocks := s.blocks.modLane r fun l =>
              { l with expected := none, burst := none, history := [], idleRun := 0, blindRun := 0 } })
    ∧ (∀ o, due → lane.burst = some o →
      let d := (o.lastBusy + 50 - o.start).toNat
      let c := lane.counters
      let up := fun n : Nat => min (n + 1) 65535
      let counted :=
        if d < 200 then { c with glitch := up c.glitch, truncated := up c.truncated }
        else if d < p.ovenMin then { c with frame := up c.frame, truncated := up c.truncated }
        else if d ≤ p.ovenMax then { c with ovenLike := up c.ovenLike, truncated := up c.truncated }
        else { c with long := up c.long, truncated := up c.truncated }
      exec (.streamLapse r) s
        = .next { s with
            blocks := s.blocks.modLane r fun l =>
              { l with
                expected := none
                burst := none
                history := []
                idleRun := 0
                blindRun := 0
                counters := counted } })

/-! ## The cadence tracker -/

/-- The tracker's timers. The anchor's expiry (R46, R48): when it is reached in SEARCH the anchor is discarded, the state stays
SEARCH and nothing is reported, and the next burst becomes the anchor; when a burst is taken first, it is judged against the
anchor; with no anchor, or outside SEARCH, nothing happens. The onset check (R43, R51, R55, R56): in ACQUIRE a break; in TRACK
the entry to COAST with T a period on; in COAST another miss, or the loss of lock at the coast limit; in SEARCH nothing. A
command given before its time does nothing (log 2). -/
def Obligations.TrackerTimers : Prop :=
  ((∀ (s : State) (a : Anchor) (h : HandOff), s.blocks.tracker.phase = .search → s.blocks.tracker.anchor = some a →
     let p := s.env.retained.params
     let interval := (h.start - a.start).toInt
     let anchored : Anchor := ⟨h.start, h.duration, h.span, Time.plus h.start (p.periodMax + p.ovenMax + 1000)⟩
     (Time.atOrBefore a.expiry s.env.now = false → exec .anchorExpiry s = .next s)
     ∧ (Time.atOrBefore a.expiry s.env.now = true →
       ∃ t, exec .anchorExpiry s = .next t
         ∧ t = { s with blocks := { s.blocks with tracker := { s.blocks.tracker with anchor := none } } }
         ∧ (t.blocks.tracker.judge p h).tracker.anchor = some anchored
         ∧ (t.blocks.tracker.judge p h).tracker.phase = .search)
     ∧ ((p.periodMin : Int) ≤ interval → interval ≤ p.periodMax →
       (s.blocks.tracker.judge p h).tracker.phase = .acquire)
     ∧ ((p.periodMax : Int) < interval → (p.periodMin : Int) ≤ p.periodMax →
       (s.blocks.tracker.judge p h).tracker.phase = .search
         ∧ (s.blocks.tracker.judge p h).tracker.anchor = some anchored))
   ∧ ∀ s : State, s.blocks.tracker.phase ≠ .search ∨ s.blocks.tracker.anchor = none → exec .anchorExpiry s = .next s)
  ∧ ∀ s : State,
      let p := s.env.retained.params
      let k := s.blocks.tracker
      let due := k.phase ≠ .search ∧ ∃ t0, k.check = some t0 ∧ Time.atOrBefore t0 s.env.now = true
      let c := { k.counters with missed := min (k.counters.missed + 1) 65535 }
      let onset := k.onset + BitVec.ofNat 36 k.period
      let next := Time.plus (BitVec.ofNat 32 (onset.toNat / 16)) (p.trackWindow + p.ovenMax + 1000)
      (¬ due → exec .onsetCheck s = .next s)
      ∧ (due →
        ∃ t, exec .onsetCheck s = .next t ∧ t.env = s.env ∧ t.port = s.port ∧ t.blocks.lanes = s.blocks.lanes
          ∧ t.blocks.survey = s.blocks.survey
          ∧ (k.phase = .acquire →
            t.blocks.tracker = { Tracker.reset with counters := { c with breaks := min (c.breaks + 1) 65535 } })
          ∧ (k.phase = .track →
            t.blocks.tracker
              = { k with phase := .coast, misses := 1, onset := onset, check := some next, counters := c })
          ∧ (k.phase = .coast → k.misses + 1 < p.coastLimit →
            t.blocks.tracker = { k with misses := k.misses + 1, onset := onset, check := some next, counters := c })
          ∧ (k.phase = .coast → p.coastLimit ≤ k.misses + 1 →
            t.blocks.tracker = { Tracker.reset with counters := { c with losses := min (c.losses + 1) 65535 } }))

/-- The tracker's judgement of a burst (R44 to R47, R49, R50, R52 to R54, R57, R59), the burst counted as handed off. SEARCH:
with no anchor, or an interval above the period maximum, the burst is the anchor; below the period minimum it is ignored;
between them ACQUIRE is entered. Elsewhere a start within the current window of A is a duplicate, which adds its span alone.
ACQUIRE: accepted within the acquire window of T, with the lock at the lock count; earlier it is ignored, later it is a break
and the new anchor. TRACK and COAST: accepted within the track window of T, and else an outlier, which changes nothing. The
second part of the answer says whether the oven source is reported. -/
def Obligations.BurstsJudged : Prop :=
  ∀ (p : Params) (k : Tracker) (h : HandOff), p.periodMin ≤ p.periodMax →
    let up := fun n : Nat => min (n + 1) 65535
    let c := { k.counters with handOffs := up k.counters.handOffs }
    let ignored : Judged := ⟨{ k with counters := { c with ignored := up c.ignored } }, false⟩
    let start : TrackTime := BitVec.ofNat 36 (16 * h.start.toNat)
    let e := (start - k.onset).toInt
    let window : Int := 16 * (if k.phase = .acquire then p.acquireWindow else p.trackWindow)
    let repeated := ∃ a, k.lastOnset = some a ∧ -window ≤ (start - a).toInt ∧ (start - a).toInt ≤ window
    let added := fun (x : Channel) (l : List Channel) => x :: (l.filter fun y => y != x).take 7
    let limited := fun x : Int => (max (16 * p.periodMin : Int) (min x (16 * p.periodMax))).toNat
    let checkAt := fun (w : Nat) (onset : TrackTime) =>
      Time.plus (BitVec.ofNat 32 (onset.toNat / 16)) (w + p.ovenMax + 1000)
    let onTime := ((k.onTime : Int) + ((h.duration : Int) - k.onTime).tdiv 8).toNat
    let anchored : Anchor := ⟨h.start, h.duration, h.span, Time.plus h.start (p.periodMax + p.ovenMax + 1000)⟩
    (k.phase = .search →
      (k.anchor = none → k.judge p h = ⟨{ k with anchor := some anchored, counters := c }, false⟩)
      ∧ (∀ a, k.anchor = some a →
        let interval := (h.start - a.start).toInt
        let period := 16 * interval.toNat
        let onset := start + BitVec.ofNat 36 period
        (interval < p.periodMin → k.judge p h = ignored)
        ∧ ((p.periodMax : Int) < interval → k.judge p h = ⟨{ k with anchor := some anchored, counters := c }, false⟩)
        ∧ ((p.periodMin : Int) ≤ interval → interval ≤ p.periodMax →
          k.judge p h
            = ⟨{ phase := .acquire
                 anchor := none
                 period := period
                 onset := onset
                 onTime := (a.duration + h.duration) / 2
                 matched := 2
                 misses := 0
                 lastOnset := some start
                 check := some (checkAt p.acquireWindow onset)
                 footprint := added h.span (added a.span k.footprint)
                 counters := { c with accepted := up c.accepted } }, true⟩)))
    ∧ (k.phase ≠ .search → repeated →
      k.judge p h
        = ⟨{ k with footprint := added h.span k.footprint, counters := { c with duplicates := up c.duplicates } }, true⟩)
    ∧ (k.phase = .acquire → ¬ repeated →
      (-window ≤ e → e ≤ window →
        let period := limited (k.period + e.tdiv 4)
        let onset := start + BitVec.ofNat 36 period
        let locked := decide (p.lockCount ≤ k.matched + 1)
        k.judge p h
          = ⟨{ k with
               phase := if locked then .track else .acquire
               period := period
               onset := onset
               onTime := onTime
               lastOnset := some start
               matched := k.matched + 1
               misses := if locked then 0 else k.misses
               footprint := added h.span k.footprint
               check := some (checkAt (if locked then p.trackWindow else p.acquireWindow) onset)
               counters := { c with
                 accepted := up c.accepted
                 locks := if locked then up c.locks else c.locks } }, true⟩)
      ∧ (e < -window → k.judge p h = ignored)
      ∧ (window < e →
        k.judge p h
          = ⟨{ Tracker.reset with anchor := some anchored, counters := { c with breaks := up c.breaks } }, true⟩))
    ∧ (k.phase = .track ∨ k.phase = .coast → ¬ repeated →
      (-window ≤ e → e ≤ window →
        let period := limited (k.period + e.tdiv 64)
        let onset := k.onset + BitVec.ofInt 36 (period + e.tdiv 4)
        k.judge p h
          = ⟨{ k with
               phase := .track
               period := period
               onset := onset
               onTime := onTime
               lastOnset := some start
               misses := 0
               footprint := added h.span k.footprint
               check := some (checkAt p.trackWindow onset)
               counters := { c with accepted := up c.accepted } }, true⟩)
      ∧ (e < -window ∨ window < e → k.judge p h = ignored))

/-! ## Condition records -/

/-- The timers of a condition record (R89, R90, R92). At a PENDING record's filter expiry it enters ACTIVE; at an EXTENDING
record's extension expiry it is removed when it has been read, and else becomes RESOLVED; with no such record nothing happens,
and nothing for a command given before the timer is due (log 2). Where no guard level and no shaping changes, nothing else
does. NOCHANNEL's record, which the reports of the same event can touch, is covered by that clause. -/
def Obligations.RecordTimers : Prop :=
  ∀ (key : CondKey) (s : State),
    let m := s.blocks.monitor
    let past := fun c : CondRecord => ∃ t0, c.timer = some t0 ∧ Time.atOrBefore t0 s.env.now = true
    let replaced := fun (d : List CondRecord) =>
      { m with list := m.list.flatMap fun x => if x.key = key then d else [x] }
    let quiet := fun (n : Monitor) =>
      guardLevels s.env n = guardLevels s.env m ∧ shapingHolds s.env n = shapingHolds s.env m
    let only := fun (n : Monitor) =>
      (Host.Outcome.next { s with blocks := { s.blocks with monitor := n } } : Host.Outcome State Fault Refusal)
    m.Sound →
    (∀ c, m.find key = some c → c.state = .pending → past c →
      let active : CondRecord :=
        { c with
          state := .active
          changed := s.env.now
          unread := true
          occurrences := min (c.occurrences + 1) 255
          timer := none
          range := affectedRange c.key c.config.scope m.lastRange }
      (∃ t, exec (.filterTimerExpiry key) s = .next t ∧ t.env = s.env
        ∧ ((∀ r, key ≠ .noChannel r) → t.blocks.monitor.find key = some active))
      ∧ (quiet (replaced [active]) → exec (.filterTimerExpiry key) s = only (replaced [active])))
    ∧ (∀ c, m.find key = some c → c.state = .extending → past c →
      let resolved : CondRecord := { c with state := .resolved, changed := s.env.now, timer := none }
      let after := if c.unread then [resolved] else []
      (∃ t, exec (.extensionTimerExpiry key) s = .next t ∧ t.env = s.env
        ∧ ((∀ r, key ≠ .noChannel r) → t.blocks.monitor.find key = after.head?))
      ∧ (quiet (replaced after) → exec (.extensionTimerExpiry key) s = only (replaced after)))
    ∧ ((∀ c, m.find key = some c → c.state ≠ .pending ∨ ¬ past c) → exec (.filterTimerExpiry key) s = .next s)
    ∧ ((∀ c, m.find key = some c → c.state ≠ .extending ∨ ¬ past c) → exec (.extensionTimerExpiry key) s = .next s)

/-- What the condition records put in force: the guard level of a cell (R4); the summaries NOTICE and FAULT by the records'
reactions, states and unread flags, and ALERT_N low in RUN under FAULT, or under NOTICE with notice alerting on (R96). -/
def Obligations.GuardLevelsAndAlert : Prop :=
  (∀ (env : Env) (m : Monitor) (k : Nat),
     let keep := env.retained.keepClear.base ≤ k ∧ k ≤ env.retained.keepClear.limit
     let covers := fun (c : CondRecord) => ∃ x, c.range = some x ∧ x.base ≤ k ∧ k ≤ x.limit
     let barred := env.mode = .run ∧ ∃ c ∈ m.list, c.config.reaction = .bar
       ∧ (c.state = .active ∨ c.state = .extending ∨ c.state = .latched) ∧ covers c
     let avoided := env.mode = .run ∧ ∃ c ∈ m.list, c.config.reaction = .avoid
       ∧ (c.state = .active ∨ c.state = .extending) ∧ covers c
     (guardLevel env m k = .barred ↔ keep ∨ barred)
     ∧ (guardLevel env m k = .avoided ↔ ¬ keep ∧ ¬ barred ∧ avoided)
     ∧ (guardLevel env m k = .clear ↔ ¬ keep ∧ ¬ barred ∧ ¬ avoided))
  ∧ ∀ (env : Env) (m : Monitor),
      (notice m = true ↔ ∃ c ∈ m.list, c.config.reaction = .note
        ∧ (c.state = .active ∨ c.state = .extending ∨ c.unread = true))
      ∧ (faultSummary m = true ↔ ∃ c ∈ m.list, c.config.reaction ≠ .note
        ∧ (c.state = .active ∨ c.state = .extending ∨ c.unread = true))
      ∧ (alertLow env m = true ↔ env.mode = .run
        ∧ (faultSummary m = true ∨ (notice m = true ∧ env.retained.params.noticeAlerting = 1)))

/-- A guard rise in RUN, at the filter expiry of a record whose entry to ACTIVE changes some level (R5, R98, R101, R121, R132,
R134, R136). A radio with a BARRED cell in its channel loses its air grant with CUT, whose end is now for an ACTIVE grant and
the start for a SCHEDULED one (log 9 for the record of it), and its hold; its waiting requests leave with REFUSE(BARRED), its
posted ones stay, and no grant is issued to it. A radio that has a directive pending or cannot be directed gets no new one. The
lowest-numbered radio with risen cells, when it can be directed, gets a MOVE to the entry chosen, with reason BAR or AVOID, or
waits for a move on the risen cells with NOCHANNEL present when no entry is found. -/
def Obligations.GuardRise : Prop :=
  ∀ (key : CondKey) (s : State) (c : CondRecord) (t0 : Time),
    let m := s.blocks.monitor
    let active : CondRecord :=
      { c with
        state := .active
        changed := s.env.now
        unread := true
        occurrences := min (c.occurrences + 1) 255
        timer := none
        range := affectedRange c.key c.config.scope m.lastRange }
    let b := { s.blocks with monitor := { m with list := m.list.map fun x => if x.key = key then active else x } }
    let level := guardLevel s.env b.monitor
    let changed := fun k => k < 156 ∧ guardLevel s.env m k ≠ level k
    let rises := fun k => k < 156 ∧ (guardLevel s.env m k).strength < (level k).strength
    m.Sound → s.env.mode = .run → m.find key = some c → c.state = .pending → c.timer = some t0 →
    Time.atOrBefore t0 s.env.now = true → (∃ k, changed k) →
    ∃ t, exec (.filterTimerExpiry key) s = .next t ∧ t.env = s.env ∧ t.port = s.port
      ∧ (∀ k, guardLevel t.env t.blocks.monitor k = level k)
      ∧ (∀ r, (∃ k ∈ operatingCells b r, level k = .barred) →
        let x := s.blocks.sched.radios.get r
        (t.blocks.sched.radios.get r).waits = [] ∧ (t.blocks.sched.radios.get r).posted = x.posted
          ∧ (∀ q ∈ x.waits, sent (t.blocks.links.get r) (.refuse q.id .barred))
          ∧ (∀ a, holdAir s.blocks r = some a → (t.blocks.air a).hold = none)
          ∧ (∀ a g, grantAir s.blocks r = some a → (s.blocks.air a).grant = some g →
            let stop := if g.state = .active then s.env.now else g.start
            (∀ g', (t.blocks.air a).grant = some g' → g'.radio ≠ r)
              ∧ sent (t.blocks.links.get r) (.cut g.id stop)
              ∧ ((∀ a' g', a' ≠ a → (s.blocks.air a').grant = some g' → g'.radio ≠ r) →
                (t.blocks.sched.radios.get r).lastEnded = some ⟨g.id, stop, .cut⟩)))
      ∧ (∀ r, let y := s.blocks.chans.get r
        y.directive ≠ none ∨ (s.blocks.links.get r).port ≠ .up ∨ y.clash = true ∨ y.isolated = true ∨ y.withdrawn = true →
          t.blocks.chans.get r = { y with moveWait := (t.blocks.chans.get r).moveWait })
      ∧ (∀ r, let y := s.blocks.chans.get r
        (∃ k ∈ operatingCells b r, rises k) →
        (∀ q, Radio.number q < Radio.number r → ∀ k ∈ operatingCells b q, ¬ rises k) →
        y.directive = none → (s.blocks.links.get r).port = .up → y.clash = false → y.isolated = false →
        y.withdrawn = false →
        (∀ e cost cells, chooseEntry s.env b r = some (e, cost) → reserveTarget r e.chan s.blocks.cells = some cells →
          let reason := if ∃ k ∈ operatingCells b r, level k = .barred then MoveReason.bar else .avoid
          t.blocks.chans.get r = { y with
              directive := some
                { id := y.nextId
                  entry := e.id
                  chan := e.chan
                  reason := reason
                  expiry := Time.plus s.env.now (s.env.retained.params.directiveTimeout * 1000) }
              nextId := y.nextId + 1
              moveWait := none }
            ∧ sent (t.blocks.links.get r) (.move y.nextId e.id e.chan reason))
        ∧ (chooseEntry s.env b r = none → y.moveWait = none →
          (∃ cells, t.blocks.chans.get r = { y with moveWait := some ⟨cells, true⟩ }
            ∧ ∀ k, k ∈ cells ↔ k ∈ operatingCells b r ∧ rises k)
          ∧ recordedOrFull t.blocks.monitor (.noChannel r)))

/-! ## Airtime grants -/

/-- A WINDOW REQUEST turned away (R104, R105): by its form in either mode, and in RUN by the radio's state, by a full posted
queue or by a full wait list; the answer is queued and counted, and nothing else changes. That it is counted even when a full
transmit queue drops it is the model's reading (R157; log 26). -/
def Obligations.RequestsTurnedAway : Prop :=
  ∀ (r : Radio) (q : WindowAsk) (s : State), (s.blocks.links.get r).port = .up →
    let b := heardOn s.env r s.blocks
    let c := s.blocks.chans.get r
    let x := s.blocks.sched.radios.get r
    let after := fun b : Blocks => (Host.Outcome.next { s with blocks := b } : Host.Outcome State Fault Refusal)
    let refused := fun cause => after (b.modLink r fun k =>
      let k := k.issue (.refuse q.id cause)
      { k with counters := { k.counters with refusals := min (k.counters.refusals + 1) 65535 } })
    let retried := fun cause => after (b.modLink r fun k =>
      let k := k.issue (.retry q.id cause 0)
      { k with counters := { k.counters with retries := min (k.counters.retries + 1) 65535 } })
    let badForm := 4 ≤ q.cls.toNat ∨ q.length = 0 ∨ Time.before q.latest q.earliest = true ∨ idLive s.blocks r q.id = true
    let late := Time.before q.latest s.env.now = true
    let barred := ∃ k ∈ operatingCells s.blocks r, guardLevel s.env s.blocks.monitor k = .barred
    let run := s.env.mode = .run
    let asksPosted := q.cls = 3 ∧ q.flags.getLsbD 1 = true
    (badForm → exec (.windowRequest r q) s = refused .badRequest)
    ∧ (¬ badForm → late → exec (.windowRequest r q) s = refused .deadline)
    ∧ (¬ badForm → ¬ late → run →
      (c.withdrawn = true → exec (.windowRequest r q) s = refused .withdrawn)
      ∧ (c.withdrawn = false →
        (c.operating = none → exec (.windowRequest r q) s = refused .noChannel)
        ∧ (c.operating ≠ none → c.clash = true → exec (.windowRequest r q) s = refused .clash)
        ∧ (c.operating ≠ none → c.clash = false → c.isolated = true → exec (.windowRequest r q) s = refused .isolated)
        ∧ (c.operating ≠ none → c.clash = false → c.isolated = false →
          (barred → exec (.windowRequest r q) s = refused .barred)
          ∧ (¬ barred → c.directive ≠ none → exec (.windowRequest r q) s = retried .moving)
          ∧ (¬ barred → c.directive = none → asksPosted → 8 ≤ x.posted.length →
            exec (.windowRequest r q) s = retried .full)
          ∧ (¬ barred → c.directive = none → ¬ asksPosted → 4 ≤ x.waits.length →
            exec (.windowRequest r q) s = retried .full))))

/-- A WINDOW REQUEST taken (R104 to R107): in SETUP a pass-through GRANT at once, whatever the radio's state; in RUN a posted
BULK joins the posted queue and is answered POSTED. The length is clamped to 16 384 and to the class cap, BEACON and MGMT are
not shortenable. The model's readings: the joining of the posted queue causes no review (log 23), a GRANT is counted even when
a full transmit queue drops it (R157; log 26), and the arrival number has no width (log 30). -/
def Obligations.RequestsTaken : Prop :=
  ∀ (r : Radio) (q : WindowAsk) (cls : ReqClass) (s : State),
    (s.blocks.links.get r).port = .up → classOf q.cls = some cls → q.length ≠ 0 →
    Time.before q.latest q.earliest = false → idLive s.blocks r q.id = false → Time.before q.latest s.env.now = false →
    let b := heardOn s.env r s.blocks
    let p := s.env.retained.params
    let cap := match cls with
      | .beacon => p.beaconCap
      | .mgmt => p.mgmtCap
      | .data => p.dataCap
      | .bulk => p.bulkCap
    let length := if cap = 0 then min q.length.toNat 16384 else min (min q.length.toNat 16384) (cap * 128)
    let shortenable := q.flags.getLsbD 0 && (cls == .data || cls == .bulk)
    let g : Grant :=
      { radio := r
        id := q.id
        start := s.env.now
        stop := Time.plus s.env.now length
        shortenable := shortenable
        shortened := false
        exposed := false
        state := .active }
    let joining : Request :=
      { radio := r
        id := q.id
        cls := cls
        length := length
        earliest := q.earliest
        latest := q.latest
        shortenable := shortenable
        posted := true
        seq := s.blocks.sched.arrivals
        waitExpiry := none }
    (s.env.mode = .setup →
      exec (.windowRequest r q) s
        = .next { s with
            blocks := (b.modSched r fun x => { x with passThrough := x.passThrough ++ [g] }).modLink r fun k =>
              let k := k.issue (.grant q.id s.env.now length false)
              { k with counters := { k.counters with grantsIssued := min (k.counters.grantsIssued + 1) 65535 } } })
    ∧ (s.env.mode = .run → cls = .bulk → q.flags.getLsbD 1 = true → gate s.env s.blocks r = none →
      (s.blocks.sched.radios.get r).posted.length < 8 →
      exec (.windowRequest r q) s
        = .next { s with
            blocks :=
              ({ b with sched := { b.sched with arrivals := b.sched.arrivals + 1 } }.modSched r fun x =>
                { x with
                  posted := x.posted ++ [joining]
                  headAttempts := if x.posted = [] then 0 else x.headAttempts }).modLink r fun k =>
                k.issue (.posted q.id) })

/-- A WINDOW REQUEST that joins the wait list of a radio alone on its idle air, with nothing else waiting and no shaping in the
way, is granted by the review of the same event when its start is near enough (R105, R108, R110, R112). -/
def Obligations.RequestGrantedAtOnce : Prop :=
  ∀ (r : Radio) (q : WindowAsk) (cls : ReqClass) (a : AirId) (s : State),
    classOf q.cls = some cls → q.length ≠ 0 → Time.before q.latest q.earliest = false →
    idLive s.blocks r q.id = false → Time.before q.latest s.env.now = false → s.env.mode = .run →
    ¬ (cls = .bulk ∧ q.flags.getLsbD 1 = true) → gate s.env s.blocks r = none → airOf s.env s.blocks r = some a →
    noRequests s.blocks → (s.blocks.air a).grant = none → (s.blocks.air a).hold = none →
    s.blocks.sched.shaping = false →
    let length := cappedLength s.env.retained.params cls q.length.toNat
    let start := Time.later s.env.now q.earliest
    Time.after start q.latest = false →
    Time.atOrBefore start (Time.plus s.env.now s.env.retained.params.startLead) = true →
    ∃ t, exec (.windowRequest r q) s = .next t
      ∧ t.blocks.air a =
        { grant := some
            { radio := r
              id := q.id
              start := start
              stop := Time.plus start length
              shortenable := q.flags.getLsbD 0 && (cls == .data || cls == .bulk)
              shortened := false
              exposed := false
              state := if start = s.env.now then .active else .scheduled }
          hold := none
          review := none }
      ∧ (t.blocks.sched.radios.get r).waits = []
      ∧ sentLast (t.blocks.links.get r) (.grant q.id start length false)
      ∧ (start = s.env.now → grantAir s.blocks r = none → gnt t.env t.blocks r = true)
      ∧ SchedOnly (heardOn s.env r s.blocks) t.blocks

/-- How a review takes the candidates of an air that holds no grant (R107, R110, R112, R113, R115): the waiting requests of the
members by class and then by arrival, and then the heads of their posted queues by arrival, but for those of a radio with a
pending directive or a BARRED cell. The finder's result stands for a waiting request unless it lies past its deadline. Placed
is the first candidate that starts by now and the start lead and ends no later than the start found for every candidate before
it (the backfill limit); it leaves its list and its grant enters the air. A waiting request before it, for which nothing
stands, leaves with RETRY(WINDOW); a posted head before it gains an attempt, or is dropped with EXPIRED at the post limit, and
no other head gains one. When none is placed the air's review timer is the earliest too-early start less the start lead, that
of a head dropped in this review included (log 22). The arrival numbers have no width (log 30). -/
def Obligations.ReviewTakesCandidates : Prop :=
  (∀ (a : AirId) (s : State), (∃ t0, (s.blocks.air a).review = some t0 ∧ Time.atOrBefore t0 s.env.now = true) →
     exec (.reviewTimerExpiry a) s = .next { s with blocks := reviewAir s.env a s.blocks })
  ∧ ∀ (env : Env) (a : AirId) (b : Blocks), (b.air a).grant = none → requestsSound b →
    let p := env.retained.params
    let b' := reviewAir env a b
    let old := fun r => b.sched.radios.get r
    let new := fun r => b'.sched.radios.get r
    let rank := fun c : ReqClass => match c with
      | .beacon => 0
      | .mgmt => 1
      | .data => 2
      | .bulk => 3
    let barred := fun r => (operatingCells b r).any fun k => guardLevel env b.monitor k == .barred
    -- a waiting request with `true`, a posted head with `false`
    let find := fun c : Bool × Request => findWindow env b (b.air a) c.2
    let stands := fun (c : Bool × Request) (x : Placement) =>
      find c = some x ∧ (c.1 = true → Time.after x.start c.2.latest = false)
    let soon := fun x : Placement => Time.atOrBefore x.start (Time.plus env.now p.startLead) = true
    let fits := fun (before : List (Bool × Request)) (c : Bool × Request) (x : Placement) =>
      stands c x ∧ soon x ∧ ∀ d ∈ before, ∀ y, stands d y → Time.atOrBefore (Time.plus x.start x.length) y.start = true
    let passed := fun c : Bool × Request =>
      (c.1 = true → (∀ x, ¬ stands c x) →
        (∀ q ∈ (new c.2.radio).waits, q.id ≠ c.2.id)
          ∧ sent (b'.links.get c.2.radio) (.retry c.2.id .window (match find c with
            | none => 0
            | some x => x.start)))
      ∧ (c.1 = false →
        let n := min ((old c.2.radio).headAttempts + 1) 255
        (p.postLimit ≤ n → (new c.2.radio).posted = (old c.2.radio).posted.tail ∧ (new c.2.radio).headAttempts = 0
          ∧ sent (b'.links.get c.2.radio) (.expired c.2.id))
        ∧ (n < p.postLimit → (new c.2.radio).posted = (old c.2.radio).posted ∧ (new c.2.radio).headAttempts = n))
    let untouched := fun (considered : List (Bool × Request)) => ∀ r, (∀ q, (false, q) ∈ considered → q.radio ≠ r) →
      (new r).posted = (old r).posted ∧ (new r).headAttempts = (old r).headAttempts
    ∃ ws hs : List Request,
      ws.Perm ((radios.filter fun r => airOf env b r == some a && !barred r).flatMap fun r => (old r).waits)
      ∧ ws.Pairwise (fun q q' => rank q.cls < rank q'.cls ∨ (rank q.cls = rank q'.cls ∧ q.seq ≤ q'.seq))
      ∧ hs.Perm ((radios.filter fun r =>
          airOf env b r == some a && !barred r && (b.chans.get r).directive.isNone).flatMap fun r =>
            (old r).posted.take 1)
      ∧ hs.Pairwise (fun q q' => q.seq ≤ q'.seq)
      ∧ (let cs := ws.map (fun q => (true, q)) ++ hs.map (fun q => (false, q))
        (∀ before c after x, cs = before ++ c :: after → fits before c x →
          (∀ u d v y, before = u ++ d :: v → ¬ fits u d y) →
          (b'.air a).grant = some
              { radio := c.2.radio
                id := c.2.id
                start := x.start
                stop := Time.plus x.start x.length
                shortenable := c.2.shortenable
                shortened := x.shortened
                exposed := false
                state := if x.start = env.now then .active else .scheduled }
            ∧ (b'.air a).review = none
            ∧ sent (b'.links.get c.2.radio) (.grant c.2.id x.start x.length x.shortened)
            ∧ (c.1 = true → ∀ q ∈ (new c.2.radio).waits, q.id ≠ c.2.id)
            ∧ (c.1 = false → (new c.2.radio).posted = (old c.2.radio).posted.tail ∧ (new c.2.radio).headAttempts = 0)
            ∧ (∀ d ∈ before, passed d) ∧ untouched (before ++ [c]))
        ∧ ((∀ before c after x, cs = before ++ c :: after → ¬ fits before c x) →
          (b'.air a).grant = none ∧ (∀ d ∈ cs, passed d) ∧ untouched cs
            ∧ ((∀ c ∈ cs, ∀ x, stands c x → soon x) → (b'.air a).review = none)
            ∧ ((∃ c ∈ cs, ∃ x, stands c x ∧ ¬ soon x) →
              ∃ c ∈ cs, ∃ x, stands c x ∧ ¬ soon x ∧ (b'.air a).review = some (Time.minus x.start p.startLead)
                ∧ ((∀ d ∈ cs, ∀ y, stands d y → ¬ soon y → (y.start - env.now).toNat < 2 ^ 31) →
                  ∀ d ∈ cs, ∀ y, stands d y → ¬ soon y → (x.start - env.now).toNat ≤ (y.start - env.now).toNat))))

/-- A RELEASE (R117, R118, R119): of an air grant, which ends now; of a pass-through grant, which leaves the set; of a waiting
or posted request, which leaves its list; of no live record, judged against the last ended record. That a released pass-through
grant leaves the last ended record as it was is the model's reading (log 23). -/
def Obligations.Releases : Prop :=
  ∀ (r : Radio) (id : Byte) (s : State), (s.blocks.links.get r).port = .up →
    let b := heardOn s.env r s.blocks
    let x := s.blocks.sched.radios.get r
    let mine := ∃ g, grantOf s.blocks r = some g ∧ g.id = id
    let passed := ∃ g ∈ x.passThrough, g.id = id
    let waits := ∃ q ∈ x.waits, q.id = id
    let posted := ∃ q ∈ x.posted, q.id = id
    let dead := idLive s.blocks r id = false
    let after := fun b : Blocks => (Host.Outcome.next { s with blocks := b } : Host.Outcome State Fault Refusal)
    let stray := b.modLink r fun k =>
      { k with counters := { k.counters with strayReleases := min (k.counters.strayReleases + 1) 65535 } }
    (∀ a, mine → grantAir s.blocks r = some a →
      ∃ t, exec (.release r id) s = .next t ∧ SchedOnly b t.blocks
        ∧ (t.blocks.sched.radios.get r).lastEnded = some ⟨id, s.env.now, .expiry⟩
        ∧ (noRequests s.blocks → (t.blocks.air a).grant = none ∧ (t.blocks.air a).hold = (s.blocks.air a).hold))
    ∧ (¬ mine → passed →
      exec (.release r id) s
        = after (b.modSched r fun x => { x with passThrough := x.passThrough.filter fun g => g.id != id }))
    ∧ (¬ mine → ¬ passed → waits →
      ∃ t, exec (.release r id) s = .next t ∧ SchedOnly b t.blocks
        ∧ ∀ q ∈ (t.blocks.sched.radios.get r).waits, q ∈ x.waits ∧ q.id ≠ id)
    ∧ (¬ mine → ¬ passed → ¬ waits → posted →
      ∃ t, exec (.release r id) s = .next t ∧ SchedOnly b t.blocks
        ∧ ∀ q ∈ (t.blocks.sched.radios.get r).posted, q ∈ x.posted ∧ q.id ≠ id)
    ∧ (dead → (x.lastEnded = none ∨ ∃ e, x.lastEnded = some e ∧ e.id ≠ id) → exec (.release r id) s = after stray)
    ∧ (∀ e, dead → x.lastEnded = some e → e.id = id →
      let late := Time.after s.env.now (Time.plus e.stop s.env.retained.params.lateMargin) = true
      (e.manner = .cut ∨ ¬ late →
        exec (.release r id) s = after (b.modSched r fun x => { x with lastEnded := none }))
      ∧ (e.manner = .expiry → late →
        ∃ t, exec (.release r id) s = .next t
          ∧ t.blocks.sched.radios.get r = { x with
              lastEnded := none
              lateCount := min (x.lateCount + 1) 255
              overrun := x.overrun || decide (s.env.retained.params.overrunLimit ≤ min (x.lateCount + 1) 255) }
          ∧ (t.blocks.links.get r).counters.lateReleases
              = min ((s.blocks.links.get r).counters.lateReleases + 1) 65535
          ∧ (s.env.retained.params.overrunLimit ≤ min (x.lateCount + 1) 255 → x.overrun = false →
            recordedOrFull t.blocks.monitor (.overrun r))))

/-- The window finder (R108, R109). It begins at the latest of now, the earliest start, the end of the air's grant and the
hold's end. Without shaping its result is (*t*0, L′). With shaping the candidate is unplaceable when no gap between windows is
long enough for it; else, for windows in their order within 2^30 µs of *t*0, the placement begins at *t*0 or at a window's end,
has L′ or is shortened to no less than the minimum grant, and overlaps no window; and a gap before the first window that holds
it, whole or shortened, is used from *t*0. -/
def Obligations.ShapedWindow : Prop :=
  ∀ (env : Env) (b : Blocks) (air : Air) (q : Request),
    let ws := b.sched.prediction.windows
    let shaped := b.sched.shaping = true ∧ ws ≠ []
      ∧ ∃ k ∈ operatingCells b q.radio, k ∈ b.sched.prediction.cells
    let first := Time.later env.now q.earliest
    let second := match air.grant with
      | none => first
      | some g => Time.later first g.stop
    let start := match air.hold with
      | none => second
      | some h => Time.later second h.stop
    let shortest := env.retained.params.minGrant
    let need := if q.shortenable then min q.length shortest else q.length
    let rel := fun t : Time => (t - start).toInt
    let fits := ∃ (i : Nat) (w v : Window), ws[i]? = some w ∧ ws[i + 1]? = some v ∧ 0 < (v.start - w.stop).toInt
      ∧ (need : Int) ≤ (v.start - w.stop).toInt
    (¬ shaped → findWindow env b air q = some ⟨start, q.length, false⟩)
    ∧ (shaped → ¬ fits → findWindow env b air q = none)
    ∧ (shaped → fits → ∃ p, findWindow env b air q = some p
      ∧ (p.start = start ∨ ∃ w ∈ ws, p.start = w.stop)
      ∧ (p.shortened = false → p.length = q.length)
      ∧ (p.shortened = true → q.shortenable = true ∧ shortest ≤ p.length ∧ p.length < q.length)
      ∧ ((∀ w ∈ ws, -2 ^ 30 < rel w.start ∧ rel w.start ≤ rel w.stop ∧ rel w.stop < 2 ^ 30) →
        ws.Pairwise (fun w v => rel w.start ≤ rel v.start ∧ rel w.stop ≤ rel v.stop) →
        0 ≤ rel p.start ∧ ∀ w ∈ ws, rel p.start + p.length ≤ rel w.start ∨ rel w.stop ≤ rel p.start)
      ∧ (∀ w, ws.head? = some w → 0 < rel w.start → 0 < rel w.stop →
        ((q.length : Int) ≤ rel w.start → p = ⟨start, q.length, false⟩)
        ∧ (rel w.start < q.length → q.shortenable = true → (shortest : Int) ≤ rel w.start →
          p = ⟨start, (rel w.start).toNat, true⟩)))

/-- The cuts of shaping (R97, R120). When a shaping change or a prediction change is taken and no request waits, the first
published window that meets the remainder of a shaped grant decides: a shortenable grant ends at the window's start with CUT
when the minimum grant is left, and else it leaves the air, an ACTIVE one cut to now and a SCHEDULED one withdrawn (log 9 for
the record of it); one that is not shortenable runs on, exposed, and is counted once. A grant whose remainder meets no window,
or that shaping does not apply to, stands. An OVEN record with reaction SHAPE that becomes ACTIVE in RUN puts shaping on. -/
def Obligations.ShapingCuts : Prop :=
  (∀ (env : Env) (b0 b b' : Blocks), noRequests b0 →
    ((∃ on, b = { b0 with sched := { b0.sched with shaping := on } } ∧ b' = takeShaping env on b0)
      ∨ ∃ p, b = { b0 with sched := { b0.sched with prediction := p } } ∧ b' = takePrediction env p b0) →
    SchedOnly b b'
    ∧ (∀ a, (b'.air a).hold = (b0.air a).hold ∧ (b'.air a).review = none
      ∧ ((b0.air a).grant = none → (b'.air a).grant = none))
    ∧ ∀ a g, (b0.air a).grant = some g →
      let ws := b.sched.prediction.windows
      let shaped := b.sched.shaping = true ∧ ∃ k ∈ operatingCells b g.radio, k ∈ b.sched.prediction.cells
      let from' := Time.later env.now g.start
      let hits := fun w : Window => Time.meets from' g.stop w.start w.stop = true
      let alone := ∀ a' g', a' ≠ a → (b0.air a').grant = some g' → g'.radio ≠ g.radio
      let exposures := fun c : Blocks => (c.links.get g.radio).counters.exposedGrants
      (¬ shaped ∨ (∀ w ∈ ws, ¬ hits w) → (b'.air a).grant = some g)
      ∧ ∀ (w : Window) (earlier rest : List Window), shaped → ws = earlier ++ w :: rest → (∀ v ∈ earlier, ¬ hits v) →
        hits w →
        let left := (w.start - from').toInt
        (g.shortenable = true → (env.retained.params.minGrant : Int) ≤ left →
          (b'.air a).grant = some { g with stop := w.start } ∧ sent (b'.links.get g.radio) (.cut g.id w.start))
        ∧ (g.shortenable = true → left < env.retained.params.minGrant →
          let stop := if g.state = .active then env.now else g.start
          (b'.air a).grant = none ∧ sent (b'.links.get g.radio) (.cut g.id stop)
            ∧ (alone → (b'.sched.radios.get g.radio).lastEnded = some ⟨g.id, stop, .cut⟩))
        ∧ (g.shortenable = false →
          (b'.air a).grant = some { g with exposed := true }
            ∧ (alone → exposures b' = if g.exposed then exposures b else min (exposures b + 1) 65535)))
  ∧ ∀ (s : State) (c : CondRecord) (t0 : Time),
    let m := s.blocks.monitor
    let active : CondRecord :=
      { c with
        state := .active
        changed := s.env.now
        unread := true
        occurrences := min (c.occurrences + 1) 255
        timer := none
        range := affectedRange c.key c.config.scope m.lastRange }
    m.Sound → s.env.mode = .run → m.find .oven = some c → c.state = .pending → c.timer = some t0 →
    Time.atOrBefore t0 s.env.now = true → c.config.reaction = .shape →
    exec (.filterTimerExpiry .oven) s
      = .next { s with
          blocks := takeShaping s.env true { s.blocks with
            monitor := { m with list := m.list.map fun x => if x.key = .oven then active else x } } }

/-- The edges of REQ and GNT (R106, R116, R124, R125, R155): in SETUP an assertion raises GNT; in RUN an assertion is given a
hold of the immediate maximum, with GNT high, or is denied; a release ends the radio's hold. An edge that changes no level is
no event (log 16). -/
def Obligations.ReqAndGnt : Prop :=
  ∀ (r : Radio) (s : State),
    let level := fun (x : Bool) (b : Blocks) => b.modLink r fun k => { k with req := x }
    let after := fun b : Blocks => (Host.Outcome.next { s with blocks := b } : Host.Outcome State Fault Refusal)
    let meetsHold := fun (a : Time) (z : Time) =>
      Time.meets a z s.env.now (Time.plus s.env.now s.env.retained.params.immediateMax)
    let allowed := fun (a : AirId) =>
      airOf s.env s.blocks r = some a ∧ channelBarred s.env s.blocks r = false ∧ (s.blocks.air a).hold = none
        ∧ (∀ g, (s.blocks.air a).grant = some g → meetsHold g.start g.stop = false)
        ∧ (shapingApplies s.blocks r = true → ∀ w ∈ s.blocks.sched.prediction.windows, meetsHold w.start w.stop = false)
    ((s.blocks.links.get r).req = true → exec (.reqAssertion r) s = .next s)
    ∧ ((s.blocks.links.get r).req = false → exec (.reqRelease r) s = .next s)
    ∧ ((s.blocks.links.get r).req = false → s.env.mode = .setup →
      exec (.reqAssertion r) s = after (level true s.blocks) ∧ gnt s.env (level true s.blocks) r = true)
    ∧ (∀ a, (s.blocks.links.get r).req = false → s.env.mode = .run → allowed a →
      ∃ t, exec (.reqAssertion r) s = .next t
        ∧ t = { s with
            blocks := ((level true s.blocks).modAir a fun x =>
              { x with
                hold := some ⟨r, s.env.now, Time.plus s.env.now s.env.retained.params.immediateMax⟩ }).modLink r fun k =>
              { k with counters := { k.counters with immediateGrants := min (k.counters.immediateGrants + 1) 65535 } } }
        ∧ gnt t.env t.blocks r = true)
    ∧ ((s.blocks.links.get r).req = false → s.env.mode = .run → (∀ a, ¬ allowed a) →
      exec (.reqAssertion r) s
        = after ((level true s.blocks).modLink r fun k =>
            { k with
              counters := { k.counters with immediateDenials := min (k.counters.immediateDenials + 1) 65535 } }))
    ∧ ((s.blocks.links.get r).req = true → holdAir s.blocks r = none →
      exec (.reqRelease r) s = after (level false s.blocks))
    ∧ (∀ a, (s.blocks.links.get r).req = true → holdAir s.blocks r = some a →
      ∃ t, exec (.reqRelease r) s = .next t ∧ (t.blocks.air a).hold = none
        ∧ (t.blocks.links.get r).req = false ∧ SchedOnly (level false s.blocks) t.blocks)

/-- The scheduler's timers that touch one record (R114, R116, R118): the wait limit answers RETRY(WAIT); a SCHEDULED grant
becomes ACTIVE at its start, and GNT rises in RUN; a pass-through grant ends by expiry; the last ended record goes 1 000 000 µs
after its end; a command given before its time does nothing (log 2). That RETRY(WAIT) is counted even when a full transmit
queue drops it is the model's reading (R157; log 26). -/
def Obligations.RequestAndGrantTimers : Prop :=
  ∀ (r : Radio) (id : Byte) (a : AirId) (s : State),
    let x := s.blocks.sched.radios.get r
    let after := fun b : Blocks => (Host.Outcome.next { s with blocks := b } : Host.Outcome State Fault Refusal)
    let past := fun t : Time => Time.atOrBefore t s.env.now = true
    (∀ q, x.waits.find? (fun q => q.id == id && Time.reached q.waitExpiry s.env.now) = some q →
      exec (.waitLimitExpiry r id) s
        = after ((s.blocks.modSched r fun x => { x with waits := x.waits.filter fun q => q.id != id }).modLink r fun k =>
            let hint := match (airOf s.env s.blocks q.radio).bind fun a =>
                findWindow s.env s.blocks (s.blocks.air a) q with
              | none => 0
              | some p => p.start
            let k := k.issue (.retry id .wait hint)
            { k with counters := { k.counters with retries := min (k.counters.retries + 1) 65535 } }))
    ∧ ((∀ q ∈ x.waits, q.id = id → Time.reached q.waitExpiry s.env.now = false) →
      exec (.waitLimitExpiry r id) s = .next s)
    ∧ (∀ g, (s.blocks.air a).grant = some g → g.state = .scheduled → past g.start →
      let b := s.blocks.modAir a fun y => { y with grant := some { g with state := .active } }
      exec (.grantStart a) s = after b
        ∧ (grantAir s.blocks g.radio = some a → s.env.mode = .run → gnt s.env b g.radio = true))
    ∧ ((∀ g, (s.blocks.air a).grant = some g → g.state = .active ∨ ¬ past g.start) →
      exec (.grantStart a) s = .next s)
    ∧ (∀ g, (∀ y, grantOf s.blocks r = some y → y.id = id → ¬ past y.stop) →
      x.passThrough.find? (fun g => g.id == id && Time.atOrBefore g.stop s.env.now) = some g →
      exec (.grantExpiry r id) s
        = after (s.blocks.modSched r fun x =>
            { x with
              passThrough := x.passThrough.filter fun h => h.id != id
              lastEnded := some ⟨id, g.stop, .expiry⟩ }))
    ∧ ((∀ y, grantOf s.blocks r = some y → y.id = id → ¬ past y.stop) →
      (∀ g ∈ x.passThrough, g.id = id → ¬ past g.stop) → exec (.grantExpiry r id) s = .next s)
    ∧ (∀ e, x.lastEnded = some e → past (Time.plus e.stop 1000000) →
      exec (.lastEndedExpiry r) s = after (s.blocks.modSched r fun x => { x with lastEnded := none }))
    ∧ ((∀ e, x.lastEnded = some e → ¬ past (Time.plus e.stop 1000000)) → exec (.lastEndedExpiry r) s = .next s)

/-- The ends that a review follows (R111, R118, R125), and what a review at its timer does to its air (R110, R112, R113): an
ended grant or hold leaves its air; a grant that the air holds stands through the review; a grant newly entered starts no later
than now and the start lead, is ACTIVE when it starts now and SCHEDULED else, and leaves no review timer; the other airs, the
map and the channel states stand. A HOLD_END or a REVIEW_TIMER_EXPIRY given before its time does nothing (log 2). -/
def Obligations.EndsAndReviews : Prop :=
  ∀ (r : Radio) (a : AirId) (s : State),
    let past := fun t : Time => Time.atOrBefore t s.env.now = true
    let air := s.blocks.air a
    (∀ g, grantAir s.blocks r = some a → air.grant = some g → past g.stop →
      ∃ t, exec (.grantExpiry r g.id) s = .next t ∧ SchedOnly s.blocks t.blocks
        ∧ (t.blocks.sched.radios.get r).lastEnded = some ⟨g.id, g.stop, .expiry⟩
        ∧ (noRequests s.blocks → t.blocks.air a = ⟨none, air.hold, none⟩))
    ∧ (∀ h, air.hold = some h → past h.stop →
      ∃ t, exec (.holdEnd a) s = .next t ∧ SchedOnly s.blocks t.blocks ∧ (t.blocks.air a).hold = none
        ∧ (noRequests s.blocks → t.blocks.air a = ⟨air.grant, none, none⟩))
    ∧ (∀ t0, air.review = some t0 → past t0 →
      ∃ t, exec (.reviewTimerExpiry a) s = .next t ∧ SchedOnly s.blocks t.blocks
        ∧ (∀ c, c ≠ a → t.blocks.air c = s.blocks.air c) ∧ (t.blocks.air a).hold = air.hold
        ∧ (∀ g, air.grant = some g → (t.blocks.air a).grant = some g)
        ∧ (∀ g, air.grant = none → (t.blocks.air a).grant = some g →
          Time.atOrBefore g.start (Time.plus s.env.now s.env.retained.params.startLead) = true
            ∧ (g.state = .active ↔ g.start = s.env.now) ∧ g.exposed = false)
        ∧ ((t.blocks.air a).grant ≠ none → (t.blocks.air a).review = none)
        ∧ (noRequests s.blocks → t.blocks.air a = ⟨air.grant, air.hold, none⟩))
    ∧ ((∀ h, air.hold = some h → ¬ past h.stop) → exec (.holdEnd a) s = .next s)
    ∧ ((∀ t0, air.review = some t0 → ¬ past t0) → exec (.reviewTimerExpiry a) s = .next s)

/-! ## Channel directives -/

/-- TUNED in UP (R15 to R17, R140, R141). Discarded: while the radio is withdrawn, with no count even where the channel is not
well formed (the model's choice between two sentences of R140, log 32); for a channel that is neither off nor well formed, as a
link error. Taken as MOVED, when it equals the target of the pending directive: the target is carried out as at a MOVED, the
move wait and LAPSE source end (R137, R140). Else taken afresh: any directive, move wait and LAPSE source end and the old cells
go. Off, the radio has no channel; with a channel that passes the acquisition test it holds exactly its cells with the current
mark; with one that fails it is clashed and holds nothing. Its lane restarts when the channel changed. -/
def Obligations.TunedReports : Prop :=
  ∀ (r : Radio) (start width : Byte) (s : State), (s.blocks.links.get r).port = .up →
    let x := s.blocks.chans.get r
    let ch : Channel := ⟨start.toNat, width.toNat⟩
    let ended := { x with directive := none, moveWait := none, lapseSource := false }
    let lane := s.blocks.lanes.get r
    let wellFormed := (width = 4 ∨ width = 8 ∨ width = 16)
      ∧ ((start.toNat + width.toNat ≤ 16 ∧ width ≠ 16) ∨ (16 ≤ start.toNat ∧ start.toNat + width.toNat ≤ 156))
    let passes := ∀ k ∈ ch.cells, ∃ c : CellRecord, s.blocks.cells[k]? = some c
      ∧ (c.holder = none ∨ c.holder = some r)
      ∧ (s.env.retained.spans.get r).has k = true ∧ s.env.retained.keepClear.has k = false
    (x.withdrawn = true → exec (.tuned r start width) s = .next { s with blocks := heardOn s.env r s.blocks })
    ∧ (x.withdrawn = false → width ≠ 0 → ¬ wellFormed →
      exec (.tuned r start width) s
        = .next { s with
            blocks := (heardOn s.env r s.blocks).modLink r fun k =>
              { k with counters := { k.counters with linkErrors := min (k.counters.linkErrors + 1) 65535 } } })
    ∧ (x.withdrawn = false → width = 0 →
      ∃ t, exec (.tuned r start width) s = .next t ∧ holdsNothing t.blocks r
        ∧ t.blocks.chans.get r = { ended with operating := none, clash := false, isolated := false }
        ∧ t.blocks.lanes.get r = (if x.operating = none then lane else Lane.restart lane))
    ∧ (∀ d, x.withdrawn = false → wellFormed → x.directive = some d → d.chan = ch →
      ∃ t, exec (.tuned r start width) s = .next t
        ∧ (t.blocks.chans.get r).operating = some ch ∧ (t.blocks.chans.get r).isolated = x.isolated
        ∧ (t.blocks.chans.get r).clash = x.clash ∧ (t.blocks.chans.get r).declined = x.declined
        ∧ (t.blocks.chans.get r).lapseSource = false ∧ (t.blocks.chans.get r).withdrawn = false
        ∧ t.blocks.lanes.get r = (if x.operating = some ch then lane else Lane.restart lane)
        ∧ (∀ (k : Nat) (c : CellRecord), s.blocks.cells[k]? = some c → c.holder = some r → c.target = true →
          ∃ c' : CellRecord, t.blocks.cells[k]? = some c' ∧ c'.holder = some r ∧ c'.current = true)
        ∧ (s.env.mode = .setup → t.blocks.chans.get r = { ended with operating := some ch }
          ∧ ∀ (k : Nat) (c : CellRecord), s.blocks.cells[k]? = some c → c.holder = some r → c.target = false →
            ∃ c' : CellRecord, t.blocks.cells[k]? = some c' ∧ c'.holder ≠ some r))
    ∧ (x.withdrawn = false → wellFormed → (∀ d, x.directive = some d → d.chan ≠ ch) →
      ∃ t, exec (.tuned r start width) s = .next t
        ∧ t.blocks.lanes.get r = (if x.operating = some ch then lane else Lane.restart lane)
        ∧ (passes → t.blocks.chans.get r = { ended with operating := some ch, clash := false, isolated := false }
          ∧ ∀ (k : Nat) (c : CellRecord), t.blocks.cells[k]? = some c →
            (ch.start ≤ k ∧ k < ch.start + ch.width → c.holder = some r ∧ c.current = true ∧ c.target = false)
              ∧ (¬ (ch.start ≤ k ∧ k < ch.start + ch.width) → c.holder ≠ some r))
        ∧ (¬ passes → t.blocks.chans.get r = { ended with operating := some ch, clash := true } ∧ holdsNothing t.blocks r))

/-- MOVED (R14, R137): with no directive, or another id, it is ignored; with the matching id the target becomes the operating
channel, its cells carry the current mark, the lane restarts when the channel changed, and in SETUP the radio's other cells are
released and no new directive follows. DECLINE (R15, R137): with no directive, or another id, it is ignored; with the matching
id the target is dropped, the entry is declined for the decline hold with the radio's reason, the operating channel stands, and
a radio that a guard moved waits for a retry while some cell of its channel is guarded. -/
def Obligations.DirectiveAnswers : Prop :=
  (∀ (r : Radio) (id : Byte) (s : State), (s.blocks.links.get r).port = .up →
     let x := s.blocks.chans.get r
     ((∀ d, x.directive = some d → d.id ≠ id) →
       exec (.moved r id) s = .next { s with blocks := heardOn s.env r s.blocks })
     ∧ (∀ d, x.directive = some d → d.id = id → x.clash = false →
       ∃ t, exec (.moved r id) s = .next t
         ∧ (t.blocks.chans.get r).operating = some d.chan ∧ (t.blocks.chans.get r).isolated = x.isolated
         ∧ (t.blocks.chans.get r).declined = x.declined ∧ (t.blocks.chans.get r).withdrawn = x.withdrawn
         ∧ (∀ (k : Nat) (c : CellRecord), s.blocks.cells[k]? = some c → c.holder = some r → c.target = true →
           ∃ c' : CellRecord, t.blocks.cells[k]? = some c' ∧ c'.holder = some r ∧ c'.current = true ∧ c'.score = c.score)
         ∧ t.blocks.lanes.get r
           = (if x.operating = some d.chan then s.blocks.lanes.get r else Lane.restart (s.blocks.lanes.get r))
         ∧ (s.env.mode = .setup →
           t.blocks.chans.get r = { x with operating := some d.chan, directive := none }
             ∧ ∀ (k : Nat) (c : CellRecord), s.blocks.cells[k]? = some c → c.holder = some r → c.target = false →
               ∃ c' : CellRecord, t.blocks.cells[k]? = some c' ∧ c'.holder ≠ some r)))
  ∧ ∀ (r : Radio) (id reason : Byte) (s : State), (s.blocks.links.get r).port = .up →
      let x := s.blocks.chans.get r
      ((∀ d, x.directive = some d → d.id ≠ id) →
        exec (.decline r id reason) s = .next { s with blocks := heardOn s.env r s.blocks })
      ∧ (∀ d, x.directive = some d → d.id = id → x.clash = false →
        ∃ t, exec (.decline r id reason) s = .next t
          ∧ t.blocks.chans.get r = { x with
              directive := none
              declined := some
                ⟨d.entry, Time.plus s.env.now (s.env.retained.params.declineHold * 1000000), reason⟩
              moveWait :=
                if d.reason ≠ .host ∧ s.env.mode = .run ∧ guardedCells t.env t.blocks r ≠ [] then
                  some ⟨guardedCells t.env t.blocks r, false⟩
                else x.moveWait }
          ∧ (∀ (k : Nat) (c : CellRecord), s.blocks.cells[k]? = some c → c.holder = some r → c.current = true →
            t.blocks.cells[k]? = some { c with target := false })
          ∧ (∀ (k : Nat) (c : CellRecord), s.blocks.cells[k]? = some c → c.holder = some r → c.current = false →
            c.target = true → ∃ c' : CellRecord, t.blocks.cells[k]? = some c' ∧ c'.holder ≠ some r))

/-- The timers of the directive controller (R137, R139): a directive that lapses is carried out under ASSUME, with LAPSE
momentary, and under REVOKE is dropped, the radio isolated and LAPSE present; a declined entry goes at its hold's end. A
command given before its time does nothing (log 2). -/
def Obligations.DirectiveTimers : Prop :=
  ∀ (r : Radio) (s : State),
    let x := s.blocks.chans.get r
    let past := fun t : Time => Time.atOrBefore t s.env.now = true
    (∀ d, x.directive = some d → past d.expiry → x.clash = false → s.env.retained.params.lapseMode = 0 →
      ∃ t, exec (.directiveLapse r) s = .next t
        ∧ (t.blocks.chans.get r).operating = some d.chan ∧ (t.blocks.chans.get r).isolated = x.isolated
        ∧ (t.blocks.chans.get r).lapseSource = x.lapseSource
        ∧ (s.blocks.monitor.holds (.lapse r) = false → s.blocks.monitor.list.length < 31 →
          ∃ c, t.blocks.monitor.find (.lapse r) = some c ∧ c.state = .resolved ∧ c.unread = true
            ∧ c.changed = s.env.now)
        ∧ (∀ (k : Nat) (c : CellRecord), s.blocks.cells[k]? = some c → c.holder = some r → c.target = true →
          ∃ c' : CellRecord, t.blocks.cells[k]? = some c' ∧ c'.holder = some r ∧ c'.current = true))
    ∧ (∀ d, x.directive = some d → past d.expiry → x.clash = false → s.env.retained.params.lapseMode ≠ 0 →
      ∃ t, exec (.directiveLapse r) s = .next t
        ∧ t.blocks.chans.get r = { x with directive := none, isolated := true, lapseSource := true }
        ∧ recordedOrFull t.blocks.monitor (.lapse r)
        ∧ t.blocks.lanes = s.blocks.lanes
        ∧ (∀ (k : Nat) (c : CellRecord), s.blocks.cells[k]? = some c → c.holder = some r → c.current = true →
          t.blocks.cells[k]? = some { c with target := false }))
    ∧ ((∀ d, x.directive = some d → ¬ past d.expiry) → exec (.directiveLapse r) s = .next s)
    ∧ (∀ d, x.declined = some d → past d.expiry →
      exec (.declineHoldExpiry r) s = .next { s with blocks := s.blocks.modChan r fun c => { c with declined := none } })
    ∧ ((∀ d, x.declined = some d → ¬ past d.expiry) → exec (.declineHoldExpiry r) s = .next s)

/-! ## Codes, checks and encodings -/

/-- What the check byte detects (R149): the bytes with their check byte behind them leave the register at 0, and a change of
any one byte changes the check. -/
def Obligations.CheckByteDetects : Prop :=
  ∀ (xs ys : List Byte) (x y : Byte),
    crc8 (xs ++ [crc8 xs]) = 0 ∧ (x ≠ y → crc8 (xs ++ x :: ys) ≠ crc8 (xs ++ y :: ys))

/-- The bytes of a well-formed link message stand for that message, whatever its fields (R148, R149, R168), and the bytes of a
host transaction for its command, whatever its arguments (R158, R169). -/
def Obligations.FramesDecodeToThemselves : Prop :=
  (∀ (c : Instr) (r : Radio) (bytes : List Byte), c.wf = true → encodeMessage c = some bytes →
     (aboutRadio c = some r ∨ (∃ f l, c = .samples r f l) ∨ ∃ h, c = .heard r h) → decodeMessage r bytes = some c)
  ∧ ∀ (c : Instr) (bytes : List Byte), encodeTransaction c = some bytes → decodeTransaction bytes = c

/-! ## Invariants -/

/-- The reset state is sound. -/
def Obligations.ResetIsSound : Prop := State.reset.Sound

/-- Every step keeps the laws of the retained set (R8, R11, R12, R35, R63, R67, R68, R83, R85, R162). -/
def Obligations.StepKeepsRetainedSound : Prop :=
  ∀ s t : State, s.env.retained.Sound → step s = .next t → t.env.retained.Sound

/-- Every step keeps the law of the cells (R1 to R3, R13): holders and marks agree with the channel states. -/
def Obligations.StepKeepsMapSound : Prop := ∀ s t : State, MapSound s.blocks → step s = .next t → MapSound t.blocks

/-- Every step keeps the bounds of the lists (R71, R86, R107, R150), each for itself: the condition list, with its radio-kind
records ranging over no cell (R91), the neighbour table, the requests of each radio, the transmit queues; and a line is busy
for no longer than its message takes (R148, R150; log 10). -/
def Obligations.StepKeepsBounds : Prop :=
  ∀ s t : State, step s = .next t →
    (s.blocks.monitor.Sound → t.blocks.monitor.Sound) ∧ (s.blocks.survey.Sound → t.blocks.survey.Sound)
      ∧ (requestsSound s.blocks → requestsSound t.blocks) ∧ (queuesBounded s.blocks → queuesBounded t.blocks)
      ∧ (linesCurrent s.env.now s.blocks → linesCurrent t.env.now t.blocks)

/-- Every step keeps each air's grant at a radio whose air it is (R102, R122, R126, R137, R140): a radio that changes its air,
or is eligible for none, has no grant of an air. -/
def Obligations.StepKeepsGrantsHome : Prop :=
  ∀ s t : State, requestsSound s.blocks → grantsHome s.env s.blocks → step s = .next t → grantsHome t.env t.blocks

/-- Every step keeps the laws of the tracker (R41, R43, R47, R57), under those of the parameters it uses. -/
def Obligations.StepKeepsTrackerSound : Prop :=
  ∀ s t : State, s.env.retained.Sound → s.blocks.tracker.Sound s.env.retained.params → step s = .next t →
    t.blocks.tracker.Sound t.env.retained.params

/-- After every step the scheduler has the prediction and the shaping that the tracker and the condition monitor have (R61,
R97), when it had them before and a tracker in SEARCH was clear (R43). -/
def Obligations.StepKeepsReportsCurrent : Prop :=
  ∀ s t : State, s.blocks.tracker.searchClear → reportsCurrent s.env s.blocks → step s = .next t →
    reportsCurrent t.env t.blocks
end

