-- ==== Sys2Proof/Laws/State.lean ====
section
/-! SUPPORT. One lemma for each field and each update of the state, so that no later proof unfolds a record update. -/

namespace Sys2Proof.Machine

/-! ## One radio's, one air's value -/

@[simp] theorem PerRadio.get_set_same {α : Type} (p : PerRadio α) (r : Radio) (x : α) : (p.set r x).get r = x := by
  cases r <;> rfl

@[simp] theorem PerRadio.get_set_other {α : Type} (p : PerRadio α) {r q : Radio} (x : α) (h : q ≠ r) :
    (p.set r x).get q = p.get q := by
  cases r <;> cases q <;> first | rfl | exact absurd rfl h

theorem PerRadio.get_set {α : Type} (p : PerRadio α) (r q : Radio) (x : α) :
    (p.set r x).get q = if q = r then x else p.get q := by
  cases r <;> cases q <;> rfl

@[simp] theorem PerRadio.get_modify_same {α : Type} (p : PerRadio α) (r : Radio) (f : α → α) :
    (p.modify r f).get r = f (p.get r) := PerRadio.get_set_same p r _

@[simp] theorem PerRadio.get_modify_other {α : Type} (p : PerRadio α) {r q : Radio} (f : α → α) (h : q ≠ r) :
    (p.modify r f).get q = p.get q := PerRadio.get_set_other p _ h

theorem PerRadio.get_modify {α : Type} (p : PerRadio α) (r q : Radio) (f : α → α) :
    (p.modify r f).get q = if q = r then f (p.get r) else p.get q := PerRadio.get_set p r q _

@[simp] theorem PerRadio.get_map {α β : Type} (f : α → β) (p : PerRadio α) (r : Radio) :
    (p.map f).get r = f (p.get r) := by
  cases r <;> rfl

@[simp] theorem PerAir.get_set_same {α : Type} (p : PerAir α) (a : AirId) (x : α) : (p.set a x).get a = x := by
  cases a <;> rfl

@[simp] theorem PerAir.get_set_other {α : Type} (p : PerAir α) {a c : AirId} (x : α) (h : c ≠ a) :
    (p.set a x).get c = p.get c := by
  cases a <;> cases c <;> first | rfl | exact absurd rfl h

theorem PerAir.get_set {α : Type} (p : PerAir α) (a c : AirId) (x : α) :
    (p.set a x).get c = if c = a then x else p.get c := by
  cases a <;> cases c <;> rfl

/-! ## The blocks -/

@[simp] theorem Blocks.modChan_cells (b : Blocks) (r : Radio) (f : ChanState → ChanState) : (b.modChan r f).cells = b.cells := rfl
@[simp] theorem Blocks.modChan_lanes (b : Blocks) (r : Radio) (f : ChanState → ChanState) : (b.modChan r f).lanes = b.lanes := rfl
@[simp] theorem Blocks.modChan_tracker (b : Blocks) (r : Radio) (f : ChanState → ChanState) : (b.modChan r f).tracker = b.tracker := rfl
@[simp] theorem Blocks.modChan_survey (b : Blocks) (r : Radio) (f : ChanState → ChanState) : (b.modChan r f).survey = b.survey := rfl
@[simp] theorem Blocks.modChan_monitor (b : Blocks) (r : Radio) (f : ChanState → ChanState) : (b.modChan r f).monitor = b.monitor := rfl
@[simp] theorem Blocks.modChan_sched (b : Blocks) (r : Radio) (f : ChanState → ChanState) : (b.modChan r f).sched = b.sched := rfl
@[simp] theorem Blocks.modChan_chans (b : Blocks) (r : Radio) (f : ChanState → ChanState) : (b.modChan r f).chans = b.chans.modify r f := rfl
@[simp] theorem Blocks.modChan_links (b : Blocks) (r : Radio) (f : ChanState → ChanState) : (b.modChan r f).links = b.links := rfl
@[simp] theorem Blocks.modChan_air (b : Blocks) (r : Radio) (f : ChanState → ChanState) (a : AirId) : (b.modChan r f).air a = b.air a := rfl

@[simp] theorem Blocks.modLane_cells (b : Blocks) (r : Radio) (f : Lane → Lane) : (b.modLane r f).cells = b.cells := rfl
@[simp] theorem Blocks.modLane_lanes (b : Blocks) (r : Radio) (f : Lane → Lane) : (b.modLane r f).lanes = b.lanes.modify r f := rfl
@[simp] theorem Blocks.modLane_tracker (b : Blocks) (r : Radio) (f : Lane → Lane) : (b.modLane r f).tracker = b.tracker := rfl
@[simp] theorem Blocks.modLane_survey (b : Blocks) (r : Radio) (f : Lane → Lane) : (b.modLane r f).survey = b.survey := rfl
@[simp] theorem Blocks.modLane_monitor (b : Blocks) (r : Radio) (f : Lane → Lane) : (b.modLane r f).monitor = b.monitor := rfl
@[simp] theorem Blocks.modLane_sched (b : Blocks) (r : Radio) (f : Lane → Lane) : (b.modLane r f).sched = b.sched := rfl
@[simp] theorem Blocks.modLane_chans (b : Blocks) (r : Radio) (f : Lane → Lane) : (b.modLane r f).chans = b.chans := rfl
@[simp] theorem Blocks.modLane_links (b : Blocks) (r : Radio) (f : Lane → Lane) : (b.modLane r f).links = b.links := rfl
@[simp] theorem Blocks.modLane_air (b : Blocks) (r : Radio) (f : Lane → Lane) (a : AirId) : (b.modLane r f).air a = b.air a := rfl

@[simp] theorem Blocks.modLink_cells (b : Blocks) (r : Radio) (f : Link → Link) : (b.modLink r f).cells = b.cells := rfl
@[simp] theorem Blocks.modLink_lanes (b : Blocks) (r : Radio) (f : Link → Link) : (b.modLink r f).lanes = b.lanes := rfl
@[simp] theorem Blocks.modLink_tracker (b : Blocks) (r : Radio) (f : Link → Link) : (b.modLink r f).tracker = b.tracker := rfl
@[simp] theorem Blocks.modLink_survey (b : Blocks) (r : Radio) (f : Link → Link) : (b.modLink r f).survey = b.survey := rfl
@[simp] theorem Blocks.modLink_monitor (b : Blocks) (r : Radio) (f : Link → Link) : (b.modLink r f).monitor = b.monitor := rfl
@[simp] theorem Blocks.modLink_sched (b : Blocks) (r : Radio) (f : Link → Link) : (b.modLink r f).sched = b.sched := rfl
@[simp] theorem Blocks.modLink_chans (b : Blocks) (r : Radio) (f : Link → Link) : (b.modLink r f).chans = b.chans := rfl
@[simp] theorem Blocks.modLink_links (b : Blocks) (r : Radio) (f : Link → Link) : (b.modLink r f).links = b.links.modify r f := rfl
@[simp] theorem Blocks.modLink_air (b : Blocks) (r : Radio) (f : Link → Link) (a : AirId) : (b.modLink r f).air a = b.air a := rfl

@[simp] theorem Blocks.modSched_cells (b : Blocks) (r : Radio) (f : RadioSched → RadioSched) : (b.modSched r f).cells = b.cells := rfl
@[simp] theorem Blocks.modSched_lanes (b : Blocks) (r : Radio) (f : RadioSched → RadioSched) : (b.modSched r f).lanes = b.lanes := rfl
@[simp] theorem Blocks.modSched_tracker (b : Blocks) (r : Radio) (f : RadioSched → RadioSched) : (b.modSched r f).tracker = b.tracker := rfl
@[simp] theorem Blocks.modSched_survey (b : Blocks) (r : Radio) (f : RadioSched → RadioSched) : (b.modSched r f).survey = b.survey := rfl
@[simp] theorem Blocks.modSched_monitor (b : Blocks) (r : Radio) (f : RadioSched → RadioSched) : (b.modSched r f).monitor = b.monitor := rfl
@[simp] theorem Blocks.modSched_chans (b : Blocks) (r : Radio) (f : RadioSched → RadioSched) : (b.modSched r f).chans = b.chans := rfl
@[simp] theorem Blocks.modSched_links (b : Blocks) (r : Radio) (f : RadioSched → RadioSched) : (b.modSched r f).links = b.links := rfl
@[simp] theorem Blocks.modSched_airs (b : Blocks) (r : Radio) (f : RadioSched → RadioSched) : (b.modSched r f).sched.airs = b.sched.airs := rfl
@[simp] theorem Blocks.modSched_radios (b : Blocks) (r : Radio) (f : RadioSched → RadioSched) : (b.modSched r f).sched.radios = b.sched.radios.modify r f := rfl
@[simp] theorem Blocks.modSched_shaping (b : Blocks) (r : Radio) (f : RadioSched → RadioSched) : (b.modSched r f).sched.shaping = b.sched.shaping := rfl
@[simp] theorem Blocks.modSched_prediction (b : Blocks) (r : Radio) (f : RadioSched → RadioSched) : (b.modSched r f).sched.prediction = b.sched.prediction := rfl
@[simp] theorem Blocks.modSched_air (b : Blocks) (r : Radio) (f : RadioSched → RadioSched) (a : AirId) : (b.modSched r f).air a = b.air a := rfl

@[simp] theorem Blocks.modAir_cells (b : Blocks) (a : AirId) (f : Air → Air) : (b.modAir a f).cells = b.cells := rfl
@[simp] theorem Blocks.modAir_lanes (b : Blocks) (a : AirId) (f : Air → Air) : (b.modAir a f).lanes = b.lanes := rfl
@[simp] theorem Blocks.modAir_tracker (b : Blocks) (a : AirId) (f : Air → Air) : (b.modAir a f).tracker = b.tracker := rfl
@[simp] theorem Blocks.modAir_survey (b : Blocks) (a : AirId) (f : Air → Air) : (b.modAir a f).survey = b.survey := rfl
@[simp] theorem Blocks.modAir_monitor (b : Blocks) (a : AirId) (f : Air → Air) : (b.modAir a f).monitor = b.monitor := rfl
@[simp] theorem Blocks.modAir_chans (b : Blocks) (a : AirId) (f : Air → Air) : (b.modAir a f).chans = b.chans := rfl
@[simp] theorem Blocks.modAir_links (b : Blocks) (a : AirId) (f : Air → Air) : (b.modAir a f).links = b.links := rfl
@[simp] theorem Blocks.modAir_radios (b : Blocks) (a : AirId) (f : Air → Air) : (b.modAir a f).sched.radios = b.sched.radios := rfl
@[simp] theorem Blocks.modAir_airs (b : Blocks) (a : AirId) (f : Air → Air) : (b.modAir a f).sched.airs = b.sched.airs.set a (f (b.air a)) := rfl
@[simp] theorem Blocks.modAir_shaping (b : Blocks) (a : AirId) (f : Air → Air) : (b.modAir a f).sched.shaping = b.sched.shaping := rfl
@[simp] theorem Blocks.modAir_prediction (b : Blocks) (a : AirId) (f : Air → Air) : (b.modAir a f).sched.prediction = b.sched.prediction := rfl
@[simp] theorem Blocks.modAir_air_same (b : Blocks) (a : AirId) (f : Air → Air) : (b.modAir a f).air a = f (b.air a) := PerAir.get_set_same _ _ _
@[simp] theorem Blocks.modAir_air_other (b : Blocks) {a c : AirId} (f : Air → Air) (h : c ≠ a) : (b.modAir a f).air c = b.air c :=
  PerAir.get_set_other _ _ h

@[simp] theorem Blocks.count_cells (b : Blocks) (r : Radio) (f : LinkCounters → LinkCounters) : (b.count r f).cells = b.cells := rfl
@[simp] theorem Blocks.count_lanes (b : Blocks) (r : Radio) (f : LinkCounters → LinkCounters) : (b.count r f).lanes = b.lanes := rfl
@[simp] theorem Blocks.count_tracker (b : Blocks) (r : Radio) (f : LinkCounters → LinkCounters) : (b.count r f).tracker = b.tracker := rfl
@[simp] theorem Blocks.count_survey (b : Blocks) (r : Radio) (f : LinkCounters → LinkCounters) : (b.count r f).survey = b.survey := rfl
@[simp] theorem Blocks.count_monitor (b : Blocks) (r : Radio) (f : LinkCounters → LinkCounters) : (b.count r f).monitor = b.monitor := rfl
@[simp] theorem Blocks.count_sched (b : Blocks) (r : Radio) (f : LinkCounters → LinkCounters) : (b.count r f).sched = b.sched := rfl
@[simp] theorem Blocks.count_chans (b : Blocks) (r : Radio) (f : LinkCounters → LinkCounters) : (b.count r f).chans = b.chans := rfl
@[simp] theorem Blocks.count_air (b : Blocks) (r : Radio) (f : LinkCounters → LinkCounters) (a : AirId) : (b.count r f).air a = b.air a := rfl

@[simp] theorem Blocks.send_cells (b : Blocks) (r : Radio) (m : OutMsg) : (b.send r m).cells = b.cells := rfl
@[simp] theorem Blocks.send_lanes (b : Blocks) (r : Radio) (m : OutMsg) : (b.send r m).lanes = b.lanes := rfl
@[simp] theorem Blocks.send_tracker (b : Blocks) (r : Radio) (m : OutMsg) : (b.send r m).tracker = b.tracker := rfl
@[simp] theorem Blocks.send_survey (b : Blocks) (r : Radio) (m : OutMsg) : (b.send r m).survey = b.survey := rfl
@[simp] theorem Blocks.send_monitor (b : Blocks) (r : Radio) (m : OutMsg) : (b.send r m).monitor = b.monitor := rfl
@[simp] theorem Blocks.send_sched (b : Blocks) (r : Radio) (m : OutMsg) : (b.send r m).sched = b.sched := rfl
@[simp] theorem Blocks.send_chans (b : Blocks) (r : Radio) (m : OutMsg) : (b.send r m).chans = b.chans := rfl
@[simp] theorem Blocks.send_links (b : Blocks) (r : Radio) (m : OutMsg) : (b.send r m).links = b.links.modify r fun k => k.issue m := rfl
@[simp] theorem Blocks.send_air (b : Blocks) (r : Radio) (m : OutMsg) (a : AirId) : (b.send r m).air a = b.air a := rfl

@[simp] theorem Blocks.setLastEnded_cells (b : Blocks) (r : Radio) (id : Byte) (stop : Time) (how : EndManner) : (b.setLastEnded r id stop how).cells = b.cells := rfl
@[simp] theorem Blocks.setLastEnded_lanes (b : Blocks) (r : Radio) (id : Byte) (stop : Time) (how : EndManner) : (b.setLastEnded r id stop how).lanes = b.lanes := rfl
@[simp] theorem Blocks.setLastEnded_tracker (b : Blocks) (r : Radio) (id : Byte) (stop : Time) (how : EndManner) : (b.setLastEnded r id stop how).tracker = b.tracker := rfl
@[simp] theorem Blocks.setLastEnded_survey (b : Blocks) (r : Radio) (id : Byte) (stop : Time) (how : EndManner) : (b.setLastEnded r id stop how).survey = b.survey := rfl
@[simp] theorem Blocks.setLastEnded_monitor (b : Blocks) (r : Radio) (id : Byte) (stop : Time) (how : EndManner) : (b.setLastEnded r id stop how).monitor = b.monitor := rfl
@[simp] theorem Blocks.setLastEnded_chans (b : Blocks) (r : Radio) (id : Byte) (stop : Time) (how : EndManner) : (b.setLastEnded r id stop how).chans = b.chans := rfl
@[simp] theorem Blocks.setLastEnded_links (b : Blocks) (r : Radio) (id : Byte) (stop : Time) (how : EndManner) : (b.setLastEnded r id stop how).links = b.links := rfl
@[simp] theorem Blocks.setLastEnded_airs (b : Blocks) (r : Radio) (id : Byte) (stop : Time) (how : EndManner) : (b.setLastEnded r id stop how).sched.airs = b.sched.airs := rfl
@[simp] theorem Blocks.setLastEnded_shaping (b : Blocks) (r : Radio) (id : Byte) (stop : Time) (how : EndManner) : (b.setLastEnded r id stop how).sched.shaping = b.sched.shaping := rfl
@[simp] theorem Blocks.setLastEnded_prediction (b : Blocks) (r : Radio) (id : Byte) (stop : Time) (how : EndManner) : (b.setLastEnded r id stop how).sched.prediction = b.sched.prediction := rfl
@[simp] theorem Blocks.setLastEnded_arrivals (b : Blocks) (r : Radio) (id : Byte) (stop : Time) (how : EndManner) : (b.setLastEnded r id stop how).sched.arrivals = b.sched.arrivals := rfl
@[simp] theorem Blocks.setLastEnded_air (b : Blocks) (r : Radio) (id : Byte) (stop : Time) (how : EndManner) (a : AirId) : (b.setLastEnded r id stop how).air a = b.air a := rfl

@[simp] theorem Blocks.report_cells (b : Blocks) (env : Env) (key : CondKey) (x : Bool) : (b.report env key x).cells = b.cells := rfl
@[simp] theorem Blocks.report_lanes (b : Blocks) (env : Env) (key : CondKey) (x : Bool) : (b.report env key x).lanes = b.lanes := rfl
@[simp] theorem Blocks.report_tracker (b : Blocks) (env : Env) (key : CondKey) (x : Bool) : (b.report env key x).tracker = b.tracker := rfl
@[simp] theorem Blocks.report_survey (b : Blocks) (env : Env) (key : CondKey) (x : Bool) : (b.report env key x).survey = b.survey := rfl
@[simp] theorem Blocks.report_monitor (b : Blocks) (env : Env) (key : CondKey) (x : Bool) : (b.report env key x).monitor = b.monitor.report env key x := rfl
@[simp] theorem Blocks.report_sched (b : Blocks) (env : Env) (key : CondKey) (x : Bool) : (b.report env key x).sched = b.sched := rfl
@[simp] theorem Blocks.report_chans (b : Blocks) (env : Env) (key : CondKey) (x : Bool) : (b.report env key x).chans = b.chans := rfl
@[simp] theorem Blocks.report_links (b : Blocks) (env : Env) (key : CondKey) (x : Bool) : (b.report env key x).links = b.links := rfl
@[simp] theorem Blocks.report_air (b : Blocks) (env : Env) (key : CondKey) (x : Bool) (a : AirId) : (b.report env key x).air a = b.air a := rfl

@[simp] theorem Blocks.hunt_cells (b : Blocks) (r : Radio) : (b.hunt r).cells = b.cells := rfl
@[simp] theorem Blocks.hunt_lanes (b : Blocks) (r : Radio) : (b.hunt r).lanes = b.lanes := rfl
@[simp] theorem Blocks.hunt_tracker (b : Blocks) (r : Radio) : (b.hunt r).tracker = b.tracker := rfl
@[simp] theorem Blocks.hunt_survey (b : Blocks) (r : Radio) : (b.hunt r).survey = b.survey := rfl
@[simp] theorem Blocks.hunt_monitor (b : Blocks) (r : Radio) : (b.hunt r).monitor = b.monitor := rfl
@[simp] theorem Blocks.hunt_sched (b : Blocks) (r : Radio) : (b.hunt r).sched = b.sched := rfl
@[simp] theorem Blocks.hunt_chans (b : Blocks) (r : Radio) : (b.hunt r).chans = b.chans := rfl
@[simp] theorem Blocks.hunt_air (b : Blocks) (r : Radio) (a : AirId) : (b.hunt r).air a = b.air a := rfl

@[simp] theorem Blocks.takeSeq_cells (b : Blocks) : (b.takeSeq).cells = b.cells := rfl
@[simp] theorem Blocks.takeSeq_lanes (b : Blocks) : (b.takeSeq).lanes = b.lanes := rfl
@[simp] theorem Blocks.takeSeq_tracker (b : Blocks) : (b.takeSeq).tracker = b.tracker := rfl
@[simp] theorem Blocks.takeSeq_survey (b : Blocks) : (b.takeSeq).survey = b.survey := rfl
@[simp] theorem Blocks.takeSeq_monitor (b : Blocks) : (b.takeSeq).monitor = b.monitor := rfl
@[simp] theorem Blocks.takeSeq_sched (b : Blocks) : (b.takeSeq).sched = { b.sched with arrivals := b.sched.arrivals + 1 } := rfl
@[simp] theorem Blocks.takeSeq_chans (b : Blocks) : (b.takeSeq).chans = b.chans := rfl
@[simp] theorem Blocks.takeSeq_links (b : Blocks) : (b.takeSeq).links = b.links := rfl

@[simp] theorem Blocks.modSurvey_cells (b : Blocks) (f : SurveyUnit → SurveyUnit) : (b.modSurvey f).cells = b.cells := rfl
@[simp] theorem Blocks.modSurvey_lanes (b : Blocks) (f : SurveyUnit → SurveyUnit) : (b.modSurvey f).lanes = b.lanes := rfl
@[simp] theorem Blocks.modSurvey_tracker (b : Blocks) (f : SurveyUnit → SurveyUnit) : (b.modSurvey f).tracker = b.tracker := rfl
@[simp] theorem Blocks.modSurvey_survey (b : Blocks) (f : SurveyUnit → SurveyUnit) : (b.modSurvey f).survey = f b.survey := rfl
@[simp] theorem Blocks.modSurvey_monitor (b : Blocks) (f : SurveyUnit → SurveyUnit) : (b.modSurvey f).monitor = b.monitor := rfl
@[simp] theorem Blocks.modSurvey_sched (b : Blocks) (f : SurveyUnit → SurveyUnit) : (b.modSurvey f).sched = b.sched := rfl
@[simp] theorem Blocks.modSurvey_chans (b : Blocks) (f : SurveyUnit → SurveyUnit) : (b.modSurvey f).chans = b.chans := rfl
@[simp] theorem Blocks.modSurvey_links (b : Blocks) (f : SurveyUnit → SurveyUnit) : (b.modSurvey f).links = b.links := rfl

@[simp] theorem Blocks.sendGrant_cells (b : Blocks) (r : Radio) (id : Byte) (start : Time) (n : Nat) (x : Bool) : (b.sendGrant r id start n x).cells = b.cells := rfl
@[simp] theorem Blocks.sendGrant_lanes (b : Blocks) (r : Radio) (id : Byte) (start : Time) (n : Nat) (x : Bool) : (b.sendGrant r id start n x).lanes = b.lanes := rfl
@[simp] theorem Blocks.sendGrant_tracker (b : Blocks) (r : Radio) (id : Byte) (start : Time) (n : Nat) (x : Bool) : (b.sendGrant r id start n x).tracker = b.tracker := rfl
@[simp] theorem Blocks.sendGrant_survey (b : Blocks) (r : Radio) (id : Byte) (start : Time) (n : Nat) (x : Bool) : (b.sendGrant r id start n x).survey = b.survey := rfl
@[simp] theorem Blocks.sendGrant_monitor (b : Blocks) (r : Radio) (id : Byte) (start : Time) (n : Nat) (x : Bool) : (b.sendGrant r id start n x).monitor = b.monitor := rfl
@[simp] theorem Blocks.sendGrant_sched (b : Blocks) (r : Radio) (id : Byte) (start : Time) (n : Nat) (x : Bool) : (b.sendGrant r id start n x).sched = b.sched := rfl
@[simp] theorem Blocks.sendGrant_chans (b : Blocks) (r : Radio) (id : Byte) (start : Time) (n : Nat) (x : Bool) : (b.sendGrant r id start n x).chans = b.chans := rfl
@[simp] theorem Blocks.sendGrant_air (b : Blocks) (r : Radio) (id : Byte) (start : Time) (n : Nat) (x : Bool) (a : AirId) : (b.sendGrant r id start n x).air a = b.air a := rfl

@[simp] theorem Blocks.sendRetry_cells (b : Blocks) (r : Radio) (id : Byte) (c : RetryCause) (t : Time) : (b.sendRetry r id c t).cells = b.cells := rfl
@[simp] theorem Blocks.sendRetry_lanes (b : Blocks) (r : Radio) (id : Byte) (c : RetryCause) (t : Time) : (b.sendRetry r id c t).lanes = b.lanes := rfl
@[simp] theorem Blocks.sendRetry_tracker (b : Blocks) (r : Radio) (id : Byte) (c : RetryCause) (t : Time) : (b.sendRetry r id c t).tracker = b.tracker := rfl
@[simp] theorem Blocks.sendRetry_survey (b : Blocks) (r : Radio) (id : Byte) (c : RetryCause) (t : Time) : (b.sendRetry r id c t).survey = b.survey := rfl
@[simp] theorem Blocks.sendRetry_monitor (b : Blocks) (r : Radio) (id : Byte) (c : RetryCause) (t : Time) : (b.sendRetry r id c t).monitor = b.monitor := rfl
@[simp] theorem Blocks.sendRetry_sched (b : Blocks) (r : Radio) (id : Byte) (c : RetryCause) (t : Time) : (b.sendRetry r id c t).sched = b.sched := rfl
@[simp] theorem Blocks.sendRetry_chans (b : Blocks) (r : Radio) (id : Byte) (c : RetryCause) (t : Time) : (b.sendRetry r id c t).chans = b.chans := rfl
@[simp] theorem Blocks.sendRetry_air (b : Blocks) (r : Radio) (id : Byte) (c : RetryCause) (t : Time) (a : AirId) : (b.sendRetry r id c t).air a = b.air a := rfl

@[simp] theorem Blocks.sendRefuse_cells (b : Blocks) (r : Radio) (id : Byte) (c : RefuseCause) : (b.sendRefuse r id c).cells = b.cells := rfl
@[simp] theorem Blocks.sendRefuse_lanes (b : Blocks) (r : Radio) (id : Byte) (c : RefuseCause) : (b.sendRefuse r id c).lanes = b.lanes := rfl
@[simp] theorem Blocks.sendRefuse_tracker (b : Blocks) (r : Radio) (id : Byte) (c : RefuseCause) : (b.sendRefuse r id c).tracker = b.tracker := rfl
@[simp] theorem Blocks.sendRefuse_survey (b : Blocks) (r : Radio) (id : Byte) (c : RefuseCause) : (b.sendRefuse r id c).survey = b.survey := rfl
@[simp] theorem Blocks.sendRefuse_monitor (b : Blocks) (r : Radio) (id : Byte) (c : RefuseCause) : (b.sendRefuse r id c).monitor = b.monitor := rfl
@[simp] theorem Blocks.sendRefuse_sched (b : Blocks) (r : Radio) (id : Byte) (c : RefuseCause) : (b.sendRefuse r id c).sched = b.sched := rfl
@[simp] theorem Blocks.sendRefuse_chans (b : Blocks) (r : Radio) (id : Byte) (c : RefuseCause) : (b.sendRefuse r id c).chans = b.chans := rfl
@[simp] theorem Blocks.sendRefuse_air (b : Blocks) (r : Radio) (id : Byte) (c : RefuseCause) (a : AirId) : (b.sendRefuse r id c).air a = b.air a := rfl

@[simp] theorem Blocks.sendExpired_cells (b : Blocks) (r : Radio) (id : Byte) : (b.sendExpired r id).cells = b.cells := rfl
@[simp] theorem Blocks.sendExpired_lanes (b : Blocks) (r : Radio) (id : Byte) : (b.sendExpired r id).lanes = b.lanes := rfl
@[simp] theorem Blocks.sendExpired_tracker (b : Blocks) (r : Radio) (id : Byte) : (b.sendExpired r id).tracker = b.tracker := rfl
@[simp] theorem Blocks.sendExpired_survey (b : Blocks) (r : Radio) (id : Byte) : (b.sendExpired r id).survey = b.survey := rfl
@[simp] theorem Blocks.sendExpired_monitor (b : Blocks) (r : Radio) (id : Byte) : (b.sendExpired r id).monitor = b.monitor := rfl
@[simp] theorem Blocks.sendExpired_sched (b : Blocks) (r : Radio) (id : Byte) : (b.sendExpired r id).sched = b.sched := rfl
@[simp] theorem Blocks.sendExpired_chans (b : Blocks) (r : Radio) (id : Byte) : (b.sendExpired r id).chans = b.chans := rfl
@[simp] theorem Blocks.sendExpired_air (b : Blocks) (r : Radio) (id : Byte) (a : AirId) : (b.sendExpired r id).air a = b.air a := rfl

/-! ## The whole state -/

@[simp] theorem State.withBlocks_pending (s : State) (f : Env → Blocks → Blocks) : (s.withBlocks f).pending = s.pending := rfl
@[simp] theorem State.withBlocks_env (s : State) (f : Env → Blocks → Blocks) : (s.withBlocks f).env = s.env := rfl
@[simp] theorem State.withBlocks_port (s : State) (f : Env → Blocks → Blocks) : (s.withBlocks f).port = s.port := rfl
@[simp] theorem State.withBlocks_blocks (s : State) (f : Env → Blocks → Blocks) :
    (s.withBlocks f).blocks = f s.env s.blocks := rfl

@[simp] theorem State.answer_pending (s : State) (x : Response) : (s.answer x).pending = s.pending := rfl
@[simp] theorem State.answer_env (s : State) (x : Response) : (s.answer x).env = s.env := rfl
@[simp] theorem State.answer_blocks (s : State) (x : Response) : (s.answer x).blocks = s.blocks := rfl
@[simp] theorem State.ok_pending (s : State) (p : List Byte) : (s.ok p).pending = s.pending := rfl
@[simp] theorem State.ok_env (s : State) (p : List Byte) : (s.ok p).env = s.env := rfl
@[simp] theorem State.ok_blocks (s : State) (p : List Byte) : (s.ok p).blocks = s.blocks := rfl
@[simp] theorem State.reject_pending (s : State) (x : Status) : (s.reject x).pending = s.pending := rfl
@[simp] theorem State.reject_env (s : State) (x : Status) : (s.reject x).env = s.env := rfl
@[simp] theorem State.reject_blocks (s : State) (x : Status) : (s.reject x).blocks = s.blocks := rfl
@[simp] theorem State.answer_port (s : State) (x : Response) : (s.answer x).port = s.port.take s.env.now x := rfl
@[simp] theorem State.ok_port (s : State) (p : List Byte) : (s.ok p).port = s.port.take s.env.now ⟨.ok, p⟩ := rfl
@[simp] theorem State.reject_port (s : State) (x : Status) : (s.reject x).port = s.port.take s.env.now ⟨x, []⟩ := rfl
@[simp] theorem State.modRetained_pending (s : State) (f : Retained → Retained) : (s.modRetained f).pending = s.pending := rfl
@[simp] theorem State.modRetained_port (s : State) (f : Retained → Retained) : (s.modRetained f).port = s.port := rfl
@[simp] theorem State.modRetained_blocks (s : State) (f : Retained → Retained) : (s.modRetained f).blocks = s.blocks := rfl
@[simp] theorem State.modRetained_now (s : State) (f : Retained → Retained) : (s.modRetained f).env.now = s.env.now := rfl
@[simp] theorem State.modRetained_mode (s : State) (f : Retained → Retained) : (s.modRetained f).env.mode = s.env.mode := rfl
@[simp] theorem State.modRetained_retained (s : State) (f : Retained → Retained) :
    (s.modRetained f).env.retained = f s.env.retained := rfl
@[simp] theorem State.tick_pending (s : State) : s.tick.pending = s.pending := rfl
@[simp] theorem State.tick_port (s : State) : s.tick.port = s.port := rfl
@[simp] theorem State.tick_cells (s : State) : s.tick.blocks.cells = s.blocks.cells := rfl
@[simp] theorem State.tick_lanes (s : State) : s.tick.blocks.lanes = s.blocks.lanes := rfl
@[simp] theorem State.tick_tracker (s : State) : s.tick.blocks.tracker = s.blocks.tracker := rfl
@[simp] theorem State.tick_survey (s : State) : s.tick.blocks.survey = s.blocks.survey := rfl
@[simp] theorem State.tick_monitor (s : State) : s.tick.blocks.monitor = s.blocks.monitor := rfl
@[simp] theorem State.tick_sched (s : State) : s.tick.blocks.sched = s.blocks.sched := rfl
@[simp] theorem State.tick_chans (s : State) : s.tick.blocks.chans = s.blocks.chans := rfl
@[simp] theorem State.tick_now (s : State) : s.tick.env.now = Time.plus s.env.now 1 := rfl
@[simp] theorem State.tick_links (s : State) (r : Radio) :
    s.tick.blocks.links.get r = (s.blocks.links.get r).idleLine (Time.plus s.env.now 1) := by
  simp [State.tick]

/-- An idle line loses the record of the message it has sent, and nothing else. -/
theorem Link.idleLine_eq (now : Time) (k : Link) :
    k.idleLine now = { k with sending := k.sending.filter fun x => !Time.before x.freeAt now } := by
  obtain ⟨_, _, _, _, _, _, _, _, sending, _⟩ := k
  cases sending with
  | none => rfl
  | some x => unfold Link.idleLine; cases h : Time.before x.freeAt now <;> simp [Option.filter, h]
@[simp] theorem Link.idleLine_receiver (now : Time) (k : Link) : (k.idleLine now).receiver = k.receiver := by rw [Link.idleLine_eq]
@[simp] theorem Link.idleLine_port (now : Time) (k : Link) : (k.idleLine now).port = k.port := by rw [Link.idleLine_eq]
@[simp] theorem Link.idleLine_liveness (now : Time) (k : Link) : (k.idleLine now).liveness = k.liveness := by rw [Link.idleLine_eq]
@[simp] theorem Link.idleLine_capability (now : Time) (k : Link) : (k.idleLine now).capability = k.capability := by rw [Link.idleLine_eq]
@[simp] theorem Link.idleLine_linkSource (now : Time) (k : Link) : (k.idleLine now).linkSource = k.linkSource := by rw [Link.idleLine_eq]
@[simp] theorem Link.idleLine_markStart (now : Time) (k : Link) : (k.idleLine now).markStart = k.markStart := by rw [Link.idleLine_eq]
@[simp] theorem Link.idleLine_counters (now : Time) (k : Link) : (k.idleLine now).counters = k.counters := by rw [Link.idleLine_eq]
@[simp] theorem Link.idleLine_queue (now : Time) (k : Link) : (k.idleLine now).queue = k.queue := by rw [Link.idleLine_eq]
@[simp] theorem Link.idleLine_req (now : Time) (k : Link) : (k.idleLine now).req = k.req := by rw [Link.idleLine_eq]
@[simp] theorem State.tick_mode (s : State) : s.tick.env.mode = s.env.mode := rfl
@[simp] theorem State.tick_retained (s : State) : s.tick.env.retained = s.env.retained := rfl

end Sys2Proof.Machine
end

