-- ==== Sys2Proof/Laws/Frames.lean ====
section
/-! SUPPORT. What the operations of the grant scheduler leave alone, said once for each of them: everything outside the
scheduler's own record, but for the transmit queues and the counters of the links. -/

namespace Sys2Proof.Machine

theorem SameLink.refl (k : Link) : SameLink k k := rfl

theorem SameLink.trans {k l m : Link} (h : SameLink k l) (g : SameLink l m) : SameLink k m := by
  unfold SameLink at *; rw [g, h]

theorem SameLink.issue (k : Link) (m : OutMsg) : SameLink k (k.issue m) := by
  unfold Link.issue; split <;> rfl

theorem SameLink.port {k k' : Link} (h : SameLink k k') : k'.port = k.port := by rw [h]
theorem SameLink.capability {k k' : Link} (h : SameLink k k') : k'.capability = k.capability := by rw [h]
theorem SameLink.receiver {k k' : Link} (h : SameLink k k') : k'.receiver = k.receiver := by rw [h]
theorem SameLink.liveness {k k' : Link} (h : SameLink k k') : k'.liveness = k.liveness := by rw [h]
theorem SameLink.linkSource {k k' : Link} (h : SameLink k k') : k'.linkSource = k.linkSource := by rw [h]
theorem SameLink.markStart {k k' : Link} (h : SameLink k k') : k'.markStart = k.markStart := by rw [h]
theorem SameLink.sending {k k' : Link} (h : SameLink k k') : k'.sending = k.sending := by rw [h]
theorem SameLink.req {k k' : Link} (h : SameLink k k') : k'.req = k.req := by rw [h]

namespace SchedOnly

theorem refl (b : Blocks) : SchedOnly b b := ⟨rfl, rfl, rfl, rfl, rfl, rfl, rfl, rfl, fun _ => rfl⟩

theorem trans {a b c : Blocks} (h : SchedOnly a b) (g : SchedOnly b c) : SchedOnly a c :=
  ⟨g.cells.trans h.cells, g.lanes.trans h.lanes, g.tracker.trans h.tracker, g.survey.trans h.survey,
    g.monitor.trans h.monitor, g.chans.trans h.chans, g.shaping.trans h.shaping, g.prediction.trans h.prediction,
    fun r => (h.links r).trans (g.links r)⟩

theorem after {a b c : Blocks} (g : SchedOnly b c) (h : SchedOnly a b) : SchedOnly a c := h.trans g

theorem foldl {α : Type} {f : Blocks → α → Blocks} (h : ∀ b x, SchedOnly b (f b x)) (l : List α) (b : Blocks) :
    SchedOnly b (l.foldl f b) := by
  induction l generalizing b with
  | nil => exact refl b
  | cons x xs ih => exact (h b x).trans (ih _)

theorem modSched (b : Blocks) (r : Radio) (f : RadioSched → RadioSched) : SchedOnly b (b.modSched r f) :=
  ⟨rfl, rfl, rfl, rfl, rfl, rfl, rfl, rfl, fun _ => rfl⟩

theorem modAir (b : Blocks) (a : AirId) (f : Air → Air) : SchedOnly b (b.modAir a f) :=
  ⟨rfl, rfl, rfl, rfl, rfl, rfl, rfl, rfl, fun _ => rfl⟩

theorem takeSeq (b : Blocks) : SchedOnly b b.takeSeq := ⟨rfl, rfl, rfl, rfl, rfl, rfl, rfl, rfl, fun _ => rfl⟩

theorem setLastEnded (b : Blocks) (r : Radio) (id : Byte) (t : Time) (m : EndManner) :
    SchedOnly b (b.setLastEnded r id t m) := modSched _ _ _

theorem modLink (b : Blocks) (r : Radio) (f : Link → Link) (h : ∀ k, SameLink k (f k)) : SchedOnly b (b.modLink r f) := by
  refine ⟨rfl, rfl, rfl, rfl, rfl, rfl, rfl, rfl, fun q => ?_⟩
  rw [Blocks.modLink_links, PerRadio.get_modify]
  split
  · rename_i e; subst e; exact h _
  · exact SameLink.refl _

theorem send (b : Blocks) (r : Radio) (m : OutMsg) : SchedOnly b (b.send r m) :=
  modLink _ _ _ fun k => SameLink.issue k m

theorem count (b : Blocks) (r : Radio) (f : LinkCounters → LinkCounters) : SchedOnly b (b.count r f) :=
  modLink _ _ _ fun _ => rfl

theorem sendGrant (b : Blocks) (r : Radio) (id : Byte) (t : Time) (n : Nat) (x : Bool) :
    SchedOnly b (b.sendGrant r id t n x) := by
  unfold Blocks.sendGrant
  exact after (count _ _ _) (send _ _ _)

theorem sendRetry (b : Blocks) (r : Radio) (id : Byte) (c : RetryCause) (t : Time) : SchedOnly b (b.sendRetry r id c t) :=
  after (count _ _ _) (send _ _ _)

theorem sendRefuse (b : Blocks) (r : Radio) (id : Byte) (c : RefuseCause) : SchedOnly b (b.sendRefuse r id c) :=
  after (count _ _ _) (send _ _ _)

theorem sendExpired (b : Blocks) (r : Radio) (id : Byte) : SchedOnly b (b.sendExpired r id) :=
  after (count _ _ _) (send _ _ _)

theorem enterGrant (env : Env) (a : AirId) (q : Request) (p : Placement) (b : Blocks) :
    SchedOnly b (enterGrant env a q p b) := by
  unfold Machine.enterGrant
  exact after (sendGrant _ _ _ _ _ _) (modAir _ _ _)

theorem attemptHead (env : Env) (q : Request) (b : Blocks) : SchedOnly b (attemptHead env q b) := by
  unfold Machine.attemptHead; dsimp only; split
  · exact after (sendExpired _ _ _) (modSched _ _ _)
  · exact modSched _ _ _

theorem reviewWaiting (env : Env) (a : AirId) (v : Review) (q : Request) :
    SchedOnly v.blocks (reviewWaiting env a v q).blocks := by
  unfold Machine.reviewWaiting; dsimp only
  repeat' split
  · exact refl _
  · exact after (sendRetry _ _ _ _ _) (modSched _ _ _)
  · exact after (sendRetry _ _ _ _ _) (modSched _ _ _)
  · exact after (enterGrant _ _ _ _ _) (modSched _ _ _)
  · exact refl _
  · exact refl _

theorem reviewHead (env : Env) (a : AirId) (v : Review) (q : Request) :
    SchedOnly v.blocks (reviewHead env a v q).blocks := by
  unfold Machine.reviewHead
  repeat' split
  · exact refl _
  · exact attemptHead _ _ _
  · exact after (enterGrant _ _ _ _ _) (modSched _ _ _)
  · exact attemptHead _ _ _
  · exact attemptHead _ _ _

theorem foldReview {f : Review → Request → Review} (h : ∀ v q, SchedOnly v.blocks (f v q).blocks) (l : List Request)
    (v : Review) : SchedOnly v.blocks (l.foldl f v).blocks := by
  induction l generalizing v with
  | nil => exact refl _
  | cons x xs ih => exact (h v x).trans (ih _)

theorem reviewAir (env : Env) (a : AirId) (b : Blocks) : SchedOnly b (reviewAir env a b) := by
  unfold Machine.reviewAir; dsimp only; split
  · exact after (modAir _ _ _) (after (foldReview (reviewHead env a) _ _) (after (foldReview (reviewWaiting env a) _ ⟨_, [], []⟩) (modAir b a fun x => { x with review := none })))
  · exact after (foldReview (reviewHead env a) _ _) (after (foldReview (reviewWaiting env a) _ ⟨_, [], []⟩) (modAir b a fun x => { x with review := none }))

theorem reviewAirs (env : Env) (p : AirId → Bool) (b : Blocks) : SchedOnly b (reviewAirs env p b) :=
  foldl (fun b a => reviewAir env a b) _ _

theorem cutGrant (env : Env) (a : AirId) (b : Blocks) : SchedOnly b (cutGrant env a b) := by
  unfold Machine.cutGrant; split
  · exact refl _
  · exact after (setLastEnded _ _ _ _ _) (after (send _ _ _) (modAir _ _ _))

theorem dropGrant (a : AirId) (b : Blocks) : SchedOnly b (dropGrant a b) := modAir _ _ _

theorem endGrantOf (env : Env) (r : Radio) (how : GrantEnd) (b : Blocks) : SchedOnly b (endGrantOf env r how b) := by
  unfold Machine.endGrantOf; split
  · exact refl _
  · split
    · exact dropGrant _ _
    · exact cutGrant _ _ _

theorem endHoldOf (r : Radio) (b : Blocks) : SchedOnly b (endHoldOf r b) := by
  unfold Machine.endHoldOf; split
  · exact refl _
  · exact modAir _ _ _

theorem shapeGrant (env : Env) (b : Blocks) (a : AirId) : SchedOnly b (shapeGrant env b a) := by
  unfold Machine.shapeGrant; dsimp only
  repeat' split
  · exact refl _
  · exact refl _
  · exact after (send _ _ _) (modAir _ _ _)
  · exact cutGrant _ _ _
  · exact refl _
  · exact after (count _ _ _) (modAir _ _ _)
  · exact refl _

theorem applyShaping (env : Env) (b : Blocks) : SchedOnly b (applyShaping env b) := by
  unfold Machine.applyShaping
  exact after (reviewAirs _ _ _) (foldl (shapeGrant env) _ _)

theorem answerGate (b : Blocks) (r : Radio) (id : Byte) (x : GateAnswer) : SchedOnly b (answerGate b r id x) := by
  cases x
  · exact sendRefuse _ _ _ _
  · exact sendRetry _ _ _ _ _

theorem answerWaits (b : Blocks) (r : Radio) (x : GateAnswer) : SchedOnly b (answerWaits b r x) := by
  unfold Machine.answerWaits; dsimp only
  exact after (foldl (f := fun b (q : Request) => Machine.answerGate b r q.id x) (fun b q => answerGate b r q.id x) _ _)
    (modSched b r _)

theorem retestWaits (env : Env) (b : Blocks) (r : Radio) : SchedOnly b (retestWaits env b r) := by
  unfold Machine.retestWaits; split
  · exact refl _
  · exact answerWaits _ _ _

theorem retestAndReview (env : Env) (airs : List AirId) (rs : List Radio) (b : Blocks) :
    SchedOnly b (retestAndReview env airs rs b) := by
  unfold Machine.retestAndReview; dsimp only
  exact after (reviewAirs _ _ _) (foldl (retestWaits env) _ _)

theorem radioChange (env : Env) (r : Radio) (how : Option GrantEnd) (old : Option AirId) (gained : List Radio)
    (b : Blocks) : SchedOnly b (radioChange env r how old gained b) := by
  unfold Machine.radioChange; dsimp only
  cases how
  · exact retestAndReview _ _ _ _
  · exact after (retestAndReview _ _ _ _) (after (endHoldOf _ _) (endGrantOf _ _ _ _))

theorem endSession (env : Env) (r : Radio) (b : Blocks) : SchedOnly b (endSession env r b) :=
  after (modSched _ _ _) (after (endHoldOf _ _) (endGrantOf _ _ _ _))

theorem cutPassThrough (env : Env) (r : Radio) (b : Blocks) : SchedOnly b (cutPassThrough env r b) := by
  unfold Machine.cutPassThrough; dsimp only
  exact after (foldl (fun _ _ => (send _ _ _).trans (setLastEnded _ _ _ _ _)) _ _) (modSched _ _ _)

theorem withdrawSched (env : Env) (r : Radio) (b : Blocks) : SchedOnly b (withdrawSched env r b) := by
  unfold Machine.withdrawSched; dsimp only
  exact after (foldl (f := fun b (q : Request) => b.sendExpired r q.id) (fun b q => sendExpired b r q.id) _ _)
    (after (modSched _ _ _) (after (answerWaits _ _ _) (after (endHoldOf _ _) (after (cutPassThrough _ _ _)
      (endGrantOf _ _ _ _)))))

theorem takeGuardChange (env : Env) (changed : List Nat) (b : Blocks) : SchedOnly b (takeGuardChange env changed b) := by
  unfold Machine.takeGuardChange; dsimp only; split
  · exact after (reviewAirs _ _ _) (foldl (fun _ _ => ((endGrantOf _ _ _ _).trans (endHoldOf _ _)).trans (answerWaits _ _ _)) _ _)
  · exact refl _

theorem passThrough (env : Env) (r : Radio) (id : Byte) (n : Nat) (x : Bool) (b : Blocks) :
    SchedOnly b (passThrough env r id n x b) := by
  unfold Machine.passThrough; dsimp only
  exact after (sendGrant _ _ _ _ _ _) (modSched _ _ _)

theorem joinPosted (r : Radio) (q : Request) (b : Blocks) : SchedOnly b (joinPosted r q b) := by
  unfold Machine.joinPosted; dsimp only
  exact after (send _ _ _) (after (modSched _ _ _) (takeSeq _))

theorem joinWaits (env : Env) (r : Radio) (q : Request) (b : Blocks) : SchedOnly b (joinWaits env r q b) := by
  unfold Machine.joinWaits; dsimp only
  exact after (reviewAirs _ _ _) (after (modSched _ _ _) (takeSeq _))

theorem requestInRun (env : Env) (r : Radio) (q : Request) (b : Blocks) : SchedOnly b (requestInRun env r q b) := by
  unfold Machine.requestInRun; dsimp only
  repeat' split
  · exact answerGate _ _ _ _
  · exact sendRetry _ _ _ _ _
  · exact joinPosted _ _ _
  · exact sendRetry _ _ _ _ _
  · exact joinWaits _ _ _ _

theorem takeRequest (env : Env) (r : Radio) (q : WindowAsk) (b : Blocks) : SchedOnly b (takeRequest env r q b) := by
  unfold Machine.takeRequest; dsimp only
  repeat' split
  · exact sendRefuse _ _ _ _
  · exact sendRefuse _ _ _ _
  · exact passThrough _ _ _ _ _ _
  · exact requestInRun _ _ _ _

theorem assertInRun (env : Env) (r : Radio) (b : Blocks) : SchedOnly b (assertInRun env r b) := by
  unfold Machine.assertInRun; split
  · exact after (count _ _ _) (modAir _ _ _)
  · exact count _ _ _

theorem finishHold (env : Env) (r : Radio) (b : Blocks) : SchedOnly b (finishHold env r b) := by
  unfold Machine.finishHold; split
  · exact refl _
  · exact after (reviewAir _ _ _) (endHoldOf _ _)

theorem airToSetup (env : Env) (b : Blocks) (a : AirId) : SchedOnly b (airToSetup env b a) := by
  unfold Machine.airToSetup; dsimp only; split
  · exact modAir _ _ _
  · split
    · exact after (modSched _ _ _) (after (dropGrant _ _) (modAir _ _ _))
    · exact after (cutGrant _ _ _) (modAir _ _ _)

theorem requestsToSetup (env : Env) (b : Blocks) (r : Radio) : SchedOnly b (requestsToSetup env b r) := by
  unfold Machine.requestsToSetup; dsimp only
  exact after (foldl (fun _ _ => passThrough _ _ _ _ _ _) _ _) (modSched _ _ _)

theorem schedToSetup (env : Env) (b : Blocks) : SchedOnly b (schedToSetup env b) := by
  unfold Machine.schedToSetup
  exact after (foldl (requestsToSetup env) _ _) (foldl (airToSetup env) _ _)

theorem schedToRun (env : Env) (b : Blocks) : SchedOnly b (schedToRun env b) := by
  unfold Machine.schedToRun
  exact after (reviewAirs _ _ _) (foldl (fun _ _ => cutPassThrough _ _ _) _ _)

end SchedOnly

end Sys2Proof.Machine
end

