-- ==== Sys2Proof/Laws/Directives.lean ====
section
/-! SUPPORT. What the operations of the directive controller leave alone, said once for each of them: the tracker, the survey
unit, the scheduler's stored reports, and of the condition monitor everything but radio-kind records. -/

namespace Sys2Proof.Machine

/-- The monitor has taken some reports of radio-kind sources and nothing else. -/
inductive RadioReported (env : Env) : Monitor → Monitor → Prop where
  | refl (m : Monitor) : RadioReported env m m
  | report {m m' : Monitor} (key : CondKey) (x : Bool) (r : Radio) (hr : CondKey.radio key = some r)
      (h : RadioReported env m m') : RadioReported env m (m'.report env key x)

theorem RadioReported.trans {env : Env} {a b c : Monitor} (h : RadioReported env a b) (g : RadioReported env b c) :
    RadioReported env a c := by
  induction g with
  | refl => exact h
  | report key x r hr _ ih => exact .report key x r hr ih

/-- Nothing but cells, lanes, channel states, radio-kind records, the scheduler's airs and radios and the links' queues and
counters has changed. -/
structure Directed (env : Env) (b b' : Blocks) : Prop where
  tracker : b'.tracker = b.tracker
  survey : b'.survey = b.survey
  shaping : b'.sched.shaping = b.sched.shaping
  prediction : b'.sched.prediction = b.sched.prediction
  links : ∀ r, SameLink (b.links.get r) (b'.links.get r)
  monitor : RadioReported env b.monitor b'.monitor

theorem SchedOnly.directed {env : Env} {b b' : Blocks} (h : SchedOnly b b') : Directed env b b' :=
  ⟨h.tracker, h.survey, h.shaping, h.prediction, h.links, h.monitor ▸ .refl _⟩

namespace Directed

variable {env : Env}

theorem refl (b : Blocks) : Directed env b b := ⟨rfl, rfl, rfl, rfl, fun _ => rfl, .refl _⟩

theorem after {a b c : Blocks} (g : Directed env b c) (h : Directed env a b) : Directed env a c :=
  ⟨g.tracker.trans h.tracker, g.survey.trans h.survey, g.shaping.trans h.shaping, g.prediction.trans h.prediction,
    fun r => (h.links r).trans (g.links r), h.monitor.trans g.monitor⟩

theorem foldl {α : Type} {f : Blocks → α → Blocks} (h : ∀ b x, Directed env b (f b x)) (l : List α) (b : Blocks) :
    Directed env b (l.foldl f b) := by
  induction l generalizing b with
  | nil => exact refl b
  | cons x xs ih => exact after (ih _) (h b x)

theorem modChan (b : Blocks) (r : Radio) (f : ChanState → ChanState) : Directed env b (b.modChan r f) :=
  ⟨rfl, rfl, rfl, rfl, fun _ => rfl, .refl _⟩

theorem modLane (b : Blocks) (r : Radio) (f : Lane → Lane) : Directed env b (b.modLane r f) :=
  ⟨rfl, rfl, rfl, rfl, fun _ => rfl, .refl _⟩

theorem setCells (b : Blocks) (cells : List CellRecord) : Directed env b { b with cells := cells } :=
  ⟨rfl, rfl, rfl, rfl, fun _ => rfl, .refl _⟩

theorem report (b : Blocks) {key : CondKey} {r : Radio} (hr : CondKey.radio key = some r) (x : Bool) :
    Directed env b (b.report env key x) :=
  ⟨rfl, rfl, rfl, rfl, fun _ => rfl, .report key x r hr (.refl _)⟩

theorem radioChange (r : Radio) (how : Option GrantEnd) (old : Option AirId) (gained : List Radio) (b : Blocks) :
    Directed env b (radioChange env r how old gained b) := (SchedOnly.radioChange _ _ _ _ _ _).directed

theorem endMoveWait (r : Radio) (b : Blocks) : Directed env b (endMoveWait env r b) := by
  unfold Machine.endMoveWait; split
  · exact refl _
  · dsimp only; split
    · exact after (report _ (r := r) rfl _) (modChan _ _ _)
    · exact modChan _ _ _

theorem enterMoveWait (r : Radio) (cells : List Nat) (b : Blocks) : Directed env b (enterMoveWait env r cells b) := by
  unfold Machine.enterMoveWait; dsimp only; split
  · exact modChan _ _ _
  · exact after (report _ (r := r) rfl _) (modChan _ _ _)

theorem issueMove (r : Radio) (e : PlanEntry) (why : MoveReason) (b b' : Blocks)
    (h : issueMove env r e why b = some b') : Directed env b b' := by
  unfold Machine.issueMove at h; split at h
  · exact absurd h (by simp)
  · cases h
    exact after (SchedOnly.send _ _ _).directed (after (radioChange _ _ _ _ _) (after (endMoveWait _ _)
      (after (modChan _ _ _) (setCells _ _))))

theorem guardChoice (r : Radio) (b b' : Blocks) (h : guardChoice env r b = some b') : Directed env b b' := by
  unfold Machine.guardChoice at h; split at h
  · exact absurd h (by simp)
  · exact issueMove _ _ _ _ _ h

theorem moveRequest (r : Radio) (cells : List Nat) (b : Blocks) : Directed env b (moveRequest env r cells b) := by
  unfold Machine.moveRequest
  repeat' split
  · exact refl _
  · exact refl _
  · exact refl _
  · rename_i h; exact guardChoice _ _ _ h
  · exact enterMoveWait _ _ _

theorem retryMove (r : Radio) (b : Blocks) : Directed env b (retryMove env r b) := by
  unfold Machine.retryMove
  repeat' split
  · exact refl _
  · rename_i h; exact guardChoice _ _ _ h
  · exact enterMoveWait _ _ _
  · exact endMoveWait _ _

theorem endClearedWaits (b : Blocks) : Directed env b (endClearedWaits env b) := by
  unfold Machine.endClearedWaits
  refine foldl (fun b r => ?_) _ _
  repeat' split
  · exact refl _
  · exact refl _
  · exact endMoveWait _ _

theorem endLapse (r : Radio) (b : Blocks) : Directed env b (endLapse env r b) := by
  unfold Machine.endLapse; split
  · exact after (report _ (r := r) rfl _) (modChan _ _ _)
  · exact refl _

theorem setClash (r : Radio) (x : Bool) (b : Blocks) : Directed env b (setClash env r x b) := by
  unfold Machine.setClash; split
  · exact refl _
  · exact after (report _ (r := r) rfl _) (modChan _ _ _)

theorem resolveOne (except : Option Radio) (b : Blocks) (c : Radio) : Directed env b (resolveOne env except b c) := by
  unfold Machine.resolveOne; dsimp only
  repeat' split
  · exact refl _
  · exact after (setClash _ _ _) (setCells _ _)
  · exact refl _

theorem resolveClashes (except : Option Radio) (freed : Bool) (b : Blocks) :
    Directed env b (resolveClashes env except freed b) := by
  unfold Machine.resolveClashes; split
  · exact foldl (resolveOne except) _ _
  · exact refl _

theorem dropDirective (r : Radio) (b : Blocks) : Directed env b (dropDirective r b) := by
  unfold Machine.dropDirective; split
  · exact after (modChan _ _ _) (setCells _ _)
  · exact refl _

theorem promotionCheck (r : Radio) (b : Blocks) : Directed env b (promotionCheck env r b) := by
  unfold Machine.promotionCheck; dsimp only; split
  · exact moveRequest _ _ _
  · exact refl _

theorem restartLane (r : Radio) (b : Blocks) : Directed env b (restartLane r b) :=
  after (SchedOnly.modSched _ _ _).directed (modLane _ _ _)

theorem restartIfMoved (r : Radio) (ch : Option Channel) (b : Blocks) : Directed env b (restartIfMoved r ch b) := by
  unfold Machine.restartIfMoved; split
  · exact refl _
  · exact restartLane _ _

theorem carryOut (r : Radio) (d : Directive) (except : Option Radio) (b : Blocks) :
    Directed env b (carryOut env r d except b) := by
  unfold Machine.carryOut; dsimp only
  exact after (promotionCheck _ _) (after (restartIfMoved _ _ _) (after (radioChange _ _ _ _ _)
    (after (resolveClashes _ _ _) (after (modChan _ _ _) (setCells _ _)))))

theorem takeMoved (r : Radio) (id : Byte) (b : Blocks) : Directed env b (takeMoved env r id b) := by
  unfold Machine.takeMoved
  repeat' split
  · exact refl _
  · exact carryOut _ _ _ _
  · exact refl _

theorem waitAfterDecline (r : Radio) (why : MoveReason) (b : Blocks) : Directed env b (waitAfterDecline env r why b) := by
  unfold Machine.waitAfterDecline; dsimp only; split
  · exact modChan _ _ _
  · exact refl _

theorem takeDecline (r : Radio) (id why : Byte) (b : Blocks) : Directed env b (takeDecline env r id why b) := by
  unfold Machine.takeDecline; dsimp only
  repeat' split
  · exact refl _
  · exact after (waitAfterDecline _ _ _) (after (radioChange _ _ _ _ _) (after (resolveClashes _ _ _)
      (after (modChan _ _ _) (dropDirective _ _))))
  · exact refl _

theorem lapseAssume (r : Radio) (d : Directive) (b : Blocks) : Directed env b (lapseAssume env r d b) :=
  after (report _ (r := r) rfl _) (after (report _ (r := r) rfl _) (carryOut _ _ _ _))

theorem lapseRevoke (r : Radio) (b : Blocks) : Directed env b (lapseRevoke env r b) := by
  unfold Machine.lapseRevoke; dsimp only
  exact after (radioChange _ _ _ _ _) (after (report _ (r := r) rfl _) (after (modChan _ _ _)
    (after (resolveClashes _ _ _) (dropDirective _ _))))

theorem takeLapse (r : Radio) (b : Blocks) : Directed env b (takeLapse env r b) := by
  unfold Machine.takeLapse
  repeat' split
  · exact refl _
  · exact lapseAssume _ _ _
  · exact lapseRevoke _ _
  · exact refl _

theorem tunedOff (r : Radio) (b : Blocks) : Directed env b (tunedOff env r b) := by
  unfold Machine.tunedOff; dsimp only
  exact after (setClash _ _ _) (after (modChan _ _ _) (setCells _ _))

theorem tunedChannel (r : Radio) (ch : Channel) (b : Blocks) : Directed env b (tunedChannel env r ch b) := by
  unfold Machine.tunedChannel; dsimp only; split
  · exact after (setClash _ _ _) (after (modChan _ _ _) (after (setCells _ _) (setCells _ _)))
  · exact after (setClash _ _ _) (after (modChan _ _ _) (setCells _ _))

theorem tunedAfresh (r : Radio) (x : Option Channel) (b : Blocks) : Directed env b (tunedAfresh env r x b) := by
  unfold Machine.tunedAfresh; dsimp only
  refine after (restartIfMoved _ _ _) (after (radioChange _ _ _ _ _) (after (resolveClashes _ _ _) ?_))
  cases x
  · exact after (tunedOff _ _) (dropDirective _ _)
  · exact after (tunedChannel _ _ _) (dropDirective _ _)

theorem takeTuned (r : Radio) (x : Option Channel) (b : Blocks) : Directed env b (takeTuned env r x b) := by
  unfold Machine.takeTuned; dsimp only
  have h : Directed env b (Machine.endLapse env r (Machine.endMoveWait env r b)) :=
    after (endLapse _ _) (endMoveWait _ _)
  repeat' split
  · exact after (carryOut _ _ _ _) h
  · exact after (tunedAfresh _ _ _) h
  · exact after (tunedAfresh _ _ _) h

theorem resolveAndReview (airs : List AirId) (freed : Bool) (b : Blocks) :
    Directed env b (resolveAndReview env airs freed b) :=
  after (SchedOnly.retestAndReview _ _ _ _).directed (resolveClashes _ _ _)

theorem lossDirective (r : Radio) (airs : List AirId) (b : Blocks) : Directed env b (lossDirective env r airs b) := by
  unfold Machine.lossDirective; dsimp only
  exact after (resolveAndReview _ _ _) (after (endMoveWait _ _) (after (dropDirective _ _)
    (SchedOnly.endSession _ _ _).directed))

theorem clearContext (r : Radio) (b : Blocks) : Directed env b (clearContext env r b) := by
  unfold Machine.clearContext; dsimp only
  exact after (endLapse _ _) (after (setClash _ _ _) (after (endMoveWait _ _)
    (after (modChan _ _ _) (after (setCells _ _) (dropDirective _ _)))))

theorem restartContext (r : Radio) (b : Blocks) : Directed env b (restartContext env r b) := by
  unfold Machine.restartContext; dsimp only
  exact after (restartIfMoved _ _ _) (after (resolveAndReview _ _ _) (after (clearContext _ _) (after (modChan _ _ _)
    (SchedOnly.endSession _ _ _).directed)))

/-! ## The scheduler's overrun source -/

theorem lateRelease (r : Radio) (b : Blocks) : Directed env b (lateRelease env r b) := by
  unfold Machine.lateRelease; dsimp only; split
  · exact after (report _ (r := r) rfl _) (after (SchedOnly.modSched _ _ _).directed
      (after (SchedOnly.modSched _ _ _).directed (SchedOnly.count _ _ _).directed))
  · exact after (SchedOnly.modSched _ _ _).directed (SchedOnly.count _ _ _).directed

theorem deadRelease (r : Radio) (id : Byte) (b : Blocks) : Directed env b (deadRelease env r id b) := by
  unfold Machine.deadRelease; dsimp only
  repeat' split
  · exact (SchedOnly.count _ _ _).directed
  · exact after (lateRelease _ _) (SchedOnly.modSched _ _ _).directed
  · exact (SchedOnly.modSched _ _ _).directed
  · exact (SchedOnly.count _ _ _).directed

theorem takeRelease (r : Radio) (id : Byte) (b : Blocks) : Directed env b (takeRelease env r id b) := by
  unfold Machine.takeRelease; dsimp only
  split
  · exact (SchedOnly.after (SchedOnly.reviewAirs _ _ _) (SchedOnly.after (SchedOnly.setLastEnded _ _ _ _ _)
      (SchedOnly.endGrantOf _ _ _ _))).directed
  · split
    · exact (SchedOnly.modSched _ _ _).directed
    · split
      · exact (SchedOnly.after (SchedOnly.reviewAirs _ _ _) (SchedOnly.modSched _ _ _)).directed
      · split
        · exact (SchedOnly.after (SchedOnly.reviewAirs _ _ _) (SchedOnly.modSched _ _ _)).directed
        · exact deadRelease _ _ _

theorem surveyDone (r : Radio) (b : Blocks) : Directed env b (surveyDone env r b) := by
  unfold Machine.surveyDone; dsimp only
  exact after (SchedOnly.modSched _ _ _).directed (after (report _ (r := r) rfl _) (SchedOnly.modSched _ _ _).directed)

end Directed

/-- A host MOVE leaves everything but the port alone, or issues one MOVE (R135). -/
theorem execMove_cases {radio entry : Byte} {s t : State} (h : execMove radio entry s = .next t) :
    t.env = s.env ∧ t.pending = s.pending
      ∧ (t.blocks = s.blocks ∨ ∃ r e, cannotDirect s.blocks r = false ∧ (s.blocks.chans.get r).directive = none
          ∧ issueMove s.env r e .host s.blocks = some t.blocks) := by
  have issue : ∀ r e cost, cannotDirect s.blocks r = false → (s.blocks.chans.get r).directive = none →
      (issueHostMove r e cost s).env = s.env ∧ (issueHostMove r e cost s).pending = s.pending
      ∧ ((issueHostMove r e cost s).blocks = s.blocks ∨ ∃ q e', cannotDirect s.blocks q = false
          ∧ (s.blocks.chans.get q).directive = none
          ∧ issueMove s.env q e' .host s.blocks = some (issueHostMove r e cost s).blocks) := by
    intro r e cost h1 h2
    unfold issueHostMove
    cases hb : issueMove s.env r e .host s.blocks with
    | none => exact ⟨rfl, rfl, .inl rfl⟩
    | some b => exact ⟨rfl, rfl, .inr ⟨r, e, h1, h2, hb⟩⟩
  unfold execMove at h
  split at h
  · rename_i r x _ _
    split at h
    · cases h; exact ⟨rfl, rfl, .inl rfl⟩
    · split at h
      · cases h; exact ⟨rfl, rfl, .inl rfl⟩
      · rename_i hd
        have hd' : (s.blocks.chans.get r).directive = none := by simpa using hd
        split at h
        · cases h; exact ⟨rfl, rfl, .inl rfl⟩
        · rename_i hc
          have hc' : cannotDirect s.blocks r = false := by simpa using hc
          split at h
          · cases h
            unfold moveNamed
            split
            · exact ⟨rfl, rfl, .inl rfl⟩
            · split
              · exact ⟨rfl, rfl, .inl rfl⟩
              · exact issue _ _ _ hc' hd'
          · cases h
            unfold moveBest
            split
            · exact ⟨rfl, rfl, .inl rfl⟩
            · split
              · exact ⟨rfl, rfl, .inl rfl⟩
              · exact issue _ _ _ hc' hd'
  · cases h; exact ⟨rfl, rfl, .inl rfl⟩

end Sys2Proof.Machine
end

