-- ==== Sys2Proof/Laws/Monitor.lean ====
section
/-! SUPPORT. The condition list: how its length, its keys and its OVEN record move under each operation of the monitor, and
what the delivery of the monitor's reports leaves alone (R5, R86, R88 to R101). -/

namespace Sys2Proof.Machine

/-! ## The keys of the list -/

@[simp] theorem CondRecord.refresh_key (c : CondRecord) (x : Option Span) : (c.refresh x).key = c.key := rfl

@[simp] theorem CondRecord.enterActive_key (now : Time) (x : Option Span) (c : CondRecord) :
    (c.enterActive now x).key = c.key := rfl

@[simp] theorem CondRecord.enterPending_key (now : Time) (x : Option Span) (c : CondRecord) :
    (c.enterPending now x).key = c.key := by
  unfold CondRecord.enterPending; dsimp only; split <;> rfl

@[simp] theorem newRecord_key (env : Env) (x : Option Span) (key : CondKey) : (newRecord env x key).key = key := by
  simp [newRecord]

@[simp] theorem CondRecord.onPresent_key (now : Time) (x : Option Span) (c : CondRecord) :
    (c.onPresent now x).key = c.key := by
  unfold CondRecord.onPresent; split <;> simp

theorem CondRecord.extensionEnds_key {now : Time} {c d : CondRecord} (h : c.extensionEnds now = some d) :
    d.key = c.key := by
  unfold CondRecord.extensionEnds at h; split at h <;> cases h; rfl

theorem CondRecord.onAbsent_key {now : Time} {c d : CondRecord} (h : c.onAbsent now = some d) : d.key = c.key := by
  unfold CondRecord.onAbsent at h
  split at h
  · cases h
  · split at h
    · cases h; rfl
    · dsimp only at h; split at h
      · exact CondRecord.extensionEnds_key h
      · cases h; rfl
  · cases h; rfl
  · cases h; rfl
  · cases h; rfl

/-- An update that keeps keys leaves a list whose keys are a sublist of the old ones. -/
theorem updateKey_keys {key : CondKey} {f : CondRecord → Option CondRecord}
    (hf : ∀ c d, f c = some d → d.key = c.key) (l : List CondRecord) :
    ((updateKey key f l).map CondRecord.key).Sublist (l.map CondRecord.key) := by
  induction l with
  | nil => exact .slnil
  | cons c cs ih =>
    unfold updateKey
    split
    · split
      · exact .cons _ (List.Sublist.refl _)
      · rename_i d hd
        rw [List.map_cons, List.map_cons, hf _ _ hd]
    · rw [List.map_cons, List.map_cons]
      exact .cons_cons _ ih

/-- A test that only one kind of key can pass is unmoved by an update of another key. -/
theorem updateKey_any_other {key : CondKey} {f : CondRecord → Option CondRecord} {p : CondRecord → Bool}
    (hf : ∀ c d, f c = some d → d.key = c.key) (hp : ∀ c, c.key = key → p c = false) (l : List CondRecord) :
    (updateKey key f l).any p = l.any p := by
  induction l with
  | nil => rfl
  | cons c cs ih =>
    unfold updateKey
    split
    · rename_i e
      split
      · simp [hp c e]
      · rename_i d hd
        simp [hp c e, hp d ((hf _ _ hd).trans e)]
    · simp [ih]

/-! ## The ranges of the records -/

theorem affectedRange_radio {key : CondKey} (h : (CondKey.radio key).isSome) (x : Scope) (s : Option Span) :
    affectedRange key x s = none := by
  cases key <;> first | rfl | simp [CondKey.radio] at h

theorem CondRecord.ranged.onPresent {c : CondRecord} (h : c.ranged) (now : Time) (x : Option Span) :
    (c.onPresent now x).ranged := by
  have fresh : ∀ d : CondRecord, d.key = c.key → d.range = affectedRange c.key d.config.scope x → d.ranged :=
    fun d hk hr hs => by rw [hr]; exact affectedRange_radio (hk ▸ hs) _ _
  unfold CondRecord.onPresent
  split
  · exact h
  · exact fresh _ rfl rfl
  · exact fresh _ rfl rfl
  · exact fresh _ rfl rfl
  · unfold CondRecord.enterPending; dsimp only; split <;> exact fresh _ rfl rfl

theorem newRecord_ranged (env : Env) (x : Option Span) (key : CondKey) : (newRecord env x key).ranged := by
  intro h
  rw [newRecord_key] at h
  unfold newRecord CondRecord.enterPending; dsimp only
  split <;> exact affectedRange_radio h _ _

theorem CondRecord.extensionEnds_range {now : Time} {c d : CondRecord} (h : c.extensionEnds now = some d) :
    d.range = c.range := by
  unfold CondRecord.extensionEnds at h; split at h <;> cases h; rfl

theorem CondRecord.onAbsent_range {now : Time} {c d : CondRecord} (h : c.onAbsent now = some d) : d.range = c.range := by
  unfold CondRecord.onAbsent at h
  split at h
  · cases h
  · split at h
    · cases h; rfl
    · dsimp only at h; split at h
      · exact CondRecord.extensionEnds_range h
      · cases h; rfl
  all_goals cases h; rfl

/-- A record of an updated list is an old one or the image of one. -/
theorem updateKey_mem {key : CondKey} {f : CondRecord → Option CondRecord} {l : List CondRecord} {d : CondRecord}
    (h : d ∈ updateKey key f l) : d ∈ l ∨ ∃ c ∈ l, f c = some d := by
  induction l with
  | nil => cases h
  | cons c cs ih =>
    unfold updateKey at h
    split at h
    · split at h
      · exact .inl (List.mem_cons_of_mem _ h)
      · rename_i x hx
        rcases List.mem_cons.1 h with rfl | h
        · exact .inr ⟨c, List.mem_cons_self, hx⟩
        · exact .inl (List.mem_cons_of_mem _ h)
    · rcases List.mem_cons.1 h with rfl | h
      · exact .inl List.mem_cons_self
      · rcases ih h with h | ⟨x, hx, e⟩
        · exact .inl (List.mem_cons_of_mem _ h)
        · exact .inr ⟨x, List.mem_cons_of_mem _ hx, e⟩

/-! ## The laws of R86 and R91 -/

theorem Monitor.holds_iff (m : Monitor) (key : CondKey) : m.holds key = true ↔ key ∈ m.list.map CondRecord.key := by
  simp [Monitor.holds]

/-- A list of sound length and keys stays so when its keys become a sublist. -/
theorem Monitor.Sound.of_sublist {m m' : Monitor} (h : m.Sound)
    (s : (m'.list.map CondRecord.key).Sublist (m.list.map CondRecord.key)) (g : ∀ c ∈ m'.list, c.ranged) : m'.Sound :=
  ⟨by have := s.length_le; simp only [List.length_map] at this; exact this.trans h.length, s.nodup h.keys, g⟩

theorem Monitor.Sound.updated {m : Monitor} (h : m.Sound) {key : CondKey} {f : CondRecord → Option CondRecord}
    (hf : ∀ c d, f c = some d → d.key = c.key) (hr : ∀ c d, f c = some d → c.ranged → d.ranged) :
    Monitor.Sound { m with list := updateKey key f m.list } := by
  refine h.of_sublist (updateKey_keys hf m.list) fun d hd => ?_
  rcases updateKey_mem hd with hd | ⟨c, hc, e⟩
  · exact h.ranges d hd
  · exact hr c d e (h.ranges c hc)

/-- An update that keeps the keys and the ranges. -/
theorem Monitor.Sound.kept {m : Monitor} (h : m.Sound) {key : CondKey} {f : CondRecord → Option CondRecord}
    (hf : ∀ c d, f c = some d → d.key = c.key) (hr : ∀ c d, f c = some d → d.range = c.range) :
    Monitor.Sound { m with list := updateKey key f m.list } :=
  h.updated hf fun c d e g hs => (hr c d e).trans (g (hf c d e ▸ hs))

theorem Monitor.Sound.present {m : Monitor} (h : m.Sound) (env : Env) (key : CondKey) : (m.present env key).Sound := by
  unfold Monitor.present
  split
  · exact h.updated (fun c d e => by cases e; simp) fun c d e g => by cases e; exact g.onPresent _ _
  · rename_i hk
    split
    · rename_i hl
      refine ⟨by simpa using hl, ?_, fun c hc => ?_⟩
      rotate_left
      · rcases List.mem_append.1 hc with hc | hc
        · exact h.ranges c hc
        · rw [List.mem_singleton.1 hc]; exact newRecord_ranged _ _ _
      rw [List.map_append, List.map_cons, List.map_nil, newRecord_key, List.nodup_append]
      refine ⟨h.keys, by simp, ?_⟩
      rintro a ha b hb rfl
      rw [List.mem_singleton] at hb
      subst hb
      exact hk ((m.holds_iff _).2 ha)
    · exact ⟨h.length, h.keys, h.ranges⟩

/-- A source report keeps the law of the condition list. -/
theorem Monitor.Sound.report {m : Monitor} (h : m.Sound) (env : Env) (key : CondKey) (x : Bool) :
    (m.report env key x).Sound := by
  unfold Monitor.report; split
  · exact h.present env key
  · exact h.kept (fun _ _ => CondRecord.onAbsent_key) fun _ _ => CondRecord.onAbsent_range

theorem Monitor.Sound.reportOven {m : Monitor} (h : m.Sound) (env : Env) (x : Bool) (s : Option Span) :
    (m.reportOven env x s).Sound :=
  Monitor.Sound.report (m := { m with lastRange := s }) ⟨h.length, h.keys, h.ranges⟩ env .oven x

theorem Monitor.Sound.radioReported {env : Env} {m m' : Monitor} (g : RadioReported env m m') (h : m.Sound) :
    m'.Sound := by
  induction g with
  | refl => exact h
  | report key x r hr _ ih => exact ih.report env key x

theorem Monitor.Sound.filterExpires {m : Monitor} (h : m.Sound) (env : Env) (key : CondKey) :
    (m.filterExpires env key).Sound :=
  h.updated (fun c d e => by split at e <;> (cases e; rfl)) fun c d e g => by
    split at e <;> cases e
    · exact fun hs => affectedRange_radio hs _ _
    · exact g

theorem Monitor.Sound.extensionExpires {m : Monitor} (h : m.Sound) (env : Env) (key : CondKey) :
    (m.extensionExpires env key).Sound :=
  h.kept
    (fun c d e => by
      split at e
      · exact CondRecord.extensionEnds_key e
      · cases e; rfl)
    fun c d e => by
      split at e
      · exact CondRecord.extensionEnds_range e
      · cases e; rfl

theorem Monitor.Sound.forgetRadio {m : Monitor} (h : m.Sound) (r : Radio) : (m.forgetRadio r).Sound :=
  h.of_sublist (List.filter_sublist.map _) fun c hc => h.ranges c (List.mem_of_mem_filter hc)

theorem Monitor.Sound.emptied (m : Monitor) : m.emptied.Sound :=
  ⟨by simp [Monitor.emptied], by simp [Monitor.emptied], by simp [Monitor.emptied]⟩

theorem Monitor.Sound.removed {m : Monitor} (h : m.Sound) (key : CondKey) :
    Monitor.Sound { m with list := updateKey key (fun _ => none) m.list } :=
  h.updated (fun _ _ e => by cases e) fun _ _ e => by cases e

theorem Monitor.Sound.markRead {m : Monitor} (h : m.Sound) (first count : Nat) : (m.markRead first count).Sound := by
  refine h.of_sublist ?_ fun d hd => ?_
  rotate_left
  · unfold Monitor.markRead at hd
    simp only [List.append_assoc, List.mem_append, List.mem_map, List.mem_filter, page] at hd
    rcases hd with hd | ⟨c, ⟨hc, _⟩, rfl⟩ | hd
    · exact h.ranges d (List.mem_of_mem_take hd)
    · exact h.ranges c (List.mem_of_mem_drop (List.mem_of_mem_take hc))
    · exact h.ranges d (List.mem_of_mem_drop (List.mem_of_mem_drop hd))
  unfold Monitor.markRead; dsimp only
  rw [List.map_append, List.map_append, List.map_map, List.append_assoc]
  have e : (CondRecord.key ∘ fun c : CondRecord => { c with unread := false }) = CondRecord.key := rfl
  rw [e]
  conv_rhs => rw [← List.take_append_drop first m.list, List.map_append]
  refine (List.Sublist.refl _).append ?_
  conv_rhs => rw [← List.take_append_drop count (m.list.drop first), List.map_append]
  exact (List.filter_sublist.map _).append (List.Sublist.refl _)

/-! ## Oven shaping -/

/-- A radio's record cannot make oven shaping hold. -/
theorem shapingHolds_report {env : Env} (e : Env) (m : Monitor) {key : CondKey} (h : key ≠ .oven) (x : Bool) :
    shapingHolds e (m.report env key x) = shapingHolds e m := by
  have hp : ∀ c : CondRecord, c.key = key → (c.key == CondKey.oven && c.inForce
      && (c.config.reaction == .shape || c.config.reaction == .avoid || c.config.reaction == .bar)) = false := by
    intro c hc
    have : (c.key == CondKey.oven) = false := by rw [hc]; simpa using h
    simp [this]
  unfold shapingHolds
  congr 1
  unfold Monitor.report
  split
  · unfold Monitor.present
    split
    · exact updateKey_any_other (fun c d e => by cases e; simp) hp _
    · split
      · have hn := hp _ (newRecord_key env m.lastRange key)
        dsimp only
        rw [List.any_append, List.any_cons, hn]; simp only [List.any_nil, Bool.or_false]
      · rfl
  · exact updateKey_any_other (fun _ _ => CondRecord.onAbsent_key) hp _

theorem shapingHolds_radioReported {env : Env} (e : Env) {m m' : Monitor} (g : RadioReported env m m') :
    shapingHolds e m' = shapingHolds e m := by
  induction g with
  | refl => rfl
  | report key x r hr _ ih => rw [shapingHolds_report e _ (by rintro rfl; cases hr), ih]

/-- In SETUP oven shaping is off (R97). -/
theorem shapingHolds_setup {env : Env} (h : env.mode = .setup) (m : Monitor) : shapingHolds env m = false := by
  unfold shapingHolds; rw [h]; rfl

/-! ## Delivering the monitor's reports -/

/-- Nothing but cells, lanes, channel states, radio-kind records, shaping, the scheduler's airs and radios and the links'
queues and counters has changed. -/
structure Settled (env : Env) (b b' : Blocks) : Prop where
  tracker : b'.tracker = b.tracker
  survey : b'.survey = b.survey
  prediction : b'.sched.prediction = b.sched.prediction
  links : ∀ r, SameLink (b.links.get r) (b'.links.get r)
  monitor : RadioReported env b.monitor b'.monitor

theorem Directed.settled {env : Env} {b b' : Blocks} (h : Directed env b b') : Settled env b b' :=
  ⟨h.tracker, h.survey, h.prediction, h.links, h.monitor⟩

theorem Settled.after {env : Env} {a b c : Blocks} (g : Settled env b c) (h : Settled env a b) : Settled env a c :=
  ⟨g.tracker.trans h.tracker, g.survey.trans h.survey, g.prediction.trans h.prediction,
    fun r => (h.links r).trans (g.links r), h.monitor.trans g.monitor⟩

theorem Directed.requestMove {env : Env} (risen : List Nat) (b : Blocks) (r : Radio) :
    Directed env b (requestMove env risen b r) := by
  unfold Machine.requestMove; dsimp only; split
  · exact refl _
  · exact moveRequest _ _ _

theorem Directed.deliverGuardChange {env : Env} (changed risen : List Nat) (b : Blocks) :
    Directed env b (deliverGuardChange env changed risen b) := by
  unfold Machine.deliverGuardChange; dsimp only; split
  · exact (SchedOnly.takeGuardChange _ _ _).directed
  · exact after (foldl (Directed.requestMove risen) _ _) (after (endClearedWaits _) (SchedOnly.takeGuardChange _ _ _).directed)

theorem Settled.takeShaping {env : Env} (x : Bool) (b : Blocks) : Settled env b (takeShaping env x b) := by
  unfold Machine.takeShaping
  refine Settled.after (SchedOnly.applyShaping _ _).directed.settled ?_
  exact ⟨rfl, rfl, rfl, fun _ => rfl, .refl _⟩

theorem takeShaping_shaping (env : Env) (x : Bool) (b : Blocks) : (takeShaping env x b).sched.shaping = x := by
  unfold Machine.takeShaping
  rw [(SchedOnly.applyShaping _ _).shaping]

/-- The delivery of an event's reports (R5, R97, R98, R101). -/
theorem Settled.settleMonitor {env : Env} (env0 : Env) (m0 : Monitor) (b : Blocks) :
    Settled env b (settleMonitor env0 m0 env b) := by
  unfold Machine.settleMonitor; dsimp only
  have h : ∀ c, c = b ∨ (∃ x y, c = Machine.deliverGuardChange env x y b) → Settled env b c := by
    rintro c (rfl | ⟨x, y, rfl⟩)
    · exact (Directed.refl _).settled
    · exact (Directed.deliverGuardChange _ _ _).settled
  have g : Settled env b (if (changedCells env0 m0 env b.monitor).isEmpty = true then b
      else Machine.deliverGuardChange env (changedCells env0 m0 env b.monitor) (risenCells env0 m0 env b.monitor) b) := by
    refine h _ ?_
    split
    · exact .inl rfl
    · exact .inr ⟨_, _, rfl⟩
  split
  · exact g
  · exact Settled.after (takeShaping _ _) g

/-- After the delivery of an event's reports the scheduler has the shaping that the monitor has (R97), if it had it before
the event. -/
theorem settleMonitor_shaping {env0 env : Env} {m0 : Monitor} {b : Blocks}
    (h : b.sched.shaping = shapingHolds env0 m0) :
    (settleMonitor env0 m0 env b).sched.shaping = shapingHolds env (settleMonitor env0 m0 env b).monitor := by
  have hm := shapingHolds_radioReported env (Settled.settleMonitor (env := env) env0 m0 b).monitor
  rw [hm]
  unfold Machine.settleMonitor; dsimp only
  split
  · rename_i e
    rw [← e, ← h]
    split
    · rfl
    · exact (Directed.deliverGuardChange _ _ _).shaping
  · exact takeShaping_shaping _ _ _

/-- What an event of the monitor alone leaves alone, and what the monitor is after it. -/
theorem Settled.monitorEvent {env : Env} (f : Monitor → Monitor) (b : Blocks) :
    Settled env { b with monitor := f b.monitor } (monitorEvent env f b) := settleMonitor _ _ _

theorem monitorEvent_shaping {env : Env} {f : Monitor → Monitor} {b : Blocks}
    (h : b.sched.shaping = shapingHolds env b.monitor) :
    (monitorEvent env f b).sched.shaping = shapingHolds env (monitorEvent env f b).monitor :=
  settleMonitor_shaping (b := { b with monitor := f b.monitor }) h

end Sys2Proof.Machine
end

