-- ==== Sys2Proof/Laws/Review.lean ====
section
/-! SUPPORT. The orders in which a review takes its candidates (R107, R112), and what the window finder and the guard test read:
so that a review's early candidates are judged as the blocks stood at its beginning. -/

namespace Sys2Proof.Machine

/-! ## Orders -/

/-- By class, and within a class by arrival (R107). -/
def classOrder (q q' : Request) : Prop := q.cls.rank < q'.cls.rank ∨ (q.cls.rank = q'.cls.rank ∧ q.seq ≤ q'.seq)

theorem classOrder_total (q q' : Request) : classOrder q q' ∨ classOrder q' q := by
  unfold classOrder; omega

theorem classOrder_trans {q q' q'' : Request} (h : classOrder q q') (h' : classOrder q' q'') : classOrder q q'' := by
  unfold classOrder at *; omega

theorem insertByClass_perm (q : Request) (qs : List Request) : (insertByClass q qs).Perm (q :: qs) := by
  induction qs with
  | nil => exact .refl _
  | cons p ps ih =>
    unfold insertByClass
    split
    · exact (ih.cons p).trans (.swap q p ps)
    · exact .refl _

theorem sortByClass_perm (qs : List Request) : (sortByClass qs).Perm qs := by
  induction qs with
  | nil => exact .refl _
  | cons q qs ih => exact (insertByClass_perm q _).trans (ih.cons q)

theorem insertByClass_sorted (q : Request) (qs : List Request) (h : qs.Pairwise classOrder) :
    (insertByClass q qs).Pairwise classOrder := by
  induction qs with
  | nil => exact List.pairwise_singleton _ _
  | cons p ps ih =>
    obtain ⟨hp, hps⟩ := List.pairwise_cons.mp h
    unfold insertByClass
    split
    · rename_i hpq
      refine List.pairwise_cons.mpr ⟨fun x hx => ?_, ih hps⟩
      rcases List.mem_cons.mp ((insertByClass_perm q ps).mem_iff.mp hx) with rfl | hx
      · exact hpq
      · exact hp x hx
    · rename_i hpq
      have hqp : classOrder q p := (classOrder_total q p).resolve_right hpq
      refine List.pairwise_cons.mpr ⟨fun x hx => ?_, h⟩
      rcases List.mem_cons.mp hx with rfl | hx
      · exact hqp
      · exact classOrder_trans hqp (hp x hx)

theorem sortByClass_sorted (qs : List Request) : (sortByClass qs).Pairwise classOrder := by
  induction qs with
  | nil => exact .nil
  | cons q qs ih => exact insertByClass_sorted q _ ih

theorem insertByArrival_perm (q : Request) (qs : List Request) : (insertByArrival q qs).Perm (q :: qs) := by
  induction qs with
  | nil => exact .refl _
  | cons p ps ih =>
    unfold insertByArrival
    split
    · exact (ih.cons p).trans (.swap q p ps)
    · exact .refl _

theorem sortByArrival_perm (qs : List Request) : (sortByArrival qs).Perm qs := by
  induction qs with
  | nil => exact .refl _
  | cons q qs ih => exact (insertByArrival_perm q _).trans (ih.cons q)

theorem insertByArrival_sorted (q : Request) (qs : List Request) (h : qs.Pairwise fun p p' => p.seq ≤ p'.seq) :
    (insertByArrival q qs).Pairwise fun p p' => p.seq ≤ p'.seq := by
  induction qs with
  | nil => exact List.pairwise_singleton _ _
  | cons p ps ih =>
    obtain ⟨hp, hps⟩ := List.pairwise_cons.mp h
    unfold insertByArrival
    split
    · refine List.pairwise_cons.mpr ⟨fun x hx => ?_, ih hps⟩
      rcases List.mem_cons.mp ((insertByArrival_perm q ps).mem_iff.mp hx) with rfl | hx
      · assumption
      · exact hp x hx
    · refine List.pairwise_cons.mpr ⟨fun x hx => ?_, h⟩
      rcases List.mem_cons.mp hx with rfl | hx
      · omega
      · have := hp x hx; omega

theorem sortByArrival_sorted (qs : List Request) : (sortByArrival qs).Pairwise fun p p' => p.seq ≤ p'.seq := by
  induction qs with
  | nil => exact .nil
  | cons q qs ih => exact insertByArrival_sorted q _ ih

/-! ## What the judgement of a candidate reads -/

theorem operatingCells_congr {b b' : Blocks} (h : b'.chans = b.chans) (r : Radio) :
    operatingCells b' r = operatingCells b r := by
  unfold operatingCells; rw [h]

theorem channelBarred_congr {b b' : Blocks} (hc : b'.chans = b.chans) (hm : b'.monitor = b.monitor) (env : Env) (r : Radio) :
    channelBarred env b' r = channelBarred env b r := by
  unfold channelBarred; rw [operatingCells_congr hc, hm]

theorem skipsHead_congr {b b' : Blocks} (hc : b'.chans = b.chans) (hm : b'.monitor = b.monitor) (env : Env) (r : Radio) :
    skipsHead env b' r = skipsHead env b r := by
  unfold skipsHead; rw [channelBarred_congr hc hm, hc]

/-- The finder reads the operating channels, the shaping and the prediction of the blocks, and the grant and the hold of the
air (R108, R109). -/
theorem findWindow_congr {b b' : Blocks} (hc : b'.chans = b.chans) (hs : b'.sched.shaping = b.sched.shaping)
    (hp : b'.sched.prediction = b.sched.prediction) {air air' : Air} (hg : air'.grant = air.grant)
    (hh : air'.hold = air.hold) (env : Env) (q : Request) : findWindow env b' air' q = findWindow env b air q := by
  unfold findWindow shapingApplies finderStart; rw [operatingCells_congr hc, hs, hp, hg, hh]

end Sys2Proof.Machine
end

