-- ==== Sys2Proof/Laws/Tracker.lean ====
section
/-! SUPPORT. The laws of the tracker record under each of its operations (R41, R43, R47, R57), and what a tracker event leaves
behind (R59, R61). -/

namespace Sys2Proof.Machine

/-! ## The footprint list -/

theorem addSpan_length (l : List Channel) (c : Channel) : (addSpan l c).length ≤ footprintLimit := by
  simp only [addSpan, List.length_cons, footprintLimit, List.length_take]
  omega

theorem addSpan_nodup {l : List Channel} (h : l.Nodup) (c : Channel) : (addSpan l c).Nodup := by
  unfold addSpan
  refine List.nodup_cons.2 ⟨fun hm => ?_, (h.filter _).sublist (List.take_sublist _ _)⟩
  have := (List.mem_filter.1 ((List.take_sublist _ _).mem hm)).2
  simp at this

/-! ## The record -/

/-- A period moved and clamped lies in the limits. -/
theorem clampPeriod_mem {p : Params} (h : p.periodMin ≤ p.periodMax) (x : Int) :
    16 * p.periodMin ≤ clampPeriod p x ∧ clampPeriod p x ≤ 16 * p.periodMax := by
  unfold clampPeriod clampInt
  split
  · omega
  · split <;> omega

theorem Tracker.Sound.toSearch {p : Params} (t : Tracker) : (t.toSearch).Sound p :=
  ⟨fun _ => ⟨rfl, rfl, rfl, rfl, rfl, rfl, rfl, rfl⟩, fun h => absurd rfl h, fun h => absurd rfl h,
    Nat.zero_le _, List.nodup_nil⟩

/-- A tracker that differs from a sound one in its counters, and in SEARCH in its anchor, is sound. -/
theorem Tracker.Sound.recount {p : Params} {t : Tracker} (h : t.Sound p) (c : TrackerCounters) :
    Tracker.Sound p { t with counters := c } := ⟨h.search, h.period, h.anchor, h.length, h.spans⟩

theorem Tracker.Sound.setAnchor {p : Params} {t : Tracker} (h : t.Sound p) (hs : t.phase = .search) (a : Option Anchor)
    (c : TrackerCounters) : Tracker.Sound p { t with anchor := a, counters := c } :=
  ⟨h.search, h.period, fun g => absurd hs g, h.length, h.spans⟩

theorem Tracker.Sound.enterAcquire {p : Params} {t : Tracker} (h : t.Sound p) (a : Anchor) (x : HandOff)
    (lo : (p.periodMin : Int) ≤ Time.diff x.start a.start) (hi : Time.diff x.start a.start ≤ (p.periodMax : Int)) :
    (t.enterAcquire p a x).Sound p := by
  refine ⟨fun g => (by cases g), fun _ => ?_, fun _ => rfl, addSpan_length _ _, addSpan_nodup (addSpan_nodup h.spans _) _⟩
  show 16 * p.periodMin ≤ 16 * (Time.diff x.start a.start).toNat ∧ 16 * (Time.diff x.start a.start).toNat ≤ _
  omega

theorem Tracker.Sound.judgeSearch {p : Params} {t : Tracker} (h : t.Sound p) (hs : t.phase = .search) (x : HandOff) :
    (t.judgeSearch p x).tracker.Sound p := by
  unfold Tracker.judgeSearch
  split
  · exact h.setAnchor hs _ t.counters
  · dsimp only
    split
    · exact h.recount _
    · split
      · exact h.enterAcquire _ _ (by omega) (by assumption)
      · exact h.setAnchor hs _ t.counters

theorem Tracker.Sound.lockIfDue {p : Params} {t : Tracker} (h : t.Sound p) (hs : t.phase ≠ .search) :
    (t.lockIfDue p).Sound p := by
  unfold Tracker.lockIfDue
  split
  · exact ⟨fun g => (by cases g), fun _ => h.period hs, fun _ => h.anchor hs, h.length, h.spans⟩
  · exact h

theorem Tracker.Sound.acceptAcquire {p : Params} {t : Tracker} (hp : p.periodMin ≤ p.periodMax) (h : t.Sound p)
    (hs : t.phase ≠ .search) (x : HandOff) (e : Int) : (t.acceptAcquire p x e).Sound p := by
  unfold Tracker.acceptAcquire
  dsimp only
  refine Tracker.Sound.lockIfDue ?_ hs
  exact ⟨fun g => absurd g hs, fun _ => clampPeriod_mem hp _, fun _ => h.anchor hs, addSpan_length _ _,
    addSpan_nodup h.spans _⟩

theorem Tracker.Sound.judgeAcquire {p : Params} {t : Tracker} (hp : p.periodMin ≤ p.periodMax) (h : t.Sound p)
    (hs : t.phase ≠ .search) (x : HandOff) : (t.judgeAcquire p x).tracker.Sound p := by
  unfold Tracker.judgeAcquire
  dsimp only
  split
  · exact h.acceptAcquire hp hs _ _
  · split
    · exact h.recount _
    · exact (Tracker.Sound.toSearch t).setAnchor rfl _ _

theorem Tracker.Sound.judgeLocked {p : Params} {t : Tracker} (hp : p.periodMin ≤ p.periodMax) (h : t.Sound p)
    (hs : t.phase ≠ .search) (x : HandOff) : (t.judgeLocked p x).tracker.Sound p := by
  unfold Tracker.judgeLocked
  dsimp only
  split
  · exact ⟨fun g => (by cases g), fun _ => clampPeriod_mem hp _, fun _ => h.anchor hs, addSpan_length _ _,
      addSpan_nodup h.spans _⟩
  · exact h.recount _

/-- Judging a burst keeps the laws of the record (R44 to R54). -/
theorem Tracker.Sound.judge {p : Params} {t : Tracker} (hp : p.periodMin ≤ p.periodMax) (h : t.Sound p) (x : HandOff) :
    (t.judge p x).tracker.Sound p := by
  have h' := h.recount t.counters.handOff
  unfold Tracker.judge
  dsimp only
  split
  · rename_i g
    exact ⟨fun e => absurd e g.1, h.period, h.anchor, addSpan_length _ _, addSpan_nodup h.spans _⟩
  · split
    · rename_i e; exact h'.judgeSearch e x
    · rename_i e; exact h'.judgeAcquire hp (by rw [e]; decide) x
    · rename_i e; exact h'.judgeLocked hp (by rw [e]; decide) x
    · rename_i e; exact h'.judgeLocked hp (by rw [e]; decide) x

/-- An onset check keeps the laws of the record (R51, R55, R56). -/
theorem Tracker.Sound.onsetChecked {p : Params} {t : Tracker} (h : t.Sound p) : (t.onsetChecked p).Sound p := by
  unfold Tracker.onsetChecked
  dsimp only
  split
  · exact h.recount _
  · exact (Tracker.Sound.toSearch _).recount _
  · rename_i e
    have hs : t.phase ≠ .search := by intro g; rw [g] at e; cases e
    exact ⟨fun g => (by cases g), fun _ => h.period hs, fun _ => h.anchor hs, h.length, h.spans⟩
  · rename_i e
    have hs : t.phase ≠ .search := by intro g; rw [g] at e; cases e
    split
    · exact (Tracker.Sound.toSearch _).recount _
    · exact ⟨fun g => absurd g hs, fun _ => h.period hs, fun _ => h.anchor hs, h.length, h.spans⟩

/-! ## A tracker event -/

/-- The prediction is what the tracker's T, P, D, state and footprint cells give (R61). -/
theorem predictionOf_congr {p : Params} {t u : Tracker} (h : t.onset = u.onset) (h1 : t.period = u.period)
    (h2 : t.onTime = u.onTime) (h3 : t.phase = u.phase) (h4 : footprintCells p t = footprintCells p u) :
    predictionOf p t = predictionOf p u := by
  have hw : onWindow p t = onWindow p u := by funext k; simp only [onWindow, h, h1, h2]
  unfold predictionOf onWindows Tracker.locked
  rw [h3, h4, hw]

/-- What the storing of a prediction leaves alone (R61, R120). -/
theorem takePrediction_spec (env : Env) (p : Prediction) (b : Blocks) :
    SchedOnly { b with sched := { b.sched with prediction := p } } (takePrediction env p b) := by
  unfold takePrediction
  exact SchedOnly.applyShaping _ _

/-- The monitor after the oven source report of a tracker event, where one is sent (R59, R87). -/
def afterOvenReport (env : Env) (j : Judged) (m : Monitor) : Monitor :=
  if j.report then
    Monitor.reportOven env j.tracker.locked (footprintRange env.retained.params j.tracker) m
  else m

/-- What a tracker event leaves behind: the judged record, the monitor after the oven report and some radio-kind reports, and
everything else as `Settled` has it. -/
theorem trackerEvent_spec (env : Env) (j : Judged) (b : Blocks) :
    (trackerEvent env j b).tracker = j.tracker ∧ (trackerEvent env j b).survey = b.survey
      ∧ (∀ r, SameLink (b.links.get r) ((trackerEvent env j b).links.get r))
      ∧ RadioReported env (afterOvenReport env j b.monitor) (trackerEvent env j b).monitor := by
  have h : Settled env { b with tracker := j.tracker, monitor := afterOvenReport env j b.monitor }
      (if j.report then monitorEvent env (Monitor.reportOven env j.tracker.locked
        (footprintRange env.retained.params j.tracker)) { b with tracker := j.tracker } else { b with tracker := j.tracker }) := by
    unfold afterOvenReport
    split
    · exact Settled.monitorEvent _ { b with tracker := j.tracker }
    · exact (Directed.refl _).settled
  unfold trackerEvent
  dsimp only
  split
  · exact ⟨h.tracker, h.survey, h.links, h.monitor⟩
  · have g := takePrediction_spec env (predictionOf env.retained.params j.tracker)
      (if j.report then monitorEvent env (Monitor.reportOven env j.tracker.locked
        (footprintRange env.retained.params j.tracker)) { b with tracker := j.tracker } else { b with tracker := j.tracker })
    refine ⟨g.tracker.trans h.tracker, g.survey.trans h.survey, fun r => (h.links r).trans (g.links r), ?_⟩
    rw [g.monitor]
    exact h.monitor

/-- After a tracker event the scheduler has the tracker's prediction, when it had it before (R61). -/
theorem trackerEvent_prediction (env : Env) (j : Judged) (b : Blocks)
    (h : b.sched.prediction = predictionOf env.retained.params b.tracker) :
    (trackerEvent env j b).sched.prediction = predictionOf env.retained.params j.tracker := by
  unfold trackerEvent
  dsimp only
  split
  · rename_i e
    simp only [Bool.and_eq_true, beq_iff_eq] at e
    obtain ⟨⟨⟨⟨e0, e1⟩, e2⟩, e3⟩, e4⟩ := e
    rw [← predictionOf_congr e0 e1 e2 e3 e4]
    split
    · rw [(Settled.monitorEvent _ _).prediction]; exact h
    · exact h
  · exact (takePrediction_spec _ _ _).prediction

/-- A tracker event keeps the scheduler's shaping current (R97). -/
theorem trackerEvent_shaping (env : Env) (j : Judged) (b : Blocks)
    (h : b.sched.shaping = shapingHolds env b.monitor) :
    (trackerEvent env j b).sched.shaping = shapingHolds env (trackerEvent env j b).monitor := by
  have g : ∀ c : Blocks, c.sched.shaping = shapingHolds env c.monitor → ∀ p, (takePrediction env p c).sched.shaping
      = shapingHolds env (takePrediction env p c).monitor := by
    intro c hc p
    rw [(takePrediction_spec env p c).shaping, (takePrediction_spec env p c).monitor]
    exact hc
  have k : ∀ f : Monitor → Monitor, (if j.report then monitorEvent env f { b with tracker := j.tracker }
      else { b with tracker := j.tracker }).sched.shaping = shapingHolds env (if j.report then
        monitorEvent env f { b with tracker := j.tracker } else { b with tracker := j.tracker }).monitor := by
    intro f
    split
    · exact monitorEvent_shaping h
    · exact h
  unfold trackerEvent
  dsimp only
  split
  · exact k _
  · exact g _ (k _) _

end Sys2Proof.Machine
end

