-- ==== Sys2Proof/Laws/Survey.lean ====
section
/-! SUPPORT. The laws of the neighbour table (R71 to R74), of cell scores (R77), and how a batch of samples and a heard frame
reach the rest of the part (R24, R38, R66). -/

namespace Sys2Proof.Machine

/-! ## The neighbour table -/

@[simp] theorem Neighbour.update_bss (now : Time) (r : Radio) (ch : Channel) (h : Summary) (tag : Option Nat)
    (n : Neighbour) : (n.update now r ch h tag).bss = n.bss := rfl

@[simp] theorem newNeighbour_bss (now : Time) (r : Radio) (ch : Channel) (h : Summary) (bss : BssId) (tag : Option Nat) :
    (newNeighbour now r ch h bss tag).bss = bss := rfl

theorem dropNeighbour_sublist (l : List Neighbour) (bss : BssId) : (dropNeighbour l bss).Sublist l := List.filter_sublist

theorem dropNeighbour_bss {l : List Neighbour} {bss : BssId} : bss ∉ (dropNeighbour l bss).map Neighbour.bss := by
  simp [dropNeighbour]

/-- The entry found for a BSS id carries it and stands in the table. -/
theorem findNeighbour_some {l : List Neighbour} {bss : BssId} {n : Neighbour} (h : findNeighbour l bss = some n) :
    n ∈ l ∧ n.bss = bss := by
  unfold findNeighbour at h
  exact ⟨List.mem_of_find?_eq_some h, by simpa using List.find?_some h⟩

theorem findNeighbour_none {l : List Neighbour} {bss : BssId} (h : findNeighbour l bss = none) :
    bss ∉ l.map Neighbour.bss := by
  simp only [findNeighbour, List.find?_eq_none, beq_iff_eq] at h
  simpa using fun n hn => h n hn

theorem dropNeighbour_length {l : List Neighbour} {bss : BssId} {n : Neighbour} (h : findNeighbour l bss = some n) :
    (dropNeighbour l bss).length < l.length := by
  obtain ⟨hm, hb⟩ := findNeighbour_some h
  refine List.length_filter_lt_length_iff_exists.2 ⟨n, hm, by simp [hb]⟩

/-- A table whose entries are a sublist of a sound table's is sound. -/
theorem SurveyUnit.Sound.of_sublist {u v : SurveyUnit} (h : u.Sound) (s : v.table.Sublist u.table) : v.Sound :=
  ⟨s.length_le.trans h.length, (s.map _).nodup h.ids⟩

/-- A neighbour frame keeps the law of the table (R72, R73). -/
theorem SurveyUnit.Sound.enter {u : SurveyUnit} (h : u.Sound) (now : Time) (r : Radio) (ch : Channel) (x : Summary)
    (bss : BssId) (tag : Option Nat) : (u.enter now r ch x bss tag).Sound := by
  unfold SurveyUnit.enter
  split
  · rename_i n hn
    refine ⟨?_, ?_⟩
    · have := dropNeighbour_length hn
      have := h.length
      simp only [List.length_cons]
      omega
    · simp only [List.map_cons, Neighbour.update_bss, List.nodup_cons]
      refine ⟨?_, ((dropNeighbour_sublist _ _).map _).nodup h.ids⟩
      rw [(findNeighbour_some hn).2]
      exact dropNeighbour_bss
  · rename_i hn
    have hb := findNeighbour_none hn
    split
    · exact ⟨h.length, h.ids⟩
    · dsimp only
      split
      · refine ⟨by simp only [List.length_cons]; omega, ?_⟩
        simpa using ⟨by simpa using hb, h.ids⟩
      · refine ⟨by simp only [List.length_cons, List.length_take, tableLimit]; omega, ?_⟩
        simp only [List.map_cons, newNeighbour_bss, List.nodup_cons]
        exact ⟨fun g => hb (((List.take_sublist _ _).map _).mem g), ((List.take_sublist _ _).map _).nodup h.ids⟩

theorem SurveyUnit.Sound.sweep {u : SurveyUnit} (h : u.Sound) (env : Env) : (u.sweep env).Sound :=
  h.of_sublist List.filter_sublist

/-! ## Scores -/

/-- The foreign fraction lies in 0 … 255 (R77). -/
theorem foreignFraction_le {s : SurveyCounts} {f : Nat} (h : foreignFraction s = some f) : f ≤ 255 := by
  unfold foreignFraction at h
  dsimp only at h
  split at h
  · cases h
  · cases h; exact min_le_right _ _

/-- A score stays in 0 … 255 and moves toward the fraction without passing it (R77). -/
theorem nextScore_le {f x : Nat} (hf : f ≤ 255) (hx : x ≤ 255) : nextScore f x ≤ 255 := by
  unfold nextScore
  by_cases h : (x : Int) ≤ f
  · rw [Int.tdiv_eq_ediv_of_nonneg (by omega)]
    omega
  · rw [show ((f : Int) - x) = -((x : Int) - f) by ring, Int.neg_tdiv, Int.tdiv_eq_ediv_of_nonneg (by omega)]
    omega

/-! ## What a monitor event of the survey unit is -/

/-- The monitor after the crowding reports of a channel keeps the law of its list. -/
theorem crowdingReports_sound {m : Monitor} (h : m.Sound) (env : Env) (ch : Channel) (l : List Bool) :
    (crowdingReports env ch l m).Sound := by
  unfold crowdingReports
  generalize ch.cells = ks
  induction ks generalizing m with
  | nil => exact h
  | cons k ks ih => exact ih (h.report env _ _)

/-- The crowding reports cannot turn oven shaping on or off. -/
theorem crowdingReports_shaping (env : Env) (ch : Channel) (l : List Bool) (m : Monitor) :
    shapingHolds env (crowdingReports env ch l m) = shapingHolds env m := by
  unfold crowdingReports
  generalize ch.cells = ks
  induction ks generalizing m with
  | nil => rfl
  | cons k ks ih => exact (ih _).trans (shapingHolds_report env m (by intro e; cases e) _)

/-- What is done to a radio's lane and by its batch, as one induction: a property of the blocks that survives changes of the
lane, hand-offs to the tracker, survey completions and the misordered count survives a batch (R24 to R38). -/
theorem takeBatch_induct {env : Env} {r : Radio} {P : Blocks → Prop} (lane : ∀ b g, P b → P (b.modLane r g))
    (hand : ∀ b h, P b → P (takeHandOff env h b)) (survey : ∀ b ch, P b → P (completeSurvey env r ch b))
    (count : ∀ b g, P b → P (b.count r g)) (f : Time) (levels : List (BitVec 16)) (b : Blocks) (hb : P b) :
    P (takeBatch env r f levels b) := by
  have feed : ∀ b ch t k, P b → P (feedSample env r ch t k b) := by
    intro b ch t k hb
    unfold feedSample
    dsimp only
    split
    · exact lane _ _ hb
    · split
      · exact hand _ _ (lane _ _ hb)
      · exact lane _ _ hb
  have use : ∀ ch b x, P b → P (useSample env r ch b x) := by
    intro ch b x hb
    unfold useSample
    dsimp only
    split
    · exact survey _ _ (lane _ _ (feed _ _ _ _ hb))
    · exact lane _ _ (feed _ _ _ _ hb)
  have fold : ∀ {α : Type} (g : Blocks → α → Blocks), (∀ b x, P b → P (g b x)) → ∀ (l : List α) b, P b → P (l.foldl g b) := by
    intro α g hg l
    induction l with
    | nil => exact fun _ h => h
    | cons x xs ih => exact fun b h => ih _ (hg b x h)
  have batch : ∀ ch b, P b → P (useBatch env r ch f levels b) := by
    intro ch b hb
    unfold useBatch
    exact lane _ _ (fold _ (use ch) _ _ hb)
  have gap : ∀ ch x b, P b → P (takeGap env r ch x f b) := by
    intro ch x b hb
    unfold takeGap
    dsimp only
    split
    · exact fold _ (fun b t => feed b ch t .blind) _ _ hb
    · exact lane _ _ hb
  unfold takeBatch
  repeat' split
  · exact hb
  · exact batch _ _ hb
  · exact count _ _ hb
  · exact batch _ _ hb
  · exact batch _ _ (gap _ _ _ hb)
  · exact hb

/-- A heard frame as one induction: a property that survives changes of the survey unit's table by a neighbour frame, of its
counters, and of a lane survives it (R65, R66). -/
theorem takeHeard_induct {env : Env} {r : Radio} {P : Blocks → Prop} (lane : ∀ b g, P b → P (b.modLane r g))
    (count : ∀ b g, P b → P (b.modSurvey fun u => u.count g))
    (enter : ∀ b ch h bss tag, P b → P (b.modSurvey (SurveyUnit.enter env.now r ch h bss tag)))
    (h : Summary) (b : Blocks) (hb : P b) : P (takeHeard env r h b) := by
  unfold takeHeard actOnSummary creditOwn
  dsimp only
  repeat' split
  · exact hb
  · exact hb
  · exact count _ _ (count _ _ hb)
  · exact lane _ _ (count _ _ (count _ _ hb))
  · exact count _ _ (count _ _ hb)
  · exact enter _ _ _ _ _ (count _ _ hb)

end Sys2Proof.Machine
end

