-- ==== Sys2Proof/Tests/Slice0.lean ====
section
/-! SUPPORT. The model's own tests: ill-formed commands refused, the spec's reference values and worked examples, and for each
statement with hypotheses a state and operands that meet them. Every expected value is the spec's own or is computed by
hand from its rules. -/

namespace Sys2Proof.Tests

-- The theorems below are elaborated one after another: each side thread takes memory of its own.
set_option Elab.async false

open Sys2Proof Sys2Proof.Machine

/-! ## WellFormed: each check refuses a term that breaks it -/

theorem test_wf_refuses_samples_of_seven : Instr.wf (.samples .r0 0 (List.replicate 7 0)) = false := by decide
theorem test_wf_refuses_short_capsule :
    Instr.wf (.heard .r0 ⟨100, 0, .data, none, some (List.replicate 23 0)⟩) = false := by decide
theorem test_wf_refuses_cell_156 :
    Instr.wf (.filterTimerExpiry (.crowd 156)) = false ∧ Instr.wf (.extensionTimerExpiry (.crowd 156)) = false := by decide
theorem test_wf_admits_boundaries :
    Instr.wf (.samples .r0 0 (List.replicate 8 0)) = true ∧ Instr.wf (.filterTimerExpiry (.crowd 155)) = true
      ∧ Instr.wf (.heard .r0 ⟨100, 0, .data, none, some (List.replicate 24 0)⟩) = true := by decide

/-! ## Reference values of the spec -/

/-- "123456789" (R149, R69). -/
def digits : List Byte := [0x31, 0x32, 0x33, 0x34, 0x35, 0x36, 0x37, 0x38, 0x39]

/-- R149: the check of "123456789" is 0xF4, of the byte 0x01 alone 0x07. -/
theorem test_crc8 : crc8 digits = 0xF4 ∧ crc8 [0x01] = 0x07 := by decide +kernel
/-- R69: the check of "123456789" is 0x29B1, of no byte 0xFFFF, of one zero byte 0xE1F0. -/
theorem test_crc16 : crc16 digits = 0x29B1 ∧ crc16 [] = 0xFFFF ∧ crc16 [0x00] = 0xE1F0 := by decide +kernel
/-- The table of R22. -/
theorem test_codes :
    ([-32768, -32767, -401, -400, -399, -330, -328, -148, -140, 32767] : List Int).map (fun q => codeOf (BitVec.ofInt 16 q))
      = [127, 0, 0, 0, 0, 35, 36, 126, 126, 126] := by decide

/-! ## The message of section 11.4 and the frames of chapter 11, byte by byte -/

/-- Section 11.4, with BSS id 0x060504030201: its six bytes are 01 … 06. -/
theorem test_heard_bytes :
    (encodeMessage (.heard .r1 ⟨0x012C, 0xFEF0, .data, some 0x060504030201, none⟩)).map (List.take 15)
      = some [0x5A, 0x0C, 0x04, 0x2C, 0x01, 0xF0, 0xFE, 0x02, 0x01, 1, 2, 3, 4, 5, 6] := by decide +kernel
/-- The same payload with the flags byte 0x03: the length fails step 3 of R148. -/
theorem test_heard_length :
    checkMessage .r1 0x04 [0x2C, 0x01, 0xF0, 0xFE, 0x02, 0x03, 1, 2, 3, 4, 5, 6]
        (crc8 [0x0C, 0x04, 0x2C, 0x01, 0xF0, 0xFE, 0x02, 0x03, 1, 2, 3, 4, 5, 6])
      = .messageDiscarded .r1 .length := by decide +kernel
/-- KEEPALIVE: sync, length 0, type 0x02 (R168); the check of 00 02 is twice that of the byte 0x01. -/
theorem test_keepalive_bytes : decodeMessage .r2 [0x5A, 0x00, 0x02, 0x0E] = some (.keepalive .r2) := by decide +kernel
/-- Transactions of R158 and R169. -/
theorem test_transactions :
    decodeTransaction [0x09, 0x03, 0x00, 0x02, 0x10, 0x9B] = .setSpan 2 16 155
      ∧ decodeTransaction [0x05, 0x05, 0x00, 0x06, 0x98, 0x3A, 0x00, 0x00] = .setParameter 6 15000
      ∧ decodeTransaction [0x14, 0x01] = .malformedCommand .lengthIncomplete
      ∧ decodeTransaction [0x14, 0x02, 0x00, 0x01] = .malformedCommand .argumentsIncomplete
      ∧ decodeTransaction [0x19, 0x00, 0x00] = .malformedCommand .noSuchCode
      ∧ decodeTransaction [0x14, 0x02, 0x00, 0x01, 0x00] = .malformedCommand .wrongLength
      ∧ decodeTransaction [0xF0, 0x00, 0x00] = .fetch 2 ∧ decodeTransaction [] = .emptyTransaction := by decide

/-! ## The tracker's worked sequence (sections 3.11 and 3.12) -/

/-- The default parameters. -/
def defaults : Params := Params.defaults

/-- Some hand-offs judged in turn. -/
def judgeAll (t : Tracker) (hs : List HandOff) : Tracker := hs.foldl (fun t h => (t.judge defaults h).tracker) t

/-- The hand-offs of section 3.11 up to the entry to ACQUIRE and its duplicate. -/
def acquired : Tracker :=
  judgeAll Tracker.reset
    [⟨.r0, 1000000, 8100, ⟨5, 4⟩⟩, ⟨.r2, 1000040, 8050, ⟨10, 4⟩⟩, ⟨.r0, 1016660, 8300, ⟨5, 4⟩⟩,
      ⟨.r2, 1016700, 8250, ⟨10, 4⟩⟩]

/-- The tracker at the lock of section 3.11, without the duplicates of ACQUIRE. -/
def locked : Tracker :=
  judgeAll acquired
    [⟨.r0, 1033340, 8200, ⟨5, 4⟩⟩, ⟨.r0, 1050010, 8300, ⟨5, 4⟩⟩, ⟨.r0, 1066680, 8150, ⟨5, 4⟩⟩,
      ⟨.r0, 1083340, 8250, ⟨5, 4⟩⟩]

theorem test_tracker_acquire :
    acquired
      = { phase := .acquire, anchor := none, period := 266560, onset := 16533120, onTime := 8200, matched := 2, misses := 0,
          lastOnset := some 16266560, check := some 1046320, footprint := [⟨10, 4⟩, ⟨5, 4⟩],
          counters := ⟨4, 1, 1, 1, 0, 0, 0, 0⟩ } := by decide +kernel
theorem test_tracker_lock :
    locked.phase = .track ∧ locked.period = 266647 ∧ locked.onset = 17600087 ∧ locked.onTime = 8210
      ∧ locked.matched = 6 ∧ locked.check = some 1112505 ∧ locked.counters.locks = 1 := by decide +kernel

/-- The tracker of section 3.11 after the recovery at 1 133 350. -/
def recovered : Tracker :=
  judgeAll ((judgeAll locked [⟨.r0, 1100010, 8200, ⟨5, 4⟩⟩]).onsetChecked defaults) [⟨.r2, 1133350, 8100, ⟨10, 4⟩⟩]

theorem test_tracker_recovers :
    recovered.phase = .track ∧ recovered.period = 266651 ∧ recovered.onset = 18400101 ∧ recovered.onTime = 8196
      ∧ recovered.misses = 0 := by decide +kernel
theorem test_tracker_windows :
    onWindows defaults recovered
      = [⟨1149706, 1158502⟩, ⟨1166372, 1175168⟩, ⟨1183037, 1191833⟩, ⟨1199703, 1208499⟩] := by decide +kernel
theorem test_tracker_loses_lock :
    Nat.iterate (Tracker.onsetChecked defaults) 7 recovered
        = { recovered with
            phase := .coast, misses := 7, onset := 20266658, check := some 1279166,
            counters := { recovered.counters with missed := 8 } }
      ∧ Nat.iterate (Tracker.onsetChecked defaults) 8 recovered
        = { Tracker.reset with counters := { recovered.counters with missed := 9, losses := 1 } } := by decide +kernel
/-- Section 3.12, both errors. -/
theorem test_tracker_phase_step :
    let t : Tracker := { Tracker.reset with phase := .track, period := 266672, onset := 20000000, onTime := 8200 }
    (t.judge defaults ⟨.r0, 1250010, 8200, ⟨5, 4⟩⟩).tracker.onset = 20266714
      ∧ (t.acceptTrack defaults ⟨.r0, 1250000, 8200, ⟨5, 4⟩⟩ (-170)).onset = 20266628 := by decide +kernel

/-! ## A lane's worked example (section 2.8) -/

/-- Samples fed in turn from a time on, 50 µs apart. -/
def feedAll (l : Lane) (t : Time) (ks : List SampleKind) : Lane :=
  ((sampleTimes t ks.length).zip ks).foldl (fun l x => (l.feed defaults ⟨100, 4⟩ x.1 x.2).1) l

theorem test_lane_opens :
    (feedAll Lane.reset 2000000 [.idle, .idle, .busy, .idle, .busy, .busy, .blind, .busy]).burst
      = some ⟨2000100, ⟨100, 4⟩, 2000350⟩ := by decide +kernel
theorem test_lane_closes_as_frame :
    let l := feedAll Lane.reset 2000000 [.idle, .idle, .busy, .idle, .busy, .busy, .blind, .busy]
    let l := feedAll l 2000400 (List.replicate 8 .idle ++ [.blind, .blind, .idle, .idle])
    l.burst = none ∧ l.counters.frame = 1 ∧ l.history = [] := by decide +kernel

/-! ## The survey's worked example (section 4.9) -/

theorem test_survey_scores :
    ([(58, 100), (58, 64), (58, 150), (58, 52), (250, 139), (250, 152), (40, 164), (40, 149)] : List (Nat × Nat)).map
        (fun x => nextScore x.1 x.2) = [95, 64, 139, 52, 152, 164, 149, 136] := by decide

/-! ## The window finder's worked cases (section 6.11) -/

/-- Air L of section 6.11: radio 0 on cells 5 … 8 under shaping, with the windows of section 3.12. -/
def shaped : Blocks :=
  let b := State.reset.blocks
  let b := b.modChan .r0 fun c => { c with operating := some ⟨5, 4⟩ }
  { b with
    sched := { b.sched with
      shaping := true
      prediction :=
        { phase := .track
          windows := [⟨1266369, 1275169⟩, ⟨1283036, 1291836⟩, ⟨1299703, 1308503⟩, ⟨1316371, 1325171⟩]
          cells := [5, 6, 7, 8, 9, 10, 11, 12, 13] } } }

/-- A request of radio 0 that arrives at a time. -/
def asks (now : Time) (length : Nat) (shortenable : Bool) : Option Placement :=
  findWindow { State.reset.env with now := now } shaped ⟨none, none, none⟩
    { radio := .r0, id := 1, cls := .data, length := length, earliest := now, latest := now, shortenable := shortenable,
      posted := false, seq := 0, waitExpiry := none }

theorem test_finder_cases :
    asks 1275900 4096 true = some ⟨1275900, 4096, false⟩ ∧ asks 1280500 4096 true = some ⟨1280500, 2536, true⟩
      ∧ asks 1282500 1200 false = some ⟨1291836, 1200, false⟩ ∧ asks 1282600 4096 true = some ⟨1291836, 4096, false⟩ := by
  decide +kernel

/-! ## States and operands that meet the hypotheses of the statements

`test_meets_<Name>` and `test_meets_<Name>_<part>` belong to `Obligations.<Name>`. -/

/-- The state with its blocks changed. -/
def put (s : State) (f : Blocks → Blocks) : State := { s with blocks := f s.blocks }

/-- The state at a part time. -/
def clockAt (t : Time) (s : State) : State := { s with env := { s.env with now := t } }

/-- The state in RUN. -/
def running (s : State) : State := { s with env := { s.env with mode := .run } }

/-- Radio 0 in UP on cells 5 … 8, in SETUP, at part time 5 000 000. -/
def desk : State :=
  put (clockAt 5000000 State.reset) fun b =>
    ({ b with cells := acquire .r0 ⟨5, 4⟩ b.cells }.modChan .r0 fun c => { c with operating := some ⟨5, 4⟩ }).modLink .r0
      fun k => { k with port := .up, capability := some ⟨.bandL, .w4⟩ }

/-- The same in RUN. -/
def site : State := running desk

/-- Radio 0's channel state, link, lane and requests, air L, the monitor and the tracker changed. -/
def chan (f : ChanState → ChanState) (s : State) : State := put s fun b => b.modChan .r0 f
def link (f : Link → Link) (s : State) : State := put s fun b => b.modLink .r0 f
def lane (f : Lane → Lane) (s : State) : State := put s fun b => b.modLane .r0 f
def sched (f : RadioSched → RadioSched) (s : State) : State := put s fun b => b.modSched .r0 f
def airL (f : Air → Air) (s : State) : State := put s fun b => b.modAir .l f
def records (l : List CondRecord) (s : State) : State := put s fun b => { b with monitor := { b.monitor with list := l } }
def tracking (t : Tracker) (s : State) : State := put s fun b => { b with tracker := t }
def planned (l : List PlanEntry) (s : State) : State :=
  { s with env := { s.env with retained := { s.env.retained with plan := l } } }
def slot (x : Slot) (soft : Bool) (s : State) : State := { s with port := ⟨x, soft, []⟩ }

/-- A condition record of OVEN in a state, with a timer. -/
def oven (x : CondState) (timer : Option Time) : CondRecord :=
  ⟨.oven, x, ⟨.bar, .band, 0, 2000⟩, some ⟨0, 15⟩, 1000, 2000, true, 1, timer⟩

/-- A pending directive to cells 0 … 3, plan entry 2, that expires at part time 5 000 000. -/
def move2 : Directive := ⟨7, 2, ⟨0, 4⟩, .avoid, 5000000⟩

/-- Radio 0 with that directive pending. -/
def moving (s : State) : State :=
  chan (fun c => { c with directive := some move2 }) (put s fun b =>
    { b with cells := (reserveTarget .r0 ⟨0, 4⟩ b.cells).getD [] })

/-- The levels of a batch of one value. -/
def eight (q : BitVec 16) : List (BitVec 16) := List.replicate 8 q

/-- A request of radio 0 in its wait list. -/
def waiting (id : Byte) (limit : Option Time) : Request :=
  ⟨.r0, id, .data, 1024, 5000000, 5100000, true, false, 0, limit⟩

/-- A posted request of radio 0. -/
def joined (id : Byte) : Request := ⟨.r0, id, .bulk, 1024, 5000000, 5100000, true, true, 0, none⟩

/-- A grant of radio 0. -/
def granted (id : Byte) (x : GrantState) (start stop : Time) : Grant := ⟨.r0, id, start, stop, true, false, false, x⟩

/-- A WINDOW REQUEST of id 1, DATA, from now on. -/
def ask : WindowAsk := ⟨1, 2, 1024, 5000000, 5100000, 0⟩

/-! ### The machine as a whole, resets, the port -/

theorem test_meets_StepRunsFrontCommand : ({ site with pending := [.run, .setup] } : State).pending = .run :: [.setup] := rfl
theorem test_meets_EmptyQueueStep :
    State.reset.pending = [] ∧ dueCommands State.reset.env State.reset.port State.reset.blocks = []
      ∧ dueCommands (clockAt 1000000 State.reset).env State.reset.port State.reset.blocks = [.neighbourSweep]
      ∧ (let b := (link (fun k => { k with sending := some ⟨[], 0, 0, 0⟩ }) State.reset).blocks
         dueCommands State.reset.env State.reset.port b = []
           ∧ ((b.links.get .r0).sending.filter fun x => !Time.before x.freeAt 1) = none)
      ∧ (let b := (link (fun k => { k with sending := some ⟨[], 0, 1, 0⟩ }) State.reset).blocks
         dueCommands State.reset.env State.reset.port b = []
           ∧ ((b.links.get .r0).sending.filter fun x => !Time.before x.freeAt 1) = some ⟨[], 0, 1, 0⟩)
      ∧ (let b := (link (fun k => { k with sending := some ⟨[], 0, 0x80000001, 0⟩ }) State.reset).blocks
         dueCommands State.reset.env State.reset.port b = []
           ∧ ((b.links.get .r0).sending.filter fun x => !Time.before x.freeAt 1) = some ⟨[], 0, 0x80000001, 0⟩) := by
  decide +kernel
/-- R150: TXD reads free however long it has carried nothing: a line busy for 1 µs is free after a second tick. -/
theorem test_line_becomes_free :
    ((State.tick (State.tick (link (fun k => { k with sending := some ⟨[], 0, 1, 0⟩ }) State.reset))).blocks.links.get
      .r0).sending = none := by decide +kernel
theorem test_meets_ModeTimeAndConfigurationKept :
    (∃ t, exec .status site = .next t) ∧ mayReset .status = false ∧ writesRetained .status = false
      ∧ (Instr.status ≠ .run ∧ Instr.status ≠ .setup ∧ Instr.status ≠ .powerOnReset ∧ Instr.status ≠ .pinReset) :=
  ⟨⟨_, rfl⟩, by decide⟩
theorem test_meets_RadioCommandsLeaveTheRest :
    (∃ t, exec (.mark .r0) site = .next t) ∧ aboutRadio (.mark .r0) = some .r0 ∧ hostCommandOf (.mark .r0) = false
      ∧ (∃ t, exec (.withdraw 2) site = .next t) ∧ aboutRadio (.withdraw 2) = some .r2 :=
  ⟨⟨_, rfl⟩, rfl, rfl, ⟨_, rfl⟩, rfl⟩

/-- A soft reset whose response is ready. -/
def resetting : State := slot (.ready ⟨.ok, []⟩) true site

theorem test_meets_Resets :
    resetting.port.slot = .ready ⟨.ok, []⟩ ∧ resetting.port.softReset = true ∧ 3 + ([] : List Byte).length ≤ 3 := by decide
theorem test_meets_ResetsOfTheSpectrumMap :
    resetting.port.slot = .ready ⟨.ok, []⟩ ∧ resetting.port.softReset = true ∧ 3 + ([] : List Byte).length ≤ 3 := by decide
theorem test_meets_FetchesAndPortEvents :
    site.port.slot = .empty ∧ (slot (.preparing ⟨.ok, []⟩ 5000050) false site).port.slot = .preparing ⟨.ok, []⟩ 5000050
      ∧ (slot (.ready ⟨.ok, [7]⟩) false site).port.slot = .ready ⟨.ok, [7]⟩
      ∧ (slot (.ready ⟨.ok, [7]⟩) false site).port.softReset = false
      ∧ 3 < (Status.code .ok :: BitVec.ofNat 8 1 :: BitVec.ofNat 8 (1 / 256) :: ([7] : List Byte)).length
      ∧ (Status.code .ok :: BitVec.ofNat 8 1 :: BitVec.ofNat 8 (1 / 256) :: ([7] : List Byte)).length ≤ 4 := by decide
theorem test_meets_HostCommandsAreAnswered : hostCommandOf .softReset = true ∧ hostCommandOf (.move 3 64) = true := by decide

/-! ### Configuration and reading commands -/

/-- A neighbour entry. -/
def nb (bss : BssId) : Neighbour := ⟨bss, .r1, ⟨10, 4⟩, 0, 0, 1, 100, 60, none⟩

/-- The present values behind the constraints: not named ids 0 and 35; unlawful by range (id 1: 127), by the steps of 50 (id 3:
11 010), by a constraint (id 6: 12 500; id 15: 144); lawful at a boundary (id 1: 126, id 13: 2000, id 15: 145, id 34: 20). -/
theorem test_meets_ParameterStore :
    ([2, 3, 4, 5, 6, 7, 9, 10, 15, 16].map fun j => (site.env.retained.params.read j).getD 0)
        = [4000, 11000, 5, 15, 15000, 21000, 1000, 500, 160, 144]
      ∧ site.env.mode = .run ∧ desk.env.mode = .setup
      ∧ ¬ (1 ≤ (0 : Byte).toNat) ∧ ¬ ((35 : Byte).toNat ≤ 34) ∧ 1 ≤ (13 : Byte).toNat ∧ (13 : Byte).toNat ≤ 13
      ∧ ¬ (127 ≤ 126) ∧ ¬ (11010 % 50 = 0) ∧ ¬ (11000 + 1000 + 1000 < 12500) ∧ ¬ (144 < 144)
      ∧ (126 ≤ 126 ∧ 4000 ≤ 11000 ∧ 5 ≤ 15 ∧ 15000 < 21000 ∧ 500 ≤ 1000 ∧ 11000 + 1000 + 1000 < 15000)
      ∧ (1 ≤ 145 ∧ 145 ≤ 255 ∧ 144 < 145) ∧ (1 ≤ 20 ∧ 20 ≤ 20 ∧ 13 < (34 : Byte).toNat)
      ∧ site.env.retained.params.read 34 = some 2 := by decide
theorem test_meets_ParameterStore_lane :
    desk.env.mode = .setup ∧ inRange 1 126 = true ∧ constraintsOk 1 (Params.defaults.write 1 126) = true
      ∧ inRange 13 2000 = true ∧ constraintsOk 13 (Params.defaults.write 13 2000) = true := by decide
/-- Lawful: id 63 on cells 152 … 155 for radios 0 to 2, and id 0 on cells 8 … 15. Unlawful: a channel across the bands. -/
theorem test_meets_PlanEntries_load :
    site.env.mode = .run ∧ desk.env.mode = .setup
      ∧ (63 < 64 ∧ 152 < 156 ∧ (1 ≤ 7 ∧ 7 ≤ 7) ∧ (16 ≤ 152 ∧ 152 + 4 ≤ 156)) ∧ (0 < 64 ∧ 8 < 156 ∧ 8 + 8 ≤ 16)
      ∧ ¬ (12 + 8 ≤ 16 ∨ 16 ≤ 12) ∧ planArgs 63 152 4 7 = some ⟨63, ⟨152, 4⟩, 7⟩ ∧ planArgs 0 12 8 7 = none := by decide
theorem test_meets_PlanEntries_delete :
    site.env.mode = .run ∧ desk.env.mode = .setup ∧ (64 : Byte).toNat = 64
      ∧ findEntry desk.env.retained.plan 63 = none
      ∧ findEntry (planned [⟨63, ⟨0, 4⟩, 1⟩] desk).env.retained.plan 63 = some ⟨63, ⟨0, 4⟩, 1⟩
      ∧ planArgs 63 0 4 1 = some ⟨63, ⟨0, 4⟩, 1⟩ := by decide
theorem test_meets_SpansReactionsAndLists_spans :
    site.env.mode = .run ∧ desk.env.mode = .setup ∧ 3 ≤ (3 : Byte).toNat ∧ 156 ≤ (156 : Byte).toNat
      ∧ (2 : Byte).toNat = Radio.number .r2 ∧ (155 : Byte).toNat < 156 := by decide
theorem test_meets_SpansReactionsAndLists_reaction :
    3 ≤ (3 : Byte).toNat ∧ 5 ≤ (5 : Byte).toNat ∧ 60000 < (60001 : BitVec 16).toNat
      ∧ reactionOf 4 = some .bar ∧ reactionOf 1 = some .flag ∧ scopeOf 2 = some .band
      ∧ (60000 : BitVec 16).toNat ≤ 60000 := by decide
theorem test_meets_SpansReactionsAndLists_lists :
    16 ≤ (16 : Byte).toNat ∧ 2 ≤ (2 : Byte).toNat ∧ (15 : Byte).toNat < 16 ∧ 4 ≤ (4 : Byte).toNat ∧ (3 : Byte).toNat < 4
      ∧ flagOf 1 = some true ∧ actionOf 1 = some .tag := by decide
theorem test_meets_ReadCommands_reads :
    (155 : Byte).toNat < 156 ∧ (32 : Byte).toNat ≤ 32 ∧ 156 ≤ (156 : Byte).toNat ∧ 32 < (33 : Byte).toNat
      ∧ (47 : Byte).toNat < 48 ∧ (8 : Byte).toNat ≤ 8 ∧ 48 ≤ (48 : Byte).toNat ∧ 8 < (9 : Byte).toNat
      ∧ (2 : Byte).toNat = Radio.number .r2 ∧ 3 ≤ (3 : Byte).toNat := by decide
theorem test_meets_ReadCommands_clears :
    32 ≤ (32 : Byte).toNat ∧ 8 < (9 : Byte).toNat ∧ (31 : Byte).toNat < 32 ∧ (8 : Byte).toNat ≤ 8
      ∧ 3 ≤ (3 : Byte).toNat ∧ 2 ≤ (2 : Byte).toNat ∧ (2 : Byte).toNat = Radio.number .r2 := by decide
/-- Records in each of the four collections, the last cell, the last record, the last neighbour and the last entry among them. -/
theorem test_meets_RecordPayloads :
    desk.blocks.cells.length = 156 ∧ 155 < 156 ∧ 0 < min (155 + 32) 156 - 155
      ∧ desk.blocks.cells[155 + 0]? = some ⟨none, false, false, 64, none⟩
      ∧ desk.blocks.cells[8]? = some ⟨some .r0, true, false, 64, none⟩
      ∧ 0 < min 1 ([oven .active none].length - 0) ∧ [oven .active none][0 + 0]? = some (oven .active none)
      ∧ 0 < min 8 ([nb 7].length - 0) ∧ [nb 7][0 + 0]? = some (nb 7)
      ∧ ([⟨63, ⟨0, 4⟩, 1⟩] : List PlanEntry)[0]? = some ⟨63, ⟨0, 4⟩, 1⟩ := by decide +kernel
theorem test_meets_ClearLatch :
    (kindOf 7).bind (fun k => keyOf k 0) = none ∧ (kindOf 1).bind (fun k => keyOf k 156) = none
      ∧ (kindOf 1).bind (fun k => keyOf k 155) = some (.crowd 155) ∧ (kindOf 0).bind (fun k => keyOf k 0) = some .oven
      ∧ site.blocks.monitor.find .oven = none
      ∧ (records [oven .active none] site).blocks.monitor.find .oven = some (oven .active none)
      ∧ (records [oven .latched none] site).blocks.monitor.find .oven = some (oven .latched none) := by decide
/-- The record, in whatever state, alone in the list. -/
theorem test_oven_monitor_sound (x : CondState) (t : Option Time) (s : State) :
    (records [oven x t] s).blocks.monitor.Sound :=
  ⟨Nat.le_add_left 1 31, List.nodup_singleton CondKey.oven, fun c hc h => by
    rw [List.mem_singleton.mp hc] at h; exact nomatch (show false = true from h)⟩
theorem test_latched_monitor_sound : (records [oven .latched none] site).blocks.monitor.Sound :=
  test_oven_monitor_sound ..
/-- R93, R4: cells 0 to 15 are BARRED by the latched record alone, and the rest of R4 leaves them clear. -/
theorem test_latched_record_bars :
    guardLevel site.env (records [oven .latched none] site).blocks.monitor 15 = .barred
      ∧ guardLevel site.env { (records [oven .latched none] site).blocks.monitor with list := [] } 15 = .clear := by
  decide +kernel

/-! ### Host commands on radios and on the mode -/

/-- Radio 0 in RUN with plan entry 2 on cells 0 … 3, and with its own cells 40 dearer each. -/
def costly : State :=
  planned [⟨2, ⟨0, 4⟩, 1⟩] (put site fun b =>
    { b with cells := mapCells (fun k c => if 5 ≤ k ∧ k < 9 then { c with score := 104 } else c) b.cells })

/-- The costs are 256 and 416, and the hysteresis is 64: a move with 256, kept with entry 2 at 384. -/
theorem test_meets_HostMoveAnswered :
    3 ≤ (3 : Byte).toNat ∧ 64 ≤ (64 : Byte).toNat ∧ (64 : Byte) ≠ 0xFF ∧ (63 : Byte).toNat < 64
      ∧ desk.env.mode = .setup ∧ site.env.mode = .run
      ∧ ((moving site).blocks.chans.get .r0).directive ≠ none
      ∧ ((chan (fun c => { c with withdrawn := true }) site).blocks.chans.get .r0).withdrawn = true
      ∧ findEntry site.env.retained.plan 63 = none
      ∧ unavailable site.env site.blocks .r0 ⟨2, ⟨0, 4⟩, 2⟩ = some .mask
      ∧ chooseEntry site.env site.blocks .r0 = none
      ∧ (let s := planned [⟨2, ⟨0, 4⟩, 1⟩] site
         chooseEntry s.env s.blocks .r0 = some (⟨2, ⟨0, 4⟩, 1⟩, 256) ∧ currentCost s.env s.blocks .r0 = some 256
           ∧ 256 < 256 + s.env.retained.params.moveHysteresis) := by decide +kernel
theorem test_meets_HostMoveIssued :
    costly.env.mode = .run ∧ (costly.blocks.chans.get .r0).directive = none ∧ (costly.blocks.links.get .r0).port = .up
      ∧ (costly.blocks.chans.get .r0).clash = false ∧ (costly.blocks.chans.get .r0).isolated = false
      ∧ (costly.blocks.chans.get .r0).withdrawn = false
      ∧ findEntry costly.env.retained.plan 2 = some ⟨2, ⟨0, 4⟩, 1⟩
      ∧ unavailable costly.env costly.blocks .r0 ⟨2, ⟨0, 4⟩, 1⟩ = none
      ∧ channelCost costly.env costly.blocks ⟨0, 4⟩ = 256
      ∧ chooseEntry costly.env costly.blocks .r0 = some (⟨2, ⟨0, 4⟩, 1⟩, 256)
      ∧ currentCost costly.env costly.blocks .r0 = some 416 ∧ 256 + costly.env.retained.params.moveHysteresis ≤ 416 := by
  decide +kernel
/-- Radio 0 of band L and width 4 with no declined entry: an entry for each reason, and one that passes every test. -/
theorem test_meets_EntryChoice :
    (let s := planned [⟨2, ⟨0, 4⟩, 1⟩, ⟨3, ⟨12, 4⟩, 1⟩] site
     (s.env.retained.plan.map PlanEntry.id).Pairwise (· < ·)
       ∧ chooseEntry s.env s.blocks .r0 = some (⟨2, ⟨0, 4⟩, 1⟩, 256))
      ∧ (6 : Byte).getLsbD (Radio.number .r0) = false ∧ (1 : Byte).getLsbD (Radio.number .r0) = true
      ∧ (desk.blocks.links.get .r0).capability = some ⟨.bandL, .w4⟩ ∧ (State.reset.blocks.links.get .r0).capability = none
      ∧ (16 + 4 ≤ 16 ∨ 12 + 4 ≤ 16) ∧ 4 < 8
      ∧ ((chan (fun c => { c with declined := some ⟨2, 5000001, 0⟩ }) site).blocks.chans.get .r0).declined
          = some ⟨2, 5000001, 0⟩
      ∧ Time.before site.env.now 5000001 = true ∧ Time.before site.env.now 5000000 = false
      ∧ (155 : Nat) ∉ List.range' 0 155 ∧ site.env.retained.spans.get .r0 = ⟨0, 155⟩
      ∧ guardLevel site.env (records [oven .latched none] site).blocks.monitor 15 = .barred
      ∧ site.blocks.cells[8]? = some ⟨some .r0, true, false, 64, none⟩
      ∧ (oven .active none ∈ (records [oven .active none] site).blocks.monitor.list) := by decide +kernel
theorem test_requests_sound : requestsSound site.blocks := fun r => by
  cases r <;> exact ⟨by decide, by decide, by decide, by decide, by decide⟩
theorem test_meets_WithdrawAndRestore :
    3 ≤ (3 : Byte).toNat ∧ (0 : Byte).toNat = Radio.number .r0 ∧ requestsSound site.blocks
      ∧ (site.blocks.chans.get .r0).withdrawn = false ∧ (site.blocks.chans.get .r0).operating.isSome
      ∧ ((chan (fun c => { c with withdrawn := true }) site).blocks.chans.get .r0).withdrawn = true :=
  ⟨by decide, by decide, test_requests_sound, by decide, by decide, by decide⟩
/-- SETUP with pass-through grants, a clash and a lost link; RUN with an ACTIVE and with a SCHEDULED grant of radio 0 in air L, a
waiting and a posted request. -/
theorem test_meets_ModeChanges :
    site.env.mode = .run ∧ desk.env.mode = .setup
      ∧ ((chan (fun c => { c with clash := true }) desk).blocks.chans.get .r0).clash = true
      ∧ ((link (fun k => { k with linkSource := true }) desk).blocks.links.get .r0).linkSource = true
      ∧ ((sched (fun x => { x with passThrough := [granted 1 .active 0 5001000, granted 2 .active 0 5002000] })
            desk).blocks.sched.radios.get .r0).passThrough.getLast? = some (granted 2 .active 0 5002000)
      ∧ ((airL (fun a => { a with grant := some (granted 1 .scheduled 5000500 5001000) }) site).blocks.air .l).grant
          = some (granted 1 .scheduled 5000500 5001000)
      ∧ ((airIds.filterMap fun a =>
            ((airL (fun a => { a with grant := some (granted 1 .active 4999500 5001000) }) site).blocks.air a).grant).filter
          fun g => g.radio == .r0 && g.state == .active) = [granted 1 .active 4999500 5001000]
      ∧ (let x := (sched (fun x => { x with waits := [waiting 1 none], posted := [joined 2] }) site).blocks.sched.radios.get .r0
         x.waits ++ x.posted = [waiting 1 none, joined 2]) := by decide +kernel
theorem test_grant_alone (a : AirId) (g : Grant) (h : a ≠ .l)
    (hg : ((airL (fun a => { a with grant := some (granted 1 .scheduled 5000500 5001000) }) site).blocks.air a).grant
      = some g) : g.radio ≠ .r0 := by
  cases a
  · exact absurd rfl h
  all_goals exact nomatch (show (none : Option Grant) = some g from hg)

/-! ### Radio links -/

theorem test_meets_ReceiverAndSessions_receiver :
    (0 : Byte) ≠ 1 ∧ (2 : Byte) ≠ 1 ∧ (State.reset.blocks.links.get .r0).port ≠ .up
      ∧ (desk.blocks.links.get .r0).port = .up := by decide
theorem test_meets_ReceiverAndSessions_messages :
    sessionMessage (.samples .r0 0 (List.replicate 8 0)) = some .r0 ∧ sessionMessage (.keepalive .r0) = some .r0
      ∧ (State.reset.blocks.links.get .r0).port ≠ .up ∧ (desk.blocks.links.get .r0).port = .up
      ∧ ((chan (fun c => { c with operating := none }) desk).blocks.chans.get .r0).operating = none
      ∧ ((chan (fun c => { c with withdrawn := true }) desk).blocks.chans.get .r0).withdrawn = true
      ∧ Summary.wf ⟨300, 0, .data, none, some (List.replicate 24 0)⟩ = true := by decide
theorem test_meets_HelloSessions_opens :
    (State.reset.blocks.links.get .r0).port = .down
      ∧ ((link (fun k => { k with port := .lost }) desk).blocks.links.get .r0).port ≠ .up := by decide
theorem test_meets_HelloSessions_restarts :
    (desk.blocks.links.get .r0).port = .up ∧ (desk.blocks.chans.get .r0).operating.isSome := by decide

/-- Radio 0 with its liveness expiry at a time. -/
def expiring (t : Time) : State := link (fun k => { k with liveness := some t }) site

theorem test_meets_LinkLoss :
    ((expiring 5000000).blocks.links.get .r0).port = .up
      ∧ ((expiring 5000000).blocks.links.get .r0).liveness = some 5000000
      ∧ Time.atOrBefore 5000000 site.env.now = true ∧ Time.atOrBefore 5000001 site.env.now = false := by decide

/-- Radio 0's link with a MARK in its queue, and on TXD a message until a time. -/
def sending (t : Time) : Link → Link := fun k => { k with queue := [.mark], sending := some ⟨[], 0, t, 0⟩ }

theorem test_meets_Transmitter :
    ((link (sending 5000000) site).blocks.links.get .r0).queue = [.mark] ∧ Time.atOrBefore 5000000 site.env.now = true
      ∧ (site.blocks.links.get .r0).queue = [] ∧ Time.atOrBefore 5000001 site.env.now = false
      ∧ ((link (fun k => { k with markStart := some 4990000 }) site).blocks.links.get .r0).markStart = some 4990000
      ∧ Time.atOrBefore (Time.plus 4990000 10000) site.env.now = true
      ∧ Time.atOrBefore (Time.plus 4990001 10000) site.env.now = false := by decide

/-! ### Lanes and the survey unit -/

/-- Radio 0's lane with an expected time. -/
def expects (x : Time) (s : State) : State := lane (fun l => { l with expected := some x }) s

theorem test_meets_MisorderedBatch :
    ((expects 5000000 site).blocks.lanes.get .r0).expected = some 5000000 ∧ Time.before 4999999 5000000 = true
      ∧ (site.blocks.chans.get .r0).operating = some ⟨5, 4⟩ ∧ (site.blocks.links.get .r0).port = .up
      ∧ (site.blocks.chans.get .r0).withdrawn = false ∧ (List.replicate 8 (0 : BitVec 16)).length = 8
      ∧ 2 ^ 31 < ((0x80000001 : Time) - 0).toNat := by decide

/-- Radio 0 in UP on cells 16 … 19, outside the oven watch span. -/
def high : State := chan (fun c => { c with operating := some ⟨16, 4⟩ }) site

/-- The bursts that close while samples are fed in turn from part time 77. -/
def closedBy (l : Lane) (ch : Channel) (ks : List SampleKind) : List ClosedBurst :=
  (((sampleTimes 77 ks.length).zip ks).foldl (fun (l : Lane × List ClosedBurst) (x : Time × SampleKind) =>
    let y := l.1.feed defaults ch x.1 x.2
    (y.1, l.2 ++ y.2.toList)) (l, [])).2

/-- No gap, a gap of ten samples and one of eleven, QUIET and OPEN; no burst closes, one outside the watch span, and on cells 5 … 8
one that is no OVEN-LIKE one. -/
theorem test_meets_BatchUsed :
    (high.blocks.chans.get .r0).operating = some ⟨16, 4⟩ ∧ (high.blocks.links.get .r0).port = .up
      ∧ (high.blocks.chans.get .r0).withdrawn = false ∧ (high.blocks.lanes.get .r0).expected = none
      ∧ ((expects 77 high).blocks.lanes.get .r0).expected = some 77
      ∧ Time.before (77 + 500) 77 = false ∧ (((77 + 500 : Time) - 77).toNat) / 50 = 10
      ∧ Time.before (77 + 550) 77 = false ∧ (((77 + 550 : Time) - 77).toNat) / 50 = 11
      ∧ closedBy Lane.reset ⟨5, 4⟩ (List.replicate 8 .idle) = [] ∧ (high.blocks.lanes.get .r0).burst = none
      ∧ closedBy { Lane.reset with burst := some ⟨0, ⟨5, 4⟩, 27⟩, idleRun := 5 } ⟨5, 4⟩ (List.replicate 8 .idle)
          = [⟨0, 77, ⟨5, 4⟩, .glitch, false⟩]
      ∧ closedBy { Lane.reset with burst := some ⟨-9000, ⟨16, 4⟩, 27⟩, idleRun := 5 } ⟨16, 4⟩ (List.replicate 8 .idle)
          = [⟨-9000, 9077, ⟨16, 4⟩, .ovenLike, false⟩]
      ∧ ((lane (fun l => { l with burst := some ⟨0, ⟨16, 4⟩, 27⟩ }) high).blocks.lanes.get .r0).burst = some ⟨0, ⟨16, 4⟩, 27⟩
      ∧ (eight 0x8001).length = 8
      ∧ ((lane (fun l => { l with survey := ⟨2039, 0, 0, 0⟩ }) high).blocks.lanes.get .r0).survey.busy + 0 + 0 + 8 < 2048 := by
  decide +kernel
/-- The blind marker, levels at each end of the clamp, and codes about the busy code. -/
theorem test_meets_BurstMachine_codes :
    ((0x8000 : BitVec 16).toInt = -32768 ∧ (0x8001 : BitVec 16).toInt = -32767 ∧ (0xFE6F : BitVec 16).toInt = -401)
      ∧ ((0xFE70 : BitVec 16).toInt = -400 ∧ (0xFF6D : BitVec 16).toInt = -147 ∧ (0xFF6E : BitVec 16).toInt = -146)
      ∧ (127 = 127 ∧ 126 ≠ 127 ∧ 126 ≤ 126 ∧ 35 < 36) := by decide
/-- QUIET with no and with one busy entry; OPEN with a run about to close it, with an age at its limit, and with none of it. -/
theorem test_meets_BurstMachine :
    Lane.reset.burst = none ∧ Lane.reset.history.length ≤ 5 ∧ (∀ e ∈ Lane.reset.history, e.busy = false)
      ∧ ([⟨false, 0⟩, ⟨true, 50⟩] : List HistEntry).filter (fun e => e.busy) = [⟨true, 50⟩]
      ∧ ({ Lane.reset with burst := some ⟨0, ⟨16, 4⟩, 50⟩, idleRun := 9 } : Lane).idleRun + 1 = 10
      ∧ ({ Lane.reset with burst := some ⟨0, ⟨16, 4⟩, 50⟩, blindRun := 39 } : Lane).blindRun + 1 = 40
      ∧ Time.atOrBefore (0 + BitVec.ofNat 32 (2 ^ 30)) 0x40000000 = true
      ∧ Time.atOrBefore (0 + BitVec.ofNat 32 (2 ^ 30)) 0x3FFFFFFF = false := by decide +kernel

/-- Radio 0's lane with a burst from a start, its last busy sample and idle run; the batch that follows comes at a time. -/
def opened (start : Time) (span : Channel) (last next : Time) (s : State) : State :=
  lane (fun l => { l with burst := some ⟨start, span, last⟩, idleRun := 2, expected := some next }) s

theorem test_idle_levels (q : BitVec 16) (h : q ∈ eight 0x8001) : sampleKind 36 (codeOf q) = .idle := by
  rw [List.eq_of_mem_replicate h]; decide +kernel

/-- An OVEN-LIKE burst of 8250 µs on cells 5 … 8, which a tracker in ACQUIRE takes as a duplicate and reports; one of another class,
and one on cells 100 … 103. -/
theorem test_meets_BurstHandedOff :
    (eight 0x8001).length = 8 ∧ site.env.retained.params.busyCode = 36
      ∧ ((opened 1016700 ⟨5, 4⟩ 1024900 1025000 site).blocks.lanes.get .r0).expected = some 1025000
      ∧ ((opened 1016700 ⟨5, 4⟩ 1024900 1025000 site).blocks.lanes.get .r0).idleRun = 2
      ∧ ((opened 1016700 ⟨5, 4⟩ 1024900 1025000 site).blocks.lanes.get .r0).burst = some ⟨1016700, ⟨5, 4⟩, 1024900⟩
      ∧ (∀ j, j < 8 →
          Time.atOrBefore ((1016700 : Time) + BitVec.ofNat 32 (2 ^ 30)) (Time.plus 1025000 (50 * j)) = false)
      ∧ (200 ≤ ((1024900 + 50 : Time) - 1016700).toNat ∧ 4000 ≤ 8250 ∧ 8250 ≤ 11000) ∧ (5 ≤ 15 ∧ 5 < 5 + 4)
      ∧ ((tracking acquired site).blocks.tracker.judge defaults ⟨.r0, 1016700, 8250, ⟨5, 4⟩⟩).report = true
      ∧ ((1018000 + 50 : Time) - 1016700).toNat < 4000 ∧ ¬ (100 ≤ 15) := by decide +kernel

/-- Surveys that end in the batch's last sample, in its fourth, and in its first with every sample blind. -/
theorem test_meets_SurveyCompletes :
    (high.blocks.chans.get .r0).operating = some ⟨16, 4⟩ ∧ (high.blocks.links.get .r0).port = .up
      ∧ (high.blocks.lanes.get .r0).expected = none ∧ ((expects 77 high).blocks.lanes.get .r0).expected = some 77
      ∧ (2040 + 0 + 0 < 2048 ∧ 2048 ≤ 2040 + 8) ∧ (1000 + 1000 + 44 < 2048 ∧ 2048 ≤ 2044 + 8)
      ∧ 0 < 2040 + ((((eight 0x8001).map fun q => sampleKind 36 (codeOf q)).take (2048 - 2040)).filter (· == .busy)).length
      ∧ 0 + 0 + ((((eight 0x8000).map fun q => sampleKind 36 (codeOf q)).take (2048 - 2047)).filter (· != .blind)).length = 0
      ∧ high.blocks.cells[19]? = some ⟨none, false, false, 64, none⟩ ∧ high.blocks.survey.crowding[19]? = some false := by
  decide +kernel

/-- A capsule of zeros, and a filter that selects its first byte, whose check is 0xE1F0 (R69). -/
def zeros : List Byte := List.replicate 24 0
def zeroFilter (enable : Bool) (a : FilterAction) : SigFilter := ⟨enable, 1, 0xE1F0, a⟩

/-- An own BSS id; the filters before the one that matches disabled or of another check; no filter that matches. -/
theorem test_meets_SummariesMatched :
    (some 99 : Option BssId) ∈ ({ Retained.reset with ownList := [none, some 99] } : Retained).ownList
      ∧ (some 98 : Option BssId) ∉ ({ Retained.reset with ownList := [none, some 99] } : Retained).ownList
      ∧ ((List.range 24).filterMap fun j => if (1 : BitVec 24).getLsbD j then zeros[j]? else none) = [0]
      ∧ ((List.range 24).filterMap fun j => if (0 : BitVec 24).getLsbD j then zeros[j]? else none) = []
      ∧ crc16 [0] = 0xE1F0 ∧ crc16 [] ≠ 0xE1F0
      ∧ [zeroFilter false .own, zeroFilter true .tag][1]? = some (zeroFilter true .tag)
      ∧ (zeroFilter false .own).enable = false ∧ (zeroFilter true .tag).enable = true
      ∧ (zeroFilter true .own).action = .own ∧ Retained.reset.filters.all (fun f => !f.enable) = true := by decide +kernel

/-- A full neighbour table. -/
def crowded : List Neighbour := (List.range 48).map fun i => nb (BitVec.ofNat 48 i)

/-- A summary of a kind and a BSS id. -/
def summary (k : HeardKind) (bss : Option BssId) : Summary := ⟨300, 0xFEF0, k, bss, none⟩

theorem test_meets_NeighbourTable_frames :
    (summary .data (some 99)).wf = true ∧ (⟨300, 0x8000, .data, none, none⟩ : Summary).level = 0x8000
      ∧ (⟨0, 0, .data, none, none⟩ : Summary).airtime = 0
      ∧ matchSummary { Retained.reset with ownList := [some 99] } (summary .data (some 99)) = .own
      ∧ matchSummary Retained.reset (summary .data none) = .anonymous
      ∧ matchSummary Retained.reset (summary .data (some 7)) = .neighbour 7 none
      ∧ findNeighbour crowded 7 = some (nb 7) ∧ findNeighbour crowded 99 = none
      ∧ crowded.length = 48 ∧ (crowded.take 47).length < 48 ∧ (summary .control (some 99)).kind = .control := by
  decide +kernel
theorem test_meets_StreamLapse :
    ((expects 4900000 site).blocks.lanes.get .r0).expected = some 4900000
      ∧ Time.atOrBefore (Time.plus 4900000 100000) site.env.now = true
      ∧ Time.atOrBefore (Time.plus 4900001 100000) site.env.now = false
      ∧ ((expects 4900000 site).blocks.lanes.get .r0).burst = none
      ∧ ((lane (fun l => { l with burst := some ⟨4899000, ⟨5, 4⟩, 4899950⟩ }) (expects 4900000 site)).blocks.lanes.get
          .r0).burst = some ⟨4899000, ⟨5, 4⟩, 4899950⟩ := by decide
theorem test_meets_NeighbourTable_sweep :
    Time.atOrBefore State.reset.blocks.survey.nextSweep (clockAt 999999 State.reset).env.now = false
      ∧ Time.atOrBefore State.reset.blocks.survey.nextSweep (clockAt 1000000 State.reset).env.now = true := by decide

/-! ### The cadence tracker -/

/-- The tracker with the anchor of section 3.11. -/
def anchored : Tracker := { Tracker.reset with anchor := some ⟨1000000, 8100, ⟨5, 4⟩, 1033000⟩ }

theorem test_meets_TrackerTimers_anchor :
    (tracking anchored site).blocks.tracker.phase = .search
      ∧ (tracking anchored site).blocks.tracker.anchor = some ⟨1000000, 8100, ⟨5, 4⟩, 1033000⟩
      ∧ Time.atOrBefore 1033000 (clockAt 1032999 site).env.now = false
      ∧ Time.atOrBefore 1033000 (clockAt 1033000 site).env.now = true
      ∧ (15000 ≤ ((1015000 : Time) - 1000000).toInt ∧ ((1021000 : Time) - 1000000).toInt ≤ 21000)
      ∧ 21000 < ((1021001 : Time) - 1000000).toInt ∧ locked.phase ≠ .search ∧ Tracker.reset.anchor = none := by
  decide +kernel
theorem test_meets_TrackerTimers_check :
    acquired.phase = .acquire ∧ acquired.check = some 1046320
      ∧ Time.atOrBefore 1046320 (clockAt 1046320 site).env.now = true
      ∧ Time.atOrBefore 1046320 (clockAt 1046319 site).env.now = false
      ∧ locked.phase = .track ∧ locked.check = some 1112505
      ∧ (let t := Nat.iterate (Tracker.onsetChecked defaults) 7 recovered
         t.phase = .coast ∧ t.misses + 1 = 8 ∧ t.check = some 1279166 ∧ defaults.coastLimit ≤ t.misses + 1)
      ∧ (let t := Nat.iterate (Tracker.onsetChecked defaults) 6 recovered
         t.phase = .coast ∧ t.misses + 1 < defaults.coastLimit) := by decide +kernel

/-- The part tracker time of a start against T. -/
def against (k : Tracker) (start : Time) : Int := ((BitVec.ofNat 36 (16 * start.toNat) : TrackTime) - k.onset).toInt

/-- SEARCH with no anchor and with one; a duplicate, a burst in the window at each of its ends, one before it and one after it, in
ACQUIRE (window 16 000, T 1 033 320 µs) and in TRACK and COAST (window 8000). -/
theorem test_meets_BurstsJudged :
    defaults.periodMin ≤ defaults.periodMax ∧ Tracker.reset.phase = .search ∧ Tracker.reset.anchor = none
      ∧ anchored.anchor = some ⟨1000000, 8100, ⟨5, 4⟩, 1033000⟩
      ∧ ((1014999 : Time) - 1000000).toInt < defaults.periodMin
      ∧ ((1021001 : Time) - 1000000).toInt > defaults.periodMax
      ∧ (((1015000 : Time) - 1000000).toInt ≥ defaults.periodMin ∧ ((1021000 : Time) - 1000000).toInt ≤ defaults.periodMax)
      ∧ acquired.phase = .acquire ∧ acquired.lastOnset = some 16266560
      ∧ ((BitVec.ofNat 36 (16 * 1016660) : TrackTime) - 16266560).toInt = 0
      ∧ (against acquired 1032320 = -16000 ∧ against acquired 1034320 = 16000)
      ∧ (against acquired 1032319 < -16000 ∧ 16000 < against acquired 1034321)
      ∧ locked.phase = .track ∧ (-8000 ≤ against locked 1100010 ∧ against locked 1100010 ≤ 8000)
      ∧ (against locked 1099000 < -8000 ∧ 8000 < against locked 1101000)
      ∧ (recovered.onsetChecked defaults).phase = .coast := by decide +kernel

/-! ### Condition records -/

/-- Every cell's level and the shaping of a monitor that holds one OVEN record whose reaction is NOTE. -/
def note (x : CondState) (unread : Bool) : CondRecord :=
  { oven x (some 5000000) with config := ⟨.note, .band, 0, 0⟩, unread := unread }

theorem test_meets_RecordTimers :
    (records [oven .pending (some 5000000)] site).blocks.monitor.find .oven = some (oven .pending (some 5000000))
      ∧ (records [oven .extending (some 5000000)] site).blocks.monitor.find .oven = some (oven .extending (some 5000000))
      ∧ Time.atOrBefore 5000000 site.env.now = true ∧ Time.atOrBefore 5000001 site.env.now = false
      ∧ guardLevels site.env ⟨[note .active true], false, none⟩ = guardLevels site.env ⟨[note .pending true], false, none⟩
      ∧ shapingHolds site.env ⟨[note .active true], false, none⟩
          = shapingHolds site.env ⟨[note .pending true], false, none⟩ := by decide +kernel
theorem test_timed_monitor_sound : (records [oven .pending (some 5000000)] site).blocks.monitor.Sound :=
  test_oven_monitor_sound ..

/-- A pending OVEN record with a reaction in radio 0's state, its filter expired. -/
def rising (x : Reaction) (s : State) : State :=
  records [{ oven .pending (some 5000000) with config := ⟨x, .band, 0, 2000⟩ }] s

/-- That record in ACTIVE. -/
def risen (x : Reaction) : CondRecord :=
  { oven .active none with config := ⟨x, .band, 0, 2000⟩, changed := 5000000, occurrences := 2 }

/-- The blocks of a state with that record in the list. -/
def raised (x : Reaction) (s : State) : Blocks := { s.blocks with monitor := { s.blocks.monitor with list := [risen x] } }

/-- Radio 0 as a radio of both bands, with plan entry 2 on cells 100 … 103. -/
def wide : State :=
  planned [⟨2, ⟨100, 4⟩, 1⟩] (link (fun k => { k with capability := some ⟨.both, .w4⟩ }) site)

theorem test_rising_monitor_sound (x : Reaction) (s : State) : (rising x s).blocks.monitor.Sound :=
  ⟨Nat.le_add_left 1 31, List.nodup_singleton CondKey.oven, fun c hc h => by
    rw [List.mem_singleton.mp hc] at h; exact nomatch (show false = true from h)⟩
/-- A rise to BARRED and to AVOIDED on cells 0 … 15, under a grant ACTIVE and SCHEDULED, a hold and a waiting request, with an
entry to move to and without one, and with a directive pending. -/
theorem test_meets_GuardRise :
    site.env.mode = .run ∧ Time.atOrBefore 5000000 site.env.now = true
      ∧ (rising .bar wide).blocks.monitor.find .oven = some { oven .pending (some 5000000) with config := ⟨.bar, .band, 0, 2000⟩ }
      ∧ affectedRange .oven .band none = some ⟨0, 15⟩
      ∧ guardLevel site.env (rising .bar wide).blocks.monitor 0 = .clear
      ∧ guardLevel site.env (raised .bar wide).monitor 0 = .barred
      ∧ guardLevel site.env (raised .avoid wide).monitor 15 = .avoided
      ∧ 5 ∈ operatingCells (raised .bar wide) .r0 ∧ operatingCells (raised .bar wide) .r1 = []
      ∧ (wide.blocks.chans.get .r0).directive = none ∧ (wide.blocks.links.get .r0).port = .up
      ∧ (wide.blocks.chans.get .r0).clash = false ∧ (wide.blocks.chans.get .r0).isolated = false
      ∧ (wide.blocks.chans.get .r0).withdrawn = false ∧ (wide.blocks.chans.get .r0).moveWait = none
      ∧ chooseEntry wide.env (raised .bar wide) .r0 = some (⟨2, ⟨100, 4⟩, 1⟩, 256)
      ∧ (reserveTarget .r0 ⟨100, 4⟩ wide.blocks.cells).isSome = true
      ∧ chooseEntry site.env (raised .bar site) .r0 = none
      ∧ ((moving site).blocks.chans.get .r0).directive ≠ none
      ∧ ([GrantState.active, .scheduled].all fun x =>
          grantAir (rising .bar (airL (fun a => { a with grant := some (granted 1 x 4999000 5001000) }) wide)).blocks .r0
            == some .l) = true
      ∧ holdAir (airL (fun a => { a with hold := some ⟨.r0, 4999600, 5000000⟩ }) wide).blocks .r0 = some .l
      ∧ ((sched (fun x => { x with waits := [waiting 1 none], posted := [joined 2] }) wide).blocks.sched.radios.get
          .r0).waits = [waiting 1 none] := by decide +kernel

/-! ### Airtime grants -/

theorem test_meets_RequestsTurnedAway :
    (site.blocks.links.get .r0).port = .up ∧ site.env.mode = .run
      ∧ 4 ≤ (4 : Byte).toNat ∧ Time.before 4999999 5000000 = true ∧ idLive site.blocks .r0 1 = false
      ∧ Time.before ask.latest site.env.now = false ∧ Time.before 4999999 site.env.now = true
      ∧ (site.blocks.chans.get .r0).withdrawn = false ∧ (State.reset.blocks.chans.get .r0).operating = none
      ∧ (site.blocks.chans.get .r0).operating ≠ none ∧ ((moving site).blocks.chans.get .r0).directive ≠ none
      ∧ ((chan (fun c => { c with withdrawn := true }) site).blocks.chans.get .r0).withdrawn = true
      ∧ ((chan (fun c => { c with clash := true }) site).blocks.chans.get .r0).clash = true
      ∧ ((chan (fun c => { c with isolated := true }) site).blocks.chans.get .r0).isolated = true
      ∧ (site.blocks.chans.get .r0).clash = false ∧ (site.blocks.chans.get .r0).isolated = false
      ∧ guardLevel site.env (records [oven .latched none] site).blocks.monitor 8 = .barred
      ∧ guardLevel site.env site.blocks.monitor 8 = .clear
      ∧ ((sched (fun x => { x with posted := List.replicate 8 (joined 9) }) site).blocks.sched.radios.get .r0).posted.length
          = 8
      ∧ ((sched (fun x => { x with waits := List.replicate 4 (waiting 9 none) }) site).blocks.sched.radios.get
          .r0).waits.length = 4 := by decide +kernel
theorem test_meets_RequestsTaken :
    (site.blocks.links.get .r0).port = .up ∧ classOf ask.cls = some .data ∧ classOf 3 = some .bulk ∧ ask.length ≠ 0
      ∧ Time.before ask.latest ask.earliest = false ∧ idLive site.blocks .r0 1 = false
      ∧ Time.before ask.latest site.env.now = false ∧ desk.env.mode = .setup ∧ site.env.mode = .run
      ∧ gate site.env site.blocks .r0 = none ∧ (site.blocks.sched.radios.get .r0).posted.length < 8
      ∧ (2 : Byte).getLsbD 1 = true := by decide +kernel
theorem test_no_requests : noRequests site.blocks := fun r => by cases r <;> exact ⟨rfl, rfl⟩
theorem test_meets_RequestGrantedAtOnce :
    noRequests site.blocks ∧ airOf site.env site.blocks .r0 = some .l ∧ gate site.env site.blocks .r0 = none
      ∧ (site.blocks.air .l).grant = none ∧ (site.blocks.air .l).hold = none ∧ site.blocks.sched.shaping = false
      ∧ Time.after (Time.later site.env.now ask.earliest) ask.latest = false
      ∧ Time.atOrBefore 5002000 (Time.plus site.env.now site.env.retained.params.startLead) = true
      ∧ grantAir site.blocks .r0 = none :=
  ⟨test_no_requests, by decide +kernel⟩

/-- Radio 0 alone in air L, a review due, with two waiting requests and a posted head. The first, of class MGMT, starts 3 ms from now;
the second, of 1024 µs or of 4096 µs, and the head at once. -/
def contested (length : Nat) : State :=
  airL (fun a => { a with review := some 5000000 }) (sched (fun x =>
    { x with
      waits :=
        [ { waiting 1 none with cls := .mgmt, earliest := 5003000 },
          { waiting 2 none with length := length, seq := 1 } ]
      posted := [joined 3] }) site)

theorem test_contested_sound (n : Nat) : requestsSound (contested n).blocks := fun r => by
  cases r
  · exact ⟨Nat.le_add_left 2 2, Nat.le_add_left 1 7,
      List.forall_mem_cons.mpr ⟨rfl, List.forall_mem_cons.mpr ⟨rfl, fun _ h => (nomatch h)⟩⟩,
      List.forall_mem_cons.mpr ⟨rfl, fun _ h => (nomatch h)⟩, fun _ h => (nomatch h)⟩
  all_goals exact ⟨Nat.zero_le _, Nat.zero_le _, fun _ h => (nomatch h), fun _ h => (nomatch h), fun _ h => (nomatch h)⟩
/-- The first is too early; the second fits before it, and at 4096 µs it does not, nor does the head behind both. -/
theorem test_meets_ReviewTakesCandidates :
    ((contested 1024).blocks.air .l).review = some 5000000 ∧ ((contested 1024).blocks.air .l).grant = none
      ∧ airOf site.env (contested 1024).blocks .r0 = some .l ∧ channelBarred site.env (contested 1024).blocks .r0 = false
      ∧ findWindow site.env (contested 1024).blocks ((contested 1024).blocks.air .l)
          { waiting 1 none with cls := .mgmt, earliest := 5003000 } = some ⟨5003000, 1024, false⟩
      ∧ Time.atOrBefore 5003000 (Time.plus site.env.now site.env.retained.params.startLead) = false
      ∧ Time.after 5003000 (waiting 1 none).latest = false
      ∧ findWindow site.env (contested 1024).blocks ((contested 1024).blocks.air .l) (waiting 2 none)
          = some ⟨5000000, 1024, false⟩
      ∧ Time.atOrBefore (Time.plus 5000000 1024) 5003000 = true ∧ Time.atOrBefore (Time.plus 5000000 4096) 5003000 = false
      ∧ ((5003000 : Time) - 5000000).toNat < 2 ^ 31 := by decide +kernel
/-- R112, R113, R115: the second of 1024 µs is placed by backfill; of 4096 µs it is passed over, and so is the head behind it, which
gains an attempt; the timer is the first one's start less the start lead. -/
theorem test_backfill :
    ((reviewAir site.env .l (contested 1024).blocks).air .l).grant.map Grant.id = some 2
      ∧ (reviewAir site.env .l (contested 4096).blocks).air .l = ⟨none, none, some 5001000⟩
      ∧ ((reviewAir site.env .l (contested 4096).blocks).sched.radios.get .r0).headAttempts = 1 := by decide +kernel

/-- Radio 0 with a grant in air L. -/
def owning (x : GrantState) (start stop : Time) : State :=
  airL (fun a => { a with grant := some (granted 1 x start stop) }) site

/-- Radio 0 with a last ended record. -/
def ended (m : EndManner) (stop : Time) : State := sched (fun x => { x with lastEnded := some ⟨1, stop, m⟩ }) site

theorem test_meets_Releases :
    grantOf (owning .active 4999000 5001000).blocks .r0 = some (granted 1 .active 4999000 5001000)
      ∧ grantAir (owning .active 4999000 5001000).blocks .r0 = some .l ∧ grantOf site.blocks .r0 = none
      ∧ ((sched (fun x => { x with passThrough := [granted 1 .active 0 1] }) site).blocks.sched.radios.get .r0).passThrough
          = [granted 1 .active 0 1]
      ∧ ((sched (fun x => { x with waits := [waiting 1 none] }) site).blocks.sched.radios.get .r0).waits = [waiting 1 none]
      ∧ ((sched (fun x => { x with posted := [joined 1] }) site).blocks.sched.radios.get .r0).posted = [joined 1]
      ∧ idLive site.blocks .r0 1 = false ∧ (site.blocks.sched.radios.get .r0).lastEnded = none
      ∧ ((ended .expiry 4999899).blocks.sched.radios.get .r0).lastEnded = some ⟨1, 4999899, .expiry⟩
      ∧ Time.after site.env.now (Time.plus 4999899 100) = true ∧ Time.after site.env.now (Time.plus 4999900 100) = false
      ∧ ((ended .cut 4999899).blocks.sched.radios.get .r0).lastEnded = some ⟨1, 4999899, .cut⟩ := by decide +kernel
theorem test_released_air_no_requests : noRequests (owning .active 4999000 5001000).blocks := fun r => by
  cases r <;> exact ⟨rfl, rfl⟩

/-- Part time 1 260 000 with the reset configuration. -/
def later : Env := (clockAt 1260000 State.reset).env

/-- A request of radio 0 from part time 1 260 000 on. -/
def wants (length : Nat) (shortenable : Bool) : Request :=
  ⟨.r0, 1, .data, length, 1260000, 1260000, shortenable, false, 0, none⟩

/-- Without shaping; with a gap of 7867 µs long enough and not; with windows in order within reach; with a first window that a
request fits before, whole and shortened. -/
theorem test_meets_ShapedWindow :
    State.reset.blocks.sched.shaping = false ∧ shaped.sched.shaping = true
      ∧ (5 ∈ operatingCells shaped .r0 ∧ 5 ∈ shaped.sched.prediction.cells)
      ∧ (let ws := shaped.sched.prediction.windows
         let rel := fun t : Time => (t - 1260000).toInt
         ws[0]? = some ⟨1266369, 1275169⟩ ∧ ws[1]? = some ⟨1283036, 1291836⟩
           ∧ ((1283036 : Time) - 1275169).toInt = 7867 ∧ (4096 : Int) ≤ 7867
           ∧ (ws.zip ws.tail).all (fun x => (x.2.start - x.1.stop).toInt < 8000) = true
           ∧ (∀ w ∈ ws, -2 ^ 30 < rel w.start ∧ rel w.start ≤ rel w.stop ∧ rel w.stop < 2 ^ 30)
           ∧ ws.Pairwise (fun w v => rel w.start ≤ rel v.start ∧ rel w.stop ≤ rel v.stop)
           ∧ ws.head? = some ⟨1266369, 1275169⟩ ∧ (4096 : Int) ≤ rel 1266369 ∧ rel 1266369 < 7000
           ∧ (later.retained.params.minGrant : Int) ≤ rel 1266369)
      ∧ (wants 7000 true).shortenable = true := by decide +kernel

/-- Air L of section 6.11 with a grant of radio 0 from now, ACTIVE, to a time. -/
def runningTo (start stop : Time) (shortenable : Bool) : Blocks :=
  shaped.modAir .l fun a => { a with grant := some { granted 1 .active start stop with shortenable := shortenable } }

theorem test_shaped_no_requests (start stop : Time) (x : Bool) : noRequests (runningTo start stop x) := fun r => by
  cases r <;> exact ⟨rfl, rfl⟩
theorem test_shaped_grant_alone (start stop : Time) (x : Bool) (a : AirId) (g : Grant) (h : a ≠ .l)
    (hg : ((runningTo start stop x).air a).grant = some g) : g.radio ≠ .r0 := by
  cases a
  · exact absurd rfl h
  all_goals exact nomatch (show (none : Option Grant) = some g from hg)
/-- A grant that ends at the first window's start, one that meets it with 6369 µs left and, not shortenable, the same; one from
1 266 000 with 369 µs left; and the record that puts shaping on. -/
theorem test_meets_ShapingCuts :
    ((runningTo 1260000 1266369 true).air .l).grant = some (granted 1 .active 1260000 1266369)
      ∧ (shaped.sched.prediction.windows.any fun w => Time.meets 1260000 1266369 w.start w.stop) = false
      ∧ Time.meets (Time.later later.now 1260000) 1270000 1266369 1275169 = true
      ∧ (later.retained.params.minGrant : Int) ≤ ((1266369 : Time) - Time.later later.now 1260000).toInt
      ∧ ((1266369 : Time) - Time.later later.now 1266000).toInt < later.retained.params.minGrant
      ∧ shaped.sched.prediction.windows = [] ++ ⟨1266369, 1275169⟩ :: shaped.sched.prediction.windows.tail
      ∧ (5 ∈ operatingCells (runningTo 1260000 1270000 false) .r0 ∧ 5 ∈ shaped.sched.prediction.cells)
      ∧ (runningTo 1260000 1270000 false) = { runningTo 1260000 1270000 false with
          sched := { (runningTo 1260000 1270000 false).sched with shaping := true } }
      ∧ (rising .shape site).blocks.monitor.find .oven
          = some { oven .pending (some 5000000) with config := ⟨.shape, .band, 0, 2000⟩ } := by decide +kernel

/-- Radio 0 with a hold in air L, its REQ line high. -/
def holding (stop : Time) : State :=
  link (fun k => { k with req := true }) (airL (fun a => { a with hold := some ⟨.r0, 4999600, stop⟩ }) site)

theorem test_meets_ReqAndGnt :
    (site.blocks.links.get .r0).req = false ∧ ((holding 5000000).blocks.links.get .r0).req = true
      ∧ holdAir (holding 5000000).blocks .r0 = some .l ∧ holdAir site.blocks .r0 = none ∧ desk.env.mode = .setup
      ∧ airOf site.env site.blocks .r0 = some .l ∧ channelBarred site.env site.blocks .r0 = false
      ∧ (site.blocks.air .l).hold = none ∧ (site.blocks.air .l).grant = none ∧ shapingApplies site.blocks .r0 = false
      ∧ Time.meets 4999000 5000001 5000000 5000400 = true ∧ Time.meets 5000400 5001000 5000000 5000400 = false := by
  decide +kernel
theorem test_meets_RequestAndGrantTimers :
    Time.reached (some 5000000) site.env.now = true ∧ Time.reached (some 5000001) site.env.now = false
      ∧ ([waiting 1 (some 5000000)].find? fun q => q.id == 1 && Time.reached q.waitExpiry site.env.now)
          = some (waiting 1 (some 5000000))
      ∧ ((owning .scheduled 5000000 5001000).blocks.air .l).grant = some (granted 1 .scheduled 5000000 5001000)
      ∧ grantAir (owning .scheduled 5000000 5001000).blocks .r0 = some .l
      ∧ Time.atOrBefore 5000001 site.env.now = false ∧ grantOf site.blocks .r0 = none
      ∧ ([granted 1 .active 0 5000000].find? fun g => g.id == 1 && Time.atOrBefore g.stop site.env.now)
          = some (granted 1 .active 0 5000000)
      ∧ ((ended .expiry 4000000).blocks.sched.radios.get .r0).lastEnded = some ⟨1, 4000000, .expiry⟩
      ∧ Time.atOrBefore (Time.plus 4000000 1000000) site.env.now = true
      ∧ Time.atOrBefore (Time.plus 4000001 1000000) site.env.now = false := by decide +kernel
theorem test_meets_EndsAndReviews :
    grantAir (owning .active 4999000 5000000).blocks .r0 = some .l
      ∧ ((owning .active 4999000 5000000).blocks.air .l).grant = some (granted 1 .active 4999000 5000000)
      ∧ ((holding 5000000).blocks.air .l).hold = some ⟨.r0, 4999600, 5000000⟩
      ∧ ((airL (fun a => { a with review := some 5000000 }) site).blocks.air .l).review = some 5000000
      ∧ Time.atOrBefore 5000000 site.env.now = true ∧ Time.atOrBefore 5000001 site.env.now = false := by decide +kernel
theorem test_ended_air_no_requests : noRequests (holding 5000000).blocks := fun r => by cases r <;> exact ⟨rfl, rfl⟩

/-! ### Channel directives -/

/-- Radio 0 on cells 5 … 8, and radio 1's port in UP. -/
def pair : State := put site fun b => b.modLink .r1 fun k => { k with port := .up }

/-- A channel that passes, cells 12 … 15; one that fails, cells 8 … 11, for radio 1 in UP, since radio 0 holds cell 8; one not well
formed; off; the target of a pending directive. -/
theorem test_meets_TunedReports :
    (site.blocks.links.get .r0).port = .up ∧ (site.blocks.chans.get .r0).withdrawn = false
      ∧ ((chan (fun c => { c with withdrawn := true }) site).blocks.chans.get .r0).withdrawn = true
      ∧ ((4 : Byte) = 4 ∧ (12 : Byte).toNat + (4 : Byte).toNat ≤ 16)
      ∧ ¬ ((14 : Byte).toNat + (4 : Byte).toNat ≤ 16 ∨ 16 ≤ (14 : Byte).toNat)
      ∧ (16 ≤ (152 : Byte).toNat ∧ (152 : Byte).toNat + (4 : Byte).toNat ≤ 156)
      ∧ (site.blocks.chans.get .r0).directive = none
      ∧ (Channel.mk 12 4).cells = [12, 13, 14, 15]
      ∧ (∀ k ∈ [12, 13, 14, 15], site.blocks.cells[k]? = some ⟨none, false, false, 64, none⟩
          ∧ (site.env.retained.spans.get .r0).has k = true ∧ site.env.retained.keepClear.has k = false)
      ∧ (pair.blocks.links.get .r1).port = .up ∧ (pair.blocks.chans.get .r1).withdrawn = false
      ∧ (pair.blocks.chans.get .r1).directive = none ∧ 8 ∈ (Channel.mk 8 4).cells
      ∧ pair.blocks.cells[8]? = some ⟨some .r0, true, false, 64, none⟩
      ∧ ((moving site).blocks.chans.get .r0).directive = some move2 ∧ move2.chan = ⟨(0 : Byte).toNat, (4 : Byte).toNat⟩
      ∧ ((moving desk).blocks.chans.get .r0).directive = some move2 ∧ desk.env.mode = .setup
      ∧ (moving site).blocks.cells[3]? = some ⟨some .r0, false, true, 64, none⟩
      ∧ (moving desk).blocks.cells[5]? = some ⟨some .r0, true, false, 64, none⟩ := by decide +kernel
/-- R122, R140: radio 1 on cells 16 … 19 of band H with a grant in H1 and a posted request retunes to cells 12 … 15; its old grant
ends, and air L's review comes after that. -/
theorem test_retune_ends_the_old_grant :
    let s := put pair fun b =>
      let b := { b with cells := acquire .r1 ⟨16, 4⟩ b.cells }
      let b := b.modChan .r1 fun c => { c with operating := some ⟨16, 4⟩ }
      let b := b.modSched .r1 fun x => { x with posted := [{ joined 2 with radio := .r1 }] }
      b.modAir .h1 fun a => { a with grant := some ⟨.r1, 1, 4999000, 5001000, true, false, false, .active⟩ }
    (match exec (.tuned .r1 12 4) s with
      | .next t => (t.blocks.air .h1).grant.isNone && (t.blocks.air .l).grant.isSome
          && (t.blocks.chans.get .r1).operating == some ⟨12, 4⟩
      | _ => false) = true := by decide +kernel
theorem test_meets_DirectiveAnswers_moved :
    (site.blocks.chans.get .r0).directive = none
      ∧ ((moving site).blocks.chans.get .r0).directive = some move2 ∧ move2.id ≠ 8 ∧ move2.id = 7
      ∧ ((moving site).blocks.chans.get .r0).clash = false ∧ ((moving site).blocks.links.get .r0).port = .up
      ∧ (moving desk).env.mode = .setup
      ∧ (moving site).blocks.cells[3]? = some ⟨some .r0, false, true, 64, none⟩
      ∧ (moving site).blocks.cells[5]? = some ⟨some .r0, true, false, 64, none⟩ := by decide +kernel
theorem test_meets_DirectiveAnswers_declined :
    (site.blocks.chans.get .r0).directive = none
      ∧ ((moving site).blocks.chans.get .r0).directive = some move2 ∧ move2.id ≠ 8 ∧ move2.id = 7
      ∧ ((moving site).blocks.chans.get .r0).clash = false ∧ ((moving site).blocks.links.get .r0).port = .up
      ∧ (moving site).blocks.cells[3]? = some ⟨some .r0, false, true, 64, none⟩
      ∧ (moving site).blocks.cells[5]? = some ⟨some .r0, true, false, 64, none⟩ := by decide +kernel
theorem test_meets_DirectiveTimers :
    ((moving site).blocks.chans.get .r0).directive = some move2 ∧ Time.atOrBefore move2.expiry site.env.now = true
      ∧ ((moving site).blocks.chans.get .r0).clash = false
      ∧ Time.atOrBefore move2.expiry (clockAt 4999999 site).env.now = false
      ∧ site.env.retained.params.lapseMode ≠ 0 ∧ (Params.defaults.write 31 0).lapseMode = 0
      ∧ (moving site).blocks.monitor.holds (.lapse .r0) = false ∧ (moving site).blocks.monitor.list.length < 31
      ∧ ((chan (fun c => { c with declined := some ⟨2, 5000000, 0⟩ }) site).blocks.chans.get .r0).declined
          = some ⟨2, 5000000, 0⟩ := by decide +kernel

/-! ### Invariants -/

/-- The part in RUN with radio 0 on cells 5 … 8 and a KEEPALIVE in the queue: a step answers a next state. -/
def fed : State := { site with pending := [.keepalive .r0] }

theorem test_fed_steps (f : Blocks → Blocks) : ∃ t, step (put fed f) = .next t := ⟨_, rfl⟩
theorem test_meets_StepKeepsRetainedSound : fed.env.retained.Sound where
  params := by decide
  entries := by decide
  ids := by decide
  spans := fun r => by cases r <;> decide
  keepClear := by decide
  own := by decide
  filters := by decide
  oven := by decide
  crowd := by decide
  overrun := by decide
theorem test_meets_StepKeepsMapSound : MapSound fed.blocks where
  length := by decide +kernel
  cells := by decide +kernel
  chans := fun r => by
    have none_of (r : Radio) (h : fed.blocks.chans.get r = ChanState.reset) :
        (fed.blocks.chans.get r).Sound fed.blocks.cells r := by
      rw [h]
      exact ⟨fun _ x => (nomatch x), fun _ x => (nomatch x), fun x => (nomatch x), fun x => (nomatch x)⟩
    cases r
    · exact ⟨fun ch h _ => by cases h; decide +kernel, fun d h => (by cases h), fun h => (by cases h),
        fun h => (by cases h)⟩
    · exact none_of _ rfl
    · exact none_of _ rfl
theorem test_meets_StepKeepsBounds :
    (records [oven .active none] fed).blocks.monitor.Sound ∧ fed.blocks.survey.Sound ∧ requestsSound fed.blocks
      ∧ queuesBounded (link (fun k => { k with queue := List.replicate 32 .mark }) fed).blocks
      ∧ linesCurrent fed.env.now (link (sending 5000008) fed).blocks :=
  ⟨test_oven_monitor_sound .., ⟨by decide, by decide⟩, test_requests_sound, fun r => by cases r <;> decide,
   fun r x h => by
    cases r
    · cases h; decide
    · cases h
    · cases h⟩
/-- Radio 0, the one radio with a channel, has a grant in air L. -/
theorem test_meets_StepKeepsGrantsHome :
    requestsSound (airL (fun a => { a with grant := some (granted 1 .active 4999000 5001000) }) fed).blocks
      ∧ grantsHome fed.env (airL (fun a => { a with grant := some (granted 1 .active 4999000 5001000) }) fed).blocks :=
  ⟨test_requests_sound, fun a g h => by
    cases a
    · cases h; decide +kernel
    all_goals exact nomatch (show (none : Option Grant) = some g from h)⟩
theorem test_meets_StepKeepsTrackerSound : (tracking locked fed).blocks.tracker.Sound fed.env.retained.params where
  search := fun h => absurd h (by decide +kernel)
  period := fun _ => by decide +kernel
  anchor := fun _ => by decide +kernel
  length := by decide +kernel
  spans := by decide +kernel
theorem test_meets_StepKeepsReportsCurrent :
    fed.blocks.tracker.searchClear ∧ reportsCurrent fed.env fed.blocks :=
  ⟨fun _ => by decide, ⟨by decide +kernel, by decide +kernel⟩⟩

/-! ### Codes and encodings -/

theorem test_meets_CheckByteDetects : (0x00 : Byte) ≠ 0x01 := by decide
theorem test_meets_FramesDecodeToThemselves_messages :
    Instr.wf (.keepalive .r2) = true ∧ encodeMessage (.keepalive .r2) = some [0x5A, 0x00, 0x02, 0x0E]
      ∧ aboutRadio (.keepalive .r2) = some .r2 := by decide +kernel
theorem test_meets_FramesDecodeToThemselves_transactions :
    encodeTransaction (.setSpan 2 16 155) = some [0x09, 0x03, 0x00, 0x02, 0x10, 0x9B] := by decide

end Sys2Proof.Tests
end

