-- ==== Sys2Proof/Proofs/SpectrumResets.lean ====
section
/-! PROOF. The spectrum map after the resets (R19): the blocks that a reset leaves, the guard levels in SETUP, and the fetch
that makes a soft reset take effect. -/

namespace Sys2Proof.Machine

/-! ## What a reset leaves in the blocks -/

theorem Blocks.reset_chans_get (req : PerRadio Bool) (r : Radio) : (Blocks.reset req).chans.get r = ChanState.reset := by
  cases r <;> rfl

theorem Blocks.reset_links_get (req : PerRadio Bool) (r : Radio) :
    (Blocks.reset req).links.get r = Link.reset (req.get r) := by
  cases r <;> rfl

/-- The rows of R19's table that both resets share, of any state whose blocks are reset and whose mode is SETUP. -/
theorem spectrumMap_of_reset_blocks {s v : State} (req : PerRadio Bool) (hb : v.blocks = Blocks.reset req)
    (hm : v.env.mode = .setup) (hp : v.pending = s.pending) :
    v.blocks.cells
        = List.replicate 156 { holder := none, current := false, target := false, score := 64, surveyed := none }
      ∧ (∀ r, v.blocks.chans.get r = ChanState.reset) ∧ v.env.mode = .setup ∧ v.blocks.monitor.list = []
      ∧ (∀ r, (v.blocks.links.get r).queue = []) ∧ v.pending = s.pending := by
  rw [hb]
  exact ⟨rfl, Blocks.reset_chans_get req, hm, rfl, fun r => by rw [Blocks.reset_links_get]; rfl, hp⟩

/-! ## Guard levels in SETUP -/

/-- No record guards a cell in SETUP (R4): the keep-clear span alone decides. -/
theorem guardLevel_setup {env : Env} (h : env.mode = .setup) (m : Monitor) (k : Nat) :
    guardLevel env m k
      = if env.retained.keepClear.base ≤ k ∧ k ≤ env.retained.keepClear.limit then .barred else .clear := by
  have notRun : env.mode ≠ .run := by simp [h]
  simp [guardLevel, Span.has, notRun]

/-- The keep-clear span after a hardware reset is empty (R12). -/
theorem guardLevel_hardwareReset (s : State) (m : Monitor) (k : Nat) : guardLevel (hardwareReset s).env m k = .clear := by
  rw [guardLevel_setup rfl]
  have empty : ¬ (1 ≤ k ∧ k ≤ 0) := by omega
  exact if_neg empty

/-! ## The resets as commands -/

theorem exec_powerOnReset (s : State) : exec .powerOnReset s = .next (hardwareReset s) := rfl

theorem exec_pinReset (s : State) : exec .pinReset s = .next (hardwareReset s) := rfl

theorem wholeRead_ready (x : Response) (n : Nat) : wholeRead (.ready x) n = decide (3 + x.payload.length ≤ n) := by
  have length : (Slot.ready x).bytes.length = 3 + x.payload.length := by simp [Slot.bytes, u16, leBytes]; omega
  simp [wholeRead, length]

/-- The fetch that reads the response of SOFT RESET whole makes the soft reset take effect (R165, R166). -/
theorem exec_fetch_softReset {s : State} {x : Response} {n : Nat} (hx : s.port.slot = .ready x)
    (hs : s.port.softReset = true) (hn : 3 + x.payload.length ≤ n) :
    exec (.fetch n) s
      = .next { softResetState s with
          port := { (softResetState s).port with miso := misoBytes s.port.slot n } } := by
  have whole : wholeRead s.port.slot n = true := by rw [hx, wholeRead_ready]; exact decide_eq_true hn
  change execFetch n s = _
  simp [execFetch, whole, hs]

/-- Settles O7: both resets leave `Blocks.reset` and SETUP, so that the keep-clear span alone decides the guard levels. -/
theorem resetsOfTheSpectrumMap : Obligations.ResetsOfTheSpectrumMap := by
  intro s x n hx hs hn
  refine ⟨_, _, exec_powerOnReset s, exec_pinReset s, exec_fetch_softReset hx hs hn, ?shared, rfl, ?spans, rfl, rfl, rfl, rfl,
    guardLevel_hardwareReset s _, guardLevel_setup rfl _⟩
  case shared =>
    rintro v (rfl | rfl)
    · exact spectrumMap_of_reset_blocks (reqLevels s.blocks) rfl rfl rfl
    · exact spectrumMap_of_reset_blocks (reqLevels s.blocks) rfl rfl rfl
  case spans => intro r; cases r <;> rfl

end Sys2Proof.Machine
end

