-- ==== Sys2Proof/Proofs/ChannelPlan.lean ====
section
/-! PROOF. LOAD PLAN ENTRY and DELETE PLAN ENTRY (R9, R10): looking an entry up after a store and after a removal, the checks
of R9 written out, and the outcomes of both commands. -/

namespace Sys2Proof.Machine

/-! ## Looking up an entry: for any list, in ascending order or not -/

theorem findEntry_cons (x : PlanEntry) (l : List PlanEntry) (j : Nat) :
    findEntry (x :: l) j = if x.id = j then some x else findEntry l j := by
  by_cases h : x.id = j <;> simp [findEntry, h]

theorem findEntry_storeEntry_same (e : PlanEntry) (l : List PlanEntry) : findEntry (storeEntry e l) e.id = some e := by
  induction l with
  | nil => simp [storeEntry, findEntry_cons]
  | cons x xs ih =>
    unfold storeEntry
    split
    · simp [findEntry_cons]
    · split
      · simp [findEntry_cons]
      · next differ => rw [findEntry_cons, if_neg (Ne.symm differ), ih]

theorem findEntry_storeEntry_other {e : PlanEntry} {j : Nat} (h : j ≠ e.id) (l : List PlanEntry) :
    findEntry (storeEntry e l) j = findEntry l j := by
  induction l with
  | nil => rw [storeEntry, findEntry_cons, if_neg h.symm]
  | cons x xs ih =>
    unfold storeEntry
    split
    · rw [findEntry_cons, if_neg h.symm]
    · split
      · next same => rw [findEntry_cons, findEntry_cons, if_neg h.symm, if_neg (same ▸ h.symm)]
      · rw [findEntry_cons, findEntry_cons, ih]

theorem findEntry_removed_same (l : List PlanEntry) (id : Nat) :
    findEntry (l.filter fun e => e.id != id) id = none := by
  simp [findEntry]

theorem findEntry_removed_other {id j : Nat} (h : j ≠ id) (l : List PlanEntry) :
    findEntry (l.filter fun e => e.id != id) j = findEntry l j := by
  rw [findEntry, findEntry, List.find?_filter]
  congr 1
  funext e
  by_cases hj : e.id = j <;> simp [hj, h]

/-! ## The checks of R9 -/

/-- The checks of LOAD PLAN ENTRY written out over its argument bytes (R8, R9). -/
def PlanArgsLawful (id start width mask : Byte) : Prop :=
  id.toNat < 64 ∧ start.toNat < 156 ∧ (width = 4 ∨ width = 8 ∨ width = 16) ∧ (1 ≤ mask.toNat ∧ mask.toNat ≤ 7)
    ∧ ((start.toNat + width.toNat ≤ 16 ∧ width ≠ 16) ∨ (16 ≤ start.toNat ∧ start.toNat + width.toNat ≤ 156))

/-- A channel of an allowed width is valid when it lies in band L and is not 16 cells wide, or lies in band H. -/
theorem Channel.valid_iff_of_width {start : Nat} {width : Byte} (h : width = 4 ∨ width = 8 ∨ width = 16) :
    Channel.valid ⟨start, width.toNat⟩ = true
      ↔ (start + width.toNat ≤ 16 ∧ width ≠ 16) ∨ (16 ≤ start ∧ start + width.toNat ≤ 156) := by
  rcases h with rfl | rfl | rfl <;> simp [Channel.valid, Channel.inBandL, Channel.inBandH, cellCount]

theorem planArgs_of_lawful {id start width mask : Byte} (h : PlanArgsLawful id start width mask) :
    planArgs id start width mask = some ⟨id.toNat, ⟨start.toNat, width.toNat⟩, mask⟩ := by
  obtain ⟨hid, hstart, hwidth, ⟨hlow, hhigh⟩, hband⟩ := h
  exact if_pos ⟨hid, hstart, hwidth, by omega, by omega, (Channel.valid_iff_of_width hwidth).mpr hband⟩

theorem planArgs_of_not_lawful {id start width mask : Byte} (h : ¬ PlanArgsLawful id start width mask) :
    planArgs id start width mask = none := by
  refine if_neg fun ⟨hid, hstart, hwidth, hlow, hhigh, hvalid⟩ => h ?_
  exact ⟨hid, hstart, hwidth, ⟨by omega, by omega⟩, (Channel.valid_iff_of_width hwidth).mp hvalid⟩

/-- The entry that lawful arguments give bears the id given. -/
theorem planArgs_id {id start width mask : Byte} {d : PlanEntry} (h : planArgs id start width mask = some d) :
    d.id = id.toNat := by
  by_cases lawful : PlanArgsLawful id start width mask
  · rw [planArgs_of_lawful lawful] at h
    cases h; rfl
  · rw [planArgs_of_not_lawful lawful] at h
    cases h

/-! ## LOAD PLAN ENTRY -/

/-- The state with the plan replaced, and the rest of the retained set kept. -/
def State.withPlan (s : State) (plan : List PlanEntry) : State := s.modRetained fun x => { x with plan := plan }

@[simp] theorem State.withPlan_mode (s : State) (plan : List PlanEntry) : (s.withPlan plan).env.mode = s.env.mode := rfl
@[simp] theorem State.withPlan_plan (s : State) (plan : List PlanEntry) : (s.withPlan plan).env.retained.plan = plan := rfl

/-- No cost depends on the plan (R80, R81). -/
@[simp] theorem State.withPlan_currentCost (s : State) (plan : List PlanEntry) (r : Radio) :
    currentCost (s.withPlan plan).env (s.withPlan plan).blocks r = currentCost s.env s.blocks r := rfl

theorem exec_loadPlanEntry_run {s : State} (h : s.env.mode = .run) (id start width mask : Byte) :
    exec (.loadPlanEntry id start width mask) s = .next (s.reject .wrongMode) := if_pos h

theorem exec_loadPlanEntry_eq (id start width mask : Byte) (s : State) :
    exec (.loadPlanEntry id start width mask) s = execLoadPlanEntry id start width mask s := rfl

theorem exec_loadPlanEntry_unlawful {s : State} {id start width mask : Byte} (h : s.env.mode = .setup)
    (refused : planArgs id start width mask = none) :
    exec (.loadPlanEntry id start width mask) s = .next (s.reject .badArgument) := by
  simp [exec_loadPlanEntry_eq, execLoadPlanEntry, h, refused]

theorem exec_loadPlanEntry_stores {s : State} {id start width mask : Byte} {e : PlanEntry} (h : s.env.mode = .setup)
    (given : planArgs id start width mask = some e) :
    exec (.loadPlanEntry id start width mask) s = .next ((s.withPlan (storeEntry e s.env.retained.plan)).ok []) := by
  simp [exec_loadPlanEntry_eq, execLoadPlanEntry, State.withPlan, State.modRetained, h, given]

/-- In SETUP an id can be loaded whatever the plan holds, and its entry is then found (R9, R10). -/
theorem exec_loadPlanEntry_found {s : State} {id start width mask : Byte} {d : PlanEntry} (h : s.env.mode = .setup)
    (given : planArgs id start width mask = some d) :
    ∃ u, exec (.loadPlanEntry id start width mask) s = .next u
      ∧ findEntry u.env.retained.plan id.toNat = some d := by
  refine ⟨_, exec_loadPlanEntry_stores h given, ?_⟩
  rw [← planArgs_id given]
  exact findEntry_storeEntry_same d _

/-! ## DELETE PLAN ENTRY -/

theorem exec_deletePlanEntry_run {s : State} (h : s.env.mode = .run) (id : Byte) :
    exec (.deletePlanEntry id) s = .next (s.reject .wrongMode) := if_pos h

theorem exec_deletePlanEntry_setup {s : State} (h : s.env.mode = .setup) (id : Byte) :
    exec (.deletePlanEntry id) s
      = if 64 ≤ id.toNat then .next (s.reject .badArgument)
        else if (findEntry s.env.retained.plan id.toNat).isNone then .next (s.reject .noSuch)
        else .next ((s.withPlan (s.env.retained.plan.filter fun e => e.id != id.toNat)).ok []) :=
  if_neg (by simp [h])

theorem exec_deletePlanEntry_badArgument {s : State} {id : Byte} (h : s.env.mode = .setup) (hid : 64 ≤ id.toNat) :
    exec (.deletePlanEntry id) s = .next (s.reject .badArgument) := by
  rw [exec_deletePlanEntry_setup h, if_pos hid]

theorem exec_deletePlanEntry_noSuch {s : State} {id : Byte} (h : s.env.mode = .setup) (hid : id.toNat < 64)
    (absent : findEntry s.env.retained.plan id.toNat = none) :
    exec (.deletePlanEntry id) s = .next (s.reject .noSuch) := by
  rw [exec_deletePlanEntry_setup h, if_neg (Nat.not_le.mpr hid), if_pos (by simp [absent])]

theorem exec_deletePlanEntry_removes {s : State} {id : Byte} {e : PlanEntry} (h : s.env.mode = .setup)
    (hid : id.toNat < 64) (found : findEntry s.env.retained.plan id.toNat = some e) :
    exec (.deletePlanEntry id) s
      = .next ((s.withPlan (s.env.retained.plan.filter fun e => e.id != id.toNat)).ok []) := by
  rw [exec_deletePlanEntry_setup h, if_neg (Nat.not_le.mpr hid), if_neg (by simp [found])]

/-! ## Both commands -/

/-- Settles O11: the mode and the checks decide the answer, and the look-up lemmas say what the plan holds after the store and
after the removal. -/
theorem planEntries : Obligations.PlanEntries := by
  constructor
  · intro id start width mask s
    refine ⟨fun h => exec_loadPlanEntry_run h id start width mask,
      fun h unlawful => exec_loadPlanEntry_unlawful h (planArgs_of_not_lawful unlawful), fun h lawful => ?_⟩
    exact ⟨_, exec_loadPlanEntry_stores h (planArgs_of_lawful lawful), findEntry_storeEntry_same _ _,
      fun _ hj => findEntry_storeEntry_other hj _⟩
  · intro id s
    refine ⟨fun h => exec_deletePlanEntry_run h id, exec_deletePlanEntry_badArgument, exec_deletePlanEntry_noSuch,
      fun e h hid found => ?_⟩
    exact ⟨_, _, exec_deletePlanEntry_removes h hid found, rfl, findEntry_removed_same _ _,
      fun _ hj => findEntry_removed_other hj _, State.withPlan_currentCost s _,
      fun _ _ _ _ given => exec_loadPlanEntry_found h given⟩

end Sys2Proof.Machine
end

