-- ==== Sys2Proof/Proofs/MisorderedBatches.lean ====
section
/-! PROOF. A batch that comes before the expected time (R25): part times more than 2^31 µs apart, a good message on a link in
UP, and the lane that counts the batch and does nothing else with it. -/

namespace Sys2Proof.Machine

/-! ## Comparing part times -/

/-- The two differences of two distinct part times add up to 2^32 (00_scope section 1.5). -/
theorem Time.toNat_sub_rev {a b : Time} (h : a ≠ b) : (b - a).toNat = 2 ^ 32 - (a - b).toNat := by
  bv_omega

theorem Time.before_iff {a b : Time} : Time.before a b = true ↔ (b - a).toNat < 2 ^ 31 ∧ a ≠ b := by
  unfold Time.before Time.atOrBefore
  rw [Bool.and_eq_true, decide_eq_true_iff, decide_eq_true_iff]

/-- A part time more than 2^31 µs past another compares as before it. -/
theorem Time.before_of_far_past {f x : Time} (far : 2 ^ 31 < (f - x).toNat) : Time.before f x = true := by
  have distinct : f ≠ x := by
    rintro rfl
    simp at far
  refine Time.before_iff.mpr ⟨?_, distinct⟩
  rw [Time.toNat_sub_rev distinct]
  omega

/-! ## A good message on a link in UP -/

theorem PerRadio.modify_modify {α : Type} (p : PerRadio α) (r : Radio) (f g : α → α) :
    (p.modify r f).modify r g = p.modify r fun x => g (f x) := by
  cases r <;> rfl

theorem Blocks.modLink_modLink (b : Blocks) (r : Radio) (f g : Link → Link) :
    (b.modLink r f).modLink r g = b.modLink r fun k => g (f k) := by
  simp [Blocks.modLink, PerRadio.modify_modify]

/-- The receiver's return to hunting and the liveness restart together. -/
theorem restartLiveness_hunt (env : Env) (r : Radio) (b : Blocks) :
    restartLiveness env r (b.hunt r) = heardOn env r b := Blocks.modLink_modLink b r _ _

/-- The owning block takes a good message from the blocks that `heardOn` leaves (R153, R154). -/
theorem receive_of_up {r : Radio} {b : Blocks} (up : (b.links.get r).port = .up) (env : Env) (handler : Blocks → Blocks) :
    receive env r handler b = handler (heardOn env r b) := by
  have stillUp : ((b.hunt r).links.get r).port = .up := by simpa [Blocks.hunt] using up
  simp [receive, stillUp, restartLiveness_hunt]

@[simp] theorem heardOn_chans (env : Env) (r : Radio) (b : Blocks) : (heardOn env r b).chans = b.chans := rfl

@[simp] theorem heardOn_lanes (env : Env) (r : Radio) (b : Blocks) : (heardOn env r b).lanes = b.lanes := rfl

@[simp] theorem heardOn_port (env : Env) (r : Radio) (b : Blocks) :
    ((heardOn env r b).links.get r).port = (b.links.get r).port := by
  simp [heardOn]

theorem exec_samples_of_up {r : Radio} {s : State} {levels : List (BitVec 16)} (len : levels.length = 8)
    (up : (s.blocks.links.get r).port = .up) (f : Time) :
    exec (.samples r f levels) s
      = .next { s with blocks := takeBatch s.env r f levels (heardOn s.env r s.blocks) } := by
  change execSamples r f levels s = _
  simp [execSamples, State.withBlocks, len, receive_of_up up]

/-! ## The lane -/

/-- R25: of a lane that takes batches, a batch before the expected time moves the counter alone. -/
theorem takeBatch_misordered {r : Radio} {b : Blocks} {ch : Channel} {f x : Time}
    (operating : (b.chans.get r).operating = some ch) (takes : laneTakes b r = true)
    (expected : (b.lanes.get r).expected = some x) (early : Time.before f x = true) (env : Env)
    (levels : List (BitVec 16)) :
    takeBatch env r f levels b = b.count r LinkCounters.misorderedBatch := by
  simp [takeBatch, operating, takes, expected, early]

/-- Settles O26: the lane takes batches in UP, so `takeBatch_misordered` says what the batch does; the second half is
`Time.before_of_far_past`. -/
theorem misorderedBatch : Obligations.MisorderedBatch := by
  refine ⟨fun r f x levels s ch len up operating present expected early => ?_, fun _ _ => Time.before_of_far_past⟩
  have takes : laneTakes (heardOn s.env r s.blocks) r = true := by simp [laneTakes, up, operating, present]
  rw [exec_samples_of_up len up,
    takeBatch_misordered (b := heardOn s.env r s.blocks) operating takes expected early]
  rfl

end Sys2Proof.Machine
end

