-- ==== Sys2Proof/Proofs/Effects.lean ====
section
/-! PROOF. What a step can do to the environment and the blocks, said once: the events that leave the environment alone, and
the few commands that do not. The invariants are proved by cases over these. -/

namespace Sys2Proof.Machine

/-! ## Events -/

/-- What a good message hands to its block (R153). -/
inductive Handler (env : Env) (r : Radio) : (Blocks → Blocks) → Prop where
  | keepalive : Handler env r id
  | samples (f : Time) (levels : List (BitVec 16)) : Handler env r (takeBatch env r f levels)
  | heard (h : Summary) : Handler env r (takeHeard env r h)
  | request (ask : WindowAsk) : Handler env r (takeRequest env r ask)
  | release (id : Byte) : Handler env r (takeRelease env r id)
  | tuned (start width : Byte) : Handler env r (tunedMessage env r start width)
  | moved (id : Byte) : Handler env r (takeMoved env r id)
  | decline (id reason : Byte) : Handler env r (takeDecline env r id reason)

/-- What an event of the monitor alone does to it. -/
inductive MonitorChange (env : Env) : (Monitor → Monitor) → Prop where
  | read (first count : Nat) : MonitorChange env (Monitor.markRead first count)
  | unlatch (key : CondKey) : MonitorChange env fun m => { m with list := updateKey key (fun _ => none) m.list }
  | filter (key : CondKey) : MonitorChange env (Monitor.filterExpires env key)
  | extension (key : CondKey) : MonitorChange env (Monitor.extensionExpires env key)

/-- What a command that leaves the environment alone does to the blocks. -/
inductive Event (env : Env) (b : Blocks) : Blocks → Prop where
  | nothing : Event env b b
  | status : Event env b { b with monitor := { b.monitor with overflow := false } }
  | monitor (f : Monitor → Monitor) (h : MonitorChange env f) : Event env b (monitorEvent env f b)
  | forget : Event env b (b.modSurvey fun u => { u with table := [] })
  | clear (r : Radio) : Event env b (clearCounters r b)
  | move (r : Radio) (e : PlanEntry) (b' : Blocks) (can : cannotDirect b r = false)
      (free : (b.chans.get r).directive = none) (h : issueMove env r e .host b = some b') : Event env b b'
  | withdraw (r : Radio) : Event env b (withdrawRadio env r b)
  | restore (r : Radio) : Event env b (b.modChan r fun c => { c with withdrawn := false })
  | sync (r : Radio) : Event env b (b.modLink r fun k => { k with receiver := .collecting })
  | error (r : Radio) : Event env b (linkError r b)
  | hello (r : Radio) (version : Byte) (x : Capability) : Event env b (takeHello env r version x b)
  | message (r : Radio) (f : Blocks → Blocks) (h : Handler env r f) : Event env b (receive env r f b)
  | reqHigh (r : Radio) : Event env b (setReq r true b)
  | assertion (r : Radio) : Event env b (assertInRun env r (setReq r true b))
  | release (r : Radio) : Event env b (finishHold env r (setReq r false b))
  | transmit (r : Radio) : Event env b (b.modLink r fun k => k.transmit env.now)
  | mark (r : Radio) : Event env b (issueMark env r b)
  | loss (r : Radio) : Event env b (loseLink env r b)
  | streamLapse (r : Radio) :
      Event env b (b.modLane r fun l => { l.truncate env.retained.params with expected := none })
  | anchor (due : anchorDue env b = true) : Event env b { b with tracker := { b.tracker with anchor := none } }
  | onset : Event env b (trackerEvent env ⟨b.tracker.onsetChecked env.retained.params, true⟩ b)
  | sweep : Event env b (b.modSurvey (SurveyUnit.sweep env))
  | review (a : AirId) : Event env b (reviewAir env a b)
  | waitLimit (r : Radio) (id : Byte) (t : Time) : Event env b ((b.modSched r fun x => x.dropWait id).sendRetry r id .wait t)
  | start (a : AirId) :
      Event env b (b.modAir a fun x => { x with grant := x.grant.map fun g => { g with state := .active } })
  | expire (r : Radio) : Event env b (expireGrant env r b)
  | expirePass (r : Radio) (g : Grant) : Event env b (expirePass r g b)
  | lastEnded (r : Radio) : Event env b (b.modSched r fun x => { x with lastEnded := none })
  | holdEnd (a : AirId) : Event env b (reviewAir env a (b.modAir a fun x => { x with hold := none }))
  | lapse (r : Radio) : Event env b (takeLapse env r b)
  | declineHold (r : Radio) : Event env b (b.modChan r fun c => { c with declined := none })

/-! ## Commands that change the environment -/

/-- The retained set after a configuration command that leaves every block alone. -/
inductive Configured (x : Retained) : Retained → Prop where
  | reaction (kind : CondKind) (c : ReactionConfig) (sound : c.sound kind = true) :
      Configured x { x with reactions := x.reactions.set kind c }
  | parameter (id v : Nat) (range : inRange id v = true) (lawful : constraintsOk id (x.params.write id v) = true)
      (other : setupOnly id = false) : Configured x { x with params := x.params.write id v }
  | load (e : PlanEntry) (sound : e.sound = true) : Configured x { x with plan := storeEntry e x.plan }
  | delete (id : Nat) : Configured x { x with plan := x.plan.filter fun e => e.id != id }
  | span (r : Radio) (y : Span) (sound : y.sound = true) : Configured x { x with spans := x.spans.set r y }
  | keepClear (y : Span) (sound : y.sound = true) : Configured x { x with keepClear := y }
  | signature (i : Nat) (f : SigFilter) : Configured x { x with filters := x.filters.set i f }

/-- The environment with the retained set replaced. -/
def Env.withRetained (env : Env) (x : Retained) : Env := { env with retained := x }

/-- The environment in a mode. -/
def Env.inMode (env : Env) (m : Mode) : Env := { env with mode := m }

/-- The blocks at the entry to RUN. -/
def runBlocks (env : Env) (b : Blocks) : Blocks :=
  schedToRun (env.inMode .run) (freshReports (env.inMode .run) { b with monitor := b.monitor.emptied })

/-- The blocks at the entry to SETUP. -/
def setupBlocks (env : Env) (b : Blocks) : Blocks :=
  let b := radios.foldl (fun b r => endMoveWait (env.inMode .setup) r b) b
  let b := settleMonitor env b.monitor (env.inMode .setup) { b with monitor := b.monitor.emptied }
  schedToSetup (env.inMode .setup) (freshReports (env.inMode .setup) b)

theorem enterRun_env (s : State) : (enterRun s).env = s.env.inMode .run := rfl
theorem enterRun_blocks (s : State) : (enterRun s).blocks = runBlocks s.env s.blocks := by
  simp only [enterRun, runBlocks, Env.inMode]
theorem enterSetup_env (s : State) : (enterSetup s).env = s.env.inMode .setup := rfl
theorem enterSetup_blocks (s : State) : (enterSetup s).blocks = setupBlocks s.env s.blocks := by
  simp only [enterSetup, setupBlocks, Env.inMode]

/-- What a step does to the environment and the blocks. -/
inductive Effect (env : Env) (b : Blocks) : Env → Blocks → Prop where
  | event (b' : Blocks) (h : Event env b b') : Effect env b env b'
  | reset : Effect env b ⟨0, .setup, Retained.reset⟩ (Blocks.reset (reqLevels b))
  | softReset : Effect env b ⟨0, .setup, env.retained⟩ (Blocks.reset (reqLevels b))
  | tick : Effect env b { env with now := Time.plus env.now 1 }
      { b with links := b.links.map (Link.idleLine (Time.plus env.now 1)) }
  | configured (x : Retained) (h : Configured env.retained x) : Effect env b (env.withRetained x) b
  | own (i : Nat) (entry : Option BssId) (f : List Neighbour → List Neighbour) (shrinks : ∀ l, (f l).Sublist l) :
      Effect env b (env.withRetained { env.retained with ownList := env.retained.ownList.set i entry })
        (b.modSurvey fun u => { u with table := f u.table })
  | tracking (id v : Nat) (range : inRange id v = true)
      (lawful : constraintsOk id (env.retained.params.write id v) = true) (setup : env.mode = .setup) :
      Effect env b (env.withRetained { env.retained with params := env.retained.params.write id v })
        (trackerEvent (env.withRetained { env.retained with params := env.retained.params.write id v })
          ⟨b.tracker.toSearch, true⟩ b)
  | run (setup : env.mode = .setup) : Effect env b (env.inMode .run) (runBlocks env b)
  | setup (run : env.mode = .run) : Effect env b (env.inMode .setup) (setupBlocks env b)

/-! ## In SETUP a change of the keep-clear span is heard of by no block -/

/-- In SETUP the scheduler and the controller take no guard change report, and shaping is off before and after. -/
theorem settleMonitor_setup {env0 env : Env} (h0 : env0.mode = .setup) (h : env.mode = .setup) (m0 : Monitor) (b : Blocks) :
    settleMonitor env0 m0 env b = b := by
  have deliver : ∀ x y, deliverGuardChange env x y b = b := by
    intro x y
    simp [deliverGuardChange, takeGuardChange, h]
  simp [settleMonitor, deliver, shapingHolds_setup h0, shapingHolds_setup h]

/-! ## The arguments of the configuration commands -/

theorem reactionArgs_sound {kind reaction scope : Byte} {filter extension : BitVec 16} {k : CondKind} {c : ReactionConfig}
    (h : reactionArgs kind reaction scope filter extension = some (k, c)) : c.sound k = true := by
  unfold reactionArgs at h
  split at h
  · split at h
    · rename_i lawful
      obtain ⟨allowed, short, long⟩ := lawful
      cases h
      simp [ReactionConfig.sound, allowed, short, long]
    · cases h
  · cases h

theorem planArgs_sound {id start width mask : Byte} {e : PlanEntry} (h : planArgs id start width mask = some e) :
    e.sound = true := by
  unfold planArgs at h
  dsimp only at h
  split at h
  · rename_i lawful
    obtain ⟨hid, _, _, hlow, hhigh, hvalid⟩ := lawful
    cases h
    simp only [PlanEntry.sound, Bool.and_eq_true, decide_eq_true_iff]
    exact ⟨⟨⟨hid, hvalid⟩, hlow⟩, hhigh⟩
  · cases h

theorem cellOf_some {x : Byte} {k : Nat} (h : cellOf x = some k) : k = x.toNat ∧ x.toNat < cellCount := by
  unfold cellOf at h
  split at h
  · cases h; exact ⟨rfl, by assumption⟩
  · cases h

theorem spanArgs_sound {base limit : Byte} {x : Span} (h : spanArgs base limit = some x) : x.sound = true := by
  unfold spanArgs at h
  split at h
  · rename_i hb hl
    obtain ⟨rfl, baseIn⟩ := cellOf_some hb
    obtain ⟨rfl, limitIn⟩ := cellOf_some hl
    cases h
    simp [Span.sound, baseIn, limitIn]
  · cases h

/-! ## Each command's effect -/

theorem execSetReaction_effect {kind reaction scope : Byte} {filter extension : BitVec 16} {s t : State}
    (h : execSetReaction kind reaction scope filter extension s = .next t) : Effect s.env s.blocks t.env t.blocks := by
  unfold execSetReaction at h
  split at h
  · cases h; exact .event _ .nothing
  · rename_i args
    cases h
    exact .configured _ (.reaction _ _ (reactionArgs_sound args))

theorem execSetParameter_effect {id : Byte} {value : BitVec 32} {s t : State}
    (h : execSetParameter id value s = .next t) : Effect s.env s.blocks t.env t.blocks := by
  unfold execSetParameter at h
  dsimp only at h
  split at h
  · cases h; exact .event _ .nothing
  · split at h
    · cases h; exact .event _ .nothing
    · rename_i mode
      split at h
      · cases h; exact .event _ .nothing
      · rename_i lawful
        simp only [Bool.or_eq_true, Bool.not_eq_true', not_or, Bool.not_eq_false] at lawful
        split at h
        · rename_i setup
          have inSetup : s.env.mode = .setup := by
            cases hm : s.env.mode with
            | setup => rfl
            | run => exact absurd ⟨setup, hm⟩ mode
          cases h
          exact .tracking _ _ lawful.1 lawful.2 inSetup
        · rename_i other
          cases h
          exact .configured _ (.parameter _ _ lawful.1 lawful.2 (by simpa using other))

theorem execLoadPlanEntry_effect {id start width mask : Byte} {s t : State}
    (h : execLoadPlanEntry id start width mask s = .next t) : Effect s.env s.blocks t.env t.blocks := by
  unfold execLoadPlanEntry at h
  split at h
  · cases h; exact .event _ .nothing
  · split at h
    · cases h; exact .event _ .nothing
    · rename_i args
      cases h
      exact .configured _ (.load _ (planArgs_sound args))

theorem execDeletePlanEntry_effect {id : Byte} {s t : State}
    (h : execDeletePlanEntry id s = .next t) : Effect s.env s.blocks t.env t.blocks := by
  unfold execDeletePlanEntry at h
  split at h
  · cases h; exact .event _ .nothing
  · split at h
    · cases h; exact .event _ .nothing
    · split at h
      · cases h; exact .event _ .nothing
      · cases h; exact .configured _ (.delete _)

theorem execSetSpan_effect {radio base limit : Byte} {s t : State}
    (h : execSetSpan radio base limit s = .next t) : Effect s.env s.blocks t.env t.blocks := by
  unfold execSetSpan at h
  split at h
  · cases h; exact .event _ .nothing
  · split at h
    · rename_i args
      cases h
      exact .configured _ (.span _ _ (spanArgs_sound args))
    · cases h; exact .event _ .nothing

theorem execSetKeepClear_effect {base limit : Byte} {s t : State}
    (h : execSetKeepClear base limit s = .next t) : Effect s.env s.blocks t.env t.blocks := by
  unfold execSetKeepClear at h
  split at h
  · cases h; exact .event _ .nothing
  · rename_i notRun
    have setup : s.env.mode = .setup := by
      cases hm : s.env.mode with
      | setup => rfl
      | run => exact absurd hm notRun
    split at h
    · cases h; exact .event _ .nothing
    · rename_i args
      cases h
      show Effect s.env s.blocks _ (settleMonitor s.env s.blocks.monitor _ s.blocks)
      rw [settleMonitor_setup setup (by exact setup)]
      exact .configured _ (.keepClear _ (spanArgs_sound args))

theorem execLoadOwn_effect {index flag : Byte} {bss : BssId} {s t : State}
    (h : execLoadOwn index flag bss s = .next t) : Effect s.env s.blocks t.env t.blocks := by
  unfold execLoadOwn at h
  split at h
  · cases h; exact .event _ .nothing
  · split at h
    · cases h; exact .event _ .nothing
    · rename_i present _
      cases h
      cases present with
      | true => exact .own _ _ (fun l => dropNeighbour l bss) fun l => dropNeighbour_sublist l bss
      | false => exact .own _ _ id fun l => List.Sublist.refl l

theorem execLoadSignature_effect {index enable action : Byte} {mask : BitVec 24} {expected : BitVec 16} {s t : State}
    (h : execLoadSignature index enable mask expected action s = .next t) : Effect s.env s.blocks t.env t.blocks := by
  unfold execLoadSignature at h
  split at h
  · cases h; exact .event _ .nothing
  · split at h
    · cases h; exact .configured _ (.signature _ _)
    · cases h; exact .event _ .nothing

theorem execReadConditions_effect {first count : Byte} {s t : State} (h : execReadConditions first count s = .next t) :
    Effect s.env s.blocks t.env t.blocks := by
  unfold execReadConditions at h
  split at h
  · cases h; exact .event _ (.monitor _ (.read _ _))
  · cases h; exact .event _ .nothing

theorem execClearLatch_effect {kind subject : Byte} {s t : State} (h : execClearLatch kind subject s = .next t) :
    Effect s.env s.blocks t.env t.blocks := by
  unfold execClearLatch at h
  split at h
  · cases h; exact .event _ .nothing
  · split at h
    · cases h; exact .event _ .nothing
    · split at h
      · cases h; exact .event _ (.monitor _ (.unlatch _))
      · cases h; exact .event _ .nothing

theorem execReadRadio_effect {radio clear : Byte} {s t : State} (h : execReadRadio radio clear s = .next t) :
    Effect s.env s.blocks t.env t.blocks := by
  unfold execReadRadio at h
  split at h
  · rename_i r x _ _
    cases h
    cases x with
    | true => exact .event _ (.clear r)
    | false => exact .event _ .nothing
  · cases h; exact .event _ .nothing

theorem execMove_effect {radio entry : Byte} {s t : State} (h : execMove radio entry s = .next t) :
    Effect s.env s.blocks t.env t.blocks := by
  obtain ⟨henv, _, same | ⟨r, e, can, free, issued⟩⟩ := execMove_cases h
  · rw [henv, same]; exact .event _ .nothing
  · rw [henv]; exact .event _ (.move r e _ can free issued)

theorem execFetch_effect {n : Nat} {s t : State} (h : execFetch n s = .next t) : Effect s.env s.blocks t.env t.blocks := by
  unfold execFetch at h
  split at h
  · cases h; exact .softReset
  · cases h; exact .event _ .nothing

/-- A good message of a command whose operands its frame can carry, and else a link error (log 24). -/
theorem Effect.messageIf {env : Env} {b : Blocks} {r : Radio} {f : Blocks → Blocks} (h : Handler env r f) (c : Prop)
    [Decidable c] : Effect env b env (if c then receive env r f b else linkError r b) := by
  split
  · exact .event _ (.message r f h)
  · exact .event _ (.error r)

/-- A timed event when it is due, and nothing else (log 2). -/
theorem Effect.eventIf {env : Env} {b b' : Blocks} (c : Prop) [Decidable c] (h : c → Event env b b') :
    Effect env b env (if c then b' else b) := by
  split
  · exact .event _ (h (by assumption))
  · exact .event _ .nothing

theorem execReqAssertion_effect {r : Radio} {s t : State} (h : execReqAssertion r s = .next t) :
    Effect s.env s.blocks t.env t.blocks := by
  unfold execReqAssertion at h
  split at h
  · cases h; exact .event _ .nothing
  · cases h
    show Effect s.env s.blocks s.env (match s.env.mode with | .setup => _ | .run => _)
    cases s.env.mode with
    | setup => exact .event _ (.reqHigh r)
    | run => exact .event _ (.assertion r)

theorem execGrantExpiry_effect {r : Radio} {id : Byte} {s t : State} (h : execGrantExpiry r id s = .next t) :
    Effect s.env s.blocks t.env t.blocks := by
  cases h
  dsimp only [State.withBlocks]
  split
  · exact .event _ (.expire r)
  · split
    · exact .event _ .nothing
    · exact .event _ (.expirePass r _)

/-- Every command has one of the effects. -/
theorem exec_effect {c : Instr} {s t : State} (h : exec c s = .next t) : Effect s.env s.blocks t.env t.blocks := by
  cases c with
  | powerOnReset | pinReset => cases h; exact .reset
  | fetch n => exact execFetch_effect h
  | responseReady | malformedCommand | emptyTransaction | readTracker | softReset => cases h; exact .event _ .nothing
  | status => cases h; exact .event _ .status
  | readConditions => exact execReadConditions_effect h
  | clearLatch => exact execClearLatch_effect h
  | setReaction => exact execSetReaction_effect h
  | setParameter => exact execSetParameter_effect h
  | getParameter id =>
    change execGetParameter id s = _ at h
    unfold execGetParameter at h
    split at h <;> (cases h; exact .event _ .nothing)
  | loadPlanEntry => exact execLoadPlanEntry_effect h
  | deletePlanEntry => exact execDeletePlanEntry_effect h
  | setSpan => exact execSetSpan_effect h
  | setKeepClear => exact execSetKeepClear_effect h
  | loadOwn => exact execLoadOwn_effect h
  | loadSignature => exact execLoadSignature_effect h
  | readCells first count =>
    change execReadCells first count s = _ at h
    unfold execReadCells at h
    split at h <;> (cases h; exact .event _ .nothing)
  | readNeighbours first count =>
    change execReadNeighbours first count s = _ at h
    unfold execReadNeighbours at h
    split at h <;> (cases h; exact .event _ .nothing)
  | clearNeighbours => cases h; exact .event _ .forget
  | readRadio => exact execReadRadio_effect h
  | readCosts radio =>
    change execReadCosts radio s = _ at h
    unfold execReadCosts at h
    split at h <;> (cases h; exact .event _ .nothing)
  | move => exact execMove_effect h
  | withdraw radio =>
    change execWithdraw radio s = _ at h
    unfold execWithdraw at h
    split at h
    · cases h; exact .event _ .nothing
    · split at h
      · cases h; exact .event _ .nothing
      · cases h; exact .event _ (.withdraw _)
  | restore radio =>
    change execRestore radio s = _ at h
    unfold execRestore at h
    split at h
    · cases h; exact .event _ .nothing
    · cases h; exact .event _ (.restore _)
  | run =>
    change execRun s = _ at h
    unfold execRun at h
    split at h
    · cases h; exact .event _ .nothing
    · rename_i mode
      rw [← Host.Outcome.next.inj h, State.ok_env, State.ok_blocks, enterRun_env, enterRun_blocks]
      exact .run mode
  | setup =>
    change execSetup s = _ at h
    unfold execSetup at h
    split at h
    · cases h; exact .event _ .nothing
    · rename_i mode
      rw [← Host.Outcome.next.inj h, State.ok_env, State.ok_blocks, enterSetup_env, enterSetup_blocks]
      exact .setup mode
  | hello r version bands width => cases h; exact .event _ (.hello r version ⟨bands, width⟩)
  | keepalive r => cases h; exact .event _ (.message r _ .keepalive)
  | samples r first levels => cases h; dsimp only [State.withBlocks]; exact .messageIf (.samples first levels) _
  | heard r summary => cases h; dsimp only [State.withBlocks]; exact .messageIf (.heard summary) _
  | windowRequest r ask => cases h; exact .event _ (.message r _ (.request ask))
  | release r id => cases h; exact .event _ (.message r _ (.release id))
  | tuned r start width => cases h; exact .event _ (.message r _ (.tuned start width))
  | moved r id => cases h; exact .event _ (.message r _ (.moved id))
  | decline r id reason => cases h; exact .event _ (.message r _ (.decline id reason))
  | messageDiscarded r | messageAbandoned r => cases h; exact .event _ (.error r)
  | reqAssertion => exact execReqAssertion_effect h
  | reqRelease r =>
    change execReqRelease r s = _ at h
    unfold execReqRelease at h
    split at h
    · cases h; exact .event _ (.release r)
    · cases h; exact .event _ .nothing
  | transmitStart r => cases h; exact .event _ (.transmit r)
  | mark r => cases h; exact .event _ (.mark r)
  | linkLoss r => cases h; dsimp only [State.withBlocks]; exact .eventIf _ fun _ => .loss r
  | streamLapse r => cases h; dsimp only [State.withBlocks]; exact .eventIf _ fun _ => .streamLapse r
  | anchorExpiry => cases h; dsimp only [State.withBlocks]; exact .eventIf _ fun due => .anchor due
  | onsetCheck => cases h; dsimp only [State.withBlocks]; exact .eventIf _ fun _ => .onset
  | neighbourSweep => cases h; dsimp only [State.withBlocks]; exact .eventIf _ fun _ => .sweep
  | filterTimerExpiry key => cases h; exact .event _ (.monitor _ (.filter key))
  | extensionTimerExpiry key => cases h; exact .event _ (.monitor _ (.extension key))
  | reviewTimerExpiry a => cases h; dsimp only [State.withBlocks]; exact .eventIf _ fun _ => .review a
  | waitLimitExpiry r id =>
    cases h
    dsimp only [State.withBlocks]
    split
    · exact .event _ .nothing
    · exact .event _ (.waitLimit r id _)
  | grantStart a => cases h; dsimp only [State.withBlocks]; exact .eventIf _ fun _ => .start a
  | grantExpiry => exact execGrantExpiry_effect h
  | lastEndedExpiry r => cases h; dsimp only [State.withBlocks]; exact .eventIf _ fun _ => .lastEnded r
  | holdEnd a => cases h; dsimp only [State.withBlocks]; exact .eventIf _ fun _ => .holdEnd a
  | directiveLapse r => cases h; exact .event _ (.lapse r)
  | declineHoldExpiry r => cases h; dsimp only [State.withBlocks]; exact .eventIf _ fun _ => .declineHold r
  | syncByte r => cases h; exact .event _ (.sync r)

/-- Every step has one of the effects. -/
theorem step_effect {s t : State} (h : step s = .next t) : Effect s.env s.blocks t.env t.blocks := by
  unfold step at h
  split at h
  · cases h
    unfold idleStep
    split
    · exact .tick
    · exact .event _ .nothing
  · rename_i c rest _
    exact exec_effect (s := { s with pending := rest }) h

end Sys2Proof.Machine
end

