-- ==== Sys2Proof/Proofs/RetainedSet.lean ====
section
/-! PROOF. The laws of the retained set: what a parameter write changes, how the plan stays in the order of its ids, and that
every step keeps the laws (R8, R11, R12, R35, R63, R67, R68, R83, R85, R162). -/

namespace Sys2Proof.Machine

/-! ## Reading a parameter after a write -/

theorem Params.read_isSome {p : Params} {id : Nat} : (p.read id).isSome = true ↔ 1 ≤ id ∧ id ≤ 34 := by
  constructor
  · intro h
    unfold Params.read at h
    split at h <;> first | omega | cases h
  · rintro ⟨low, high⟩
    interval_cases id <;> rfl

theorem Params.read_write_same {p : Params} {id : Nat} (low : 1 ≤ id) (high : id ≤ 34) (v : Nat) :
    (p.write id v).read id = some v := by
  interval_cases id <;> rfl

theorem Params.read_write_other {p : Params} {id j : Nat} (h : j ≠ id) (v : Nat) :
    (p.write id v).read j = p.read j := by
  by_cases named : 1 ≤ j ∧ j ≤ 34
  · obtain ⟨low, high⟩ := named
    unfold Params.write
    interval_cases j <;> (split <;> first | rfl | exact absurd rfl h)
  · have absent : ∀ q : Params, q.read j = none := fun q => by
      rw [← Option.not_isSome_iff_eq_none, Params.read_isSome]
      exact named
    rw [absent, absent]

/-- What every law of the store says of a write, by reading alone. -/
theorem Params.read_write (p : Params) {id : Nat} (low : 1 ≤ id) (high : id ≤ 34) (v j : Nat) :
    (p.write id v).read j = if j = id then some v else p.read j := by
  split
  · rename_i same; rw [same, Params.read_write_same low high]
  · rename_i other; exact Params.read_write_other other v

/-- The parameters that the constraints of R35, R63 and R83 are about, by their ids. -/
theorem Params.laneOk_iff (p : Params) :
    p.laneOk = true ↔ (p.read 2).getD 0 ≤ (p.read 3).getD 0 ∧ (p.read 4).getD 0 ≤ (p.read 5).getD 0 := by
  simp [Params.laneOk, Params.read]

theorem Params.trackerOk_iff (p : Params) :
    p.trackerOk = true ↔ ((p.read 6).getD 0 < (p.read 7).getD 0 ∧ (p.read 10).getD 0 ≤ (p.read 9).getD 0)
      ∧ (p.read 3).getD 0 + (p.read 9).getD 0 + 1000 < (p.read 6).getD 0 := by
  simp [Params.trackerOk, Params.read]

theorem Params.crowdOk_iff (p : Params) : p.crowdOk = true ↔ (p.read 16).getD 0 < (p.read 15).getD 0 := by
  simp [Params.crowdOk, Params.read]

theorem inRange_named {id v : Nat} (h : inRange id v = true) : 1 ≤ id ∧ id ≤ 34 := by
  by_contra unnamed
  have empty : paramRange id = (1, 0) := by
    unfold paramRange
    split <;> first | rfl | exact absurd ⟨by decide, by decide⟩ unnamed
  simp only [inRange, empty, Bool.and_eq_true, decide_eq_true_iff] at h
  omega

theorem isLaneParam_iff (id : Nat) : isLaneParam id = true ↔ 1 ≤ id ∧ id ≤ 5 := by simp [isLaneParam]
theorem isTrackerParam_iff (id : Nat) : isTrackerParam id = true ↔ 6 ≤ id ∧ id ≤ 13 := by simp [isTrackerParam]
theorem setupOnly_iff (id : Nat) : setupOnly id = true ↔ 1 ≤ id ∧ id ≤ 13 := by
  rw [setupOnly, Bool.or_eq_true, isLaneParam_iff, isTrackerParam_iff]; omega

/-- The constraints of one group stand when a parameter outside the group is written. -/
theorem Params.laneOk_write {p : Params} {id v : Nat} (h : ¬ (2 ≤ id ∧ id ≤ 5)) : (p.write id v).laneOk = p.laneOk := by
  have same : ∀ j, 2 ≤ j → j ≤ 5 → (p.write id v).read j = p.read j := fun j low high =>
    Params.read_write_other (by omega) v
  rw [Bool.eq_iff_iff, Params.laneOk_iff, Params.laneOk_iff, same 2, same 3, same 4, same 5] <;> omega

theorem Params.trackerOk_write {p : Params} {id v : Nat} (h : ¬ (3 ≤ id ∧ id ≤ 10)) :
    (p.write id v).trackerOk = p.trackerOk := by
  have same : ∀ j, 3 ≤ j → j ≤ 10 → (p.write id v).read j = p.read j := fun j low high =>
    Params.read_write_other (by omega) v
  rw [Bool.eq_iff_iff, Params.trackerOk_iff, Params.trackerOk_iff, same 3, same 6, same 7, same 9, same 10] <;> omega

theorem Params.crowdOk_write {p : Params} {id v : Nat} (h : id ≠ 15 ∧ id ≠ 16) : (p.write id v).crowdOk = p.crowdOk := by
  rw [Bool.eq_iff_iff, Params.crowdOk_iff, Params.crowdOk_iff, Params.read_write_other (by omega),
    Params.read_write_other (by omega)]

/-- Every parameter lies in its range, by reading (section 9.3). -/
theorem Params.sound_iff (p : Params) :
    p.sound = true
      ↔ (∀ j v, p.read j = some v → inRange j v = true) ∧ p.laneOk = true ∧ p.trackerOk = true ∧ p.crowdOk = true := by
  simp only [Params.sound, Bool.and_eq_true, List.all_eq_true, List.mem_range, and_assoc]
  refine and_congr_left fun _ => ⟨fun h j v read => ?_, fun h j _ => ?_⟩
  · have named := Params.read_isSome.mp (by rw [read]; rfl : (p.read j).isSome = true)
    simpa [read] using h j (by omega)
  · cases read : p.read j with
    | none => rfl
    | some v => simpa using h j v read

/-- A write that passes the range and the constraints of its owning rule keeps every law of the store (R162). -/
theorem Params.sound_write {p : Params} (h : p.sound = true) {id v : Nat} (range : inRange id v = true)
    (lawful : constraintsOk id (p.write id v) = true) : (p.write id v).sound = true := by
  obtain ⟨ranges, lane, track, crowd⟩ := (Params.sound_iff p).mp h
  obtain ⟨low, high⟩ := inRange_named range
  refine (Params.sound_iff _).mpr ⟨fun j w read => ?_, ?_⟩
  · rw [Params.read_write p low high] at read
    split at read
    · rename_i same; cases read; rw [same]; exact range
    · exact ranges j w read
  · unfold constraintsOk at lawful
    split at lawful
    · rename_i isLane
      rw [isLaneParam_iff] at isLane
      rw [Bool.and_eq_true] at lawful
      exact ⟨lawful.1, lawful.2, by rwa [Params.crowdOk_write (by omega)]⟩
    · rename_i notLane
      rw [isLaneParam_iff] at notLane
      split at lawful
      · rename_i isTracker
        rw [isTrackerParam_iff] at isTracker
        exact ⟨by rwa [Params.laneOk_write (by omega)], lawful, by rwa [Params.crowdOk_write (by omega)]⟩
      · rename_i notTracker
        rw [isTrackerParam_iff] at notTracker
        refine ⟨by rwa [Params.laneOk_write (by omega)], by rwa [Params.trackerOk_write (by omega)], ?_⟩
        split at lawful
        · exact lawful
        · rename_i notCrowd
          rw [Params.crowdOk_write (by omega)]
          exact crowd

/-! ## The plan -/

theorem mem_storeEntry {e x : PlanEntry} {l : List PlanEntry} (h : x ∈ storeEntry e l) : x = e ∨ x ∈ l := by
  induction l with
  | nil => exact .inl (List.mem_singleton.mp h)
  | cons y ys ih =>
    unfold storeEntry at h
    split at h
    · exact List.mem_cons.mp h
    · split at h
      · exact (List.mem_cons.mp h).imp_right (List.mem_cons_of_mem y)
      · rcases List.mem_cons.mp h with rfl | h
        · exact .inr List.mem_cons_self
        · exact (ih h).imp_right (List.mem_cons_of_mem y)

/-- The plan stays in ascending order of ids (R9). -/
theorem storeEntry_sorted (e : PlanEntry) {l : List PlanEntry} (h : (l.map PlanEntry.id).Pairwise (· < ·)) :
    ((storeEntry e l).map PlanEntry.id).Pairwise (· < ·) := by
  rw [List.pairwise_map] at h ⊢
  induction l with
  | nil => exact List.pairwise_singleton _ _
  | cons x xs ih =>
    obtain ⟨above, sorted⟩ := List.pairwise_cons.mp h
    unfold storeEntry
    split
    · rename_i below
      refine List.pairwise_cons.mpr ⟨fun y hy => ?_, h⟩
      rcases List.mem_cons.mp hy with rfl | hy
      · exact below
      · exact below.trans (above y hy)
    · split
      · rename_i same
        exact List.pairwise_cons.mpr ⟨fun y hy => same ▸ above y hy, sorted⟩
      · refine List.pairwise_cons.mpr ⟨fun y hy => ?_, ih sorted⟩
        rcases mem_storeEntry hy with rfl | hy
        · omega
        · exact above y hy

/-! ## The laws -/

theorem Retained.reset_sound : Retained.reset.Sound where
  params := by decide
  entries := by simp [Retained.reset]
  ids := by simp [Retained.reset]
  spans := by intro r; cases r <;> decide
  keepClear := by decide
  own := by decide
  filters := by decide
  oven := by decide
  crowd := by decide
  overrun := by decide

theorem Retained.Sound.write {x : Retained} (h : x.Sound) {id v : Nat} (range : inRange id v = true)
    (lawful : constraintsOk id (x.params.write id v) = true) :
    Retained.Sound { x with params := x.params.write id v } :=
  { h with params := Params.sound_write h.params range lawful }

/-- A configuration command keeps the laws of the retained set. -/
theorem Configured.sound {x y : Retained} (g : Configured x y) (h : x.Sound) : y.Sound := by
  cases g with
  | reaction kind c sound =>
    cases kind with
    | oven => exact { h with oven := sound }
    | crowd => exact { h with crowd := sound }
    | overrun => exact { h with overrun := sound }
    | link | clash | lapse | noChannel => exact h
  | parameter id v range lawful other => exact h.write range lawful
  | load e sound =>
    refine { h with entries := fun y hy => ?_, ids := storeEntry_sorted e h.ids }
    rcases mem_storeEntry hy with rfl | hy
    · exact sound
    · exact h.entries y hy
  | delete id =>
    exact { h with
      entries := fun y hy => h.entries y (List.mem_of_mem_filter hy)
      ids := h.ids.sublist (List.filter_sublist.map _) }
  | span r y sound =>
    refine { h with spans := fun q => ?_ }
    rw [PerRadio.get_set]
    split
    · exact sound
    · exact h.spans q
  | keepClear y sound => exact { h with keepClear := sound }
  | signature i f => exact { h with filters := (List.length_set ..).trans h.filters }

theorem Effect.retainedSound {env env' : Env} {b b' : Blocks} (g : Effect env b env' b') (h : env.retained.Sound) :
    env'.retained.Sound := by
  cases g with
  | event | softReset | tick | run | setup => exact h
  | reset => exact Retained.reset_sound
  | configured x g => exact g.sound h
  | own i entry f shrinks => exact { h with own := (List.length_set ..).trans h.own }
  | tracking id v range lawful => exact h.write range lawful

/-- Settles O55, by cases over what a step can do to the retained set. -/
theorem stepKeepsRetainedSound : Obligations.StepKeepsRetainedSound :=
  fun _ _ sound next => (step_effect next).retainedSound sound

end Sys2Proof.Machine
end

