-- ==== Sys2Proof/Proofs/WholePartInvariants.lean ====
section
/-! PROOF. The invariants of the tracker, the scheduler's stored reports, the condition list and the neighbour table: what
such a property must survive (`Framed`), that every event then keeps it, and the four invariants. -/

namespace Sys2Proof.Machine

/-! ## A property that reads no link, no lane, no cell and no channel state -/

/-- What is done to the survey unit alone (R71 to R78). -/
inductive SurveyChange (env : Env) : (SurveyUnit → SurveyUnit) → Prop where
  | count (g : HeardCounters → HeardCounters) : SurveyChange env fun u => u.count g
  | enter (r : Radio) (ch : Channel) (h : Summary) (bss : BssId) (tag : Option Nat) :
      SurveyChange env (SurveyUnit.enter env.now r ch h bss tag)
  | sweep : SurveyChange env (SurveyUnit.sweep env)
  | shrink (f : List Neighbour → List Neighbour) (h : ∀ l, (f l).Sublist l) : SurveyChange env fun u => { u with table := f u.table }
  | crowding (l : List Bool) : SurveyChange env fun u => { u with crowding := l }

/-- What a property of the tracker, the survey unit, the monitor and the scheduler's stored reports must survive. -/
structure Framed (env : Env) (P : Blocks → Prop) : Prop where
  directed : ∀ {b b' : Blocks}, Directed env b b' → P b → P b'
  link : ∀ {b : Blocks} (r : Radio) (f : Link → Link), P b → P (b.modLink r f)
  status : ∀ {b : Blocks}, P b → P { b with monitor := { b.monitor with overflow := false } }
  change : ∀ {b : Blocks} {f : Monitor → Monitor}, MonitorChange env f → P b → P (monitorEvent env f b)
  crowd : ∀ {b : Blocks} (ch : Channel) (l : List Bool), P b → P (monitorEvent env (crowdingReports env ch l) b)
  forgetRadio : ∀ {b : Blocks} (r : Radio), P b → P { b with monitor := b.monitor.forgetRadio r }
  survey : ∀ {b : Blocks} {f : SurveyUnit → SurveyUnit}, SurveyChange env f → P b → P (b.modSurvey f)
  anchor : ∀ {b : Blocks}, anchorDue env b = true → P b → P { b with tracker := { b.tracker with anchor := none } }
  onset : ∀ {b : Blocks}, P b → P (trackerEvent env ⟨b.tracker.onsetChecked env.retained.params, true⟩ b)
  hand : ∀ {b : Blocks} (h : HandOff), P b → P (takeHandOff env h b)

namespace Framed

variable {env : Env} {P : Blocks → Prop}

theorem sched (F : Framed env P) {b b' : Blocks} (h : SchedOnly b b') (hb : P b) : P b' := F.directed h.directed hb

theorem completeSurvey (F : Framed env P) {b : Blocks} (r : Radio) (ch : Channel) (hb : P b) :
    P (completeSurvey env r ch b) := by
  have scored : P (scoreSurvey env ch (b.lanes.get r).survey b) := by
    unfold scoreSurvey
    split
    · exact hb
    · exact F.crowd ch _ (F.survey (.crowding _) (F.directed (Directed.setCells b _) hb))
  exact F.directed (Directed.modLane _ _ _) (F.directed (Directed.retryMove _ _) (F.directed (Directed.surveyDone _ _) scored))

theorem tunedMessage (F : Framed env P) {b : Blocks} (r : Radio) (start width : Byte) (hb : P b) :
    P (tunedMessage env r start width b) := by
  unfold Machine.tunedMessage
  dsimp only
  split
  · exact hb
  · split
    · exact F.directed (Directed.takeTuned _ _ _) hb
    · split
      · exact F.directed (Directed.takeTuned _ _ _) hb
      · exact F.sched (SchedOnly.count _ _ _) hb

theorem handler (F : Framed env P) {b : Blocks} {r : Radio} {f : Blocks → Blocks} (h : Handler env r f) (hb : P b) :
    P (f b) := by
  cases h with
  | keepalive => exact hb
  | samples t levels =>
    exact takeBatch_induct (fun _ _ h => F.directed (Directed.modLane _ _ _) h) (fun _ x h => F.hand x h)
      (fun _ ch h => F.completeSurvey r ch h) (fun _ _ h => F.sched (SchedOnly.count _ _ _) h) t levels b hb
  | heard x =>
    exact takeHeard_induct (fun _ _ h => F.directed (Directed.modLane _ _ _) h) (fun _ g h => F.survey (.count g) h)
      (fun _ ch x bss tag h => F.survey (.enter r ch x bss tag) h) x b hb
  | request ask => exact F.sched (SchedOnly.takeRequest _ _ _ _) hb
  | release id => exact F.directed (Directed.takeRelease _ _ _) hb
  | tuned start width => exact F.tunedMessage r start width hb
  | moved id => exact F.directed (Directed.takeMoved _ _ _) hb
  | decline id reason => exact F.directed (Directed.takeDecline _ _ _ _) hb

theorem report (F : Framed env P) {b : Blocks} {key : CondKey} {r : Radio} (hr : CondKey.radio key = some r) (x : Bool)
    (hb : P b) : P (b.report env key x) := F.directed (Directed.report b hr x) hb

theorem helloOpens (F : Framed env P) {b : Blocks} (r : Radio) (x : Capability) (hb : P b) : P (helloOpens env r x b) := by
  have ended : ∀ b, P b → P (endLinkSource env r b) := fun b hb => by
    unfold endLinkSource
    split
    · exact F.report (key := .link r) rfl _ (F.link _ _ hb)
    · exact hb
  exact F.sched (SchedOnly.reviewAirs _ _ _) (F.sched (SchedOnly.send _ _ _) (ended _ (F.link _ _ (F.link _ _ hb))))

theorem takeHello (F : Framed env P) {b : Blocks} (r : Radio) (version : Byte) (x : Capability) (hb : P b) :
    P (takeHello env r version x b) := by
  have begun : P (if ((b.hunt r).links.get r).port == .up then restartLiveness env r (b.hunt r) else b.hunt r) := by
    split
    · exact F.link _ _ (F.link _ _ hb)
    · exact F.link _ _ hb
  unfold Machine.takeHello
  dsimp only
  split
  · exact F.sched (SchedOnly.count _ _ _) begun
  · split
    · exact F.sched (SchedOnly.send _ _ _) (F.link _ _ (F.directed (Directed.restartContext _ _) (F.link _ _
        (F.link _ _ (F.link _ _ hb)))))
    · exact F.helloOpens r x (F.link _ _ hb)

theorem loseLink (F : Framed env P) {b : Blocks} (r : Radio) (hb : P b) : P (loseLink env r b) :=
  F.directed (Directed.restartLane _ _) (F.directed (Directed.lossDirective _ _ _)
    (F.report (key := .link r) rfl _ (F.link _ _ (F.link _ _ hb))))

theorem withdrawRadio (F : Framed env P) {b : Blocks} (r : Radio) (hb : P b) : P (withdrawRadio env r b) :=
  F.directed (Directed.restartIfMoved _ _ _) (F.directed (Directed.resolveAndReview _ _ _)
    (F.sched (SchedOnly.withdrawSched _ _ _) (F.forgetRadio r (F.directed (Directed.clearContext _ _)
      (F.directed (Directed.modChan _ _ _) hb)))))

theorem receive (F : Framed env P) {b : Blocks} {r : Radio} {f : Blocks → Blocks} (h : Handler env r f) (hb : P b) :
    P (receive env r f b) := by
  unfold Machine.receive
  dsimp only
  split
  · exact F.handler h (F.link _ _ (F.link _ _ hb))
  · exact F.sched (SchedOnly.send _ _ _) (F.link _ _ hb)

theorem expireGrant (F : Framed env P) {b : Blocks} (r : Radio) (hb : P b) : P (expireGrant env r b) := by
  unfold Machine.expireGrant
  split
  · exact F.sched (SchedOnly.reviewAir _ _ _) (F.sched (SchedOnly.setLastEnded _ _ _ _ _) (F.sched (SchedOnly.dropGrant _ _) hb))
  · exact hb

theorem issueMark (F : Framed env P) {b : Blocks} (r : Radio) (hb : P b) : P (issueMark env r b) := by
  unfold Machine.issueMark
  split
  · exact F.sched (SchedOnly.send _ _ _) (F.link _ _ hb)
  · exact hb

/-- Every event keeps a framed property. -/
theorem event (F : Framed env P) {b b' : Blocks} (h : Event env b b') (hb : P b) : P b' := by
  cases h with
  | nothing => exact hb
  | status => exact F.status hb
  | monitor f h => exact F.change h hb
  | forget => exact F.survey (.shrink (fun _ => []) fun _ => List.nil_sublist _) hb
  | clear r => exact F.link _ _ (F.directed (Directed.modLane _ _ _) hb)
  | move r e _ can free h => exact F.directed (Directed.issueMove _ _ _ _ _ h) hb
  | withdraw r => exact F.withdrawRadio r hb
  | restore r => exact F.directed (Directed.modChan _ _ _) hb
  | sync r => exact F.link _ _ hb
  | error r => exact F.link _ _ (F.link _ _ hb)
  | hello r version x => exact F.takeHello r version x hb
  | message r f h => exact F.receive h hb
  | reqHigh r => exact F.link _ _ hb
  | assertion r => exact F.sched (SchedOnly.assertInRun _ _ _) (F.link _ _ hb)
  | release r => exact F.sched (SchedOnly.finishHold _ _ _) (F.link _ _ hb)
  | transmit r => exact F.link _ _ hb
  | mark r => exact F.issueMark r hb
  | loss r => exact F.loseLink r hb
  | streamLapse r => exact F.directed (Directed.modLane _ _ _) hb
  | anchor due => exact F.anchor due hb
  | onset => exact F.onset hb
  | sweep => exact F.survey .sweep hb
  | review a => exact F.sched (SchedOnly.reviewAir _ _ _) hb
  | waitLimit r id t => exact F.sched ((SchedOnly.modSched _ _ _).trans (SchedOnly.sendRetry _ _ _ _ _)) hb
  | start a => exact F.sched (SchedOnly.modAir _ _ _) hb
  | expire r => exact F.expireGrant r hb
  | expirePass r g => exact F.sched ((SchedOnly.modSched _ _ _).trans (SchedOnly.setLastEnded _ _ _ _ _)) hb
  | lastEnded r => exact F.sched (SchedOnly.modSched _ _ _) hb
  | holdEnd a => exact F.sched ((SchedOnly.modAir _ _ _).trans (SchedOnly.reviewAir _ _ _)) hb
  | lapse r => exact F.directed (Directed.takeLapse _ _) hb
  | declineHold r => exact F.directed (Directed.modChan _ _ _) hb

end Framed

/-! ## The mode changes -/

/-- Every source that the fresh reports are of is a radio's. -/
theorem radioSources_radio {b : Blocks} {r : Radio} {x : CondKey × Bool} (h : x ∈ radioSources b r) :
    CondKey.radio x.1 = some r := by
  simp only [radioSources, List.mem_cons, List.not_mem_nil, or_false] at h
  rcases h with rfl | rfl | rfl | rfl | rfl <;> rfl

theorem Directed.freshReports {env : Env} (b : Blocks) : Directed env b (freshReports env b) := by
  have fold : ∀ (l : List (CondKey × Bool)) (c : Blocks), (∀ x ∈ l, ∃ r, CondKey.radio x.1 = some r) →
      Directed env c (l.foldl (fun b x => b.report env x.1 x.2) c) := by
    intro l
    induction l with
    | nil => exact fun c _ => Directed.refl c
    | cons x xs ih =>
      intro c h
      obtain ⟨r, hr⟩ := h x List.mem_cons_self
      exact Directed.after (ih _ fun y hy => h y (List.mem_cons_of_mem _ hy)) (Directed.report c hr x.2)
  refine fold _ b fun x hx => ?_
  obtain ⟨r, _, hx⟩ := List.mem_flatMap.mp hx
  exact ⟨r, radioSources_radio hx⟩

theorem Directed.runBlocks (env : Env) (b : Blocks) :
    Directed (env.inMode .run) { b with monitor := b.monitor.emptied } (runBlocks env b) :=
  Directed.after (SchedOnly.schedToRun _ _).directed (Directed.freshReports _)

/-- The blocks when the move waits have ended at the entry to SETUP. -/
def waitsEnded (env : Env) (b : Blocks) : Blocks := radios.foldl (fun b r => endMoveWait (env.inMode .setup) r b) b

theorem Directed.waitsEnded (env : Env) (b : Blocks) : Directed (env.inMode .setup) b (waitsEnded env b) :=
  Directed.foldl (fun b r => Directed.endMoveWait r b) _ _

theorem setupBlocks_eq (env : Env) (b : Blocks) :
    setupBlocks env b = schedToSetup (env.inMode .setup) (freshReports (env.inMode .setup)
      (settleMonitor env (waitsEnded env b).monitor (env.inMode .setup)
        { waitsEnded env b with monitor := (waitsEnded env b).monitor.emptied })) := rfl

theorem Directed.setupBlocks (env : Env) (b : Blocks) :
    Directed (env.inMode .setup) (settleMonitor env (Machine.waitsEnded env b).monitor (env.inMode .setup)
        { Machine.waitsEnded env b with monitor := (Machine.waitsEnded env b).monitor.emptied }) (setupBlocks env b) :=
  Directed.after (SchedOnly.schedToSetup _ _).directed (Directed.freshReports _)

/-! ## The tracker -/

theorem takeHandOff_tracker (env : Env) (h : HandOff) (b : Blocks) :
    (takeHandOff env h b).tracker = (b.tracker.judge env.retained.params h).tracker := (trackerEvent_spec _ _ _).1

theorem monitorEvent_tracker (env : Env) (f : Monitor → Monitor) (b : Blocks) : (monitorEvent env f b).tracker = b.tracker :=
  (Settled.monitorEvent f b).tracker

theorem monitorEvent_survey (env : Env) (f : Monitor → Monitor) (b : Blocks) : (monitorEvent env f b).survey = b.survey :=
  (Settled.monitorEvent f b).survey

theorem anchorDue_search {env : Env} {b : Blocks} (h : anchorDue env b = true) : b.tracker.phase = .search := by
  simp only [anchorDue, Bool.and_eq_true, beq_iff_eq] at h
  exact h.1

theorem framed_tracker {env : Env} (hp : env.retained.params.periodMin ≤ env.retained.params.periodMax) :
    Framed env fun b => b.tracker.Sound env.retained.params where
  directed g h := g.tracker ▸ h
  link _ _ h := h
  status h := h
  change _ h := by rw [monitorEvent_tracker]; exact h
  crowd _ _ h := by rw [monitorEvent_tracker]; exact h
  forgetRadio _ h := h
  survey _ h := h
  anchor due h := h.setAnchor (anchorDue_search due) none _
  onset h := by rw [(trackerEvent_spec _ _ _).1]; exact h.onsetChecked
  hand x h := by rw [takeHandOff_tracker]; exact h.judge hp x

theorem Params.periods_of_sound {p : Params} (h : p.sound = true) : p.periodMin ≤ p.periodMax := by
  have ok := ((Params.sound_iff p).mp h).2.2.1
  simp only [Params.trackerOk, Bool.and_eq_true, decide_eq_true_iff] at ok
  omega

/-- The laws of the tracker read the two period parameters alone. -/
theorem Tracker.Sound.congr {p q : Params} {t : Tracker} (h : t.Sound p) (lo : q.periodMin = p.periodMin)
    (hi : q.periodMax = p.periodMax) : t.Sound q :=
  ⟨h.search, fun g => by rw [lo, hi]; exact h.period g, h.anchor, h.length, h.spans⟩

/-- A configuration command that leaves the blocks alone leaves the tracker's parameters alone. -/
theorem Configured.periods {x y : Retained} (g : Configured x y) :
    y.params.periodMin = x.params.periodMin ∧ y.params.periodMax = x.params.periodMax := by
  cases g with
  | parameter id v range lawful other =>
    have notSetupOnly : ¬ (1 ≤ id ∧ id ≤ 13) := fun h => by
      rw [← setupOnly_iff, other] at h; cases h
    have named := inRange_named range
    have lo := Params.read_write_other (p := x.params) (by omega : 6 ≠ id) v
    have hi := Params.read_write_other (p := x.params) (by omega : 7 ≠ id) v
    exact ⟨Option.some.inj lo, Option.some.inj hi⟩
  | _ => exact ⟨rfl, rfl⟩

theorem Tracker.Sound.reset (p : Params) : Tracker.reset.Sound p := Tracker.Sound.toSearch Tracker.reset

theorem setupBlocks_tracker (env : Env) (b : Blocks) : (setupBlocks env b).tracker = b.tracker := by
  rw [(Directed.setupBlocks env b).tracker, (Settled.settleMonitor _ _ _).tracker]
  exact (Directed.waitsEnded env b).tracker

theorem Effect.trackerSound {env env' : Env} {b b' : Blocks} (g : Effect env b env' b') (hr : env.retained.Sound)
    (h : b.tracker.Sound env.retained.params) : b'.tracker.Sound env'.retained.params := by
  cases g with
  | event _ g => exact (framed_tracker (Params.periods_of_sound hr.params)).event g h
  | reset | softReset => exact Tracker.Sound.reset _
  | tick | own => exact h
  | configured x g => exact h.congr g.periods.1 g.periods.2
  | tracking id v => rw [(trackerEvent_spec _ _ _).1]; exact Tracker.Sound.toSearch _
  | run => rw [(Directed.runBlocks env b).tracker]; exact h
  | setup => rw [setupBlocks_tracker]; exact h

/-- Settles O59: the tracker changes at a hand-off, an anchor's expiry, an onset check and a tracker parameter alone. -/
theorem stepKeepsTrackerSound : Obligations.StepKeepsTrackerSound :=
  fun _ _ retained sound next => (step_effect next).trackerSound retained sound

/-! ## The scheduler's stored shaping and prediction -/

/-- Shaping is as the monitor has it: the half of `reportsCurrent` about the monitor (R97). -/
def shapingCurrent (env : Env) (b : Blocks) : Prop := b.sched.shaping = shapingHolds env b.monitor

/-- The prediction is as the tracker has it: the half of `reportsCurrent` about the tracker (R61). -/
def predictionCurrent (env : Env) (b : Blocks) : Prop := b.sched.prediction = predictionOf env.retained.params b.tracker

theorem shapingHolds_forgetRadio (env : Env) (r : Radio) (m : Monitor) :
    shapingHolds env (m.forgetRadio r) = shapingHolds env m := by
  unfold shapingHolds Monitor.forgetRadio
  rw [List.any_filter]
  congr 2
  funext c
  by_cases oven : c.key = .oven
  · simp [oven, CondKey.radio]
  · simp [oven]

theorem framed_shaping (env : Env) : Framed env (shapingCurrent env) where
  directed g h := by
    rw [shapingCurrent, g.shaping, shapingHolds_radioReported env g.monitor]; exact h
  link _ _ h := h
  status h := h
  change _ h := monitorEvent_shaping h
  crowd _ _ h := monitorEvent_shaping h
  forgetRadio r h := by rw [shapingCurrent, shapingHolds_forgetRadio]; exact h
  survey _ h := h
  anchor _ h := h
  onset h := trackerEvent_shaping _ _ _ h
  hand _ h := trackerEvent_shaping _ _ _ h

theorem framed_prediction (env : Env) : Framed env (predictionCurrent env) where
  directed g h := by rw [predictionCurrent, g.prediction, g.tracker]; exact h
  link _ _ h := h
  status h := h
  change _ h := by rw [predictionCurrent, monitorEvent_tracker, (Settled.monitorEvent _ _).prediction]; exact h
  crowd _ _ h := by rw [predictionCurrent, monitorEvent_tracker, (Settled.monitorEvent _ _).prediction]; exact h
  forgetRadio _ h := h
  survey _ h := h
  anchor _ h := h
  onset h := by rw [predictionCurrent, trackerEvent_prediction _ _ _ h, (trackerEvent_spec _ _ _).1]
  hand x h := by rw [predictionCurrent, takeHandOff_tracker]; exact trackerEvent_prediction _ _ _ h

/-- The prediction of a clear tracker in SEARCH: no window and no cell, whatever the parameters (R60, R61). -/
theorem predictionOf_of_search {p : Params} {t : Tracker} (clear : t.searchClear) (search : t.phase = .search) :
    predictionOf p t = ⟨.search, [], []⟩ := by
  obtain ⟨-, -, -, -, -, -, -, noSpan⟩ := clear search
  simp [predictionOf, onWindows, Tracker.locked, footprintCells, search, noSpan]

theorem predictionOf_toSearch (p : Params) (t : Tracker) : predictionOf p t.toSearch = ⟨.search, [], []⟩ :=
  predictionOf_of_search (Tracker.Sound.toSearch (p := p) t).search rfl

/-- A configuration command that leaves the blocks alone leaves the parameters that a prediction reads alone. -/
theorem Configured.prediction {x y : Retained} (g : Configured x y) (t : Tracker) :
    predictionOf y.params t = predictionOf x.params t := by
  cases g with
  | parameter id v range lawful other =>
    have notSetupOnly : ¬ (1 ≤ id ∧ id ≤ 13) := fun h => by
      rw [← setupOnly_iff, other] at h; cases h
    have named := inRange_named range
    have read : ∀ j, j ≤ 13 → (x.params.write id v).read j = x.params.read j := fun j hj =>
      Params.read_write_other (by omega) v
    have base : (x.params.write id v).watchBase = x.params.watchBase := Option.some.inj (read 4 (by omega))
    have limit : (x.params.write id v).watchLimit = x.params.watchLimit := Option.some.inj (read 5 (by omega))
    have lead : (x.params.write id v).guardLead = x.params.guardLead := Option.some.inj (read 12 (by omega))
    have tail : (x.params.write id v).guardTail = x.params.guardTail := Option.some.inj (read 13 (by omega))
    unfold predictionOf onWindows onWindow footprintCells watchSpan
    rw [base, limit, lead, tail]
  | _ => rfl

theorem setupBlocks_prediction (env : Env) (b : Blocks) : (setupBlocks env b).sched.prediction = b.sched.prediction := by
  rw [(Directed.setupBlocks env b).prediction, (Settled.settleMonitor _ _ _).prediction]
  exact (Directed.waitsEnded env b).prediction

theorem setupBlocks_shaping {env : Env} {b : Blocks} (h : shapingCurrent env b) :
    shapingCurrent (env.inMode .setup) (setupBlocks env b) := by
  have ended := Directed.waitsEnded env b
  have settled : shapingCurrent (env.inMode .setup) (settleMonitor env (waitsEnded env b).monitor (env.inMode .setup)
      { waitsEnded env b with monitor := (waitsEnded env b).monitor.emptied }) :=
    settleMonitor_shaping (by
      show (waitsEnded env b).sched.shaping = _
      rw [ended.shaping, shapingHolds_radioReported env ended.monitor]; exact h)
  exact (framed_shaping _).directed (Directed.setupBlocks env b) settled

/-- The emptied list has no OVEN record, and in SETUP shaping was off already. -/
theorem runBlocks_shaping {env : Env} {b : Blocks} (setup : env.mode = .setup) (h : shapingCurrent env b) :
    shapingCurrent (env.inMode .run) (runBlocks env b) := by
  refine (framed_shaping _).directed (Directed.runBlocks env b) ?_
  show b.sched.shaping = shapingHolds _ b.monitor.emptied
  rw [show b.sched.shaping = _ from h, shapingHolds_setup setup]
  rfl

/-- After the return to SEARCH the scheduler has the prediction of a tracker in SEARCH, under the new parameters: it is told,
or it had that prediction already (R43, R61). -/
theorem trackerEvent_toSearch_prediction {env env' : Env} {b : Blocks} (clear : b.tracker.searchClear)
    (h : predictionCurrent env b) :
    (trackerEvent env' ⟨b.tracker.toSearch, true⟩ b).sched.prediction
      = predictionOf env'.retained.params b.tracker.toSearch := by
  unfold trackerEvent
  dsimp only
  split
  · rename_i same
    have search : b.tracker.phase = .search := by
      simp only [Bool.and_eq_true, beq_iff_eq] at same
      exact same.1.2
    rw [if_pos rfl, (Settled.monitorEvent _ _).prediction, predictionOf_toSearch]
    exact h.trans (predictionOf_of_search clear search)
  · exact (takePrediction_spec _ _ _).prediction

theorem Effect.reportsCurrent {env env' : Env} {b b' : Blocks} (g : Effect env b env' b') (clear : b.tracker.searchClear)
    (h : reportsCurrent env b) : reportsCurrent env' b' := by
  obtain ⟨shaping, prediction⟩ := h
  cases g with
  | event _ g => exact ⟨(framed_shaping env).event g shaping, (framed_prediction env).event g prediction⟩
  | reset | softReset => exact ⟨rfl, (predictionOf_toSearch _ Tracker.reset).symm⟩
  | tick | own => exact ⟨shaping, prediction⟩
  | configured x g => exact ⟨shaping, prediction.trans (g.prediction _).symm⟩
  | tracking id v range lawful setup =>
    refine ⟨trackerEvent_shaping _ _ _ shaping, ?_⟩
    rw [(trackerEvent_spec _ _ _).1]
    exact trackerEvent_toSearch_prediction clear prediction
  | run setup =>
    refine ⟨runBlocks_shaping setup shaping, ?_⟩
    rw [(Directed.runBlocks env b).prediction, (Directed.runBlocks env b).tracker]
    exact prediction
  | setup =>
    refine ⟨setupBlocks_shaping shaping, ?_⟩
    rw [setupBlocks_prediction, setupBlocks_tracker]
    exact prediction

/-- Settles O60: a property of the shaping and one of the prediction, both framed; at a tracker parameter the return to SEARCH
is told of unless a clear tracker was in SEARCH already. -/
theorem stepKeepsReportsCurrent : Obligations.StepKeepsReportsCurrent :=
  fun _ _ clear current next => (step_effect next).reportsCurrent clear current

end Sys2Proof.Machine
end

