-- ==== Sys2Proof/Proofs/SchedulerBounds.lean ====
section
/-! PROOF. What the operations of the grant scheduler do to the requests, the transmit queues and the grants, said once for each
of them: the lists keep their bounds, and a grant that an air gains is of a member of that air (R102, R107, R112, R150). -/

namespace Sys2Proof.Machine

/-- An operation of the scheduler: it keeps each radio's requests sound and each queue bounded, and each grant that an air holds
after it is of a radio that had a grant of that air or is a member of it. The last part rests on sound requests, which are known
under `S`: the operations that read no request need no such knowledge, with `S` false. -/
structure Regular (S : Prop) (env : Env) (b b' : Blocks) : Prop where
  only : SchedOnly b b'
  requests : ∀ r, (b.sched.radios.get r).Sound r → (b'.sched.radios.get r).Sound r
  queues : ∀ r, (b.links.get r).queue.length ≤ queueLimit → (b'.links.get r).queue.length ≤ queueLimit
  grants : (S → requestsSound b) → S → ∀ a g', (b'.air a).grant = some g' →
    (∃ g, (b.air a).grant = some g ∧ g.radio = g'.radio) ∨ airOf env b g'.radio = some a

/-! ## One radio's requests -/

namespace RadioSched.Sound

variable {r : Radio} {x : RadioSched}

/-- Lists that only lose requests stay sound. -/
theorem fewer (h : x.Sound r) {y : RadioSched} (w : y.waits.Sublist x.waits) (p : y.posted.Sublist x.posted)
    (g : y.passThrough.Sublist x.passThrough) : y.Sound r :=
  ⟨w.length_le.trans h.waiting, p.length_le.trans h.queued, fun q hq => h.waits q (w.mem hq),
    fun q hq => h.posted q (p.mem hq), fun q hq => h.passed q (g.mem hq)⟩

theorem dropWait (h : x.Sound r) (id : Byte) : (x.dropWait id).Sound r :=
  h.fewer List.filter_sublist (List.Sublist.refl _) (List.Sublist.refl _)

theorem dropHead (h : x.Sound r) : x.dropHead.Sound r :=
  h.fewer (List.Sublist.refl _) (List.tail_sublist _) (List.Sublist.refl _)

theorem noWaits (h : x.Sound r) : RadioSched.Sound r { x with waits := [] } :=
  h.fewer (List.nil_sublist _) (List.Sublist.refl _) (List.Sublist.refl _)

theorem noPasses (h : x.Sound r) : RadioSched.Sound r { x with passThrough := [] } :=
  h.fewer (List.Sublist.refl _) (List.Sublist.refl _) (List.nil_sublist _)

theorem setAttempts (h : x.Sound r) (n : Nat) : RadioSched.Sound r { x with headAttempts := n } :=
  h.fewer (List.Sublist.refl _) (List.Sublist.refl _) (List.Sublist.refl _)

theorem setLast (h : x.Sound r) (e : Option LastEnded) : RadioSched.Sound r { x with lastEnded := e } :=
  h.fewer (List.Sublist.refl _) (List.Sublist.refl _) (List.Sublist.refl _)

theorem setLate (h : x.Sound r) (n : Nat) : RadioSched.Sound r { x with lateCount := n } :=
  h.fewer (List.Sublist.refl _) (List.Sublist.refl _) (List.Sublist.refl _)

theorem setOverrun (h : x.Sound r) (o : Bool) : RadioSched.Sound r { x with overrun := o } :=
  h.fewer (List.Sublist.refl _) (List.Sublist.refl _) (List.Sublist.refl _)

theorem pass (h : x.Sound r) (g : Grant) (mine : g.radio = r) :
    RadioSched.Sound r { x with passThrough := x.passThrough ++ [g] } :=
  ⟨h.waiting, h.queued, h.waits, h.posted, fun g' hg => by
    rcases List.mem_append.mp hg with hg | hg
    · exact h.passed g' hg
    · rw [List.mem_singleton.mp hg]; exact mine⟩

theorem reset (r : Radio) : RadioSched.reset.Sound r :=
  ⟨Nat.zero_le _, Nat.zero_le _, by simp [RadioSched.reset], by simp [RadioSched.reset], by simp [RadioSched.reset]⟩

end RadioSched.Sound

/-! ## Links -/

theorem Link.issue_queue_length (k : Link) (m : OutMsg) (h : k.queue.length ≤ queueLimit) :
    (k.issue m).queue.length ≤ queueLimit := by
  unfold Link.issue
  split
  · simp only [List.length_append, List.length_singleton]; omega
  · exact h

/-- Membership of an air reads the mode, the links' port states and the channel states (R102). -/
theorem SchedOnly.airOf {b b' : Blocks} (h : SchedOnly b b') (env : Env) (r : Radio) : airOf env b' r = airOf env b r := by
  unfold Machine.airOf eligible
  rw [h.chans, (h.links r).port]

/-! ## The operations -/

namespace Regular

variable {S : Prop} {env : Env}

theorem refl (b : Blocks) : Regular S env b b := ⟨SchedOnly.refl b, fun _ h => h, fun _ h => h, fun _ _ _ g h => .inl ⟨g, h, rfl⟩⟩

theorem trans {a b c : Blocks} (h : Regular S env a b) (g : Regular S env b c) : Regular S env a c where
  only := h.only.trans g.only
  requests r hr := g.requests r (h.requests r hr)
  queues r hr := g.queues r (h.queues r hr)
  grants sound s x y hy := by
    rcases g.grants (fun s r => h.requests r (sound s r)) s x y hy with ⟨z, hz, same⟩ | member
    · rcases h.grants sound s x z hz with ⟨w, hw, same'⟩ | member
      · exact .inl ⟨w, hw, same'.trans same⟩
      · exact .inr (same ▸ member)
    · exact .inr (by rw [← h.only.airOf]; exact member)

theorem after {a b c : Blocks} (g : Regular S env b c) (h : Regular S env a b) : Regular S env a c := h.trans g

theorem foldl {α : Type} {f : Blocks → α → Blocks} (h : ∀ b x, Regular S env b (f b x)) (l : List α) (b : Blocks) :
    Regular S env b (l.foldl f b) := by
  induction l generalizing b with
  | nil => exact refl b
  | cons x xs ih => exact (h b x).trans (ih _)

/-- An operation that leaves the airs alone. -/
theorem ofAirs {b b' : Blocks} (only : SchedOnly b b') (airs : ∀ a, b'.air a = b.air a)
    (requests : ∀ r, (b.sched.radios.get r).Sound r → (b'.sched.radios.get r).Sound r)
    (queues : ∀ r, (b.links.get r).queue.length ≤ queueLimit → (b'.links.get r).queue.length ≤ queueLimit) :
    Regular S env b b' :=
  ⟨only, requests, queues, fun _ _ a g h => .inl ⟨g, by rw [← airs]; exact h, rfl⟩⟩

/-- A change of what is kept for one radio, sound where the old value was. -/
theorem modSchedAt {b : Blocks} {r : Radio} {f : RadioSched → RadioSched}
    (h : (b.sched.radios.get r).Sound r → (f (b.sched.radios.get r)).Sound r) : Regular S env b (b.modSched r f) :=
  ofAirs (SchedOnly.modSched _ _ _) (fun _ => rfl)
    (fun q hq => by
      rw [Blocks.modSched_radios, PerRadio.get_modify]
      split
      · rename_i e; subst e; exact h hq
      · exact hq)
    fun _ hq => hq

theorem modSched (b : Blocks) {r : Radio} {f : RadioSched → RadioSched} (h : ∀ x : RadioSched, x.Sound r → (f x).Sound r) :
    Regular S env b (b.modSched r f) := modSchedAt (h _)

theorem modAir {b : Blocks} {a : AirId} {f : Air → Air}
    (h : S → ∀ g', (f (b.air a)).grant = some g' →
      (∃ g, (b.air a).grant = some g ∧ g.radio = g'.radio) ∨ airOf env b g'.radio = some a) :
    Regular S env b (b.modAir a f) where
  only := SchedOnly.modAir _ _ _
  requests _ hq := hq
  queues _ hq := hq
  grants _ s c g' hg := by
    by_cases e : c = a
    · subst e; rw [Blocks.modAir_air_same] at hg; exact h s g' hg
    · rw [Blocks.modAir_air_other b f e] at hg; exact .inl ⟨g', hg, rfl⟩

/-- A change of an air that keeps its grant, or ends it. -/
theorem modAirKeep (b : Blocks) {a : AirId} {f : Air → Air} (h : ∀ x : Air, (f x).grant = x.grant ∨ (f x).grant = none) :
    Regular S env b (b.modAir a f) :=
  modAir fun _ g' hg => by
    rcases h (b.air a) with e | e
    · rw [e] at hg; exact .inl ⟨g', hg, rfl⟩
    · rw [e] at hg; cases hg

theorem modLink {b : Blocks} {r : Radio} {f : Link → Link} (same : ∀ k, SameLink k (f k))
    (h : ∀ k : Link, k.queue.length ≤ queueLimit → (f k).queue.length ≤ queueLimit) : Regular S env b (b.modLink r f) :=
  ofAirs (SchedOnly.modLink _ _ _ same) (fun _ => rfl) (fun _ hq => hq) fun q hq => by
    rw [Blocks.modLink_links, PerRadio.get_modify]
    split
    · rename_i e; subst e; exact h _ hq
    · exact hq

theorem send (b : Blocks) (r : Radio) (m : OutMsg) : Regular S env b (b.send r m) :=
  modLink (fun k => SameLink.issue k m) fun k h => k.issue_queue_length m h

theorem count (b : Blocks) (r : Radio) (f : LinkCounters → LinkCounters) : Regular S env b (b.count r f) :=
  modLink (fun _ => rfl) fun _ h => h

theorem sendGrant (b : Blocks) (r : Radio) (id : Byte) (t : Time) (n : Nat) (x : Bool) :
    Regular S env b (b.sendGrant r id t n x) := (send _ _ _).trans (count _ _ _)

theorem sendRetry (b : Blocks) (r : Radio) (id : Byte) (c : RetryCause) (t : Time) :
    Regular S env b (b.sendRetry r id c t) := (send _ _ _).trans (count _ _ _)

theorem sendRefuse (b : Blocks) (r : Radio) (id : Byte) (c : RefuseCause) : Regular S env b (b.sendRefuse r id c) :=
  (send _ _ _).trans (count _ _ _)

theorem sendExpired (b : Blocks) (r : Radio) (id : Byte) : Regular S env b (b.sendExpired r id) :=
  (send _ _ _).trans (count _ _ _)

theorem setLastEnded (b : Blocks) (r : Radio) (id : Byte) (t : Time) (m : EndManner) :
    Regular S env b (b.setLastEnded r id t m) := modSched b fun _ h => h.setLast _

theorem takeSeq (b : Blocks) : Regular S env b b.takeSeq :=
  ofAirs (SchedOnly.takeSeq b) (fun _ => rfl) (fun _ h => h) fun _ h => h

/-! ### Reviews -/

theorem enterGrant {a : AirId} {q : Request} {b : Blocks} (member : S → airOf env b q.radio = some a) (p : Placement) :
    Regular S env b (enterGrant env a q p b) :=
  (modAir fun s g' hg => by cases hg; exact .inr (member s)).trans (sendGrant _ _ _ _ _ _)

theorem attemptHead (q : Request) (b : Blocks) : Regular S env b (attemptHead env q b) := by
  unfold Machine.attemptHead
  dsimp only
  split
  · exact (modSched b fun _ h => h.dropHead).trans (sendExpired _ _ _)
  · exact modSched b fun _ h => h.setAttempts _

theorem reviewWaiting {a : AirId} {v : Review} {q : Request} (member : S → airOf env v.blocks q.radio = some a) :
    Regular S env v.blocks (reviewWaiting env a v q).blocks := by
  have leave : Regular S env v.blocks (v.blocks.modSched q.radio fun x => x.dropWait q.id) :=
    modSched _ fun _ h => h.dropWait _
  unfold Machine.reviewWaiting
  dsimp only
  repeat' split
  · exact refl _
  · exact leave.trans (sendRetry _ _ _ _ _)
  · exact leave.trans (sendRetry _ _ _ _ _)
  · exact leave.trans (enterGrant (fun s => by rw [leave.only.airOf]; exact member s) _)
  · exact refl _
  · exact refl _

theorem reviewHead {a : AirId} {v : Review} {q : Request} (member : S → airOf env v.blocks q.radio = some a) :
    Regular S env v.blocks (reviewHead env a v q).blocks := by
  have leave : Regular S env v.blocks (v.blocks.modSched q.radio RadioSched.dropHead) := modSched _ fun _ h => h.dropHead
  unfold Machine.reviewHead
  repeat' split
  · exact refl _
  · exact attemptHead _ _
  · exact leave.trans (enterGrant (fun s => by rw [leave.only.airOf]; exact member s) _)
  · exact attemptHead _ _
  · exact attemptHead _ _

theorem foldReview {a : AirId} {f : Review → Request → Review}
    (h : ∀ v q, (S → airOf env v.blocks q.radio = some a) → Regular S env v.blocks (f v q).blocks) (l : List Request)
    (v : Review) (members : S → ∀ q ∈ l, airOf env v.blocks q.radio = some a) :
    Regular S env v.blocks (l.foldl f v).blocks := by
  induction l generalizing v with
  | nil => exact refl _
  | cons q qs ih =>
    have first := h v q fun s => members s q List.mem_cons_self
    exact first.trans (ih _ fun s q' hq => by rw [first.only.airOf]; exact members s q' (List.mem_cons_of_mem _ hq))

theorem mem_members {b : Blocks} {a : AirId} {r : Radio} (h : r ∈ members env b a) : airOf env b r = some a := by
  simpa [members] using (List.mem_filter.mp h).2

/-- The candidates of a review are requests of members of the air (R112). -/
theorem mem_waitingCandidates {b : Blocks} {a : AirId} {q : Request} (sound : requestsSound b)
    (h : q ∈ waitingCandidates env b a) : airOf env b q.radio = some a := by
  rw [waitingCandidates, (sortByClass_perm _).mem_iff] at h
  obtain ⟨r, hr, hq⟩ := List.mem_flatMap.mp h
  rw [(sound r).waits q hq]
  exact mem_members hr

theorem mem_headCandidates {b : Blocks} {a : AirId} {q : Request} (sound : requestsSound b)
    (h : q ∈ headCandidates env b a) : airOf env b q.radio = some a := by
  rw [headCandidates, (sortByArrival_perm _).mem_iff] at h
  obtain ⟨r, hr, hq⟩ := List.mem_flatMap.mp h
  rw [(sound r).posted q (List.mem_of_mem_take hq)]
  exact mem_members hr

/-- A review, where sound requests are known under `S`. -/
theorem reviewAirOf (a : AirId) {b : Blocks} (known : S → requestsSound b) : Regular S env b (reviewAir env a b) := by
  have begun : Regular S env b (b.modAir a fun x => { x with review := none }) := modAirKeep b fun _ => .inl rfl
  unfold Machine.reviewAir
  generalize b.modAir a (fun x => { x with review := none }) = b₀ at begun ⊢
  have known₀ : S → requestsSound b₀ := fun s r => begun.requests r (known s r)
  have waited : Regular S env b₀ ((waitingCandidates env b₀ a).foldl (Machine.reviewWaiting env a) ⟨b₀, [], []⟩).blocks :=
    foldReview (fun _ _ => reviewWaiting) _ ⟨b₀, [], []⟩ fun s q hq => mem_waitingCandidates (known₀ s) hq
  dsimp only
  generalize (waitingCandidates env b₀ a).foldl (Machine.reviewWaiting env a) ⟨b₀, [], []⟩ = v at waited ⊢
  have taken : Regular S env v.blocks ((headCandidates env b₀ a).foldl (Machine.reviewHead env a) v).blocks :=
    foldReview (fun _ _ => reviewHead) _ v
      fun s q hq => by rw [waited.only.airOf]; exact mem_headCandidates (known₀ s) hq
  have all := begun.trans (waited.trans taken)
  split
  · exact after (modAirKeep _ fun _ => .inl rfl) all
  · exact all

theorem reviewAir (a : AirId) (b : Blocks) : Regular S env b (reviewAir env a b) where
  only := SchedOnly.reviewAir _ _ _
  requests := (reviewAirOf (S := False) a False.elim).requests
  queues := (reviewAirOf (S := False) a False.elim).queues
  grants sound := (reviewAirOf a sound).grants sound

theorem reviewAirs (p : AirId → Bool) (b : Blocks) : Regular S env b (reviewAirs env p b) :=
  foldl (fun b a => reviewAir a b) _ _

/-! ### Cuts and ends -/

theorem dropGrant (a : AirId) (b : Blocks) : Regular S env b (dropGrant a b) := modAirKeep b fun _ => .inr rfl

theorem cutGrant (a : AirId) (b : Blocks) : Regular S env b (cutGrant env a b) := by
  unfold Machine.cutGrant
  split
  · exact refl _
  · exact ((dropGrant a b).trans (send _ _ _)).trans (setLastEnded _ _ _ _ _)

theorem endGrantOf (r : Radio) (how : GrantEnd) (b : Blocks) : Regular S env b (endGrantOf env r how b) := by
  unfold Machine.endGrantOf
  split
  · exact refl _
  · split
    · exact dropGrant _ _
    · exact cutGrant _ _

theorem endHoldOf (r : Radio) (b : Blocks) : Regular S env b (endHoldOf r b) := by
  unfold Machine.endHoldOf
  split
  · exact refl _
  · exact modAirKeep b fun _ => .inl rfl

/-- A change of the grant that an air holds, which leaves it its radio's. -/
theorem modGrant {b : Blocks} {a : AirId} {g g' : Grant} (h : (b.air a).grant = some g) (same : g'.radio = g.radio) :
    Regular S env b (b.modAir a fun x => { x with grant := some g' }) :=
  modAir fun _ _ hg => by cases hg; exact .inl ⟨g, h, same.symm⟩

theorem shapeGrant (b : Blocks) (a : AirId) : Regular S env b (shapeGrant env b a) := by
  unfold Machine.shapeGrant
  dsimp only
  split
  · exact refl _
  · rename_i g hg
    repeat' split
    · exact refl _
    · exact after (send _ _ _) (modGrant hg rfl)
    · exact cutGrant _ _
    · exact refl _
    · exact after (count _ _ _) (modGrant hg rfl)
    · exact refl _

theorem applyShaping (b : Blocks) : Regular S env b (applyShaping env b) :=
  (foldl shapeGrant _ _).trans (reviewAirs _ _)

/-! ### Radio changes -/

theorem answerGate (b : Blocks) (r : Radio) (id : Byte) (x : GateAnswer) : Regular S env b (answerGate b r id x) := by
  cases x
  · exact sendRefuse _ _ _ _
  · exact sendRetry _ _ _ _ _

theorem answerWaits (b : Blocks) (r : Radio) (x : GateAnswer) : Regular S env b (answerWaits b r x) :=
  (modSched b fun _ h => h.noWaits).trans (foldl (fun b (q : Request) => answerGate b r q.id x) _ _)

theorem retestWaits (b : Blocks) (r : Radio) : Regular S env b (retestWaits env b r) := by
  unfold Machine.retestWaits
  split
  · exact refl _
  · exact answerWaits _ _ _

theorem retestAndReview (airs : List AirId) (rs : List Radio) (b : Blocks) :
    Regular S env b (retestAndReview env airs rs b) := (foldl retestWaits _ _).trans (reviewAirs _ _)

theorem radioChange (r : Radio) (how : Option GrantEnd) (old : Option AirId) (gained : List Radio) (b : Blocks) :
    Regular S env b (radioChange env r how old gained b) := by
  unfold Machine.radioChange
  cases how
  · exact retestAndReview _ _ _
  · exact ((endGrantOf _ _ _).trans (endHoldOf _ _)).trans (retestAndReview _ _ _)

theorem endSession (r : Radio) (b : Blocks) : Regular S env b (endSession env r b) :=
  ((endGrantOf _ _ _).trans (endHoldOf _ _)).trans
    (modSched _ fun _ h => h.fewer (List.nil_sublist _) (List.nil_sublist _) (List.nil_sublist _))

theorem cutPassThrough (r : Radio) (b : Blocks) : Regular S env b (cutPassThrough env r b) :=
  (modSched b fun _ h => h.noPasses).trans (foldl (fun _ _ => (send _ _ _).trans (setLastEnded _ _ _ _ _)) _ _)

theorem withdrawSched (r : Radio) (b : Blocks) : Regular S env b (withdrawSched env r b) := by
  unfold Machine.withdrawSched
  have answered := (((endGrantOf (S := S) (env := env) r .cut b).trans (cutPassThrough r _)).trans (endHoldOf r _)).trans
    (answerWaits _ r (.refuse .withdrawn))
  exact after (foldl (fun b (q : Request) => sendExpired b r q.id) _ _) (after
    (modSched _ fun _ h => h.fewer (List.Sublist.refl _) (List.nil_sublist _) (List.Sublist.refl _)) answered)

theorem takeGuardChange (changed : List Nat) (b : Blocks) : Regular S env b (takeGuardChange env changed b) := by
  unfold Machine.takeGuardChange
  dsimp only
  split
  · exact (foldl (fun b r => ((endGrantOf r .cut b).trans (endHoldOf _ _)).trans (answerWaits _ _ _)) _ _).trans
      (reviewAirs _ _)
  · exact refl _

/-! ### Requests, releases, the immediate path, the mode -/

theorem passThrough (r : Radio) (id : Byte) (n : Nat) (x : Bool) (b : Blocks) :
    Regular S env b (passThrough env r id n x b) :=
  after (sendGrant _ _ _ _ _ _) (modSched b fun _ h => h.pass _ rfl)

theorem joinPosted {r : Radio} {q : Request} {b : Blocks} (mine : q.radio = r)
    (room : (b.sched.radios.get r).posted.length < postedLimitCount) : Regular S env b (joinPosted r q b) := by
  unfold Machine.joinPosted
  refine ((takeSeq b).trans (modSchedAt fun h => ?_)).trans (send _ _ _)
  exact ⟨h.waiting, by simp only [List.length_append, List.length_singleton]; exact room, h.waits, fun p hp => by
    rcases List.mem_append.mp hp with hp | hp
    · exact h.posted p hp
    · rw [List.mem_singleton.mp hp]; exact mine, h.passed⟩

theorem joinWaits {r : Radio} {q : Request} {b : Blocks} (mine : q.radio = r)
    (room : (b.sched.radios.get r).waits.length < waitLimitCount) : Regular S env b (joinWaits env r q b) := by
  unfold Machine.joinWaits
  refine ((takeSeq b).trans (modSchedAt fun h => ?_)).trans (reviewAirs _ _)
  refine ⟨?_, h.queued, fun p hp => ?_, h.posted, h.passed⟩
  · rw [(insertByClass_perm _ _).length_eq]; exact room
  · rcases List.mem_cons.mp ((insertByClass_perm _ _).mem_iff.mp hp) with rfl | hp
    · exact mine
    · exact h.waits p hp

theorem requestInRun {r : Radio} {q : Request} {b : Blocks} (mine : q.radio = r) :
    Regular S env b (requestInRun env r q b) := by
  unfold Machine.requestInRun
  dsimp only
  split
  · exact answerGate _ _ _ _
  · split
    · split
      · exact sendRetry _ _ _ _ _
      · exact joinPosted mine (by omega)
    · split
      · exact sendRetry _ _ _ _ _
      · exact joinWaits mine (by omega)

theorem takeRequest (r : Radio) (q : WindowAsk) (b : Blocks) : Regular S env b (takeRequest env r q b) := by
  unfold Machine.takeRequest
  dsimp only
  repeat' split
  · exact sendRefuse _ _ _ _
  · exact sendRefuse _ _ _ _
  · exact passThrough _ _ _ _ _
  · exact requestInRun rfl

theorem assertInRun (r : Radio) (b : Blocks) : Regular S env b (assertInRun env r b) := by
  unfold Machine.assertInRun
  split
  · exact after (count _ _ _) (modAirKeep b fun _ => .inl rfl)
  · exact count _ _ _

theorem finishHold (r : Radio) (b : Blocks) : Regular S env b (finishHold env r b) := by
  unfold Machine.finishHold
  split
  · exact refl _
  · exact (endHoldOf _ _).trans (reviewAir _ _)

theorem airToSetup (b : Blocks) (a : AirId) : Regular S env b (airToSetup env b a) := by
  have cleared : Regular S env b (b.modAir a fun x => { x with hold := none, review := none }) :=
    modAirKeep b fun _ => .inl rfl
  unfold Machine.airToSetup
  dsimp only
  split
  · exact cleared
  · split
    · exact (cleared.trans (dropGrant _ _)).trans (modSched _ fun _ h => h.pass _ rfl)
    · exact cleared.trans (cutGrant _ _)

theorem requestsToSetup (b : Blocks) (r : Radio) : Regular S env b (requestsToSetup env b r) :=
  after (foldl (fun b (q : Request) => passThrough r q.id q.length q.shortenable b) _ _)
    (modSched b fun _ h => h.fewer (List.nil_sublist _) (List.nil_sublist _) (List.Sublist.refl _))

theorem schedToSetup (b : Blocks) : Regular S env b (schedToSetup env b) :=
  (foldl airToSetup _ _).trans (foldl requestsToSetup _ _)

theorem schedToRun (b : Blocks) : Regular S env b (schedToRun env b) :=
  (foldl (fun b r => cutPassThrough r b) _ _).trans (reviewAirs _ _)

theorem expireGrant (r : Radio) (b : Blocks) : Regular S env b (expireGrant env r b) := by
  unfold Machine.expireGrant
  split
  · exact (dropGrant _ b).trans ((setLastEnded _ _ _ _ _).trans (reviewAir _ _))
  · exact refl _

theorem expirePass (r : Radio) (g : Grant) (b : Blocks) : Regular S env b (expirePass r g b) :=
  after (setLastEnded _ _ _ _ _)
    (modSched b fun _ h => h.fewer (List.Sublist.refl _) (List.Sublist.refl _) List.filter_sublist)

theorem waitLimit (r : Radio) (id : Byte) (t : Time) (b : Blocks) :
    Regular S env b ((b.modSched r fun x => x.dropWait id).sendRetry r id .wait t) :=
  (modSched b fun _ h => h.dropWait id).trans (sendRetry _ _ _ _ _)

theorem grantStarts (a : AirId) (b : Blocks) :
    Regular S env b (b.modAir a fun x => { x with grant := x.grant.map fun g => { g with state := .active } }) :=
  modAir fun _ g' hg => by
    obtain ⟨g, held, rfl⟩ := Option.map_eq_some_iff.mp hg
    exact .inl ⟨g, held, rfl⟩

end Regular

end Sys2Proof.Machine
end

