-- ==== Sys2Proof/Proofs/ListBounds.lean ====
section
/-! PROOF. The bounds of the requests, the transmit queues and the lines under the operations of the directive controller and
under every event, and O57. -/

namespace Sys2Proof.Machine

/-- Each radio's requests stay sound, each transmit queue stays bounded, and no line begins or ends a message. -/
structure Bounded (b b' : Blocks) : Prop where
  requests : ∀ r, (b.sched.radios.get r).Sound r → (b'.sched.radios.get r).Sound r
  queues : ∀ r, (b.links.get r).queue.length ≤ queueLimit → (b'.links.get r).queue.length ≤ queueLimit
  sending : ∀ r, (b'.links.get r).sending = (b.links.get r).sending

/-- An operation of the scheduler keeps the bounds; what the airs hold does not matter to them. -/
theorem Regular.bounded {env : Env} {b b' : Blocks} (h : Regular False env b b') : Bounded b b' :=
  ⟨h.requests, h.queues, fun r => (h.only.links r).sending⟩

namespace Bounded

variable {env : Env}

/-- An operation that leaves the scheduler's radios and the links alone. -/
theorem same {b b' : Blocks} (hs : b'.sched.radios = b.sched.radios) (hl : b'.links = b.links) : Bounded b b' := by
  refine ⟨fun r h => ?_, fun r h => ?_, fun r => ?_⟩
  · rw [hs]; exact h
  · rw [hl]; exact h
  · rw [hl]

theorem refl (b : Blocks) : Bounded b b := same rfl rfl

theorem after {a b c : Blocks} (g : Bounded b c) (h : Bounded a b) : Bounded a c :=
  ⟨fun r x => g.requests r (h.requests r x), fun r x => g.queues r (h.queues r x), fun r => (g.sending r).trans (h.sending r)⟩

theorem foldl {α : Type} {f : Blocks → α → Blocks} (h : ∀ b x, Bounded b (f b x)) (l : List α) (b : Blocks) :
    Bounded b (l.foldl f b) := by
  induction l generalizing b with
  | nil => exact refl b
  | cons x xs ih => exact after (ih _) (h b x)

theorem modChan (b : Blocks) (r : Radio) (f : ChanState → ChanState) : Bounded b (b.modChan r f) := same rfl rfl
theorem modLane (b : Blocks) (r : Radio) (f : Lane → Lane) : Bounded b (b.modLane r f) := same rfl rfl
theorem setCells (b : Blocks) (cells : List CellRecord) : Bounded b { b with cells := cells } := same rfl rfl
theorem report (b : Blocks) (key : CondKey) (x : Bool) : Bounded b (b.report env key x) := same rfl rfl
theorem setMonitor (b : Blocks) (m : Monitor) : Bounded b { b with monitor := m } := same rfl rfl
theorem modSurvey (b : Blocks) (f : SurveyUnit → SurveyUnit) : Bounded b (b.modSurvey f) := same rfl rfl

/-- A link changed in its receiver, port, liveness, capability, LINK source, MARK interval, REQ or counters, its queue
shortened at most. -/
theorem modLink (b : Blocks) (r : Radio) {f : Link → Link} (hq : ∀ k : Link, (f k).queue.length ≤ k.queue.length)
    (hs : ∀ k : Link, (f k).sending = k.sending) : Bounded b (b.modLink r f) := by
  refine ⟨fun _ h => h, fun q h => ?_, fun q => ?_⟩ <;> rw [Blocks.modLink_links, PerRadio.get_modify] <;> split
  · rename_i e; subst e; exact (hq _).trans h
  · exact h
  · rename_i e; subst e; exact hs _
  · rfl

theorem send (b : Blocks) (r : Radio) (m : OutMsg) : Bounded b (b.send r m) :=
  (Regular.send (env := ⟨0, .setup, Retained.reset⟩) b r m).bounded

theorem count (b : Blocks) (r : Radio) (f : LinkCounters → LinkCounters) : Bounded b (b.count r f) :=
  modLink b r (fun _ => le_refl _) fun _ => rfl

theorem modSched (b : Blocks) (r : Radio) {f : RadioSched → RadioSched} (h : ∀ x : RadioSched, x.Sound r → (f x).Sound r) :
    Bounded b (b.modSched r f) :=
  (Regular.modSched (env := ⟨0, .setup, Retained.reset⟩) b h).bounded

/-! ### Directives -/

theorem endMoveWait (r : Radio) (b : Blocks) : Bounded b (endMoveWait env r b) := by
  unfold Machine.endMoveWait
  split
  · exact refl _
  · dsimp only
    split
    · exact after (report _ _ _) (modChan _ _ _)
    · exact modChan _ _ _

theorem enterMoveWait (r : Radio) (cells : List Nat) (b : Blocks) : Bounded b (enterMoveWait env r cells b) := by
  unfold Machine.enterMoveWait
  dsimp only
  split
  · exact modChan _ _ _
  · exact after (report _ _ _) (modChan _ _ _)

theorem issueMove (r : Radio) (e : PlanEntry) (why : MoveReason) (b b' : Blocks)
    (h : issueMove env r e why b = some b') : Bounded b b' := by
  unfold Machine.issueMove at h
  split at h
  · cases h
  · cases h
    exact after (send _ _ _) (after (Regular.radioChange _ _ _ _ _).bounded (after (endMoveWait _ _)
      (after (modChan _ _ _) (setCells _ _))))

theorem guardChoice (r : Radio) (b b' : Blocks) (h : guardChoice env r b = some b') : Bounded b b' := by
  unfold Machine.guardChoice at h
  split at h
  · cases h
  · exact issueMove _ _ _ _ _ h

theorem moveRequest (r : Radio) (cells : List Nat) (b : Blocks) : Bounded b (moveRequest env r cells b) := by
  unfold Machine.moveRequest
  repeat' split
  · exact refl _
  · exact refl _
  · exact refl _
  · rename_i h; exact guardChoice _ _ _ h
  · exact enterMoveWait _ _ _

theorem retryMove (r : Radio) (b : Blocks) : Bounded b (retryMove env r b) := by
  unfold Machine.retryMove
  repeat' split
  · exact refl _
  · rename_i h; exact guardChoice _ _ _ h
  · exact enterMoveWait _ _ _
  · exact endMoveWait _ _

theorem endClearedWaits (b : Blocks) : Bounded b (endClearedWaits env b) := by
  refine foldl (fun b r => ?_) _ _
  repeat' split
  · exact refl _
  · exact refl _
  · exact endMoveWait _ _

theorem endLapse (r : Radio) (b : Blocks) : Bounded b (endLapse env r b) := by
  unfold Machine.endLapse
  split
  · exact after (report _ _ _) (modChan _ _ _)
  · exact refl _

theorem setClash (r : Radio) (x : Bool) (b : Blocks) : Bounded b (setClash env r x b) := by
  unfold Machine.setClash
  split
  · exact refl _
  · exact after (report _ _ _) (modChan _ _ _)

theorem resolveClashes (except : Option Radio) (freed : Bool) (b : Blocks) :
    Bounded b (resolveClashes env except freed b) := by
  unfold Machine.resolveClashes
  split
  · refine foldl (fun b r => ?_) _ _
    unfold resolveOne
    dsimp only
    repeat' split
    · exact refl _
    · exact after (setClash _ _ _) (setCells _ _)
    · exact refl _
  · exact refl _

theorem dropDirective (r : Radio) (b : Blocks) : Bounded b (dropDirective r b) := by
  unfold Machine.dropDirective
  split
  · exact after (modChan _ _ _) (setCells _ _)
  · exact refl _

theorem promotionCheck (r : Radio) (b : Blocks) : Bounded b (promotionCheck env r b) := by
  unfold Machine.promotionCheck
  dsimp only
  split
  · exact moveRequest _ _ _
  · exact refl _

theorem restartLane (r : Radio) (b : Blocks) : Bounded b (restartLane r b) :=
  after (modSched _ _ fun _ h => h.setLate _) (modLane _ _ _)

theorem restartIfMoved (r : Radio) (ch : Option Channel) (b : Blocks) : Bounded b (restartIfMoved r ch b) := by
  unfold Machine.restartIfMoved
  split
  · exact refl _
  · exact restartLane _ _

theorem carryOut (r : Radio) (d : Directive) (except : Option Radio) (b : Blocks) :
    Bounded b (carryOut env r d except b) :=
  after (promotionCheck _ _) (after (restartIfMoved _ _ _) (after (Regular.radioChange _ _ _ _ _).bounded
    (after (resolveClashes _ _ _) (after (modChan _ _ _) (setCells _ _)))))

theorem takeMoved (r : Radio) (id : Byte) (b : Blocks) : Bounded b (takeMoved env r id b) := by
  unfold Machine.takeMoved
  repeat' split
  · exact refl _
  · exact carryOut _ _ _ _
  · exact refl _

theorem waitAfterDecline (r : Radio) (why : MoveReason) (b : Blocks) : Bounded b (waitAfterDecline env r why b) := by
  unfold Machine.waitAfterDecline
  dsimp only
  split
  · exact modChan _ _ _
  · exact refl _

theorem takeDecline (r : Radio) (id why : Byte) (b : Blocks) : Bounded b (takeDecline env r id why b) := by
  unfold Machine.takeDecline
  repeat' split
  · exact refl _
  · exact after (waitAfterDecline _ _ _) (after (Regular.radioChange _ _ _ _ _).bounded (after (resolveClashes _ _ _)
      (after (modChan _ _ _) (dropDirective _ _))))
  · exact refl _

theorem lapseRevoke (r : Radio) (b : Blocks) : Bounded b (lapseRevoke env r b) := by
  unfold Machine.lapseRevoke
  exact after (Regular.radioChange _ _ _ _ _).bounded (after (report _ _ _) (after (modChan _ _ _)
    (after (resolveClashes _ _ _) (dropDirective _ _))))

theorem takeLapse (r : Radio) (b : Blocks) : Bounded b (takeLapse env r b) := by
  unfold Machine.takeLapse
  repeat' split
  · exact refl _
  · exact after (report _ _ _) (after (report _ _ _) (carryOut _ _ _ _))
  · exact lapseRevoke _ _
  · exact refl _

theorem tunedAfresh (r : Radio) (x : Option Channel) (b : Blocks) : Bounded b (tunedAfresh env r x b) := by
  have mapped : ∀ b, Bounded b (match x with
      | none => tunedOff env r b
      | some ch => tunedChannel env r ch b) := fun b => by
    cases x with
    | none => exact after (setClash _ _ _) (after (modChan _ _ _) (setCells _ _))
    | some ch =>
      unfold tunedChannel
      dsimp only
      split
      · exact after (setClash _ _ _) (after (modChan _ _ _) (after (setCells _ _) (setCells _ _)))
      · exact after (setClash _ _ _) (after (modChan _ _ _) (setCells _ _))
  exact after (restartIfMoved _ _ _) (after (Regular.radioChange _ _ _ _ _).bounded (after (resolveClashes _ _ _)
    (after (mapped _) (dropDirective _ _))))

theorem takeTuned (r : Radio) (x : Option Channel) (b : Blocks) : Bounded b (takeTuned env r x b) := by
  have ended : Bounded b (Machine.endLapse env r (Machine.endMoveWait env r b)) := after (endLapse _ _) (endMoveWait _ _)
  unfold Machine.takeTuned
  dsimp only
  repeat' split
  · exact after (carryOut _ _ _ _) ended
  · exact after (tunedAfresh _ _ _) ended
  · exact after (tunedAfresh _ _ _) ended

theorem resolveAndReview (airs : List AirId) (freed : Bool) (b : Blocks) :
    Bounded b (resolveAndReview env airs freed b) :=
  after (Regular.retestAndReview _ _ _).bounded (resolveClashes _ _ _)

theorem clearContext (r : Radio) (b : Blocks) : Bounded b (clearContext env r b) :=
  after (endLapse _ _) (after (setClash _ _ _) (after (endMoveWait _ _)
    (after (modChan _ _ _) (after (setCells _ _) (dropDirective _ _)))))

theorem restartContext (r : Radio) (b : Blocks) : Bounded b (restartContext env r b) :=
  after (restartIfMoved _ _ _) (after (resolveAndReview _ _ _) (after (clearContext _ _) (after (modChan _ _ _)
    (Regular.endSession _ _).bounded)))

theorem withdrawRadio (r : Radio) (b : Blocks) : Bounded b (withdrawRadio env r b) :=
  after (restartIfMoved _ _ _) (after (resolveAndReview _ _ _) (after (Regular.withdrawSched _ _).bounded
    (after (setMonitor _ _) (after (clearContext _ _) (modChan _ _ _)))))

/-! ### Releases, guard changes, the tracker, surveys and batches -/

theorem lateRelease (r : Radio) (b : Blocks) : Bounded b (lateRelease env r b) := by
  have counted : Bounded b ((b.count r LinkCounters.lateRelease).modSched r fun x =>
      { x with lateCount := satAdd 255 ((b.count r LinkCounters.lateRelease).sched.radios.get r).lateCount 1 }) :=
    after (modSched _ _ fun _ h => h.setLate _) (count _ _ _)
  unfold Machine.lateRelease
  dsimp only
  split
  · exact after (report _ _ _) (after (modSched _ _ fun _ h => h.setOverrun _) counted)
  · exact counted

theorem deadRelease (r : Radio) (id : Byte) (b : Blocks) : Bounded b (deadRelease env r id b) := by
  have forgotten : Bounded b (b.modSched r fun x => { x with lastEnded := none }) := modSched _ _ fun _ h => h.setLast _
  unfold Machine.deadRelease
  dsimp only
  repeat' split
  · exact count _ _ _
  · exact after (lateRelease _ _) forgotten
  · exact forgotten
  · exact count _ _ _

theorem takeRelease (r : Radio) (id : Byte) (b : Blocks) : Bounded b (takeRelease env r id b) := by
  unfold Machine.takeRelease
  dsimp only
  split
  · exact (Regular.after (Regular.reviewAirs _ _) (Regular.after (Regular.setLastEnded _ _ _ _ _)
      (Regular.endGrantOf _ _ _))).bounded
  · split
    · exact modSched _ _ fun _ h => h.fewer (List.Sublist.refl _) (List.Sublist.refl _) List.filter_sublist
    · split
      · exact after (Regular.reviewAirs _ _).bounded (modSched _ _ fun _ h => h.dropWait _)
      · split
        · exact after (Regular.reviewAirs _ _).bounded
            (modSched _ _ fun _ h => h.fewer (List.Sublist.refl _) List.filter_sublist (List.Sublist.refl _))
        · exact deadRelease _ _ _

theorem deliverGuardChange (changed risen : List Nat) (b : Blocks) :
    Bounded b (deliverGuardChange env changed risen b) := by
  unfold Machine.deliverGuardChange
  dsimp only
  split
  · exact (Regular.takeGuardChange _ _).bounded
  · refine after (foldl (fun b r => ?_) _ _) (after (endClearedWaits _) (Regular.takeGuardChange _ _).bounded)
    unfold requestMove
    dsimp only
    split
    · exact refl _
    · exact moveRequest _ _ _

theorem settleMonitor (env0 : Env) (m0 : Monitor) (b : Blocks) : Bounded b (settleMonitor env0 m0 env b) := by
  have shaped : ∀ on b, Bounded b (takeShaping env on b) := fun on b =>
    after (Regular.applyShaping (env := env) _).bounded (same rfl rfl)
  unfold Machine.settleMonitor
  dsimp only
  repeat' split
  · exact refl _
  · exact deliverGuardChange _ _ _
  · exact shaped _ _
  · exact after (shaped _ _) (deliverGuardChange _ _ _)

theorem monitorEvent (f : Monitor → Monitor) (b : Blocks) : Bounded b (monitorEvent env f b) :=
  after (settleMonitor _ _ _) (same rfl rfl)

theorem trackerEvent (j : Judged) (b : Blocks) : Bounded b (trackerEvent env j b) := by
  have placed : Bounded b { b with tracker := j.tracker } := same rfl rfl
  have predicted : ∀ p b, Bounded b (takePrediction env p b) := fun p b =>
    after (Regular.applyShaping (env := env) _).bounded (same rfl rfl)
  unfold Machine.trackerEvent
  dsimp only
  repeat' split
  · exact after (monitorEvent _ _) placed
  · exact placed
  · exact after (predicted _ _) (after (monitorEvent _ _) placed)
  · exact after (predicted _ _) placed

theorem completeSurvey (r : Radio) (ch : Channel) (b : Blocks) : Bounded b (completeSurvey env r ch b) := by
  have scored : Bounded b (scoreSurvey env ch (b.lanes.get r).survey b) := by
    unfold scoreSurvey
    split
    · exact refl _
    · exact after (monitorEvent _ _) (same rfl rfl)
  exact after (modLane _ _ _) (after (retryMove _ _) (after (modSched _ _ fun _ h => h.setLate _) (after (report _ _ _)
    (after (modSched _ _ fun _ h => h.setOverrun _) scored))))

theorem handler {b : Blocks} {r : Radio} {f : Blocks → Blocks} (h : Handler env r f) : Bounded b (f b) := by
  cases h with
  | keepalive => exact refl _
  | samples t levels =>
    exact takeBatch_induct (P := Bounded b) (fun _ _ h => after (modLane _ _ _) h) (fun _ _ h => after (trackerEvent _ _) h)
      (fun _ _ h => after (completeSurvey _ _ _) h) (fun _ _ h => after (count _ _ _) h) t levels b (refl b)
  | heard x =>
    exact takeHeard_induct (P := Bounded b) (fun _ _ h => after (modLane _ _ _) h) (fun _ _ h => after (modSurvey _ _) h)
      (fun _ _ _ _ _ h => after (modSurvey _ _) h) x b (refl b)
  | request ask => exact (Regular.takeRequest _ _ _).bounded
  | release id => exact takeRelease _ _ _
  | tuned start width =>
    unfold tunedMessage
    dsimp only
    repeat' split
    · exact refl _
    · exact takeTuned _ _ _
    · exact takeTuned _ _ _
    · exact count _ _ _
  | moved id => exact takeMoved _ _ _
  | decline id reason => exact takeDecline _ _ _ _

/-! ### Links -/

theorem hunt (r : Radio) (b : Blocks) : Bounded b (b.hunt r) := modLink b r (fun _ => le_refl _) fun _ => rfl

theorem restartLiveness (r : Radio) (b : Blocks) : Bounded b (restartLiveness env r b) :=
  modLink b r (fun _ => le_refl _) fun _ => rfl

theorem setReq (r : Radio) (x : Bool) (b : Blocks) : Bounded b (setReq r x b) := modLink b r (fun _ => le_refl _) fun _ => rfl

theorem purgeQueue (r : Radio) (b : Blocks) : Bounded b (purgeQueue r b) :=
  modLink b r (fun _ => List.length_filter_le _ _) fun _ => rfl

theorem receive {b : Blocks} {r : Radio} {f : Blocks → Blocks} (h : Handler env r f) : Bounded b (receive env r f b) := by
  unfold Machine.receive
  dsimp only
  split
  · exact after (handler h) (after (restartLiveness _ _) (hunt _ _))
  · exact after (send _ _ _) (hunt _ _)

theorem takeHello (r : Radio) (version : Byte) (x : Capability) (b : Blocks) :
    Bounded b (takeHello env r version x b) := by
  have capable : ∀ b y, Bounded b (b.modLink r fun k => { k with capability := y }) := fun b y =>
    modLink b r (fun _ => le_refl _) fun _ => rfl
  have ended : ∀ b, Bounded b (endLinkSource env r b) := fun b => by
    unfold endLinkSource
    split
    · exact after (report _ _ _) (modLink _ r (fun _ => le_refl _) fun _ => rfl)
    · exact refl _
  have upped : ∀ b, Bounded b (b.modLink r fun k => { k with capability := some x, port := .up }) := fun b =>
    modLink b r (fun _ => le_refl _) fun _ => rfl
  have opened : ∀ b, Bounded b (helloOpens env r x b) := fun b =>
    after (Regular.reviewAirs _ _).bounded (after (send _ _ _) (after (ended _) (after (restartLiveness _ _) (upped b))))
  have restarted : ∀ b, Bounded b (helloRestarts env r x b) := fun b =>
    after (send _ _ _) (after (capable _ _) (after (restartContext _ _) (purgeQueue _ _)))
  have begun : Bounded b (if ((b.hunt r).links.get r).port == .up then Machine.restartLiveness env r (b.hunt r) else b.hunt r) := by
    split
    · exact after (restartLiveness _ _) (hunt _ _)
    · exact hunt _ _
  unfold Machine.takeHello
  dsimp only
  split
  · exact after (count _ _ _) begun
  · split
    · exact after (restarted _) (after (restartLiveness _ _) (hunt _ _))
    · exact after (opened _) (hunt _ _)

theorem loseLink (r : Radio) (b : Blocks) : Bounded b (loseLink env r b) :=
  after (restartLane _ _) (after (resolveAndReview _ _ _) (after (endMoveWait _ _) (after (dropDirective _ _)
    (after (Regular.endSession _ _).bounded (after (report _ _ _) (after (purgeQueue _ _)
      (modLink b r (fun _ => le_refl _) fun _ => rfl)))))))

theorem issueMark (r : Radio) (b : Blocks) : Bounded b (issueMark env r b) := by
  unfold Machine.issueMark
  split
  · exact after (send _ _ _) (modLink b r (fun _ => le_refl _) fun _ => rfl)
  · exact refl _

/-- Every event but the start of a message keeps the bounds. -/
theorem event {b b' : Blocks} (h : Event env b b') : (∃ r, b' = b.modLink r fun k => k.transmit env.now) ∨ Bounded b b' := by
  cases h with
  | transmit r => exact .inl ⟨r, rfl⟩
  | nothing => exact .inr (refl _)
  | status => exact .inr (setMonitor _ _)
  | monitor f h => exact .inr (monitorEvent _ _)
  | forget => exact .inr (modSurvey _ _)
  | clear r => exact .inr (after (count _ _ _) (modLane _ _ _))
  | move r e _ can free h => exact .inr (issueMove _ _ _ _ _ h)
  | withdraw r => exact .inr (withdrawRadio _ _)
  | restore r => exact .inr (modChan _ _ _)
  | sync r => exact .inr (modLink b r (fun _ => le_refl _) fun _ => rfl)
  | error r => exact .inr (after (count _ _ _) (hunt _ _))
  | hello r version x => exact .inr (takeHello _ _ _ _)
  | message r f h => exact .inr (receive h)
  | reqHigh r => exact .inr (setReq _ _ _)
  | assertion r => exact .inr (after (Regular.assertInRun _ _).bounded (setReq _ _ _))
  | release r => exact .inr (after (Regular.finishHold _ _).bounded (setReq _ _ _))
  | mark r => exact .inr (issueMark _ _)
  | loss r => exact .inr (loseLink _ _)
  | streamLapse r => exact .inr (modLane _ _ _)
  | anchor due => exact .inr (same rfl rfl)
  | onset => exact .inr (trackerEvent _ _)
  | sweep => exact .inr (modSurvey _ _)
  | review a => exact .inr (Regular.reviewAir a b).bounded
  | waitLimit r id t => exact .inr (Regular.waitLimit (env := env) r id t b).bounded
  | start a => exact .inr (Regular.grantStarts (env := env) a b).bounded
  | expire r => exact .inr (Regular.expireGrant r b).bounded
  | expirePass r g => exact .inr (Regular.expirePass (env := env) r g b).bounded
  | lastEnded r => exact .inr (modSched b r fun _ h => h.setLast _)
  | holdEnd a =>
    have ended : Bounded b (b.modAir a fun x => { x with hold := none }) :=
      (Regular.modAirKeep (env := env) (f := fun x => { x with hold := none }) b fun _ => .inl rfl).bounded
    exact .inr (after (Regular.reviewAir a _).bounded ended)
  | lapse r => exact .inr (takeLapse _ _)
  | declineHold r => exact .inr (modChan _ _ _)

theorem freshReports (b : Blocks) : Bounded b (freshReports env b) := foldl (fun b _ => report b _ _) _ _

theorem runBlocks (env : Env) (b : Blocks) : Bounded b (runBlocks env b) :=
  after (Regular.schedToRun _).bounded (after (freshReports _) (setMonitor _ _))

theorem setupBlocks (env : Env) (b : Blocks) : Bounded b (setupBlocks env b) :=
  after (Regular.schedToSetup _).bounded (after (freshReports _) (after (settleMonitor _ _ _) (after (setMonitor _ _)
    (foldl (fun b r => endMoveWait r b) _ _))))

end Bounded

/-! ## The requests and the queues -/

theorem Link.transmit_queue_length (now : Time) (k : Link) : (k.transmit now).queue.length ≤ k.queue.length := by
  unfold Link.transmit
  split
  · exact le_refl _
  · rename_i queued
    split
    · simp [queued]
    · exact le_refl _

theorem Event.requestsSound {env : Env} {b b' : Blocks} (g : Event env b b') (h : requestsSound b) : requestsSound b' := by
  rcases Bounded.event g with ⟨r, rfl⟩ | kept
  · exact h
  · exact fun r => kept.requests r (h r)

theorem Event.queuesBounded {env : Env} {b b' : Blocks} (g : Event env b b') (h : queuesBounded b) : queuesBounded b' := by
  rcases Bounded.event g with ⟨r, rfl⟩ | kept
  · intro q
    rw [Blocks.modLink_links, PerRadio.get_modify]
    split
    · exact (Link.transmit_queue_length _ _).trans (h r)
    · exact h q
  · exact fun r => kept.queues r (h r)

theorem Blocks.reset_requestsSound (x : PerRadio Bool) : requestsSound (Blocks.reset x) := fun r => by
  cases r <;> exact RadioSched.Sound.reset _

theorem Blocks.reset_queuesBounded (x : PerRadio Bool) : queuesBounded (Blocks.reset x) := fun r => by
  rw [Blocks.reset_links_get]
  exact Nat.zero_le _

theorem Effect.requestsSound {env env' : Env} {b b' : Blocks} (g : Effect env b env' b') (h : requestsSound b) :
    requestsSound b' := by
  cases g with
  | event _ g => exact g.requestsSound h
  | reset | softReset => exact Blocks.reset_requestsSound _
  | tick | configured | own => exact h
  | tracking => exact fun r => (Bounded.trackerEvent _ _).requests r (h r)
  | run => exact fun r => (Bounded.runBlocks _ _).requests r (h r)
  | setup => exact fun r => (Bounded.setupBlocks _ _).requests r (h r)

theorem Effect.queuesBounded {env env' : Env} {b b' : Blocks} (g : Effect env b env' b') (h : queuesBounded b) :
    queuesBounded b' := by
  cases g with
  | event _ g => exact g.queuesBounded h
  | reset | softReset => exact Blocks.reset_queuesBounded _
  | tick =>
    intro r
    rw [PerRadio.get_map, Link.idleLine_queue]
    exact h r
  | configured | own => exact h
  | tracking => exact fun r => (Bounded.trackerEvent _ _).queues r (h r)
  | run => exact fun r => (Bounded.runBlocks _ _).queues r (h r)
  | setup => exact fun r => (Bounded.setupBlocks _ _).queues r (h r)

/-! ## The lines (R148, R150; log 10) -/

theorem leBytes_length (n x : Nat) : (leBytes n x).length = n := by
  induction n generalizing x with
  | zero => rfl
  | succ n ih => rw [leBytes, List.length_cons, ih]

/-- The longest message to a radio, GRANT, is 16 bytes long (R168). -/
theorem OutMsg.bytes_length_le (m : OutMsg) (stamp : Time) : (m.bytes stamp).length ≤ 16 := by
  cases m <;> simp [OutMsg.bytes, OutMsg.fields, envelope, u8, u16, timeBytes, flagByte, channelBytes, leBytes_length]

/-- What one link's line holds: a message that ends now or within 8 µs. -/
def Link.lineCurrent (now : Time) (k : Link) : Prop :=
  ∀ x, k.sending = some x → (x.freeAt - now).toNat ≤ 8 ∧ x.freeTwelfths < 12

/-- A message begins at most 11 twelfths into a microsecond and lasts at most 80. -/
theorem beginSending_current {now : Time} {k : Link} (h : k.lineCurrent now) (m : OutMsg) :
    ((beginSending now m k.sending).freeAt - now).toNat ≤ 8 ∧ (beginSending now m k.sending).freeTwelfths < 12 := by
  have length := m.bytes_length_le now
  obtain ⟨lead, hlead, eq⟩ : ∃ lead, lead < 12 ∧ beginSending now m k.sending =
      ⟨m.bytes now, now, Time.plus now ((lead + 5 * (m.bytes now).length) / 12),
        (lead + 5 * (m.bytes now).length) % 12⟩ := by
    unfold beginSending
    cases line : k.sending with
    | none => exact ⟨0, by omega, rfl⟩
    | some x =>
      dsimp only
      split
      · exact ⟨_, (h x line).2, rfl⟩
      · exact ⟨0, by omega, rfl⟩
  rw [eq]
  refine ⟨?_, Nat.mod_lt _ (by omega)⟩
  generalize hn : (lead + 5 * (m.bytes now).length) / 12 = n
  have small : n ≤ 8 := by omega
  show (Time.plus now n - now).toNat ≤ 8
  unfold Time.plus
  rw [add_sub_cancel_left, BitVec.toNat_ofNat]
  exact (Nat.mod_le _ _).trans small

theorem Link.lineCurrent.transmit {now : Time} {k : Link} (h : k.lineCurrent now) : (k.transmit now).lineCurrent now := by
  unfold Link.transmit
  split
  · exact h
  · split
    · intro x hx
      cases hx
      exact beginSending_current h _
    · exact h

/-- A microsecond later a line is nearer its end, or was at it and is idle. -/
theorem Link.lineCurrent.idleLine {now : Time} {k : Link} (h : k.lineCurrent now) :
    (k.idleLine (Time.plus now 1)).lineCurrent (Time.plus now 1) := by
  rw [Link.idleLine_eq]
  intro x hx
  obtain ⟨line, busy⟩ := Option.filter_eq_some_iff.mp hx
  obtain ⟨near, twelfths⟩ := h x line
  refine ⟨?_, twelfths⟩
  have ahead : x.freeAt ≠ now := by
    rintro rfl
    have past : Time.before x.freeAt (Time.plus x.freeAt 1) = true := by
      rw [Time.before_iff]
      unfold Time.plus
      constructor
      · rw [add_sub_cancel_left]; decide
      · bv_omega
    simp [past] at busy
  unfold Time.plus
  bv_omega

theorem Event.linesCurrent {env : Env} {b b' : Blocks} (g : Event env b b') (h : linesCurrent env.now b) :
    linesCurrent env.now b' := by
  rcases Bounded.event g with ⟨r, rfl⟩ | kept
  · intro q x
    rw [Blocks.modLink_links, PerRadio.get_modify]
    split
    · exact Link.lineCurrent.transmit (h r) x
    · exact h q x
  · intro r x
    rw [kept.sending]
    exact h r x

theorem Blocks.reset_linesCurrent (now : Time) (x : PerRadio Bool) : linesCurrent now (Blocks.reset x) := fun r y => by
  rw [Blocks.reset_links_get]
  rintro ⟨⟩

theorem Effect.linesCurrent {env env' : Env} {b b' : Blocks} (g : Effect env b env' b') (h : linesCurrent env.now b) :
    linesCurrent env'.now b' := by
  cases g with
  | event _ g => exact g.linesCurrent h
  | reset | softReset => exact Blocks.reset_linesCurrent _ _
  | tick =>
    intro r
    rw [PerRadio.get_map]
    exact Link.lineCurrent.idleLine (h r)
  | configured | own => exact h
  | tracking => exact fun r x line => h r x ((Bounded.trackerEvent _ _).sending r ▸ line)
  | run => exact fun r x line => h r x ((Bounded.runBlocks _ _).sending r ▸ line)
  | setup => exact fun r x line => h r x ((Bounded.setupBlocks _ _).sending r ▸ line)

/-! ## The condition list and the neighbour table -/

theorem trackerEvent_survey (env : Env) (j : Judged) (b : Blocks) : (trackerEvent env j b).survey = b.survey :=
  (trackerEvent_spec env j b).2.1

theorem framed_survey {env : Env} : Framed env fun b => b.survey.Sound where
  directed g h := g.survey ▸ h
  link _ _ h := h
  status h := h
  change _ h := by rw [monitorEvent_survey]; exact h
  crowd _ _ h := by rw [monitorEvent_survey]; exact h
  forgetRadio _ h := h
  survey g h := by
    cases g with
    | count g => exact ⟨h.length, h.ids⟩
    | enter r ch x bss tag => exact h.enter _ _ _ _ _ _
    | sweep => exact h.sweep env
    | shrink f shrinks => exact h.of_sublist (shrinks _)
    | crowding l => exact ⟨h.length, h.ids⟩
  anchor _ h := h
  onset h := by rw [trackerEvent_survey]; exact h
  hand _ h := by rw [show takeHandOff env _ _ = trackerEvent env _ _ from rfl, trackerEvent_survey]; exact h

theorem Monitor.Sound.event {env : Env} {b : Blocks} {f : Monitor → Monitor} (h : (f b.monitor).Sound) :
    (monitorEvent env f b).monitor.Sound := Monitor.Sound.radioReported (Settled.monitorEvent f b).monitor h

theorem Monitor.Sound.trackerEvent {env : Env} {b : Blocks} (h : b.monitor.Sound) (j : Judged) :
    (trackerEvent env j b).monitor.Sound := by
  obtain ⟨_, _, _, reported⟩ := trackerEvent_spec env j b
  refine Monitor.Sound.radioReported reported ?_
  unfold afterOvenReport
  split
  · exact h.reportOven _ _ _
  · exact h

theorem framed_monitor {env : Env} : Framed env fun b => b.monitor.Sound where
  directed g h := Monitor.Sound.radioReported g.monitor h
  link _ _ h := h
  status h := ⟨h.length, h.keys, h.ranges⟩
  change g h := by
    refine Monitor.Sound.event ?_
    cases g with
    | read first count => exact h.markRead _ _
    | unlatch key => exact h.removed key
    | filter key => exact h.filterExpires env key
    | extension key => exact h.extensionExpires env key
  crowd ch l h := Monitor.Sound.event (crowdingReports_sound h env ch l)
  forgetRadio r h := h.forgetRadio r
  survey _ h := h
  anchor _ h := h
  onset h := h.trackerEvent _
  hand _ h := h.trackerEvent _

theorem setupBlocks_survey (env : Env) (b : Blocks) : (setupBlocks env b).survey = b.survey := by
  rw [(Directed.setupBlocks env b).survey, (Settled.settleMonitor _ _ _).survey]
  exact (Directed.waitsEnded env b).survey

theorem Effect.surveySound {env env' : Env} {b b' : Blocks} (g : Effect env b env' b') (h : b.survey.Sound) :
    b'.survey.Sound := by
  cases g with
  | event _ g => exact framed_survey.event g h
  | reset | softReset => exact ⟨Nat.zero_le _, List.nodup_nil⟩
  | tick | configured => exact h
  | own i entry f shrinks => exact h.of_sublist (shrinks _)
  | tracking => rw [trackerEvent_survey]; exact h
  | run => rw [(Directed.runBlocks env b).survey]; exact h
  | setup => rw [setupBlocks_survey]; exact h

theorem Effect.monitorSound {env env' : Env} {b b' : Blocks} (g : Effect env b env' b') (h : b.monitor.Sound) :
    b'.monitor.Sound := by
  cases g with
  | event _ g => exact framed_monitor.event g h
  | reset | softReset => exact Monitor.Sound.emptied ⟨[], false, none⟩
  | tick | configured | own => exact h
  | tracking => exact h.trackerEvent _
  | run => exact Monitor.Sound.radioReported (Directed.runBlocks env b).monitor (Monitor.Sound.emptied _)
  | setup =>
    exact Monitor.Sound.radioReported (Directed.setupBlocks env b).monitor
      (Monitor.Sound.radioReported (Settled.settleMonitor _ _ _).monitor (Monitor.Sound.emptied _))

/-- Settles O57: each bound for itself, the condition list and the neighbour table by what the monitor and the survey unit do,
the requests and the queues by the scheduler's rules, the lines by the length of a message. -/
theorem stepKeepsBounds : Obligations.StepKeepsBounds := by
  intro s t next
  have g := step_effect next
  exact ⟨g.monitorSound, g.surveySound, g.requestsSound, g.queuesBounded, g.linesCurrent⟩

end Sys2Proof.Machine
end

