-- ==== Sys2Proof/Proofs/GrantsHome.lean ====
section
/-! PROOF. An air's grant is of a radio whose air it is (R102, R122), and O58. A radio leaves its air first and loses its grant
next: in between its one grant is away from home, and no other radio's. -/

namespace Sys2Proof.Machine

/-- The grants are at home, with the sound requests from which a review takes its candidates. -/
structure Home (env : Env) (b : Blocks) : Prop where
  requests : requestsSound b
  grants : grantsHome env b

/-- Every grant is at home but one that a radio may have left behind. -/
structure HomeBut (env : Env) (r : Radio) (b : Blocks) : Prop where
  requests : requestsSound b
  grants : ∀ a g, (b.air a).grant = some g → g.radio ≠ r → airOf env b g.radio = some a
  single : ∀ a c g h, (b.air a).grant = some g → (b.air c).grant = some h → g.radio = r → h.radio = r → a = c

/-- Every grant is at home and none is a certain radio's. -/
structure HomeWithout (env : Env) (r : Radio) (b : Blocks) : Prop where
  requests : requestsSound b
  grants : ∀ a g, (b.air a).grant = some g → g.radio ≠ r ∧ airOf env b g.radio = some a

/-- Nothing happens to what the airs hold, the requests stay sound, and of the radios of a certain sort none leaves its air. -/
structure Reseat (env : Env) (sort : Radio → Prop) (b b' : Blocks) : Prop where
  airs : ∀ a, (b'.air a).grant = (b.air a).grant
  requests : ∀ r, (b.sched.radios.get r).Sound r → (b'.sched.radios.get r).Sound r
  stay : ∀ q a, sort q → airOf env b q = some a → airOf env b' q = some a

variable {env : Env}

theorem Home.but {b : Blocks} (h : Home env b) (r : Radio) : HomeBut env r b := by
  refine ⟨h.requests, fun a g hg _ => h.grants a g hg, fun a c g g' hg hg' e e' => ?_⟩
  have ha := h.grants a g hg
  have hc := h.grants c g' hg'
  rw [e] at ha
  rw [e', ha] at hc
  exact Option.some.inj hc

theorem HomeWithout.home {b : Blocks} {r : Radio} (h : HomeWithout env r b) : Home env b :=
  ⟨h.requests, fun a g hg => (h.grants a g hg).2⟩

theorem Regular.home {b b' : Blocks} (g : Regular True env b b') (h : Home env b) : Home env b' := by
  refine ⟨fun r => g.requests r (h.requests r), fun a x hx => ?_⟩
  rw [g.only.airOf]
  rcases g.grants (fun _ => h.requests) trivial a x hx with ⟨y, hy, same⟩ | member
  · rw [← same]; exact h.grants a y hy
  · exact member

theorem Reseat.home {b b' : Blocks} (g : Reseat env (fun _ => True) b b') (h : Home env b) : Home env b' :=
  ⟨fun r => g.requests r (h.requests r), fun a x hx => g.stay _ _ trivial (h.grants a x (g.airs a ▸ hx))⟩

theorem Reseat.homeBut {b b' : Blocks} {r : Radio} (g : Reseat env (· ≠ r) b b') (h : HomeBut env r b) : HomeBut env r b' :=
  ⟨fun q => g.requests q (h.requests q), fun a x hx other => g.stay _ _ other (h.grants a x (g.airs a ▸ hx) other),
    fun a c x y hx hy => h.single a c x y (g.airs a ▸ hx) (g.airs c ▸ hy)⟩

theorem Reseat.homeWithout {b b' : Blocks} {r : Radio} (g : Reseat env (· ≠ r) b b') (h : HomeWithout env r b) :
    HomeWithout env r b' :=
  ⟨fun q => g.requests q (h.requests q), fun a x hx =>
    have ⟨other, home⟩ := h.grants a x (g.airs a ▸ hx)
    ⟨other, g.stay _ _ other home⟩⟩

/-! ## The grant that a radio has -/

theorem mem_airIds (a : AirId) : a ∈ airIds := by cases a <;> decide

theorem grantAir_some {b : Blocks} {r : Radio} {a : AirId} (h : grantAir b r = some a) :
    ∃ g, (b.air a).grant = some g ∧ g.radio = r := by
  have found := List.find?_some h
  split at found
  · cases found
  · rename_i g hg
    exact ⟨g, hg, by simpa using found⟩

theorem grantAir_none {b : Blocks} {r : Radio} (h : grantAir b r = none) {a : AirId} {g : Grant}
    (hg : (b.air a).grant = some g) : g.radio ≠ r := by
  have missed := List.find?_eq_none.mp h a (mem_airIds a)
  rw [hg] at missed
  simpa using missed

/-- The end of one air's grant with a CUT, which changes no other air. -/
theorem cutGrant_air (env : Env) (a c : AirId) (b : Blocks) :
    ((cutGrant env a b).air c).grant = if c = a then none else (b.air c).grant := by
  unfold cutGrant
  split
  · rename_i none
    split
    · rename_i e; rw [e]; exact none
    · rfl
  · by_cases e : c = a
    · subst e; simp
    · simp [e]

theorem dropGrant_air (a c : AirId) (b : Blocks) :
    ((dropGrant a b).air c).grant = if c = a then none else (b.air c).grant := by
  unfold dropGrant
  by_cases e : c = a
  · subst e; simp
  · simp [e]

/-- Ending a radio's grant ends that one grant: what the airs hold after it is what they held that is not the radio's. -/
theorem HomeBut.endGrantOf {b : Blocks} {r : Radio} (h : HomeBut env r b) (how : GrantEnd) :
    HomeWithout env r (endGrantOf env r how b) := by
  have regular : Regular False env b (Machine.endGrantOf env r how b) := Regular.endGrantOf r how b
  refine ⟨fun q => regular.requests q (h.requests q), fun c x hx => ?_⟩
  rw [regular.only.airOf]
  have kept : (b.air c).grant = some x ∧ x.radio ≠ r := by
    unfold Machine.endGrantOf at hx
    split at hx
    · rename_i none
      exact ⟨hx, grantAir_none none hx⟩
    · rename_i a found
      obtain ⟨g, hg, mine⟩ := grantAir_some found
      have left : ∀ b' : Blocks, (b'.air c).grant = (if c = a then none else (b.air c).grant) → (b'.air c).grant = some x →
          (b.air c).grant = some x ∧ x.radio ≠ r := by
        intro b' eq hx
        rw [eq] at hx
        split at hx
        · cases hx
        · rename_i other
          exact ⟨hx, fun e => other (h.single c a x g hx hg e mine)⟩
      cases how with
      | silent => exact left _ (dropGrant_air a c b) hx
      | cut => exact left _ (cutGrant_air env a c b) hx
  exact ⟨kept.2, h.grants c x kept.1 kept.2⟩

/-! ## What seats no radio elsewhere -/

namespace Reseat

variable {sort : Radio → Prop}

theorem refl (b : Blocks) : Reseat env sort b b := ⟨fun _ => rfl, fun _ h => h, fun _ _ _ h => h⟩

theorem after {a b c : Blocks} (g : Reseat env sort b c) (h : Reseat env sort a b) : Reseat env sort a c :=
  ⟨fun x => (g.airs x).trans (h.airs x), fun r x => g.requests r (h.requests r x),
    fun q x s m => g.stay q x s (h.stay q x s m)⟩

theorem foldl {α : Type} {f : Blocks → α → Blocks} (h : ∀ b x, Reseat env sort b (f b x)) (l : List α) (b : Blocks) :
    Reseat env sort b (l.foldl f b) := by
  induction l generalizing b with
  | nil => exact refl b
  | cons x xs ih => exact after (ih _) (h b x)

/-- What leaves the scheduler, the channel states and the ports alone. -/
theorem same {b b' : Blocks} (hs : b'.sched.airs = b.sched.airs) (hr : b'.sched.radios = b.sched.radios)
    (hc : b'.chans = b.chans) (hl : ∀ r, (b'.links.get r).port = (b.links.get r).port) : Reseat env sort b b' := by
  refine ⟨fun a => ?_, fun r h => ?_, fun q a _ h => ?_⟩
  · unfold Blocks.air; rw [hs]
  · rw [hr]; exact h
  · unfold airOf eligible at h ⊢
    rw [hc, hl]
    exact h

theorem setCells (b : Blocks) (cells : List CellRecord) : Reseat env sort b { b with cells := cells } := same rfl rfl rfl fun _ => rfl
theorem setMonitor (b : Blocks) (m : Monitor) : Reseat env sort b { b with monitor := m } := same rfl rfl rfl fun _ => rfl
theorem report (b : Blocks) (key : CondKey) (x : Bool) : Reseat env sort b (b.report env key x) := same rfl rfl rfl fun _ => rfl
theorem modLane (b : Blocks) (r : Radio) (f : Lane → Lane) : Reseat env sort b (b.modLane r f) := same rfl rfl rfl fun _ => rfl
theorem modSurvey (b : Blocks) (f : SurveyUnit → SurveyUnit) : Reseat env sort b (b.modSurvey f) := same rfl rfl rfl fun _ => rfl

theorem setShaping (b : Blocks) (on : Bool) : Reseat env sort b { b with sched := { b.sched with shaping := on } } :=
  same rfl rfl rfl fun _ => rfl
theorem setPrediction (b : Blocks) (p : Prediction) : Reseat env sort b { b with sched := { b.sched with prediction := p } } :=
  same rfl rfl rfl fun _ => rfl
theorem setScores (b : Blocks) (cells : List CellRecord) (u : SurveyUnit) :
    Reseat env sort b { b with cells := cells, survey := u } := same rfl rfl rfl fun _ => rfl
theorem setTracker (b : Blocks) (t : Tracker) : Reseat env sort b { b with tracker := t } := same rfl rfl rfl fun _ => rfl

/-- A link changed but for its port. -/
theorem modLink (b : Blocks) (r : Radio) {f : Link → Link} (h : ∀ k : Link, (f k).port = k.port) :
    Reseat env sort b (b.modLink r f) :=
  same rfl rfl rfl fun q => by
    rw [Blocks.modLink_links, PerRadio.get_modify]
    split
    · rename_i e; subst e; exact h _
    · rfl

/-- A channel state changed so that its radio stays in its air. -/
theorem modChanAt {b : Blocks} {r : Radio} {f : ChanState → ChanState}
    (h : sort r → ∀ a, airOf env b r = some a → airOf env (b.modChan r f) r = some a) : Reseat env sort b (b.modChan r f) := by
  refine ⟨fun _ => rfl, fun _ h => h, fun q a s m => ?_⟩
  by_cases e : q = r
  · subst e; exact h s a m
  · unfold airOf eligible at m ⊢
    rw [Blocks.modChan_chans, PerRadio.get_modify_other _ _ e, Blocks.modChan_links]
    exact m

/-- A channel state changed but for its channel and the clash, isolated and withdrawn flags. -/
theorem modChan (b : Blocks) (r : Radio) {f : ChanState → ChanState}
    (h : ∀ c : ChanState, (f c).operating = c.operating ∧ (f c).clash = c.clash ∧ (f c).isolated = c.isolated
      ∧ (f c).withdrawn = c.withdrawn) : Reseat env sort b (b.modChan r f) :=
  modChanAt fun _ a m => by
    obtain ⟨operating, clash, isolated, withdrawn⟩ := h (b.chans.get r)
    simp only [airOf, eligible] at m ⊢
    simp only [Blocks.modChan_chans, PerRadio.get_modify_same, Blocks.modChan_links, operating, clash, isolated, withdrawn]
    exact m

/-- A radio's channel state changed, where only the other radios' airs matter. -/
theorem modChanOf (b : Blocks) (r : Radio) (f : ChanState → ChanState) : Reseat env (· ≠ r) b (b.modChan r f) :=
  modChanAt fun s => absurd rfl s

/-- A radio's link changed, where only the other radios' airs matter. -/
theorem modLinkOf (b : Blocks) (r : Radio) (f : Link → Link) : Reseat env (· ≠ r) b (b.modLink r f) := by
  refine ⟨fun _ => rfl, fun _ h => h, fun q a s m => ?_⟩
  unfold airOf eligible at m ⊢
  rw [Blocks.modLink_links, PerRadio.get_modify_other _ _ s, Blocks.modLink_chans]
  exact m

/-- A change of what is kept for one radio but its requests. -/
theorem modSched (b : Blocks) (r : Radio) {f : RadioSched → RadioSched} (h : ∀ x : RadioSched, x.Sound r → (f x).Sound r) :
    Reseat env sort b (b.modSched r f) :=
  have regular : Regular False env b (b.modSched r f) := Regular.modSched b h
  ⟨fun _ => rfl, regular.requests, fun q a _ m => by rw [regular.only.airOf]; exact m⟩

/-- A clash flag that clears: a clashed radio was in no air. -/
theorem clearClash (b : Blocks) (r : Radio) : Reseat env sort b (setClash env r false b) := by
  unfold setClash
  split
  · exact refl _
  · rename_i clashed
    refine after (report _ _ _) (modChanAt fun _ a m => ?_)
    simp [airOf, eligible, clashed] at m

theorem setClash (b : Blocks) (r : Radio) (x : Bool) : Reseat env (· ≠ r) b (setClash env r x b) := by
  unfold Machine.setClash
  split
  · exact refl _
  · exact after (report _ _ _) (modChanOf _ _ _)

theorem endHoldOf (r : Radio) (b : Blocks) : Reseat env sort b (endHoldOf r b) := by
  have regular : Regular False env b (Machine.endHoldOf r b) := Regular.endHoldOf r b
  refine ⟨fun a => ?_, regular.requests, fun q a _ m => by rw [regular.only.airOf]; exact m⟩
  unfold Machine.endHoldOf
  split
  · rfl
  · rename_i c _
    by_cases e : a = c
    · subst e; simp
    · simp [e]

theorem endMoveWait (r : Radio) (b : Blocks) : Reseat env sort b (endMoveWait env r b) := by
  unfold Machine.endMoveWait
  split
  · exact refl _
  · dsimp only
    split
    · exact after (report _ _ _) (modChan _ _ fun _ => ⟨rfl, rfl, rfl, rfl⟩)
    · exact modChan _ _ fun _ => ⟨rfl, rfl, rfl, rfl⟩

theorem enterMoveWait (r : Radio) (cells : List Nat) (b : Blocks) : Reseat env sort b (enterMoveWait env r cells b) := by
  unfold Machine.enterMoveWait
  dsimp only
  split
  · exact modChan _ _ fun _ => ⟨rfl, rfl, rfl, rfl⟩
  · exact after (report _ _ _) (modChan _ _ fun _ => ⟨rfl, rfl, rfl, rfl⟩)

theorem endLapse (r : Radio) (b : Blocks) : Reseat env sort b (endLapse env r b) := by
  unfold Machine.endLapse
  split
  · exact after (report _ _ _) (modChan _ _ fun _ => ⟨rfl, rfl, rfl, rfl⟩)
  · exact refl _

theorem resolveClashes (except : Option Radio) (freed : Bool) (b : Blocks) :
    Reseat env sort b (resolveClashes env except freed b) := by
  unfold Machine.resolveClashes
  split
  · refine foldl (fun b r => ?_) _ _
    unfold resolveOne
    dsimp only
    repeat' split
    · exact refl _
    · exact after (clearClash _ _) (setCells _ _)
    · exact refl _
  · exact refl _

theorem dropDirective (r : Radio) (b : Blocks) : Reseat env sort b (dropDirective r b) := by
  unfold Machine.dropDirective
  split
  · exact after (modChan _ _ fun _ => ⟨rfl, rfl, rfl, rfl⟩) (setCells _ _)
  · exact refl _

theorem endClearedWaits (b : Blocks) : Reseat env sort b (endClearedWaits env b) := by
  refine foldl (fun b r => ?_) _ _
  repeat' split
  · exact refl _
  · exact refl _
  · exact endMoveWait _ _

theorem waitAfterDecline (r : Radio) (why : MoveReason) (b : Blocks) : Reseat env sort b (waitAfterDecline env r why b) := by
  unfold Machine.waitAfterDecline
  dsimp only
  split
  · exact modChan _ _ fun _ => ⟨rfl, rfl, rfl, rfl⟩
  · exact refl _

theorem restartIfMoved (r : Radio) (ch : Option Channel) (b : Blocks) : Reseat env sort b (restartIfMoved r ch b) := by
  unfold Machine.restartIfMoved
  split
  · exact refl _
  · exact after (modSched _ _ fun _ h => h.setLate _) (modLane _ _ _)

theorem count (b : Blocks) (r : Radio) (f : LinkCounters → LinkCounters) : Reseat env sort b (b.count r f) :=
  modLink b r fun _ => rfl

theorem lateRelease (r : Radio) (b : Blocks) : Reseat env sort b (lateRelease env r b) := by
  have counted : Reseat env sort b ((b.count r LinkCounters.lateRelease).modSched r fun x =>
      { x with lateCount := satAdd 255 ((b.count r LinkCounters.lateRelease).sched.radios.get r).lateCount 1 }) :=
    after (modSched _ _ fun _ h => h.setLate _) (count _ _ _)
  unfold Machine.lateRelease
  dsimp only
  split
  · exact after (report _ _ _) (after (modSched _ _ fun _ h => h.setOverrun _) counted)
  · exact counted

theorem deadRelease (r : Radio) (id : Byte) (b : Blocks) : Reseat env sort b (deadRelease env r id b) := by
  have forgotten : Reseat env sort b (b.modSched r fun x => { x with lastEnded := none }) := modSched _ _ fun _ h => h.setLast _
  unfold Machine.deadRelease
  dsimp only
  repeat' split
  · exact count _ _ _
  · exact after (lateRelease _ _) forgotten
  · exact forgotten
  · exact count _ _ _

theorem clearContext (r : Radio) (b : Blocks) : Reseat env (· ≠ r) b (clearContext env r b) :=
  after (endLapse _ _) (after (setClash _ _ _) (after (endMoveWait _ _)
    (after (modChanOf _ _ _) (after (setCells _ _) (dropDirective _ _)))))

/-- The map and flags of a TUNED that is not taken as MOVED (R141). -/
theorem tunedMap (r : Radio) (x : Option Channel) (b : Blocks) : Reseat env (· ≠ r) b (match x with
    | none => tunedOff env r b
    | some ch => tunedChannel env r ch b) := by
  cases x with
  | none => exact after (setClash _ _ _) (after (modChanOf _ _ _) (setCells _ _))
  | some ch =>
    dsimp only
    unfold tunedChannel
    dsimp only
    split
    · exact after (setClash _ _ _) (after (modChanOf _ _ _) (after (setCells _ _) (setCells _ _)))
    · exact after (setClash _ _ _) (after (modChanOf _ _ _) (setCells _ _))

end Reseat

/-! ## The operations of the directive controller -/

/-- The scheduler's part of a change that took a radio out of its air: the grant ends first. -/
theorem HomeBut.radioChange {b : Blocks} {r : Radio} (h : HomeBut env r b) (how : GrantEnd) (old : Option AirId)
    (gained : List Radio) : Home env (radioChange env r (some how) old gained b) :=
  Regular.home (Regular.retestAndReview _ _ _) (Regular.home (Regular.endHoldOf r _) (h.endGrantOf how).home)

namespace Home

theorem issueMove {b b' : Blocks} (h : Home env b) {r : Radio} {e : PlanEntry} {why : MoveReason}
    (issued : issueMove env r e why b = some b') : Home env b' := by
  unfold Machine.issueMove at issued
  split at issued
  · cases issued
  · cases issued
    exact Regular.home (Regular.send _ _ _) (Regular.home (Regular.radioChange _ _ _ _ _) (Reseat.home
      (Reseat.after (Reseat.endMoveWait _ _) (Reseat.after (Reseat.modChan _ _ fun _ => ⟨rfl, rfl, rfl, rfl⟩)
        (Reseat.setCells _ _))) h))

theorem guardChoice {b b' : Blocks} (h : Home env b) {r : Radio} (issued : guardChoice env r b = some b') : Home env b' := by
  unfold Machine.guardChoice at issued
  split at issued
  · cases issued
  · exact h.issueMove issued

theorem moveRequest {b : Blocks} (h : Home env b) (r : Radio) (cells : List Nat) : Home env (moveRequest env r cells b) := by
  unfold Machine.moveRequest
  repeat' split
  · exact h
  · exact h
  · exact h
  · rename_i issued; exact h.guardChoice issued
  · exact (Reseat.enterMoveWait _ _ _).home h

theorem retryMove {b : Blocks} (h : Home env b) (r : Radio) : Home env (retryMove env r b) := by
  unfold Machine.retryMove
  repeat' split
  · exact h
  · rename_i issued; exact h.guardChoice issued
  · exact (Reseat.enterMoveWait _ _ _).home h
  · exact (Reseat.endMoveWait _ _).home h

theorem carryOut {b : Blocks} (h : Home env b) (r : Radio) (d : Directive) (except : Option Radio) :
    Home env (carryOut env r d except b) := by
  unfold Machine.carryOut promotionCheck
  extract_lets air chan before promoted moved resolved changed restarted cells
  have settled : Home env restarted := Reseat.home (Reseat.restartIfMoved _ _ _) (HomeBut.radioChange (Reseat.homeBut
    (Reseat.after (Reseat.resolveClashes _ _ _) (Reseat.after (Reseat.modChanOf _ _ _) (Reseat.setCells _ _))) (h.but r)) _ _ _)
  split
  · exact settled.moveRequest r _
  · exact settled

theorem takeMoved {b : Blocks} (h : Home env b) (r : Radio) (id : Byte) : Home env (takeMoved env r id b) := by
  unfold Machine.takeMoved
  repeat' split
  · exact h
  · exact h.carryOut _ _ _
  · exact h

theorem takeDecline {b : Blocks} (h : Home env b) (r : Radio) (id why : Byte) : Home env (takeDecline env r id why b) := by
  unfold Machine.takeDecline
  repeat' split
  · exact h
  · exact Reseat.home (Reseat.waitAfterDecline _ _ _) (Regular.home (Regular.radioChange _ _ _ _ _) (Reseat.home
      (Reseat.after (Reseat.resolveClashes _ _ _) (Reseat.after (Reseat.modChan _ _ fun _ => ⟨rfl, rfl, rfl, rfl⟩)
        (Reseat.dropDirective _ _))) h))
  · exact h

theorem lapseRevoke {b : Blocks} (h : Home env b) (r : Radio) : Home env (lapseRevoke env r b) := by
  unfold Machine.lapseRevoke
  exact HomeBut.radioChange (Reseat.homeBut (Reseat.after (Reseat.report _ _ _) (Reseat.after (Reseat.modChanOf _ _ _)
    (Reseat.after (Reseat.resolveClashes _ _ _) (Reseat.dropDirective _ _)))) (h.but r)) _ _ _

theorem takeLapse {b : Blocks} (h : Home env b) (r : Radio) : Home env (takeLapse env r b) := by
  unfold Machine.takeLapse
  repeat' split
  · exact h
  · exact Reseat.home (Reseat.after (Reseat.report _ _ _) (Reseat.report _ _ _)) (h.carryOut _ _ _)
  · exact h.lapseRevoke _
  · exact h

theorem tunedAfresh {b : Blocks} (h : Home env b) (r : Radio) (x : Option Channel) : Home env (tunedAfresh env r x b) := by
  unfold Machine.tunedAfresh
  exact Reseat.home (Reseat.restartIfMoved _ _ _) (HomeBut.radioChange (Reseat.homeBut (Reseat.after
    (Reseat.resolveClashes _ _ _) (Reseat.after (Reseat.tunedMap r x _) (Reseat.dropDirective _ _))) (h.but r)) _ _ _)

theorem takeTuned {b : Blocks} (h : Home env b) (r : Radio) (x : Option Channel) : Home env (takeTuned env r x b) := by
  have ended : Home env (Machine.endLapse env r (Machine.endMoveWait env r b)) :=
    Reseat.home (Reseat.after (Reseat.endLapse _ _) (Reseat.endMoveWait _ _)) h
  unfold Machine.takeTuned
  dsimp only
  repeat' split
  · exact ended.carryOut _ _ _
  · exact ended.tunedAfresh _ _
  · exact ended.tunedAfresh _ _

theorem resolveAndReview {b : Blocks} (h : Home env b) (airs : List AirId) (freed : Bool) :
    Home env (resolveAndReview env airs freed b) :=
  Regular.home (Regular.retestAndReview _ _ _) ((Reseat.resolveClashes _ _ _).home h)

end Home

/-- The scheduler's part of the end of a session leaves the radio no grant. -/
theorem HomeBut.endSession {b : Blocks} {r : Radio} (h : HomeBut env r b) : HomeWithout env r (endSession env r b) :=
  Reseat.homeWithout (Reseat.after
    (Reseat.modSched _ _ fun _ h => h.fewer (List.nil_sublist _) (List.nil_sublist _) (List.nil_sublist _))
    (Reseat.endHoldOf _ _)) (h.endGrantOf .silent)

theorem HomeBut.lossDirective {b : Blocks} {r : Radio} (h : HomeBut env r b) (airs : List AirId) :
    Home env (lossDirective env r airs b) := by
  unfold Machine.lossDirective
  exact Home.resolveAndReview (HomeWithout.home (Reseat.homeWithout (Reseat.after (Reseat.endMoveWait _ _)
    (Reseat.dropDirective _ _)) h.endSession)) _ _

theorem HomeBut.withdrawSched {b : Blocks} {r : Radio} (h : HomeBut env r b) : Home env (withdrawSched env r b) := by
  unfold Machine.withdrawSched
  have cut := (h.endGrantOf .cut).home
  have answered := Regular.home (Regular.answerWaits _ r (.refuse .withdrawn)) (Regular.home (Regular.endHoldOf r _)
    (Regular.home (Regular.cutPassThrough r _) cut))
  exact Regular.home (Regular.foldl (fun b (q : Request) => Regular.sendExpired b r q.id) _ _) (Regular.home
    (Regular.modSched _ fun _ h => h.fewer (List.Sublist.refl _) (List.nil_sublist _) (List.Sublist.refl _)) answered)

namespace Home

theorem restartContext {b : Blocks} (h : Home env b) (r : Radio) : Home env (restartContext env r b) := by
  unfold Machine.restartContext
  exact Reseat.home (Reseat.restartIfMoved _ _ _) (Home.resolveAndReview (HomeWithout.home (Reseat.homeWithout
    (Reseat.after (Reseat.clearContext _ _) (Reseat.modChanOf _ _ _)) (h.but r).endSession)) _ _)

theorem withdrawRadio {b : Blocks} (h : Home env b) (r : Radio) : Home env (withdrawRadio env r b) := by
  unfold Machine.withdrawRadio
  exact Reseat.home (Reseat.restartIfMoved _ _ _) (Home.resolveAndReview (HomeBut.withdrawSched (Reseat.homeBut
    (Reseat.after (Reseat.setMonitor _ _) (Reseat.after (Reseat.clearContext _ _) (Reseat.modChanOf _ _ _))) (h.but r))) _ _)

theorem loseLink {b : Blocks} (h : Home env b) (r : Radio) : Home env (loseLink env r b) := by
  unfold Machine.loseLink restartLane
  exact Reseat.home (Reseat.after (Reseat.modSched _ _ fun _ h => h.setLate _) (Reseat.modLane _ _ _))
    (HomeBut.lossDirective (Reseat.homeBut (Reseat.after (Reseat.report _ _ _) (Reseat.after (Reseat.modLinkOf _ _ _)
      (Reseat.modLinkOf _ _ _))) (h.but r)) _)

/-! ## The monitor, the tracker, surveys and messages -/

theorem deliverGuardChange {b : Blocks} (h : Home env b) (changed risen : List Nat) :
    Home env (deliverGuardChange env changed risen b) := by
  have told := (Regular.takeGuardChange (S := True) changed b).home h
  unfold Machine.deliverGuardChange
  dsimp only
  split
  · exact told
  · have fold : ∀ (l : List Radio) b, Home env b → Home env (l.foldl (requestMove env risen) b) := by
      intro l
      induction l with
      | nil => exact fun _ h => h
      | cons r rs ih =>
        intro b h
        refine ih _ ?_
        unfold requestMove
        dsimp only
        split
        · exact h
        · exact h.moveRequest _ _
    exact fold _ _ ((Reseat.endClearedWaits _).home told)

theorem takeShaping {b : Blocks} (h : Home env b) (on : Bool) : Home env (takeShaping env on b) :=
  Regular.home (Regular.applyShaping _) (Reseat.home (Reseat.setShaping b on) h)

theorem takePrediction {b : Blocks} (h : Home env b) (p : Prediction) : Home env (takePrediction env p b) :=
  Regular.home (Regular.applyShaping _) (Reseat.home (Reseat.setPrediction b p) h)

theorem settleMonitor {b : Blocks} (h : Home env b) (env0 : Env) (m0 : Monitor) : Home env (settleMonitor env0 m0 env b) := by
  unfold Machine.settleMonitor
  dsimp only
  repeat' split
  · exact h
  · exact h.deliverGuardChange _ _
  · exact h.takeShaping _
  · exact (h.deliverGuardChange _ _).takeShaping _

theorem monitorEvent {b : Blocks} (h : Home env b) (f : Monitor → Monitor) : Home env (monitorEvent env f b) :=
  settleMonitor ((Reseat.setMonitor b _).home h) _ _

theorem trackerEvent {b : Blocks} (h : Home env b) (j : Judged) : Home env (trackerEvent env j b) := by
  have placed : Home env { b with tracker := j.tracker } := (Reseat.setTracker b _).home h
  unfold Machine.trackerEvent
  dsimp only
  repeat' split
  · exact placed.monitorEvent _
  · exact placed
  · exact (placed.monitorEvent _).takePrediction _
  · exact placed.takePrediction _

theorem completeSurvey {b : Blocks} (h : Home env b) (r : Radio) (ch : Channel) : Home env (completeSurvey env r ch b) := by
  have scored : Home env (scoreSurvey env ch (b.lanes.get r).survey b) := by
    unfold scoreSurvey
    split
    · exact h
    · exact monitorEvent ((Reseat.setScores b _ _).home h) _
  unfold Machine.completeSurvey surveyDone
  exact Reseat.home (Reseat.modLane _ _ _) (Home.retryMove (Reseat.home (Reseat.after
    (Reseat.modSched _ _ fun _ h => h.setLate _) (Reseat.after (Reseat.report _ _ _)
      (Reseat.modSched _ _ fun _ h => h.setOverrun _))) scored) _)

theorem takeRelease {b : Blocks} (h : Home env b) (r : Radio) (id : Byte) : Home env (takeRelease env r id b) := by
  unfold Machine.takeRelease
  dsimp only
  split
  · exact Regular.home (Regular.after (Regular.reviewAirs _ _) (Regular.after (Regular.setLastEnded _ _ _ _ _)
      (Regular.endGrantOf _ _ _))) h
  · split
    · exact Regular.home (Regular.modSched _ fun _ h =>
        h.fewer (List.Sublist.refl _) (List.Sublist.refl _) List.filter_sublist) h
    · split
      · exact Regular.home (Regular.after (Regular.reviewAirs _ _) (Regular.modSched _ fun _ h => h.dropWait _)) h
      · split
        · exact Regular.home (Regular.after (Regular.reviewAirs _ _) (Regular.modSched _ fun _ h =>
            h.fewer (List.Sublist.refl _) List.filter_sublist (List.Sublist.refl _))) h
        · exact (Reseat.deadRelease _ _ _).home h

theorem handler {b : Blocks} (h : Home env b) {r : Radio} {f : Blocks → Blocks} (g : Handler env r f) : Home env (f b) := by
  cases g with
  | keepalive => exact h
  | samples t levels =>
    exact takeBatch_induct (P := Home env) (fun _ _ h => (Reseat.modLane _ _ _).home h) (fun _ _ h => h.trackerEvent _)
      (fun _ _ h => h.completeSurvey _ _) (fun _ _ h => (Regular.count _ _ _).home h) t levels b h
  | heard x =>
    exact takeHeard_induct (P := Home env) (fun _ _ h => (Reseat.modLane _ _ _).home h)
      (fun _ _ h => (Reseat.modSurvey _ _).home h) (fun _ _ _ _ _ h => (Reseat.modSurvey _ _).home h) x b h
  | request ask => exact (Regular.takeRequest _ _ _).home h
  | release id => exact h.takeRelease _ _
  | tuned start width =>
    unfold tunedMessage
    dsimp only
    repeat' split
    · exact h
    · exact h.takeTuned _ _
    · exact h.takeTuned _ _
    · exact (Regular.count _ _ _).home h
  | moved id => exact h.takeMoved _ _
  | decline id reason => exact h.takeDecline _ _ _

/-! ### Links -/

theorem setLink {b : Blocks} (h : Home env b) (r : Radio) {f : Link → Link} (same : ∀ k : Link, (f k).port = k.port) :
    Home env (b.modLink r f) := (Reseat.modLink b r same).home h

theorem receive {b : Blocks} (h : Home env b) {r : Radio} {f : Blocks → Blocks} (g : Handler env r f) :
    Home env (receive env r f b) := by
  have hunted : Home env (b.hunt r) := h.setLink r fun _ => rfl
  have alive : Home env (restartLiveness env r (b.hunt r)) := hunted.setLink r fun _ => rfl
  unfold Machine.receive
  dsimp only
  split
  · exact alive.handler g
  · exact (Regular.send _ _ _).home hunted

/-- A radio whose port is not UP has no grant. -/
theorem without {b : Blocks} (h : Home env b) {r : Radio} (down : (b.links.get r).port ≠ .up) : HomeWithout env r b := by
  refine ⟨h.requests, fun a g hg => ⟨fun mine => ?_, h.grants a g hg⟩⟩
  have home := h.grants a g hg
  simp [mine, airOf, eligible, down] at home

theorem endLinkSource {b : Blocks} (h : Home env b) (r : Radio) : Home env (endLinkSource env r b) := by
  unfold Machine.endLinkSource
  split
  · exact Reseat.home (Reseat.report _ _ _) (h.setLink r fun _ => rfl)
  · exact h

theorem helloOpens {b : Blocks} (h : Home env b) {r : Radio} (down : (b.links.get r).port ≠ .up) (x : Capability) :
    Home env (helloOpens env r x b) := by
  have opened : Home env (b.modLink r fun k => { k with capability := some x, port := .up }) :=
    (Reseat.homeWithout (Reseat.modLinkOf _ _ _) (h.without down)).home
  have alive : Home env (restartLiveness env r (b.modLink r fun k => { k with capability := some x, port := .up })) :=
    opened.setLink r fun _ => rfl
  exact Regular.home (Regular.reviewAirs _ _) (Regular.home (Regular.send _ _ _) (alive.endLinkSource r))

theorem helloRestarts {b : Blocks} (h : Home env b) (r : Radio) (x : Capability) : Home env (helloRestarts env r x b) := by
  have purged : Home env (purgeQueue r b) := h.setLink r fun _ => rfl
  exact Regular.home (Regular.send _ _ _) ((purged.restartContext r).setLink r fun _ => rfl)

theorem takeHello {b : Blocks} (h : Home env b) (r : Radio) (version : Byte) (x : Capability) :
    Home env (takeHello env r version x b) := by
  have hunted : Home env (b.hunt r) := h.setLink r fun _ => rfl
  have alive : Home env (restartLiveness env r (b.hunt r)) := hunted.setLink r fun _ => rfl
  unfold Machine.takeHello
  dsimp only
  split
  · refine (Regular.count _ _ _).home ?_
    split
    · exact alive
    · exact hunted
  · split
    · exact alive.helloRestarts r x
    · rename_i down
      exact hunted.helloOpens (by simpa using down) x

theorem issueMark {b : Blocks} (h : Home env b) (r : Radio) : Home env (issueMark env r b) := by
  unfold Machine.issueMark
  split
  · exact Regular.home (Regular.send _ _ _) (h.setLink r fun _ => rfl)
  · exact h

/-- Every event keeps the grants at home. -/
theorem event {b b' : Blocks} (g : Event env b b') (h : Home env b) : Home env b' := by
  cases g with
  | nothing => exact h
  | status => exact (Reseat.setMonitor _ _).home h
  | monitor f _ => exact h.monitorEvent f
  | forget | sweep => exact (Reseat.modSurvey _ _).home h
  | clear r => exact Reseat.home (Reseat.after (Reseat.count _ _ _) (Reseat.modLane _ _ _)) h
  | move r e _ can free issued => exact h.issueMove issued
  | withdraw r => exact h.withdrawRadio r
  | restore r =>
    refine Reseat.home (Reseat.modChanAt fun _ a m => ?_) h
    simp only [airOf, eligible, Blocks.modChan_chans, Blocks.modChan_links, PerRadio.get_modify_same] at m ⊢
    cases gone : (b.chans.get r).withdrawn with
    | true => simp [gone] at m
    | false => simpa [gone] using m
  | sync r => exact h.setLink r fun _ => rfl
  | error r => exact Regular.home (Regular.count _ _ _) (h.setLink r fun _ => rfl)
  | hello r version x => exact h.takeHello r version x
  | message r f g => exact h.receive g
  | reqHigh r => exact h.setLink r fun _ => rfl
  | assertion r => exact Regular.home (Regular.assertInRun _ _) (h.setLink r fun _ => rfl)
  | release r => exact Regular.home (Regular.finishHold _ _) (h.setLink r fun _ => rfl)
  | transmit r =>
    refine h.setLink r fun k => ?_
    unfold Link.transmit
    repeat' split
    all_goals rfl
  | mark r => exact h.issueMark r
  | loss r => exact h.loseLink r
  | streamLapse r => exact (Reseat.modLane _ _ _).home h
  | anchor due => exact (Reseat.setTracker _ _).home h
  | onset => exact h.trackerEvent _
  | review a => exact (Regular.reviewAir _ _).home h
  | waitLimit r id t => exact (Regular.waitLimit _ _ _ _).home h
  | start a => exact (Regular.grantStarts _ _).home h
  | expire r => exact (Regular.expireGrant _ _).home h
  | expirePass r g => exact (Regular.expirePass _ _ _).home h
  | lastEnded r => exact (Reseat.modSched _ _ fun _ h => h.setLast _).home h
  | holdEnd a =>
    have ended : Regular True env b (b.modAir a fun x => { x with hold := none }) :=
      Regular.modAirKeep (f := fun x => { x with hold := none }) b fun _ => .inl rfl
    exact (Regular.after (Regular.reviewAir _ _) ended).home h
  | lapse r => exact h.takeLapse r
  | declineHold r => exact Reseat.home (Reseat.modChan _ _ fun _ => ⟨rfl, rfl, rfl, rfl⟩) h

end Home

/-! ## The mode changes and the resets -/

/-- No air holds a grant. -/
def noAirGrants (b : Blocks) : Prop := ∀ a, (b.air a).grant = none

theorem noAirGrants.home {b : Blocks} (none : noAirGrants b) (h : requestsSound b) (env : Env) : Home env b :=
  ⟨h, fun a g hg => by rw [none a] at hg; cases hg⟩

/-- In SETUP no radio is in an air, so grants at home are none (R102, R126). -/
theorem noAirGrants_of_setup {b : Blocks} (setup : env.mode = .setup) (h : grantsHome env b) : noAirGrants b := by
  intro a
  cases hg : (b.air a).grant with
  | none => rfl
  | some g => simpa [airOf, eligible, setup] using h a g hg

theorem airToSetup_air (env : Env) (b : Blocks) (a c : AirId) :
    ((airToSetup env b a).air c).grant = if c = a then none else (b.air c).grant := by
  have cleared : ((b.modAir a fun x => { x with hold := none, review := none }).air c).grant = (b.air c).grant := by
    by_cases e : c = a
    · subst e; simp
    · simp [e]
  unfold airToSetup
  dsimp only
  split
  · rename_i free
    rw [cleared]
    split
    · rename_i e; subst e; rw [← cleared]; exact free
    · rfl
  · split
    · rw [Blocks.modSched_air, dropGrant_air, cleared]
    · rw [cutGrant_air, cleared]

theorem airsToSetup_none (env : Env) (b : Blocks) : noAirGrants (airIds.foldl (airToSetup env) b) := by
  intro a
  simp only [airIds, List.foldl_cons, List.foldl_nil, airToSetup_air]
  cases a <;> rfl

theorem passThrough_air (r : Radio) (id : Byte) (n : Nat) (x : Bool) (b : Blocks) (a : AirId) :
    (passThrough env r id n x b).air a = b.air a := by
  unfold passThrough
  rw [Blocks.sendGrant_air, Blocks.modSched_air]

theorem foldl_air {α : Type} {f : Blocks → α → Blocks} {a : AirId} (h : ∀ b x, (f b x).air a = b.air a) (l : List α)
    (b : Blocks) : (l.foldl f b).air a = b.air a := by
  induction l generalizing b with
  | nil => rfl
  | cons x xs ih => exact (ih _).trans (h b x)

theorem requestsToSetup_air (env : Env) (b : Blocks) (r : Radio) (a : AirId) :
    (requestsToSetup env b r).air a = b.air a := by
  unfold requestsToSetup
  dsimp only
  rw [foldl_air fun b q => passThrough_air _ _ _ _ _ _, Blocks.modSched_air]

/-- The entry to SETUP leaves no air a grant (R126). -/
theorem schedToSetup_none (env : Env) (b : Blocks) : noAirGrants (schedToSetup env b) := by
  intro a
  unfold schedToSetup
  rw [foldl_air fun b r => requestsToSetup_air env b r a]
  exact airsToSetup_none env b a

theorem Home.runBlocks {b : Blocks} (setup : env.mode = .setup) (h : Home env b) :
    Home (env.inMode .run) (runBlocks env b) := by
  have fresh : Home (env.inMode .run) { b with monitor := b.monitor.emptied } :=
    noAirGrants.home (b := { b with monitor := b.monitor.emptied }) (noAirGrants_of_setup setup h.grants) h.requests _
  exact Regular.home (Regular.schedToRun _) (Reseat.home (Reseat.foldl (fun b _ => Reseat.report b _ _) _ _) fresh)

/-- An environment in the same mode has the radios in the same airs. -/
theorem Home.sameMode {env' : Env} {b : Blocks} (h : Home env b) (mode : env'.mode = env.mode) : Home env' b :=
  ⟨h.requests, fun a g hg => by
    have home := h.grants a g hg
    unfold airOf eligible at home ⊢
    rw [mode]
    exact home⟩

theorem Effect.home {env env' : Env} {b b' : Blocks} (g : Effect env b env' b') (h : Home env b) : Home env' b' := by
  cases g with
  | event _ g => exact Home.event g h
  | reset | softReset => exact noAirGrants.home (fun a => by cases a <;> rfl) (Blocks.reset_requestsSound _) _
  | tick =>
    have idled : Reseat env (fun _ => True) b { b with links := b.links.map (Link.idleLine (Time.plus env.now 1)) } :=
      Reseat.same rfl rfl rfl fun r => by rw [PerRadio.get_map, Link.idleLine_port]
    exact (idled.home h).sameMode rfl
  | configured => exact h.sameMode rfl
  | own => exact (Reseat.modSurvey _ _).home (h.sameMode rfl)
  | tracking =>
    refine Home.trackerEvent ?_ _
    exact h.sameMode rfl
  | run setup => exact h.runBlocks setup
  | setup run => exact noAirGrants.home (schedToSetup_none _ _) ((Effect.setup run).requestsSound h.requests) _

/-- Settles O58: a radio that leaves its air has its one grant ended in the same event, and a review places only members. -/
theorem stepKeepsGrantsHome : Obligations.StepKeepsGrantsHome :=
  fun _ _ requests grants next => ((step_effect next).home ⟨requests, grants⟩).grants

end Sys2Proof.Machine
end

