-- ==== Sys2Proof/Proofs/MapRules.lean ====
section
/-! PROOF. The rules of the holding operations, cell by cell (R13 to R18), and what the operations of the directive controller
make of the channel states. -/

namespace Sys2Proof.Machine

/-! ## Cells -/

theorem Channel.mem_cells {ch : Channel} {k : Nat} : k ∈ ch.cells ↔ ch.start ≤ k ∧ k < ch.start + ch.width := by
  simp [Channel.cells, List.mem_range']
  constructor
  · rintro ⟨i, hi, rfl⟩; omega
  · rintro ⟨lo, hi⟩; exact ⟨k - ch.start, by omega, by omega⟩

theorem Channel.has_iff {ch : Channel} {k : Nat} : ch.has k = true ↔ ch.start ≤ k ∧ k < ch.start + ch.width := by
  simp [Channel.has]

theorem Channel.has_iff_mem {ch : Channel} {k : Nat} : ch.has k = true ↔ k ∈ ch.cells := by
  rw [Channel.has_iff, Channel.mem_cells]

theorem mapCellsFrom_getElem? (f : Nat → CellRecord → CellRecord) (cells : List CellRecord) (n k : Nat) :
    (mapCellsFrom f n cells)[k]? = (cells[k]?).map (f (n + k)) := by
  induction cells generalizing n k with
  | nil => rfl
  | cons c cs ih =>
    cases k with
    | zero => rfl
    | succ k =>
      rw [mapCellsFrom, List.getElem?_cons_succ, List.getElem?_cons_succ, ih, show n + 1 + k = n + (k + 1) by omega]

@[simp] theorem mapCells_getElem? (f : Nat → CellRecord → CellRecord) (cells : List CellRecord) (k : Nat) :
    (mapCells f cells)[k]? = (cells[k]?).map (f k) := by
  rw [mapCells, mapCellsFrom_getElem?, Nat.zero_add]

@[simp] theorem mapCells_length (f : Nat → CellRecord → CellRecord) (cells : List CellRecord) :
    (mapCells f cells).length = cells.length := by
  unfold mapCells
  generalize 0 = n
  induction cells generalizing n with
  | nil => rfl
  | cons c cs ih => rw [mapCellsFrom, List.length_cons, List.length_cons, ih]

/-- A test that every cell of a channel passes. -/
theorem channelAll_iff {cells : List CellRecord} {ch : Channel} {p : Nat → CellRecord → Bool} :
    channelAll cells ch p = true ↔ ∀ k ∈ ch.cells, ∃ c, cells[k]? = some c ∧ p k c = true := by
  unfold channelAll
  rw [List.all_eq_true]
  refine forall_congr' fun k => imp_congr_right fun _ => ?_
  cases cells[k]? with
  | none => simp
  | some c => simp

theorem CellRecord.freeFor_iff {c : CellRecord} {r : Radio} : c.freeFor r = true ↔ c.holder = none ∨ c.holder = some r := by
  simp [CellRecord.freeFor]

theorem reserveTarget_eq_some {r : Radio} {ch : Channel} {cells cells' : List CellRecord} :
    reserveTarget r ch cells = some cells' ↔
      (∀ k ∈ ch.cells, ∃ c, cells[k]? = some c ∧ c.freeFor r = true)
        ∧ cells' = mapCells (fun k c => if ch.has k then { c with holder := some r, target := true } else c) cells := by
  unfold reserveTarget
  rw [← channelAll_iff (p := fun _ c => c.freeFor r)]
  split
  · rename_i free
    exact ⟨fun h => ⟨free, (Option.some.inj h).symm⟩, fun h => congrArg some h.2.symm⟩
  · rename_i taken
    refine ⟨fun h => ?_, fun h => absurd h.1 taken⟩
    cases h

/-! ## What a holding operation of a radio does to the cells of the others -/

/-- Cells changed for a radio: sound ones stay sound, and those that another radio holds stay as they are. -/
structure HeldKept (r : Radio) (cells cells' : List CellRecord) : Prop where
  length : cells'.length = cells.length
  sound : (∀ c ∈ cells, c.sound = true) → ∀ c ∈ cells', c.sound = true
  others : ∀ (k : Nat) (c : CellRecord) q, cells[k]? = some c → c.holder = some q → q ≠ r → cells'[k]? = some c

namespace HeldKept

variable {r : Radio}

theorem refl (cells : List CellRecord) : HeldKept r cells cells := ⟨rfl, id, fun _ _ _ h _ _ => h⟩

theorem trans {a b c : List CellRecord} (h : HeldKept r a b) (g : HeldKept r b c) : HeldKept r a c :=
  ⟨g.length.trans h.length, fun x => g.sound (h.sound x),
    fun k x q hx hq other => g.others k x q (h.others k x q hx hq other) hq other⟩

theorem mapCells {f : Nat → CellRecord → CellRecord} (cells : List CellRecord)
    (sound : ∀ (k : Nat) (c : CellRecord), cells[k]? = some c → c.sound = true → (f k c).sound = true)
    (others : ∀ (k : Nat) (c : CellRecord) q, cells[k]? = some c → c.holder = some q → q ≠ r → f k c = c) :
    HeldKept r cells (mapCells f cells) := by
  refine ⟨mapCells_length f cells, fun h c hc => ?_, fun k c q hc hq other => ?_⟩
  · obtain ⟨k, hk⟩ := List.mem_iff_getElem?.mp hc
    rw [mapCells_getElem?] at hk
    obtain ⟨x, hx, rfl⟩ := Option.map_eq_some_iff.mp hk
    exact sound k x hx (h x (List.mem_of_getElem? hx))
  · rw [mapCells_getElem?, hc, Option.map_some, others k c q hc hq other]

theorem released_sound {c : CellRecord} (h : c.sound = true) : c.released.sound = true := by
  simp_all [CellRecord.sound, CellRecord.released]

theorem promoteTarget (cells : List CellRecord) : HeldKept r cells (promoteTarget r cells) := by
  refine mapCells cells (fun k c _ h => ?_) fun k c q _ hq other => ?_
  · split
    · rename_i mine
      split
      · simp_all [CellRecord.sound]
      · exact released_sound h
    · exact h
  · simp [hq, other]

theorem dropTarget (cells : List CellRecord) : HeldKept r cells (dropTarget r cells) := by
  refine mapCells cells (fun k c _ h => ?_) fun k c q _ hq other => ?_
  · split
    · split
      · simp_all [CellRecord.sound]
      · exact released_sound h
    · exact h
  · simp [hq, other]

theorem releaseAll (cells : List CellRecord) : HeldKept r cells (releaseAll r cells) := by
  refine mapCells cells (fun k c _ h => ?_) fun k c q _ hq other => ?_
  · split
    · exact released_sound h
    · exact h
  · simp [hq, other]

/-- Taking cells that are free for the radio takes none of another's. -/
theorem taking {ch : Channel} {cells : List CellRecord} {g : CellRecord → CellRecord}
    (free : ∀ k ∈ ch.cells, ∃ c, cells[k]? = some c ∧ c.freeFor r = true)
    (sound : ∀ c : CellRecord, c.sound = true → (g c).sound = true) :
    HeldKept r cells (Machine.mapCells (fun k c => if ch.has k then g c else c) cells) := by
  refine mapCells cells (fun k c _ h => ?_) fun k c q hc hq other => ?_
  · split
    · exact sound c h
    · exact h
  · split
    · rename_i inside
      obtain ⟨c', hc', free⟩ := free k (Channel.has_iff_mem.mp inside)
      rw [hc] at hc'
      cases hc'
      rcases CellRecord.freeFor_iff.mp free with h | h
      · rw [hq] at h; cases h
      · rw [hq] at h; exact absurd (Option.some.inj h) other
    · rfl

theorem reserveTarget {ch : Channel} {cells cells' : List CellRecord} (h : reserveTarget r ch cells = some cells') :
    HeldKept r cells cells' := by
  obtain ⟨free, rfl⟩ := reserveTarget_eq_some.mp h
  exact taking free fun c h => by simp_all [CellRecord.sound]

theorem acquisition_free {env : Env} {ch : Channel} {cells : List CellRecord} (h : acquisitionTest env r ch cells = true) :
    ∀ k ∈ ch.cells, ∃ c, cells[k]? = some c ∧ c.freeFor r = true := by
  intro k hk
  obtain ⟨c, hc, test⟩ := channelAll_iff.mp h k hk
  rw [Bool.and_eq_true, Bool.and_eq_true] at test
  exact ⟨c, hc, test.1.1⟩

theorem acquire {env : Env} {ch : Channel} {cells : List CellRecord} (h : acquisitionTest env r ch cells = true) :
    HeldKept r cells (acquire r ch cells) :=
  taking (acquisition_free h) fun c h => by simp_all [CellRecord.sound]

end HeldKept

/-! ## Channel states -/

theorem PerRadio.ext {α : Type} {p q : PerRadio α} (h : ∀ r, p.get r = q.get r) : p = q := by
  cases p; cases q
  have h0 := h .r0
  have h1 := h .r1
  have h2 := h .r2
  simp only [PerRadio.get] at h0 h1 h2
  rw [h0, h1, h2]

/-- A change that changes nothing. -/
theorem PerRadio.modify_eq_self {α : Type} {p : PerRadio α} {r : Radio} {f : α → α} (h : f (p.get r) = p.get r) :
    p.modify r f = p := by
  refine PerRadio.ext fun q => ?_
  rw [PerRadio.get_modify]
  split
  · rename_i e; rw [e]; exact h
  · rfl

variable {env : Env}

theorem endMoveWait_chans (r : Radio) (b : Blocks) :
    (endMoveWait env r b).chans = b.chans.modify r fun c => { c with moveWait := none } := by
  unfold endMoveWait
  split
  · rename_i none
    refine (PerRadio.modify_eq_self ?_).symm
    rw [← none]
  · dsimp only
    split <;> rfl

theorem endMoveWait_cells (r : Radio) (b : Blocks) : (endMoveWait env r b).cells = b.cells := by
  unfold endMoveWait
  split
  · rfl
  · dsimp only
    split <;> rfl

/-- The cells of a move wait that an entry adds to (R134). -/
def waitCells (b : Blocks) (r : Radio) (cells : List Nat) : List Nat :=
  unionCells (((b.chans.get r).moveWait.map fun w => w.cells).getD []) cells

theorem enterMoveWait_chans (r : Radio) (cells : List Nat) (b : Blocks) :
    (enterMoveWait env r cells b).chans = b.chans.modify r fun c => { c with moveWait := some ⟨waitCells b r cells, true⟩ } := by
  unfold enterMoveWait
  dsimp only
  split <;> rfl

theorem enterMoveWait_cells (r : Radio) (cells : List Nat) (b : Blocks) : (enterMoveWait env r cells b).cells = b.cells := by
  unfold enterMoveWait
  dsimp only
  split <;> rfl

theorem endLapse_chans (r : Radio) (b : Blocks) :
    (endLapse env r b).chans = b.chans.modify r fun c => { c with lapseSource := false } := by
  unfold endLapse
  split
  · rfl
  · rename_i clear
    refine (PerRadio.modify_eq_self ?_).symm
    rw [← Bool.eq_false_iff.mpr clear]

theorem endLapse_cells (r : Radio) (b : Blocks) : (endLapse env r b).cells = b.cells := by
  unfold endLapse
  split <;> rfl

theorem setClash_chans (r : Radio) (x : Bool) (b : Blocks) :
    (setClash env r x b).chans = b.chans.modify r fun c => { c with clash := x } := by
  unfold setClash
  split
  · rename_i same
    refine (PerRadio.modify_eq_self ?_).symm
    rw [← same]
  · rfl

theorem setClash_cells (r : Radio) (x : Bool) (b : Blocks) : (setClash env r x b).cells = b.cells := by
  unfold setClash
  split <;> rfl

theorem dropDirective_chans (r : Radio) (b : Blocks) :
    (dropDirective r b).chans = b.chans.modify r fun c => { c with directive := none } := by
  unfold dropDirective
  split
  · rfl
  · rename_i none
    refine (PerRadio.modify_eq_self ?_).symm
    rw [← Option.not_isSome_iff_eq_none.mp none]

theorem dropDirective_cells (r : Radio) (b : Blocks) : (dropDirective r b).cells =
    if (b.chans.get r).directive.isSome then dropTarget r b.cells else b.cells := by
  unfold dropDirective
  split <;> rfl

theorem dropDirective_held (r : Radio) (b : Blocks) : HeldKept r b.cells (dropDirective r b).cells := by
  rw [dropDirective_cells]
  split
  · exact HeldKept.dropTarget _
  · exact HeldKept.refl _

/-- The directive that the issue of a MOVE records (R136). -/
def issuedDirective (env : Env) (b : Blocks) (r : Radio) (e : PlanEntry) (why : MoveReason) : Directive :=
  { id := (b.chans.get r).nextId
    entry := e.id
    chan := e.chan
    reason := why
    expiry := afterMillis env.now env.retained.params.directiveTimeout }

/-- What the issue of a MOVE leaves in the map and the channel states (R136). -/
theorem issueMove_some {r : Radio} {e : PlanEntry} {why : MoveReason} {b b' : Blocks}
    (h : issueMove env r e why b = some b') :
    reserveTarget r e.chan b.cells = some b'.cells
      ∧ b'.chans = b.chans.modify r fun c =>
          { c with directive := some (issuedDirective env b r e why), nextId := c.nextId + 1, moveWait := none } := by
  unfold issueMove at h
  split at h
  · cases h
  · rename_i cells reserved
    cases h
    rw [Blocks.send_cells, Blocks.send_chans, (SchedOnly.radioChange _ _ _ _ _ _).cells,
      (SchedOnly.radioChange _ _ _ _ _ _).chans, endMoveWait_cells, endMoveWait_chans, Blocks.modChan_chans,
      PerRadio.modify_modify]
    exact ⟨reserved, rfl⟩

/-- What the return of a channel context to its starting point leaves of the channel state (R144, R145). -/
def ChanState.cleared (c : ChanState) : ChanState :=
  { c with operating := none, clash := false, isolated := false, directive := none, moveWait := none, lapseSource := false }

theorem clearContext_chans (r : Radio) (b : Blocks) :
    (clearContext env r b).chans = b.chans.modify r ChanState.cleared := by
  unfold clearContext
  simp only [endLapse_chans, setClash_chans, endMoveWait_chans, Blocks.modChan_chans, dropDirective_chans,
    PerRadio.modify_modify]
  rfl

theorem clearContext_cells (r : Radio) (b : Blocks) :
    (clearContext env r b).cells = releaseAll r (dropDirective r b).cells := by
  unfold clearContext
  simp only [endLapse_cells, setClash_cells, endMoveWait_cells, Blocks.modChan_cells]

/-! ## Clash resolution (R18, R142) -/

/-- What clash resolution does to the map and the channel states: clash flags clear, never of the radio left out, and the cells of
a radio that was not clashed, or was left out, are the same as before. -/
structure Resolved (except : Option Radio) (b b' : Blocks) : Prop where
  chans : ∀ q, b'.chans.get q = { b.chans.get q with clash := (b'.chans.get q).clash }
  cleared : ∀ q, (b'.chans.get q).clash = true → (b.chans.get q).clash = true
  out : ∀ q, except = some q → b'.chans.get q = b.chans.get q
  held : ∀ q, (b.chans.get q).clash = false ∨ except = some q → ∀ (k : Nat) (c : CellRecord), c.holder = some q →
    (b'.cells[k]? = some c ↔ b.cells[k]? = some c)

namespace Resolved

variable {except : Option Radio}

theorem refl (b : Blocks) : Resolved except b b := ⟨fun _ => rfl, fun _ h => h, fun _ _ => rfl, fun _ _ _ _ _ => Iff.rfl⟩

/-- A radio that was not clashed keeps its channel state. -/
theorem same {b b' : Blocks} (h : Resolved except b b') {q : Radio} (clear : (b.chans.get q).clash = false) :
    b'.chans.get q = b.chans.get q := by
  have still : (b'.chans.get q).clash = false := by
    cases e : (b'.chans.get q).clash with
    | false => rfl
    | true => rw [h.cleared q e] at clear; cases clear
  rw [h.chans q, still, ← clear]

theorem trans {a b c : Blocks} (h : Resolved except a b) (g : Resolved except b c) : Resolved except a c := by
  refine ⟨fun q => ?_, fun q x => h.cleared q (g.cleared q x), fun q x => (g.out q x).trans (h.out q x), fun q x k y hy => ?_⟩
  · rw [g.chans q, h.chans q]
  · refine (g.held q ?_ k y hy).trans (h.held q x k y hy)
    rcases x with clear | out
    · exact .inl (by rw [h.same clear]; exact clear)
    · exact .inr out

theorem foldl {f : Blocks → Radio → Blocks} (h : ∀ b x, Resolved except b (f b x)) (l : List Radio) (b : Blocks) :
    Resolved except b (l.foldl f b) := by
  induction l generalizing b with
  | nil => exact refl b
  | cons x xs ih => exact (h b x).trans (ih _)

theorem resolveOne (b : Blocks) (c : Radio) : Resolved except b (resolveOne env except b c) := by
  unfold Machine.resolveOne
  dsimp only
  split
  · exact refl b
  · rename_i ch _
    split
    · rename_i turn
      simp only [Bool.and_eq_true, bne_iff_ne] at turn
      obtain ⟨⟨clashed, served⟩, passes⟩ := turn
      have chans : (setClash env c false { b with cells := acquire c ch b.cells }).chans
          = b.chans.modify c fun x => { x with clash := false } := setClash_chans _ _ _
      have others : ∀ q, q ≠ c → (setClash env c false { b with cells := acquire c ch b.cells }).chans.get q = b.chans.get q :=
        fun q other => by rw [chans, PerRadio.get_modify_other _ _ other]
      refine ⟨fun q => ?_, fun q h => ?_, fun q out => others q (fun e => served (e ▸ out)), fun q quiet k x hx => ?_⟩
      · by_cases e : q = c
        · subst e; rw [chans, PerRadio.get_modify_same]
        · rw [others q e]
      · by_cases e : q = c
        · subst e; exact clashed
        · rw [others q e] at h; exact h
      · have other : q ≠ c := by
          rintro rfl
          rcases quiet with clear | out
          · rw [clashed] at clear; cases clear
          · exact served out
        rw [setClash_cells]
        have kept := (HeldKept.acquire passes).others
        constructor
        · intro after
          show b.cells[k]? = some x
          rw [acquire, mapCells_getElem?] at after
          obtain ⟨y, hy, eq⟩ := Option.map_eq_some_iff.mp after
          split at eq
          · rw [← eq] at hx
            exact absurd (Option.some.inj hx).symm other
          · rw [hy, eq]
        · exact fun before => kept k x q before hx other
    · exact refl b

theorem resolveClashes (freed : Bool) (b : Blocks) : Resolved except b (resolveClashes env except freed b) := by
  unfold Machine.resolveClashes
  split
  · exact foldl resolveOne _ _
  · exact refl b

end Resolved

end Sys2Proof.Machine
end

