-- ==== Sys2Proof/Proofs/MapInvariant.lean ====
section
/-! PROOF. The cells and the channel states agree after every step (R1 to R3, R13), and O56. -/

namespace Sys2Proof.Machine

/-! ## What the law reads -/

theorem holdsCurrent_iff {cells : List CellRecord} {r : Radio} {ch : Channel} : holdsCurrent cells r ch = true ↔
    ∀ k ∈ ch.cells, ∃ c, cells[k]? = some c ∧ c.holder = some r ∧ c.current = true := by
  simp [holdsCurrent, channelAll_iff]

theorem holdsTarget_iff {cells : List CellRecord} {r : Radio} {ch : Channel} : holdsTarget cells r ch = true ↔
    ∀ k ∈ ch.cells, ∃ c, cells[k]? = some c ∧ c.holder = some r ∧ c.target = true := by
  simp [holdsTarget, channelAll_iff]

/-- The law of a radio's channel state reads the cells that the radio holds, and its channel, clash flag, directive and move
wait. -/
theorem ChanState.Sound.congr {cells cells' : List CellRecord} {r : Radio} {x y : ChanState} (h : x.Sound cells r)
    (held : x.clash = false → ∀ (k : Nat) (c : CellRecord), cells[k]? = some c → c.holder = some r → cells'[k]? = some c)
    (operating : y.operating = x.operating) (clash : y.clash = x.clash) (directive : y.directive = x.directive)
    (moveWait : y.moveWait = x.moveWait) : y.Sound cells' r := by
  refine ⟨fun ch hch clear => ?_, fun d hd => ?_, fun clashed => ?_, fun waits => ?_⟩
  · rw [operating] at hch
    rw [clash] at clear
    refine holdsCurrent_iff.mpr fun k hk => ?_
    obtain ⟨c, hc, mine, current⟩ := holdsCurrent_iff.mp (h.current ch hch clear) k hk
    exact ⟨c, held clear k c hc mine, mine, current⟩
  · rw [directive] at hd
    have clear : x.clash = false := by
      cases clashed : x.clash with
      | false => rfl
      | true => rw [(h.clashed clashed).1] at hd; cases hd
    refine holdsTarget_iff.mpr fun k hk => ?_
    obtain ⟨c, hc, mine, target⟩ := holdsTarget_iff.mp (h.target d hd) k hk
    exact ⟨c, held clear k c hc mine, mine, target⟩
  · rw [directive, moveWait]; rw [clash] at clashed; exact h.clashed clashed
  · rw [directive]; rw [moveWait] at waits; exact h.waiting waits

/-- A directive or a move wait comes with a clear clash flag (R132, R134, R136, R140). -/
theorem ChanState.Sound.clear_of_directive {cells : List CellRecord} {r : Radio} {x : ChanState} (h : x.Sound cells r)
    {d : Directive} (hd : x.directive = some d) : x.clash = false ∧ x.moveWait = none := by
  constructor
  · cases clashed : x.clash with
    | false => rfl
    | true => rw [(h.clashed clashed).1] at hd; cases hd
  · cases waits : x.moveWait with
    | none => rfl
    | some w => rw [h.waiting (by rw [waits]; rfl)] at hd; cases hd

theorem ChanState.Sound.clear_of_wait {cells : List CellRecord} {r : Radio} {x : ChanState} (h : x.Sound cells r)
    {w : MoveWait} (hw : x.moveWait = some w) : x.clash = false ∧ x.directive = none := by
  constructor
  · cases clashed : x.clash with
    | false => rfl
    | true => rw [(h.clashed clashed).2] at hw; cases hw
  · exact h.waiting (by rw [hw]; rfl)

/-! ## Steps that keep the law -/

namespace MapSound

variable {env : Env}

/-- What leaves the cells alone, and the channel states but for what the law does not read. -/
theorem same {b b' : Blocks} (h : MapSound b) (cells : b'.cells = b.cells)
    (chans : ∀ r, (b'.chans.get r).operating = (b.chans.get r).operating ∧ (b'.chans.get r).clash = (b.chans.get r).clash
      ∧ (b'.chans.get r).directive = (b.chans.get r).directive ∧ (b'.chans.get r).moveWait = (b.chans.get r).moveWait) :
    MapSound b' := by
  refine ⟨by rw [cells]; exact h.length, by rw [cells]; exact h.cells, fun r => ?_⟩
  obtain ⟨operating, clash, directive, moveWait⟩ := chans r
  rw [cells]
  exact (h.chans r).congr (fun _ _ _ hc _ => hc) operating clash directive moveWait

theorem frame {b b' : Blocks} (h : MapSound b) (cells : b'.cells = b.cells) (chans : b'.chans = b.chans) : MapSound b' :=
  h.same cells fun r => by rw [chans]; exact ⟨rfl, rfl, rfl, rfl⟩

theorem sched {b b' : Blocks} (g : SchedOnly b b') (h : MapSound b) : MapSound b' := h.frame g.cells g.chans

/-- A step of one radio: the cells that others hold and the others' channel states stand, and its own agrees again. -/
theorem step {b b' : Blocks} {r : Radio} (h : MapSound b) (cells : HeldKept r b.cells b'.cells)
    (others : ∀ q, q ≠ r → b'.chans.get q = b.chans.get q) (mine : (b'.chans.get r).Sound b'.cells r) : MapSound b' := by
  refine ⟨cells.length.trans h.length, cells.sound h.cells, fun q => ?_⟩
  by_cases e : q = r
  · rw [e]; exact mine
  · have held : ∀ (k : Nat) (c : CellRecord), b.cells[k]? = some c → c.holder = some q → b'.cells[k]? = some c :=
      fun k c hc hq => cells.others k c q hc hq e
    rw [others q e]
    exact (h.chans q).congr (fun _ => held) rfl rfl rfl rfl

/-- A radio's channel state changed and agreeing with the map. -/
theorem modChan {b b' : Blocks} {r : Radio} {f : ChanState → ChanState} (h : MapSound b) (cells : b'.cells = b.cells)
    (chans : b'.chans = b.chans.modify r f) (mine : (b.chans.get r).Sound b.cells r → (f (b.chans.get r)).Sound b.cells r) :
    MapSound b' := by
  refine h.step (r := r) (cells ▸ HeldKept.refl _) (fun q other => ?_) ?_
  · rw [chans, PerRadio.get_modify_other _ _ other]
  · rw [chans, PerRadio.get_modify_same, cells]
    exact mine (h.chans r)

/-- A channel state changed in what the law does not read. -/
theorem adjust {b : Blocks} (h : MapSound b) (r : Radio) {f : ChanState → ChanState}
    (kept : ∀ c : ChanState, (f c).operating = c.operating ∧ (f c).clash = c.clash ∧ (f c).directive = c.directive
      ∧ (f c).moveWait = c.moveWait) : MapSound (b.modChan r f) :=
  h.same rfl fun q => by
    rw [Blocks.modChan_chans, PerRadio.get_modify]
    split
    · rename_i e; rw [e]; exact kept _
    · exact ⟨rfl, rfl, rfl, rfl⟩

theorem endMoveWait {b : Blocks} (h : MapSound b) (r : Radio) : MapSound (endMoveWait env r b) :=
  h.modChan (endMoveWait_cells r b) (endMoveWait_chans r b) fun x =>
    ⟨x.current, x.target, fun c => ⟨(x.clashed c).1, rfl⟩, nofun⟩

/-- A move wait begins, or grows, for a radio with a clear clash flag and no directive. -/
theorem enterMoveWait {b : Blocks} (h : MapSound b) {r : Radio} (clear : (b.chans.get r).clash = false)
    (free : (b.chans.get r).directive = none) (cells : List Nat) : MapSound (enterMoveWait env r cells b) :=
  h.modChan (enterMoveWait_cells r cells b) (enterMoveWait_chans r cells b) fun x =>
    ⟨x.current, x.target, fun c => absurd (clear.symm.trans c) Bool.false_ne_true, fun _ => free⟩

theorem endLapse {b : Blocks} (h : MapSound b) (r : Radio) : MapSound (endLapse env r b) :=
  h.modChan (endLapse_cells r b) (endLapse_chans r b) fun x => ⟨x.current, x.target, x.clashed, x.waiting⟩

theorem issueMove {b b' : Blocks} (h : MapSound b) {r : Radio} {e : PlanEntry} {why : MoveReason}
    (clear : (b.chans.get r).clash = false) (issued : issueMove env r e why b = some b') : MapSound b' := by
  obtain ⟨reserved, chans⟩ := issueMove_some issued
  obtain ⟨free, cells⟩ := reserveTarget_eq_some.mp reserved
  refine h.step (r := r) (HeldKept.reserveTarget reserved) (fun q other => ?_) ?_
  · rw [chans, PerRadio.get_modify_other _ _ other]
  · rw [chans, PerRadio.get_modify_same, cells]
    refine ⟨fun ch hch _ => ?_, fun d hd => ?_, fun c => ?_, fun w => ?_⟩
    · refine holdsCurrent_iff.mpr fun k hk => ?_
      obtain ⟨c, hc, mine, current⟩ := holdsCurrent_iff.mp ((h.chans r).current ch hch clear) k hk
      rw [mapCells_getElem?, hc]
      refine ⟨_, rfl, ?_⟩
      split
      · exact ⟨rfl, current⟩
      · exact ⟨mine, current⟩
    · cases hd
      refine holdsTarget_iff.mpr fun k hk => ?_
      obtain ⟨c, hc, _⟩ := free k hk
      have inside : e.chan.has k = true := Channel.has_iff_mem.mpr hk
      rw [mapCells_getElem?, hc, Option.map_some, if_pos inside]
      exact ⟨_, rfl, rfl, rfl⟩
    · rw [clear] at c; cases c
    · cases w

theorem guardChoice {b b' : Blocks} (h : MapSound b) {r : Radio} (clear : (b.chans.get r).clash = false)
    (issued : guardChoice env r b = some b') : MapSound b' := by
  unfold Machine.guardChoice at issued
  split at issued
  · cases issued
  · exact h.issueMove clear issued

/-- A radio that can be directed is not clashed. -/
theorem clear_of_directable {b : Blocks} {r : Radio} (can : cannotDirect b r = false) : (b.chans.get r).clash = false := by
  simp only [cannotDirect, Bool.or_eq_false_iff] at can
  exact can.1.1.2

theorem moveRequest {b : Blocks} (h : MapSound b) (r : Radio) (cells : List Nat) : MapSound (moveRequest env r cells b) := by
  unfold Machine.moveRequest
  split
  · exact h
  · rename_i free
    split
    · exact h
    · rename_i can
      have clear := clear_of_directable (Bool.eq_false_iff.mpr can)
      repeat' split
      · exact h
      · rename_i issued; exact h.guardChoice clear issued
      · exact h.enterMoveWait clear (Option.not_isSome_iff_eq_none.mp free) _

theorem retryMove {b : Blocks} (h : MapSound b) (r : Radio) : MapSound (retryMove env r b) := by
  unfold Machine.retryMove
  split
  · exact h
  · rename_i w waits
    obtain ⟨clear, free⟩ := (h.chans r).clear_of_wait waits
    repeat' split
    · rename_i issued; exact h.guardChoice clear issued
    · exact h.enterMoveWait clear free _
    · exact h.endMoveWait r

theorem dropDirective {b : Blocks} (h : MapSound b) (r : Radio) : MapSound (dropDirective r b) := by
  refine h.step (dropDirective_held r b) (fun q other => ?_) ?_
  · rw [dropDirective_chans, PerRadio.get_modify_other _ _ other]
  · rw [dropDirective_chans, PerRadio.get_modify_same]
    refine ⟨fun ch hch clear => holdsCurrent_iff.mpr fun k hk => ?_, fun d hd => ?_, fun c => ?_, fun _ => rfl⟩
    · obtain ⟨c, hc, mine, current⟩ := holdsCurrent_iff.mp ((h.chans r).current ch hch clear) k hk
      rw [dropDirective_cells]
      split
      · rw [dropTarget, mapCells_getElem?, hc]
        refine ⟨_, rfl, ?_⟩
        simp only [mine, current, beq_self_eq_true, Bool.true_and, if_true]
        split
        · exact ⟨rfl, rfl⟩
        · exact ⟨mine, current⟩
      · exact ⟨c, hc, mine, current⟩
    · cases hd
    · exact ⟨rfl, ((h.chans r).clashed c).2⟩

/-- One clashed radio's turn: it takes free cells and its own. -/
theorem resolveOne {b : Blocks} (h : MapSound b) (except : Option Radio) (c : Radio) :
    MapSound (resolveOne env except b c) := by
  unfold Machine.resolveOne
  dsimp only
  split
  · exact h
  · rename_i ch operating
    split
    · rename_i turn
      simp only [Bool.and_eq_true] at turn
      obtain ⟨⟨clashed, _⟩, passes⟩ := turn
      have chans : (setClash env c false { b with cells := acquire c ch b.cells }).chans
          = b.chans.modify c fun x => { x with clash := false } := setClash_chans _ _ _
      have cells : (setClash env c false { b with cells := acquire c ch b.cells }).cells = acquire c ch b.cells :=
        setClash_cells _ _ _
      refine h.step (r := c) (by rw [cells]; exact HeldKept.acquire passes) (fun q other => ?_) ?_
      · rw [chans, PerRadio.get_modify_other _ _ other]
      · rw [chans, PerRadio.get_modify_same, cells]
        obtain ⟨free, _⟩ := (h.chans c).clashed clashed
        refine ⟨fun ch' hch _ => holdsCurrent_iff.mpr fun k hk => ?_, fun d hd => ?_, fun x => ?_, fun _ => free⟩
        · rw [show ch' = ch from Option.some.inj (hch.symm.trans operating)] at hk
          obtain ⟨y, hy, _⟩ := HeldKept.acquisition_free passes k hk
          rw [acquire, mapCells_getElem?, hy, Option.map_some, if_pos (Channel.has_iff_mem.mpr hk)]
          exact ⟨_, rfl, rfl, rfl⟩
        · rw [free] at hd; cases hd
        · cases x
    · exact h

theorem resolveClashes {b : Blocks} (h : MapSound b) (except : Option Radio) (freed : Bool) :
    MapSound (resolveClashes env except freed b) := by
  have fold : ∀ (l : List Radio) b, MapSound b → MapSound (l.foldl (Machine.resolveOne env except) b) := by
    intro l
    induction l with
    | nil => exact fun _ h => h
    | cons r rs ih => exact fun b h => ih _ (h.resolveOne except r)
  unfold Machine.resolveClashes
  split
  · exact fold _ _ h
  · exact h

theorem restartIfMoved {b : Blocks} (h : MapSound b) (r : Radio) (ch : Option Channel) :
    MapSound (restartIfMoved r ch b) := by
  unfold Machine.restartIfMoved
  split
  · exact h
  · exact h.frame rfl rfl

/-- A target promoted: the directive's channel is the operating channel (R14). -/
theorem promote {b : Blocks} (h : MapSound b) {r : Radio} {d : Directive} (hd : (b.chans.get r).directive = some d) :
    MapSound ({ b with cells := promoteTarget r b.cells }.modChan r fun c =>
      { c with operating := some d.chan, directive := none }) := by
  obtain ⟨clear, still⟩ := (h.chans r).clear_of_directive hd
  refine h.step (r := r) (HeldKept.promoteTarget _) (fun q other => ?_) ?_
  · rw [Blocks.modChan_chans, PerRadio.get_modify_other _ _ other]
  · rw [Blocks.modChan_chans, PerRadio.get_modify_same]
    refine ⟨fun ch hch _ => holdsCurrent_iff.mpr fun k hk => ?_, fun d hd => ?_, fun x => ?_, fun _ => rfl⟩
    · cases hch
      obtain ⟨c, hc, mine, target⟩ := holdsTarget_iff.mp ((h.chans r).target d hd) k hk
      rw [Blocks.modChan_cells, promoteTarget, mapCells_getElem?, hc]
      exact ⟨_, rfl, by simp [mine, target], by simp [mine, target]⟩
    · cases hd
    · rw [show _ = false from clear] at x; cases x

theorem carryOut {b : Blocks} (h : MapSound b) {r : Radio} {d : Directive} (hd : (b.chans.get r).directive = some d)
    (except : Option Radio) : MapSound (carryOut env r d except b) := by
  unfold Machine.carryOut promotionCheck
  extract_lets air chan before promoted moved resolved changed restarted cells
  have settled : MapSound restarted :=
    restartIfMoved (sched (SchedOnly.radioChange _ _ _ _ _ _) ((h.promote hd).resolveClashes _ _)) _ _
  split
  · exact settled.moveRequest r _
  · exact settled

theorem takeMoved {b : Blocks} (h : MapSound b) (r : Radio) (id : Byte) : MapSound (takeMoved env r id b) := by
  unfold Machine.takeMoved
  split
  · exact h
  · rename_i d hd
    split
    · exact h.carryOut hd _
    · exact h

theorem takeDecline {b : Blocks} (h : MapSound b) (r : Radio) (id why : Byte) : MapSound (takeDecline env r id why b) := by
  unfold Machine.takeDecline
  split
  · exact h
  · rename_i d hd
    split
    · obtain ⟨clear, _⟩ := (h.chans r).clear_of_directive hd
      extract_lets air before hold dropped declined resolved changed
      have chan : (declined.chans.get r) = { b.chans.get r with directive := none, declined := some ⟨d.entry, hold, why⟩ } := by
        simp only [declined, dropped, Blocks.modChan_chans, dropDirective_chans, PerRadio.get_modify_same]
      have recorded : MapSound declined := (h.dropDirective r).adjust r fun _ => ⟨rfl, rfl, rfl, rfl⟩
      have settled : MapSound changed := sched (SchedOnly.radioChange _ _ _ _ _ _) (recorded.resolveClashes _ _)
      have quiet : (changed.chans.get r) = { b.chans.get r with directive := none, declined := some ⟨d.entry, hold, why⟩ } := by
        simp only [changed, (SchedOnly.radioChange _ _ _ _ _ _).chans]
        rw [(Resolved.resolveClashes _ _).same (by rw [chan]; exact clear), chan]
      unfold waitAfterDecline
      dsimp only
      split
      · refine settled.modChan (r := r) rfl (Blocks.modChan_chans _ _ _) ?_
        rw [quiet]
        exact fun x => ⟨x.current, x.target, fun c => absurd (clear.symm.trans c) Bool.false_ne_true, fun _ => rfl⟩
      · exact settled
    · exact h

theorem lapseRevoke {b : Blocks} (h : MapSound b) (r : Radio) : MapSound (lapseRevoke env r b) := by
  unfold Machine.lapseRevoke
  extract_lets air before dropped resolved gained revoked reported
  have isolated : MapSound revoked := ((h.dropDirective r).resolveClashes none _).adjust r fun _ => ⟨rfl, rfl, rfl, rfl⟩
  exact sched (SchedOnly.radioChange _ _ _ _ _ _) (isolated.frame rfl rfl)

theorem takeLapse {b : Blocks} (h : MapSound b) (r : Radio) : MapSound (takeLapse env r b) := by
  unfold Machine.takeLapse
  split
  · exact h
  · rename_i d hd
    repeat' split
    · exact (h.carryOut hd none).frame rfl rfl
    · exact h.lapseRevoke r
    · exact h

/-! ### A radio's cells released -/

/-- A radio with no channel and no directive, its cells released: what its clash flag and move wait are does not matter. -/
theorem off {b b' : Blocks} {r : Radio} (h : MapSound b) (cells : b'.cells = releaseAll r b.cells) {x : ChanState}
    (chans : b'.chans = b.chans.modify r fun _ => x) (operating : x.operating = none) (directive : x.directive = none)
    (clashed : x.clash = true → x.moveWait = none) : MapSound b' := by
  refine h.step (r := r) (by rw [cells]; exact HeldKept.releaseAll _) (fun q other => ?_) ?_
  · rw [chans, PerRadio.get_modify_other _ _ other]
  · rw [chans, PerRadio.get_modify_same]
    exact ⟨fun ch hch => absurd (operating.symm.trans hch) nofun, fun d hd => absurd (directive.symm.trans hd) nofun,
      fun c => ⟨directive, clashed c⟩, fun _ => directive⟩

theorem clearContext {b : Blocks} (h : MapSound b) (r : Radio) : MapSound (clearContext env r b) := by
  refine off (h.dropDirective r) (x := (b.chans.get r).cleared) (clearContext_cells r b) ?_ rfl rfl nofun
  rw [clearContext_chans, dropDirective_chans, PerRadio.modify_modify]
  refine PerRadio.ext fun q => ?_
  rw [PerRadio.get_modify, PerRadio.get_modify]

theorem resolveAndReview {b : Blocks} (h : MapSound b) (airs : List AirId) (freed : Bool) :
    MapSound (resolveAndReview env airs freed b) :=
  sched (SchedOnly.retestAndReview _ _ _ _) (h.resolveClashes _ _)

/-! ### TUNED -/

/-- A TUNED that is not taken as MOVED, once the directive and the move wait are over. -/
theorem tunedMap {b : Blocks} (h : MapSound b) {r : Radio} (free : (b.chans.get r).directive = none)
    (still : (b.chans.get r).moveWait = none) (x : Option Channel) :
    MapSound (match x with
      | none => tunedOff env r b
      | some ch => tunedChannel env r ch b) := by
  cases x with
  | none =>
    refine off (r := r) h (x := { b.chans.get r with operating := none, isolated := false, clash := false }) ?_ ?_ rfl free nofun
    · unfold tunedOff
      rw [setClash_cells]
      rfl
    · unfold tunedOff
      rw [setClash_chans, Blocks.modChan_chans, PerRadio.modify_modify]
      refine PerRadio.ext fun q => ?_
      rw [PerRadio.get_modify, PerRadio.get_modify]
  | some ch =>
    dsimp only
    unfold tunedChannel
    dsimp only
    split
    · rename_i passes
      refine h.step (r := r) ?_ (fun q other => ?_) ?_
      · rw [setClash_cells]
        exact (HeldKept.releaseAll _).trans (HeldKept.acquire passes)
      · rw [setClash_chans, PerRadio.get_modify_other _ _ other, Blocks.modChan_chans, PerRadio.get_modify_other _ _ other]
      · rw [setClash_chans, setClash_cells, PerRadio.get_modify_same, Blocks.modChan_chans, PerRadio.get_modify_same]
        refine ⟨fun ch' hch _ => holdsCurrent_iff.mpr fun k hk => ?_, fun d hd => ?_, nofun, fun _ => free⟩
        · cases hch
          obtain ⟨y, hy, _⟩ := HeldKept.acquisition_free passes k hk
          rw [Blocks.modChan_cells, acquire, mapCells_getElem?, hy, Option.map_some, if_pos (Channel.has_iff_mem.mpr hk)]
          exact ⟨_, rfl, rfl, rfl⟩
        · exact absurd (free.symm.trans hd) nofun
    · refine h.step (r := r) ?_ (fun q other => ?_) ?_
      · rw [setClash_cells]
        exact HeldKept.releaseAll _
      · rw [setClash_chans, PerRadio.get_modify_other _ _ other, Blocks.modChan_chans, PerRadio.get_modify_other _ _ other]
      · rw [setClash_chans, setClash_cells, PerRadio.get_modify_same, Blocks.modChan_chans, PerRadio.get_modify_same]
        exact ⟨fun _ _ => nofun, fun d hd => absurd (free.symm.trans hd) nofun, fun _ => ⟨free, still⟩, fun _ => free⟩

theorem tunedAfresh {b : Blocks} (h : MapSound b) {r : Radio} (still : (b.chans.get r).moveWait = none)
    (x : Option Channel) : MapSound (tunedAfresh env r x b) := by
  have dropped : (Machine.dropDirective r b).chans.get r = { b.chans.get r with directive := none } := by
    rw [dropDirective_chans, PerRadio.get_modify_same]
  have mapped := (h.dropDirective r).tunedMap (env := env) (by rw [dropped]) (by rw [dropped]; exact still) x
  unfold Machine.tunedAfresh
  exact restartIfMoved (sched (SchedOnly.radioChange _ _ _ _ _ _) (mapped.resolveClashes _ _)) _ _

theorem takeTuned {b : Blocks} (h : MapSound b) (r : Radio) (x : Option Channel) : MapSound (takeTuned env r x b) := by
  have ended := (h.endMoveWait (env := env) r).endLapse (env := env) r
  have still : ((Machine.endLapse env r (Machine.endMoveWait env r b)).chans.get r).moveWait = none := by
    rw [endLapse_chans, PerRadio.get_modify_same, endMoveWait_chans, PerRadio.get_modify_same]
  unfold Machine.takeTuned
  dsimp only
  split
  · rename_i d hd
    split
    · exact ended.carryOut hd _
    · exact ended.tunedAfresh still _
  · exact ended.tunedAfresh still _

/-! ### Sessions, withdrawals, reports and surveys -/

theorem lossDirective {b : Blocks} (h : MapSound b) (r : Radio) (airs : List AirId) :
    MapSound (lossDirective env r airs b) := by
  unfold Machine.lossDirective
  exact resolveAndReview (((sched (SchedOnly.endSession _ _ _) h).dropDirective r).endMoveWait r) _ _

theorem restartContext {b : Blocks} (h : MapSound b) (r : Radio) : MapSound (restartContext env r b) := by
  have forgotten : MapSound ((endSession env r b).modChan r fun c => { c with declined := none }) :=
    (sched (SchedOnly.endSession _ _ _) h).adjust r fun _ => ⟨rfl, rfl, rfl, rfl⟩
  unfold Machine.restartContext
  exact restartIfMoved (resolveAndReview (forgotten.clearContext r) _ _) _ _

theorem withdrawRadio {b : Blocks} (h : MapSound b) (r : Radio) : MapSound (withdrawRadio env r b) := by
  have flagged : MapSound (b.modChan r fun c => { c with withdrawn := true }) := h.adjust r fun _ => ⟨rfl, rfl, rfl, rfl⟩
  unfold Machine.withdrawRadio
  extract_lets airs chan freed withdrawn cleared forgotten reviewed
  have emptied : MapSound forgotten := (flagged.clearContext r).frame rfl rfl
  exact restartIfMoved (resolveAndReview (sched (SchedOnly.withdrawSched _ _ _) emptied) _ _) _ _

theorem foldl {α : Type} {f : Blocks → α → Blocks} (g : ∀ b x, MapSound b → MapSound (f b x)) (l : List α) {b : Blocks}
    (h : MapSound b) : MapSound (l.foldl f b) := by
  induction l generalizing b with
  | nil => exact h
  | cons x xs ih => exact ih (g b x h)

theorem endClearedWaits {b : Blocks} (h : MapSound b) : MapSound (endClearedWaits env b) := by
  refine foldl (fun b r h => ?_) _ h
  repeat' split
  · exact h
  · exact h
  · exact h.endMoveWait r

theorem deliverGuardChange {b : Blocks} (h : MapSound b) (changed risen : List Nat) :
    MapSound (deliverGuardChange env changed risen b) := by
  have told := sched (SchedOnly.takeGuardChange env changed b) h
  unfold Machine.deliverGuardChange
  dsimp only
  split
  · exact told
  · refine foldl (fun b r h => ?_) _ told.endClearedWaits
    unfold requestMove
    dsimp only
    split
    · exact h
    · exact h.moveRequest r _

theorem takeShaping {b : Blocks} (h : MapSound b) (on : Bool) : MapSound (takeShaping env on b) := by
  unfold Machine.takeShaping
  exact sched (SchedOnly.applyShaping _ _) (h.frame rfl rfl)

theorem takePrediction {b : Blocks} (h : MapSound b) (p : Prediction) : MapSound (takePrediction env p b) := by
  unfold Machine.takePrediction
  exact sched (SchedOnly.applyShaping _ _) (h.frame rfl rfl)

theorem settleMonitor {b : Blocks} (h : MapSound b) (env0 : Env) (m0 : Monitor) :
    MapSound (settleMonitor env0 m0 env b) := by
  unfold Machine.settleMonitor
  dsimp only
  repeat' split
  · exact h
  · exact h.deliverGuardChange _ _
  · exact h.takeShaping _
  · exact (h.deliverGuardChange _ _).takeShaping _

theorem monitorEvent {b : Blocks} (h : MapSound b) (f : Monitor → Monitor) : MapSound (monitorEvent env f b) := by
  have changed : MapSound { b with monitor := f b.monitor } := h.frame rfl rfl
  exact changed.settleMonitor _ _

theorem trackerEvent {b : Blocks} (h : MapSound b) (j : Judged) : MapSound (trackerEvent env j b) := by
  have placed : MapSound { b with tracker := j.tracker } := h.frame rfl rfl
  unfold Machine.trackerEvent
  dsimp only
  repeat' split
  · exact placed.monitorEvent _
  · exact placed
  · exact (placed.monitorEvent _).takePrediction _
  · exact placed.takePrediction _

/-- A survey changes scores and survey times alone, and no score leaves 0 … 255 (R6, R77). -/
theorem scored {b : Blocks} (h : MapSound b) {now : Time} {ch : Channel} {f : Nat} (small : f ≤ 255) (u : SurveyUnit) :
    MapSound { b with cells := scoreCells now ch f b.cells, survey := u } := by
  have holders : ∀ {r : Radio} {p : CellRecord → Bool} {c' : Channel},
      (∀ (c : CellRecord) n t, p { c with score := n, surveyed := t } = p c) →
      channelAll b.cells c' (fun _ c => c.holder == some r && p c) = true →
      channelAll (scoreCells now ch f b.cells) c' (fun _ c => c.holder == some r && p c) = true := by
    intro r p c' blind all
    refine channelAll_iff.mpr fun k hk => ?_
    obtain ⟨c, hc, test⟩ := channelAll_iff.mp all k hk
    rw [scoreCells, mapCells_getElem?, hc]
    refine ⟨_, rfl, ?_⟩
    split
    · rw [blind]; exact test
    · exact test
  refine ⟨(mapCells_length _ _).trans h.length, fun c hc => ?_, fun r => ?_⟩
  · obtain ⟨k, hk⟩ := List.mem_iff_getElem?.mp hc
    rw [scoreCells, mapCells_getElem?] at hk
    obtain ⟨x, hx, rfl⟩ := Option.map_eq_some_iff.mp hk
    have sound := h.cells x (List.mem_of_getElem? hx)
    simp only [CellRecord.sound, Bool.and_eq_true, decide_eq_true_iff] at sound ⊢
    split
    · exact ⟨sound.1, nextScore_le small sound.2⟩
    · exact sound
  · have x := h.chans r
    exact ⟨fun ch' hch clear => holders (fun _ _ _ => rfl) (x.current ch' hch clear),
      fun d hd => holders (fun _ _ _ => rfl) (x.target d hd), x.clashed, x.waiting⟩

theorem completeSurvey {b : Blocks} (h : MapSound b) (r : Radio) (ch : Channel) : MapSound (completeSurvey env r ch b) := by
  have surveyed : MapSound (scoreSurvey env ch (b.lanes.get r).survey b) := by
    unfold scoreSurvey
    split
    · exact h
    · rename_i fraction
      exact (h.scored (foreignFraction_le fraction) _).monitorEvent _
  unfold Machine.completeSurvey
  extract_lets scored told retried
  have done : MapSound told := surveyed.frame rfl rfl
  exact (done.retryMove r).frame rfl rfl

theorem lateRelease {b : Blocks} (h : MapSound b) (r : Radio) : MapSound (lateRelease env r b) := by
  unfold Machine.lateRelease
  dsimp only
  split <;> exact h.frame rfl rfl

theorem takeRelease {b : Blocks} (h : MapSound b) (r : Radio) (id : Byte) : MapSound (takeRelease env r id b) := by
  unfold Machine.takeRelease
  dsimp only
  split
  · exact sched (SchedOnly.after (SchedOnly.reviewAirs _ _ _) (SchedOnly.after (SchedOnly.setLastEnded _ _ _ _ _)
      (SchedOnly.endGrantOf _ _ _ _))) h
  · split
    · exact h.frame rfl rfl
    · split
      · exact sched (SchedOnly.after (SchedOnly.reviewAirs _ _ _) (SchedOnly.modSched _ _ _)) h
      · split
        · exact sched (SchedOnly.after (SchedOnly.reviewAirs _ _ _) (SchedOnly.modSched _ _ _)) h
        · unfold deadRelease
          dsimp only
          repeat' split
          · exact h.frame rfl rfl
          · have forgotten : MapSound (b.modSched r fun x => { x with lastEnded := none }) := h.frame rfl rfl
            exact forgotten.lateRelease r
          · exact h.frame rfl rfl
          · exact h.frame rfl rfl

theorem handler {b : Blocks} (h : MapSound b) {r : Radio} {f : Blocks → Blocks} (g : Handler env r f) : MapSound (f b) := by
  cases g with
  | keepalive => exact h
  | samples t levels =>
    exact takeBatch_induct (P := MapSound) (fun _ _ h => h.frame rfl rfl) (fun _ _ h => h.trackerEvent _)
      (fun _ _ h => h.completeSurvey _ _) (fun _ _ h => h.frame rfl rfl) t levels b h
  | heard x =>
    exact takeHeard_induct (P := MapSound) (fun _ _ h => h.frame rfl rfl) (fun _ _ h => h.frame rfl rfl)
      (fun _ _ _ _ _ h => h.frame rfl rfl) x b h
  | request ask => exact sched (SchedOnly.takeRequest _ _ _ _) h
  | release id => exact h.takeRelease _ _
  | tuned start width =>
    unfold tunedMessage
    dsimp only
    repeat' split
    · exact h
    · exact h.takeTuned _ _
    · exact h.takeTuned _ _
    · exact h.frame rfl rfl
  | moved id => exact h.takeMoved _ _
  | decline id reason => exact h.takeDecline _ _ _

theorem takeHello {b : Blocks} (h : MapSound b) (r : Radio) (version : Byte) (x : Capability) :
    MapSound (takeHello env r version x b) := by
  have begun : MapSound (if ((b.hunt r).links.get r).port == .up then restartLiveness env r (b.hunt r) else b.hunt r) := by
    split <;> exact h.frame rfl rfl
  have opened : ∀ b, MapSound b → MapSound (helloOpens env r x b) := fun b h => by
    unfold helloOpens endLinkSource
    dsimp only
    refine sched (SchedOnly.reviewAirs _ _ _) ?_
    split <;> exact h.frame rfl rfl
  have restarted : ∀ b, MapSound b → MapSound (helloRestarts env r x b) := fun b h => by
    have purged : MapSound (purgeQueue r b) := h.frame rfl rfl
    exact (purged.restartContext (env := env) r).frame rfl rfl
  unfold Machine.takeHello
  dsimp only
  split
  · exact begun.frame rfl rfl
  · split
    · exact restarted _ (h.frame rfl rfl)
    · exact opened _ (h.frame rfl rfl)

theorem loseLink {b : Blocks} (h : MapSound b) (r : Radio) : MapSound (loseLink env r b) := by
  unfold Machine.loseLink
  extract_lets air lost told ended
  have cut : MapSound told := h.frame rfl rfl
  exact (cut.lossDirective r air.toList).frame rfl rfl

/-- Every event keeps the law of the cells. -/
theorem event {b b' : Blocks} (g : Event env b b') (h : MapSound b) : MapSound b' := by
  cases g with
  | nothing => exact h
  | monitor f _ => exact h.monitorEvent f
  | move r e _ can free issued => exact h.issueMove (clear_of_directable can) issued
  | withdraw r => exact h.withdrawRadio r
  | restore r => exact h.adjust r fun _ => ⟨rfl, rfl, rfl, rfl⟩
  | declineHold r => exact h.adjust r fun _ => ⟨rfl, rfl, rfl, rfl⟩
  | hello r version x => exact h.takeHello r version x
  | message r f g =>
    have alive : MapSound (restartLiveness env r (b.hunt r)) := h.frame rfl rfl
    unfold receive
    dsimp only
    split
    · exact alive.handler g
    · exact h.frame rfl rfl
  | loss r => exact h.loseLink r
  | onset => exact h.trackerEvent _
  | lapse r => exact h.takeLapse r
  | review a => exact sched (SchedOnly.reviewAir _ _ _) h
  | holdEnd a => exact sched (SchedOnly.after (SchedOnly.reviewAir _ _ _) (SchedOnly.modAir _ _ _)) h
  | assertion r => exact sched (SchedOnly.assertInRun _ _ _) (h.frame rfl rfl)
  | release r => exact sched (SchedOnly.finishHold _ _ _) (h.frame rfl rfl)
  | expire r => exact sched (Regular.expireGrant (S := False) (env := env) r b).only h
  | mark r =>
    unfold issueMark
    split <;> exact h.frame rfl rfl
  | status | forget | clear | sync | error | reqHigh | transmit | streamLapse | anchor | sweep | waitLimit | start
  | expirePass | lastEnded => exact h.frame rfl rfl

/-! ### The mode changes and the resets -/

theorem report {b : Blocks} (h : MapSound b) (key : CondKey) (x : Bool) : MapSound (b.report env key x) := h.frame rfl rfl

theorem freshReports {b : Blocks} (h : MapSound b) : MapSound (freshReports env b) :=
  foldl (fun _ x h => h.report x.1 x.2) _ h

theorem runBlocks {b : Blocks} (h : MapSound b) : MapSound (runBlocks env b) := by
  have emptied : MapSound { b with monitor := b.monitor.emptied } := h.frame rfl rfl
  exact sched (SchedOnly.schedToRun _ _) emptied.freshReports

theorem setupBlocks {b : Blocks} (h : MapSound b) : MapSound (setupBlocks env b) := by
  have ended : MapSound (waitsEnded env b) := foldl (fun _ r h => h.endMoveWait r) _ h
  have emptied : MapSound { waitsEnded env b with monitor := (waitsEnded env b).monitor.emptied } := ended.frame rfl rfl
  rw [setupBlocks_eq]
  exact sched (SchedOnly.schedToSetup _ _) (emptied.settleMonitor _ _).freshReports

theorem reset (x : PerRadio Bool) : MapSound (Blocks.reset x) := by
  refine ⟨List.length_replicate, fun c hc => ?_, fun r => ?_⟩
  · rw [List.eq_of_mem_replicate hc]
    rfl
  · rw [Blocks.reset_chans_get]
    exact ⟨nofun, nofun, nofun, nofun⟩

end MapSound

theorem Effect.mapSound {env env' : Env} {b b' : Blocks} (g : Effect env b env' b') (h : MapSound b) : MapSound b' := by
  cases g with
  | event _ g => exact MapSound.event g h
  | reset | softReset => exact MapSound.reset _
  | tick | configured | own => exact h.frame rfl rfl
  | tracking => exact h.trackerEvent _
  | run => exact h.runBlocks
  | setup => exact h.setupBlocks

/-- Settles O56: a holding operation leaves the other radios' cells, and each operation of the controller makes its own radio's
agree again. -/
theorem stepKeepsMapSound : Obligations.StepKeepsMapSound := fun _ _ sound next => (step_effect next).mapSound sound

end Sys2Proof.Machine
end

