-- ==== Sys2Proof/Proofs/EveryCommand.lean ====
section
/-! PROOF. What every command does to the whole state: it completes, leaves the queue alone, and changes part time, the mode, the
retained set and the port only where its rules say so (O1 to O4, O9, O54). -/

namespace Sys2Proof.Machine

/-! ## Steps and the reset state -/

/-- Settles O1. -/
theorem stepRunsFrontCommand : Obligations.StepRunsFrontCommand := by
  intro c rest s front
  unfold step
  rw [front]

theorem idleStep_none {s : State} (none : dueCommands s.env s.port s.blocks = []) : idleStep s = s.tick := by
  unfold idleStep
  rw [none]

theorem idleStep_due {s : State} (due : dueCommands s.env s.port s.blocks ≠ []) :
    idleStep s = { s with pending := dueCommands s.env s.port s.blocks } := by
  unfold idleStep
  split
  · rename_i none; exact absurd none due
  · rfl

/-- Settles O2: the clock counts one microsecond and looks at each line once. -/
theorem emptyQueueStep : Obligations.EmptyQueueStep := by
  intro s empty
  have idle : step s = .next (idleStep s) := by unfold step; rw [empty]
  refine ⟨fun none => ⟨s.tick, by rw [idle, idleStep_none none], rfl, fun r => ?_⟩, fun due => by rw [idle, idleStep_due due]⟩
  rw [State.tick_links, Link.idleLine_eq]
  rfl

/-- Settles O54. -/
theorem resetIsSound : Obligations.ResetIsSound where
  retained := Retained.reset_sound
  map := MapSound.reset _
  monitor := Monitor.Sound.emptied ⟨[], false, none⟩
  survey := ⟨Nat.zero_le _, List.nodup_nil⟩
  requests := Blocks.reset_requestsSound _
  grants := fun a g hg => by cases a <;> cases hg
  queues := Blocks.reset_queuesBounded _
  lines := Blocks.reset_linesCurrent _ _
  tracker := Tracker.Sound.reset _
  reports := ⟨rfl, rfl⟩

/-! ## Host commands -/

/-- What a host command does to the whole state (R158, R160). -/
structure Answers (c : Instr) (s t : State) : Prop where
  pending : t.pending = s.pending
  now : t.env.now = s.env.now
  mode : c ≠ .run → c ≠ .setup → t.env.mode = s.env.mode
  retained : writesRetained c = false → t.env.retained = s.env.retained
  answered : ∃ x, t.port = { s.port with
      slot := .preparing x (Time.plus s.env.now 50), softReset := decide (c = .softReset) }
    ∧ (x.status ≠ .ok → x.payload = [] ∧ t.env = s.env ∧ t.blocks = s.blocks)

/-- A command completes with an answer. -/
def Answered (c : Instr) (s : State) : Prop := ∃ t, exec c s = .next t ∧ Answers c s t

namespace Answers

variable {c : Instr} {s : State}

theorem reject (soft : c ≠ .softReset) (x : Status) : Answers c s (s.reject x) where
  pending := rfl
  now := rfl
  mode _ _ := rfl
  retained _ := rfl
  answered := ⟨⟨x, []⟩, by simp [State.reject, State.answer, HostPort.take, prepareLimit, soft], fun _ => ⟨rfl, rfl, rfl⟩⟩

/-- An accepted command's answer, whatever it does to the blocks. -/
theorem ok (soft : c ≠ .softReset) {t : State} (port : t.port = s.port) (pending : t.pending = s.pending)
    (now : t.env.now = s.env.now) (mode : c ≠ .run → c ≠ .setup → t.env.mode = s.env.mode)
    (retained : writesRetained c = false → t.env.retained = s.env.retained) (p : List Byte) : Answers c s (t.ok p) where
  pending := pending
  now := now
  mode := mode
  retained := retained
  answered := ⟨⟨.ok, p⟩, by simp [State.ok, State.answer, HostPort.take, prepareLimit, soft, port, now],
    fun bad => absurd rfl bad⟩

/-- An accepted command that leaves the environment alone. -/
theorem done (soft : c ≠ .softReset) (b : Blocks) (p : List Byte) : Answers c s ({ s with blocks := b }.ok p) :=
  ok (s := s) (t := { s with blocks := b }) soft rfl rfl rfl (fun _ _ => rfl) (fun _ => rfl) p

/-- An accepted configuration command. -/
theorem configured (soft : c ≠ .softReset) (writes : writesRetained c = true) (x : Retained) (b : Blocks) (p : List Byte) :
    Answers c s ({ s with env := { s.env with retained := x }, blocks := b }.ok p) :=
  ok (s := s) (t := { s with env := { s.env with retained := x }, blocks := b }) soft rfl rfl rfl (fun _ _ => rfl)
    (fun h => absurd (writes.symm.trans h) nofun) p

end Answers

theorem exec_setReaction_answers (kind reaction scope : Byte) (filter extension : BitVec 16) (s : State) :
    Answered (.setReaction kind reaction scope filter extension) s := by
  show ∃ t, execSetReaction kind reaction scope filter extension s = .next t ∧ _
  unfold execSetReaction
  split
  · exact ⟨_, rfl, .reject (by nofun) _⟩
  · exact ⟨_, rfl, .configured (by nofun) (by rfl) _ _ _⟩

theorem exec_setParameter_answers (id : Byte) (value : BitVec 32) (s : State) : Answered (.setParameter id value) s := by
  show ∃ t, execSetParameter id value s = .next t ∧ _
  unfold execSetParameter
  dsimp only
  repeat' split
  · exact ⟨_, rfl, .reject (by nofun) _⟩
  · exact ⟨_, rfl, .reject (by nofun) _⟩
  · exact ⟨_, rfl, .reject (by nofun) _⟩
  · exact ⟨_, rfl, .configured (by nofun) (by rfl) _ _ _⟩
  · exact ⟨_, rfl, .configured (by nofun) (by rfl) _ _ _⟩

theorem exec_getParameter_answers (id : Byte) (s : State) : Answered (.getParameter id) s := by
  show ∃ t, execGetParameter id s = .next t ∧ _
  unfold execGetParameter
  split
  · exact ⟨_, rfl, .reject (by nofun) _⟩
  · exact ⟨_, rfl, .done (by nofun) _ _⟩

theorem exec_loadPlanEntry_answers (id start width mask : Byte) (s : State) :
    Answered (.loadPlanEntry id start width mask) s := by
  show ∃ t, execLoadPlanEntry id start width mask s = .next t ∧ _
  unfold execLoadPlanEntry
  repeat' split
  · exact ⟨_, rfl, .reject (by nofun) _⟩
  · exact ⟨_, rfl, .reject (by nofun) _⟩
  · exact ⟨_, rfl, .configured (by nofun) (by rfl) _ _ _⟩

theorem exec_deletePlanEntry_answers (id : Byte) (s : State) : Answered (.deletePlanEntry id) s := by
  show ∃ t, execDeletePlanEntry id s = .next t ∧ _
  unfold execDeletePlanEntry
  repeat' split
  · exact ⟨_, rfl, .reject (by nofun) _⟩
  · exact ⟨_, rfl, .reject (by nofun) _⟩
  · exact ⟨_, rfl, .reject (by nofun) _⟩
  · exact ⟨_, rfl, .configured (by nofun) (by rfl) _ _ _⟩

theorem exec_setSpan_answers (radio base limit : Byte) (s : State) : Answered (.setSpan radio base limit) s := by
  show ∃ t, execSetSpan radio base limit s = .next t ∧ _
  unfold execSetSpan
  repeat' split
  · exact ⟨_, rfl, .reject (by nofun) _⟩
  · exact ⟨_, rfl, .configured (by nofun) (by rfl) _ _ _⟩
  · exact ⟨_, rfl, .reject (by nofun) _⟩

theorem exec_setKeepClear_answers (base limit : Byte) (s : State) : Answered (.setKeepClear base limit) s := by
  show ∃ t, execSetKeepClear base limit s = .next t ∧ _
  unfold execSetKeepClear
  repeat' split
  · exact ⟨_, rfl, .reject (by nofun) _⟩
  · exact ⟨_, rfl, .reject (by nofun) _⟩
  · exact ⟨_, rfl, .configured (by nofun) (by rfl) _ _ _⟩

theorem exec_loadOwn_answers (index flag : Byte) (bss : BssId) (s : State) : Answered (.loadOwn index flag bss) s := by
  show ∃ t, execLoadOwn index flag bss s = .next t ∧ _
  unfold execLoadOwn
  split
  · exact ⟨_, rfl, .reject (by nofun) _⟩
  · split
    · exact ⟨_, rfl, .reject (by nofun) _⟩
    · exact ⟨_, rfl, .configured (by nofun) (by rfl) _ _ _⟩

theorem exec_loadSignature_answers (index enable : Byte) (mask : BitVec 24) (expected : BitVec 16) (action : Byte)
    (s : State) : Answered (.loadSignature index enable mask expected action) s := by
  show ∃ t, execLoadSignature index enable mask expected action s = .next t ∧ _
  unfold execLoadSignature
  repeat' split
  · exact ⟨_, rfl, .reject (by nofun) _⟩
  · exact ⟨_, rfl, .configured (by nofun) (by rfl) _ _ _⟩
  · exact ⟨_, rfl, .reject (by nofun) _⟩

theorem exec_readConditions_answers (first count : Byte) (s : State) : Answered (.readConditions first count) s := by
  show ∃ t, execReadConditions first count s = .next t ∧ _
  unfold execReadConditions
  split
  · exact ⟨_, rfl, .done (by nofun) _ _⟩
  · exact ⟨_, rfl, .reject (by nofun) _⟩

theorem exec_clearLatch_answers (kind subject : Byte) (s : State) : Answered (.clearLatch kind subject) s := by
  show ∃ t, execClearLatch kind subject s = .next t ∧ _
  unfold execClearLatch
  repeat' split
  · exact ⟨_, rfl, .reject (by nofun) _⟩
  · exact ⟨_, rfl, .reject (by nofun) _⟩
  · exact ⟨_, rfl, .done (by nofun) _ _⟩
  · exact ⟨_, rfl, .reject (by nofun) _⟩

theorem exec_readCells_answers (first count : Byte) (s : State) : Answered (.readCells first count) s := by
  show ∃ t, execReadCells first count s = .next t ∧ _
  unfold execReadCells
  split
  · exact ⟨_, rfl, .done (by nofun) _ _⟩
  · exact ⟨_, rfl, .reject (by nofun) _⟩

theorem exec_readNeighbours_answers (first count : Byte) (s : State) : Answered (.readNeighbours first count) s := by
  show ∃ t, execReadNeighbours first count s = .next t ∧ _
  unfold execReadNeighbours
  split
  · exact ⟨_, rfl, .done (by nofun) _ _⟩
  · exact ⟨_, rfl, .reject (by nofun) _⟩

theorem exec_readRadio_answers (radio clear : Byte) (s : State) : Answered (.readRadio radio clear) s := by
  show ∃ t, execReadRadio radio clear s = .next t ∧ _
  unfold execReadRadio
  split
  · exact ⟨_, rfl, .done (by nofun) _ _⟩
  · exact ⟨_, rfl, .reject (by nofun) _⟩

theorem exec_readCosts_answers (radio : Byte) (s : State) : Answered (.readCosts radio) s := by
  show ∃ t, execReadCosts radio s = .next t ∧ _
  unfold execReadCosts
  split
  · exact ⟨_, rfl, .reject (by nofun) _⟩
  · exact ⟨_, rfl, .done (by nofun) _ _⟩

theorem exec_move_answers (radio entry : Byte) (s : State) : Answered (.move radio entry) s := by
  have issued : ∀ r e cost, Answers (.move radio entry) s (issueHostMove r e cost s) := fun r e cost => by
    unfold issueHostMove
    split
    · exact .reject (by nofun) _
    · exact .done (by nofun) _ _
  show ∃ t, execMove radio entry s = .next t ∧ _
  unfold execMove moveNamed moveBest
  repeat' split
  · exact ⟨_, rfl, .reject (by nofun) _⟩
  · exact ⟨_, rfl, .reject (by nofun) _⟩
  · exact ⟨_, rfl, .reject (by nofun) _⟩
  · exact ⟨_, rfl, .reject (by nofun) _⟩
  · exact ⟨_, rfl, .reject (by nofun) _⟩
  · exact ⟨_, rfl, issued _ _ _⟩
  · exact ⟨_, rfl, .reject (by nofun) _⟩
  · exact ⟨_, rfl, .done (by nofun) _ _⟩
  · exact ⟨_, rfl, issued _ _ _⟩
  · exact ⟨_, rfl, .reject (by nofun) _⟩

theorem exec_withdraw_answers (radio : Byte) (s : State) : Answered (.withdraw radio) s := by
  show ∃ t, execWithdraw radio s = .next t ∧ _
  unfold execWithdraw
  repeat' split
  · exact ⟨_, rfl, .reject (by nofun) _⟩
  · exact ⟨_, rfl, .done (by nofun) _ _⟩
  · exact ⟨_, rfl, .done (by nofun) _ _⟩

theorem exec_restore_answers (radio : Byte) (s : State) : Answered (.restore radio) s := by
  show ∃ t, execRestore radio s = .next t ∧ _
  unfold execRestore
  split
  · exact ⟨_, rfl, .reject (by nofun) _⟩
  · exact ⟨_, rfl, .done (by nofun) _ _⟩

theorem exec_run_answers (s : State) : Answered .run s := by
  show ∃ t, execRun s = .next t ∧ _
  unfold execRun
  split
  · exact ⟨_, rfl, .done (by nofun) _ _⟩
  · exact ⟨_, rfl, .ok (c := .run) (s := s) (t := enterRun s) nofun rfl rfl rfl (fun h => absurd rfl h) (fun _ => rfl) _⟩

theorem exec_setup_answers (s : State) : Answered .setup s := by
  show ∃ t, execSetup s = .next t ∧ _
  unfold execSetup
  split
  · exact ⟨_, rfl, .done (by nofun) _ _⟩
  · exact ⟨_, rfl, .ok (c := .setup) (s := s) (t := enterSetup s) nofun rfl rfl rfl (fun _ h => absurd rfl h) (fun _ => rfl) _⟩

theorem exec_softReset_answers (s : State) : Answered .softReset s :=
  ⟨_, rfl, rfl, rfl, fun _ _ => rfl, fun _ => rfl, ⟨.ok, []⟩, rfl, fun bad => absurd rfl bad⟩

/-- Every host command is answered. -/
theorem hostCommand_answered {c : Instr} (s : State) (h : hostCommandOf c = true) : Answered c s := by
  cases c with
  | setReaction => exact exec_setReaction_answers _ _ _ _ _ s
  | setParameter => exact exec_setParameter_answers _ _ s
  | getParameter => exact exec_getParameter_answers _ s
  | loadPlanEntry => exact exec_loadPlanEntry_answers _ _ _ _ s
  | deletePlanEntry => exact exec_deletePlanEntry_answers _ s
  | setSpan => exact exec_setSpan_answers _ _ _ s
  | setKeepClear => exact exec_setKeepClear_answers _ _ s
  | loadOwn => exact exec_loadOwn_answers _ _ _ s
  | loadSignature => exact exec_loadSignature_answers _ _ _ _ _ s
  | readConditions => exact exec_readConditions_answers _ _ s
  | clearLatch => exact exec_clearLatch_answers _ _ s
  | readCells => exact exec_readCells_answers _ _ s
  | readNeighbours => exact exec_readNeighbours_answers _ _ s
  | readRadio => exact exec_readRadio_answers _ _ s
  | readCosts => exact exec_readCosts_answers _ s
  | move => exact exec_move_answers _ _ s
  | withdraw => exact exec_withdraw_answers _ s
  | restore => exact exec_restore_answers _ s
  | run => exact exec_run_answers s
  | setup => exact exec_setup_answers s
  | softReset => exact exec_softReset_answers s
  | status | readTracker | clearNeighbours => exact ⟨_, rfl, .done (by nofun) _ _⟩
  | _ => cases h

/-- Settles O9. -/
theorem hostCommandsAreAnswered : Obligations.HostCommandsAreAnswered := by
  intro c s host
  obtain ⟨t, ran, answers⟩ := hostCommand_answered s host
  obtain ⟨x, port, refused⟩ := answers.answered
  exact ⟨t, x, ran, port, refused⟩

/-! ## The events -/

/-- The resets and the transactions of the host port itself. -/
def portEvent : Instr → Bool
  | .powerOnReset | .pinReset | .fetch _ | .responseReady | .malformedCommand _ | .emptyTransaction => true
  | _ => false

/-- A radio's event or a timed event reaches the blocks alone. -/
theorem event_blocks {c : Instr} (s : State) (host : hostCommandOf c = false) (port : portEvent c = false) :
    ∃ b, exec c s = .next { s with blocks := b } := by
  cases c with
  | reqAssertion r =>
    show ∃ b, execReqAssertion r s = _
    unfold execReqAssertion
    split
    · exact ⟨s.blocks, rfl⟩
    · exact ⟨_, rfl⟩
  | reqRelease r =>
    show ∃ b, execReqRelease r s = _
    unfold execReqRelease
    split
    · exact ⟨_, rfl⟩
    · exact ⟨s.blocks, rfl⟩
  | hello | keepalive | samples | heard | windowRequest | release | tuned | moved | decline | messageDiscarded
  | messageAbandoned | transmitStart | mark | linkLoss | streamLapse | anchorExpiry | onsetCheck | neighbourSweep
  | filterTimerExpiry | extensionTimerExpiry | reviewTimerExpiry | waitLimitExpiry | grantStart | grantExpiry
  | lastEndedExpiry | holdEnd | directiveLapse | declineHoldExpiry | syncByte => exact ⟨_, rfl⟩
  | powerOnReset | pinReset | fetch | responseReady | malformedCommand | emptyTransaction => cases port
  | _ => cases host

theorem exec_fetch_pending (n : Nat) (s : State) : ∃ t, exec (.fetch n) s = .next t ∧ t.pending = s.pending := by
  show ∃ t, execFetch n s = .next t ∧ _
  unfold execFetch
  split
  · exact ⟨_, rfl, rfl⟩
  · exact ⟨_, rfl, rfl⟩

/-- The port's own transactions leave the environment alone, but for a fetch. -/
theorem portEvent_env {c : Instr} (s : State) (port : portEvent c = true) :
    ∃ t, exec c s = .next t ∧ t.pending = s.pending ∧ (mayReset c = false → t.env = s.env) := by
  cases c with
  | fetch n =>
    obtain ⟨t, ran, pending⟩ := exec_fetch_pending n s
    exact ⟨t, ran, pending, nofun⟩
  | powerOnReset | pinReset => exact ⟨_, rfl, rfl, nofun⟩
  | responseReady | malformedCommand | emptyTransaction => exact ⟨_, rfl, rfl, fun _ => rfl⟩
  | _ => cases port

/-- Settles O3. -/
theorem everyCommandCompletes : Obligations.EveryCommandCompletes := by
  intro c s
  cases port : portEvent c with
  | true =>
    obtain ⟨t, ran, pending, _⟩ := portEvent_env s port
    exact ⟨t, ran, pending⟩
  | false =>
    cases host : hostCommandOf c with
    | true =>
      obtain ⟨t, ran, answers⟩ := hostCommand_answered s host
      exact ⟨t, ran, answers.pending⟩
    | false =>
      obtain ⟨b, ran⟩ := event_blocks s host port
      exact ⟨_, ran, rfl⟩

/-- A fetch keeps the retained set, also when it ends a soft reset (R166). -/
theorem exec_fetch_retained {n : Nat} {s t : State} (h : exec (.fetch n) s = .next t) : t.env.retained = s.env.retained := by
  change execFetch n s = .next t at h
  unfold execFetch at h
  split at h
  · cases h; rfl
  · cases h; rfl

/-- Settles O4. -/
theorem modeTimeAndConfigurationKept : Obligations.ModeTimeAndConfigurationKept := by
  intro c s t ran
  cases port : portEvent c with
  | true =>
    obtain ⟨u, ran', _, env⟩ := portEvent_env s port
    obtain rfl : u = t := Host.Outcome.next.inj (ran'.symm.trans ran)
    refine ⟨fun h => by rw [env h], fun h _ _ => by rw [env h], fun power pin _ => ?_⟩
    cases reset : mayReset c with
    | false => rw [env reset]
    | true =>
      cases c with
      | fetch n => exact exec_fetch_retained ran
      | powerOnReset => exact absurd rfl power
      | pinReset => exact absurd rfl pin
      | _ => cases reset
  | false =>
    cases host : hostCommandOf c with
    | true =>
      obtain ⟨u, ran', answers⟩ := hostCommand_answered s host
      obtain rfl : u = t := Host.Outcome.next.inj (ran'.symm.trans ran)
      exact ⟨fun _ => answers.now, fun _ => answers.mode, fun _ _ => answers.retained⟩
    | false =>
      obtain ⟨b, ran'⟩ := event_blocks s host port
      cases ran'.symm.trans ran
      exact ⟨fun _ => rfl, fun _ _ _ => rfl, fun _ _ _ => rfl⟩

end Sys2Proof.Machine
end

