-- ==== Sys2Proof/Proofs/OneRadio.lean ====
section
/-! PROOF. A command about one radio leaves the rest of the part alone, and O5: what the directive controller does near a radio,
said once for each operation, with what the laws of the controller say of the rest. -/

namespace Sys2Proof.Machine

/-- Of the lanes a radio's alone may change, of the channel states another's clash flag too, and no score or survey time. -/
structure Near (r : Radio) (b b' : Blocks) : Prop where
  lanes : ∀ q, q ≠ r → b'.lanes.get q = b.lanes.get q
  chans : ∀ q, q ≠ r → b'.chans.get q = { b.chans.get q with clash := (b'.chans.get q).clash }
  scores : b'.cells.map (fun c => (c.score, c.surveyed)) = b.cells.map (fun c => (c.score, c.surveyed))

/-- A radio-kind report leaves the OVEN and CROWD records and the footprint range alone. -/
theorem RadioReported.rest {env : Env} {m m' : Monitor} (h : RadioReported env m m') :
    m'.list.filter (fun c => (CondKey.radio c.key).isNone) = m.list.filter (fun c => (CondKey.radio c.key).isNone)
      ∧ m'.lastRange = m.lastRange := by
  have updated : ∀ {key : CondKey} {f : CondRecord → Option CondRecord}, (CondKey.radio key).isNone = false →
      (∀ c d, f c = some d → d.key = c.key) → ∀ l : List CondRecord,
      (updateKey key f l).filter (fun c => (CondKey.radio c.key).isNone)
        = l.filter (fun c => (CondKey.radio c.key).isNone) := by
    intro key f hk hf l
    induction l with
    | nil => rfl
    | cons c cs ih =>
      unfold updateKey
      split
      · rename_i e
        rw [List.filter_cons_of_neg (by rw [e, hk]; exact Bool.false_ne_true)]
        split
        · rfl
        · rename_i d hd
          rw [List.filter_cons_of_neg (by rw [hf c d hd, e, hk]; exact Bool.false_ne_true)]
      · rw [List.filter_cons, List.filter_cons, ih]
  induction h with
  | refl => exact ⟨rfl, rfl⟩
  | @report m' key x r hr _ ih =>
    obtain ⟨list, range⟩ := ih
    have hk : (CondKey.radio key).isNone = false := by rw [hr]; rfl
    rw [← list, ← range]
    unfold Monitor.report
    split
    · unfold Monitor.present
      split
      · exact ⟨updated hk (fun c d e => by cases e; simp) _, rfl⟩
      · split
        · refine ⟨?_, rfl⟩
          rw [List.filter_append, List.filter_cons_of_neg (by rw [newRecord_key, hk]; exact Bool.false_ne_true)]
          simp
        · exact ⟨rfl, rfl⟩
    · exact ⟨updated hk (fun _ _ => CondRecord.onAbsent_key) _, rfl⟩

theorem RadioOnly.of {env : Env} {r : Radio} {b b' : Blocks} (h : Directed env b b') (n : Near r b b') : RadioOnly r b b' :=
  ⟨n.lanes, n.chans, fun q _ => h.links q, n.scores, h.tracker, h.survey, h.shaping, h.prediction, h.monitor.rest.1,
    h.monitor.rest.2⟩

theorem RadioOnly.trans {r : Radio} {a b c : Blocks} (h : RadioOnly r a b) (g : RadioOnly r b c) : RadioOnly r a c where
  lanes q hq := (g.lanes q hq).trans (h.lanes q hq)
  chans q hq := by rw [g.chans q hq, h.chans q hq]
  links q hq := (h.links q hq).trans (g.links q hq)
  scores := g.scores.trans h.scores
  tracker := g.tracker.trans h.tracker
  survey := g.survey.trans h.survey
  shaping := g.shaping.trans h.shaping
  prediction := g.prediction.trans h.prediction
  records := g.records.trans h.records
  range := g.range.trans h.range

namespace Near

variable {env : Env} {r : Radio}

theorem refl (b : Blocks) : Near r b b := ⟨fun _ _ => rfl, fun _ _ => rfl, rfl⟩

theorem after {a b c : Blocks} (g : Near r b c) (h : Near r a b) : Near r a c :=
  ⟨fun q hq => (g.lanes q hq).trans (h.lanes q hq), fun q hq => by rw [g.chans q hq, h.chans q hq],
    g.scores.trans h.scores⟩

theorem frame {b b' : Blocks} (lanes : b'.lanes = b.lanes) (chans : b'.chans = b.chans) (cells : b'.cells = b.cells) :
    Near r b b' :=
  ⟨fun _ _ => by rw [lanes], fun _ _ => by rw [chans], by rw [cells]⟩

theorem sched {b b' : Blocks} (h : SchedOnly b b') : Near r b b' := frame h.lanes h.chans h.cells

/-- The radio's own channel state changed, with the lanes and the cells as they were. -/
theorem modChan {b b' : Blocks} {f : ChanState → ChanState} (lanes : b'.lanes = b.lanes)
    (chans : b'.chans = b.chans.modify r f) (cells : b'.cells = b.cells) : Near r b b' :=
  ⟨fun _ _ => by rw [lanes], fun q hq => by rw [chans, PerRadio.get_modify_other _ _ hq], by rw [cells]⟩

theorem chanOnly (b : Blocks) (f : ChanState → ChanState) : Near r b (b.modChan r f) :=
  modChan rfl (Blocks.modChan_chans _ _ _) rfl

theorem scores_mapCells {f : Nat → CellRecord → CellRecord} (hf : ∀ k c, (f k c).score = c.score ∧ (f k c).surveyed = c.surveyed)
    (cells : List CellRecord) :
    (mapCells f cells).map (fun c => (c.score, c.surveyed)) = cells.map (fun c => (c.score, c.surveyed)) := by
  refine List.ext_getElem? fun k => ?_
  rw [List.getElem?_map, List.getElem?_map, mapCells_getElem?, Option.map_map]
  refine Option.map_congr fun c _ => ?_
  obtain ⟨score, surveyed⟩ := hf k c
  rw [Function.comp_apply, score, surveyed]

/-- A holding operation moves no score. -/
theorem setCells (b : Blocks) {f : Nat → CellRecord → CellRecord}
    (hf : ∀ k c, (f k c).score = c.score ∧ (f k c).surveyed = c.surveyed) : Near r b { b with cells := mapCells f b.cells } :=
  ⟨fun _ _ => rfl, fun _ _ => rfl, scores_mapCells hf _⟩

theorem releaseAll (b : Blocks) : Near r b { b with cells := releaseAll r b.cells } :=
  setCells b fun k c => by split <;> exact ⟨rfl, rfl⟩

theorem dropTarget (b : Blocks) : Near r b { b with cells := dropTarget r b.cells } :=
  setCells b fun k c => by
    split
    · split <;> exact ⟨rfl, rfl⟩
    · exact ⟨rfl, rfl⟩

theorem promoteTarget (b : Blocks) : Near r b { b with cells := promoteTarget r b.cells } :=
  setCells b fun k c => by
    split
    · split <;> exact ⟨rfl, rfl⟩
    · exact ⟨rfl, rfl⟩

theorem acquire (b : Blocks) (q : Radio) (ch : Channel) : Near r b { b with cells := acquire q ch b.cells } :=
  setCells b fun k c => by split <;> exact ⟨rfl, rfl⟩

theorem endMoveWait (b : Blocks) : Near r b (endMoveWait env r b) := by
  refine modChan ?_ (endMoveWait_chans r b) (endMoveWait_cells r b)
  unfold Machine.endMoveWait
  split
  · rfl
  · dsimp only
    split <;> rfl

theorem enterMoveWait (cells : List Nat) (b : Blocks) : Near r b (enterMoveWait env r cells b) := by
  refine modChan ?_ (enterMoveWait_chans r cells b) (enterMoveWait_cells r cells b)
  unfold Machine.enterMoveWait
  dsimp only
  split <;> rfl

theorem endLapse (b : Blocks) : Near r b (endLapse env r b) := by
  refine modChan ?_ (endLapse_chans r b) (endLapse_cells r b)
  unfold Machine.endLapse
  split <;> rfl

theorem setClash_lanes (q : Radio) (x : Bool) (b : Blocks) : (setClash env q x b).lanes = b.lanes := by
  unfold Machine.setClash
  split <;> rfl

/-- Any radio's clash flag may change. -/
theorem setClash (q : Radio) (x : Bool) (b : Blocks) : Near r b (setClash env q x b) := by
  refine ⟨fun p _ => by rw [setClash_lanes], fun p _ => ?_, by rw [setClash_cells]⟩
  rw [setClash_chans, PerRadio.get_modify]
  split
  · rename_i e; subst e; rfl
  · rfl

theorem resolveClashes (except : Option Radio) (freed : Bool) (b : Blocks) :
    Near r b (resolveClashes env except freed b) := by
  have fold : ∀ (l : List Radio) b, Near r b (l.foldl (resolveOne env except) b) := by
    intro l
    induction l with
    | nil => exact refl
    | cons q qs ih =>
      intro b
      refine after (ih _) ?_
      unfold resolveOne
      dsimp only
      repeat' split
      · exact refl _
      · exact after (setClash _ _ _) (acquire _ _ _)
      · exact refl _
  unfold Machine.resolveClashes
  split
  · exact fold _ _
  · exact refl _

theorem dropDirective (b : Blocks) : Near r b (dropDirective r b) := by
  unfold Machine.dropDirective
  split
  · exact after (chanOnly _ _) (dropTarget _)
  · exact refl _

theorem issueMove {e : PlanEntry} {why : MoveReason} {b b' : Blocks} (h : issueMove env r e why b = some b') :
    Near r b b' := by
  unfold Machine.issueMove at h
  split at h
  · cases h
  · rename_i cells reserved
    obtain ⟨_, rfl⟩ := reserveTarget_eq_some.mp reserved
    cases h
    exact after (sched (SchedOnly.send _ _ _)) (after (sched (SchedOnly.radioChange _ _ _ _ _ _)) (after (endMoveWait _)
      (after (chanOnly _ _) (setCells _ fun k c => by split <;> exact ⟨rfl, rfl⟩))))

theorem moveRequest (cells : List Nat) (b : Blocks) : Near r b (moveRequest env r cells b) := by
  unfold Machine.moveRequest
  repeat' split
  · exact refl _
  · exact refl _
  · exact refl _
  · rename_i issued
    unfold guardChoice at issued
    split at issued
    · cases issued
    · exact issueMove issued
  · exact enterMoveWait _ _

theorem restartLane (b : Blocks) : Near r b (restartLane r b) := by
  refine ⟨fun q hq => ?_, fun _ _ => rfl, rfl⟩
  show (b.lanes.modify r Lane.restart).get q = _
  rw [PerRadio.get_modify_other _ _ hq]

theorem restartIfMoved (ch : Option Channel) (b : Blocks) : Near r b (restartIfMoved r ch b) := by
  unfold Machine.restartIfMoved
  split
  · exact refl _
  · exact restartLane _

theorem radioChange (how : Option GrantEnd) (old : Option AirId) (gained : List Radio) (b : Blocks) :
    Near r b (radioChange env r how old gained b) := sched (SchedOnly.radioChange _ _ _ _ _ _)

theorem carryOut (d : Directive) (except : Option Radio) (b : Blocks) : Near r b (Machine.carryOut env r d except b) := by
  unfold Machine.carryOut promotionCheck
  extract_lets air chan before promoted moved resolved changed restarted cells
  have upto : Near r b restarted := after (restartIfMoved _ _) (after (radioChange _ _ _ _) (after (resolveClashes _ _ _)
    (after (chanOnly _ _) (promoteTarget _))))
  split
  · exact after (moveRequest _ _) upto
  · exact upto

theorem takeMoved (id : Byte) (b : Blocks) : Near r b (takeMoved env r id b) := by
  unfold Machine.takeMoved
  repeat' split
  · exact refl _
  · exact carryOut _ _ _
  · exact refl _

theorem takeDecline (id why : Byte) (b : Blocks) : Near r b (takeDecline env r id why b) := by
  unfold Machine.takeDecline
  split
  · exact refl _
  · split
    · extract_lets air before hold dropped declined resolved changed
      have upto : Near r b changed := after (radioChange _ _ _ _) (after (resolveClashes _ _ _)
        (after (chanOnly _ _) (dropDirective _)))
      unfold waitAfterDecline
      dsimp only
      split
      · exact after (chanOnly _ _) upto
      · exact upto
    · exact refl _

theorem report (b : Blocks) (key : CondKey) (x : Bool) : Near r b (b.report env key x) := frame rfl rfl rfl

theorem lapseRevoke (b : Blocks) : Near r b (lapseRevoke env r b) := by
  unfold Machine.lapseRevoke
  exact after (radioChange _ _ _ _) (after (report _ _ _) (after (chanOnly _ _) (after (resolveClashes _ _ _)
    (dropDirective _))))

theorem takeLapse (b : Blocks) : Near r b (takeLapse env r b) := by
  unfold Machine.takeLapse
  repeat' split
  · exact refl _
  · exact after (report _ _ _) (after (report _ _ _) (carryOut _ _ _))
  · exact lapseRevoke _
  · exact refl _

theorem tunedAfresh (x : Option Channel) (b : Blocks) : Near r b (tunedAfresh env r x b) := by
  have mapped : ∀ b, Near r b (match x with
      | none => tunedOff env r b
      | some ch => tunedChannel env r ch b) := fun b => by
    cases x with
    | none => exact after (setClash _ _ _) (after (chanOnly _ _) (releaseAll _))
    | some ch =>
      dsimp only
      unfold tunedChannel
      dsimp only
      split
      · exact after (setClash _ _ _) (after (chanOnly _ _) (after (acquire _ _ _) (releaseAll _)))
      · exact after (setClash _ _ _) (after (chanOnly _ _) (releaseAll _))
  unfold Machine.tunedAfresh
  exact after (restartIfMoved _ _) (after (radioChange _ _ _ _) (after (resolveClashes _ _ _)
    (after (mapped _) (dropDirective _))))

theorem takeTuned (x : Option Channel) (b : Blocks) : Near r b (takeTuned env r x b) := by
  have ended : Near r b (Machine.endLapse env r (Machine.endMoveWait env r b)) := after (endLapse _) (endMoveWait _)
  unfold Machine.takeTuned
  dsimp only
  repeat' split
  · exact after (carryOut _ _ _) ended
  · exact after (tunedAfresh _ _) ended
  · exact after (tunedAfresh _ _) ended

theorem resolveAndReview (airs : List AirId) (freed : Bool) (b : Blocks) : Near r b (resolveAndReview env airs freed b) :=
  after (sched (SchedOnly.retestAndReview _ _ _ _)) (resolveClashes _ _ _)

theorem lossDirective (airs : List AirId) (b : Blocks) : Near r b (lossDirective env r airs b) := by
  unfold Machine.lossDirective
  exact after (resolveAndReview _ _ _) (after (endMoveWait _) (after (dropDirective _) (sched (SchedOnly.endSession _ _ _))))

theorem clearContext (b : Blocks) : Near r b (clearContext env r b) := by
  unfold Machine.clearContext
  exact after (endLapse _) (after (setClash _ _ _) (after (endMoveWait _) (after (chanOnly _ _) (after (releaseAll _)
    (dropDirective _)))))

theorem restartContext (b : Blocks) : Near r b (restartContext env r b) := by
  unfold Machine.restartContext
  exact after (restartIfMoved _ _) (after (resolveAndReview _ _ _) (after (clearContext _) (after (chanOnly _ _)
    (sched (SchedOnly.endSession _ _ _)))))

theorem takeRelease (id : Byte) (b : Blocks) : Near r b (takeRelease env r id b) := by
  unfold Machine.takeRelease
  dsimp only
  split
  · exact sched (SchedOnly.after (SchedOnly.reviewAirs _ _ _) (SchedOnly.after (SchedOnly.setLastEnded _ _ _ _ _)
      (SchedOnly.endGrantOf _ _ _ _)))
  · split
    · exact sched (SchedOnly.modSched _ _ _)
    · split
      · exact sched (SchedOnly.after (SchedOnly.reviewAirs _ _ _) (SchedOnly.modSched _ _ _))
      · split
        · exact sched (SchedOnly.after (SchedOnly.reviewAirs _ _ _) (SchedOnly.modSched _ _ _))
        · unfold deadRelease lateRelease
          dsimp only
          repeat' split
          all_goals exact frame rfl rfl rfl

end Near

/-! ## The commands -/

namespace RadioOnly

variable {env : Env} {r : Radio}

theorem refl (b : Blocks) : RadioOnly r b b := of (Directed.refl (env := ⟨0, .setup, Retained.reset⟩) b) (Near.refl b)

theorem after {a b c : Blocks} (g : RadioOnly r b c) (h : RadioOnly r a b) : RadioOnly r a c := h.trans g

theorem sched {b b' : Blocks} (h : SchedOnly b b') : RadioOnly r b b' :=
  of (h.directed (env := ⟨0, .setup, Retained.reset⟩)) (Near.sched h)

/-- The radio's own link changed. -/
theorem modLink (b : Blocks) (f : Link → Link) : RadioOnly r b (b.modLink r f) :=
  ⟨fun _ _ => rfl, fun _ _ => rfl,
    fun q hq => by rw [Blocks.modLink_links, PerRadio.get_modify_other _ _ hq]; exact SameLink.refl _, rfl, rfl, rfl, rfl, rfl,
    rfl, rfl⟩

theorem modLane (b : Blocks) (f : Lane → Lane) : RadioOnly r b (b.modLane r f) :=
  ⟨fun q hq => by rw [Blocks.modLane_lanes, PerRadio.get_modify_other _ _ hq], fun _ _ => rfl, fun _ _ => SameLink.refl _,
    rfl, rfl, rfl, rfl, rfl, rfl, rfl⟩

theorem modChan (b : Blocks) (f : ChanState → ChanState) : RadioOnly r b (b.modChan r f) :=
  of (Directed.modChan (env := ⟨0, .setup, Retained.reset⟩) b r f) (Near.chanOnly b f)

theorem report (b : Blocks) {key : CondKey} (x : Bool) (hr : CondKey.radio key = some r) :
    RadioOnly r b (b.report env key x) := of (Directed.report b hr x) (Near.report b key x)

/-- The records that leave with a WITHDRAW are of the radio's kinds (R100). -/
theorem forgetRadio (b : Blocks) : RadioOnly r b { b with monitor := b.monitor.forgetRadio r } := by
  refine ⟨fun _ _ => rfl, fun _ _ => rfl, fun _ _ => SameLink.refl _, rfl, rfl, rfl, rfl, rfl, ?_, rfl⟩
  show (b.monitor.list.filter fun c => CondKey.radio c.key != some r).filter _ = _
  rw [List.filter_filter]
  refine List.filter_congr fun c _ => ?_
  cases CondKey.radio c.key <;> simp

/-- The messages of one radio, but for SAMPLES and HEARD. -/
theorem receive {f : Blocks → Blocks} (h : ∀ b, RadioOnly r b (f b)) (b : Blocks) : RadioOnly r b (receive env r f b) := by
  unfold Machine.receive
  dsimp only
  split
  · exact after (h _) (after (modLink _ _) (modLink _ _))
  · exact after (sched (SchedOnly.send _ _ _)) (modLink _ _)

theorem tunedMessage (start width : Byte) (b : Blocks) : RadioOnly r b (tunedMessage env r start width b) := by
  unfold Machine.tunedMessage
  dsimp only
  repeat' split
  · exact refl _
  · exact of (Directed.takeTuned _ _ _) (Near.takeTuned _ _)
  · exact of (Directed.takeTuned _ _ _) (Near.takeTuned _ _)
  · exact sched (SchedOnly.count _ _ _)

theorem takeHello (version : Byte) (x : Capability) (b : Blocks) : RadioOnly r b (takeHello env r version x b) := by
  have begun : RadioOnly r b (if ((b.hunt r).links.get r).port == .up then restartLiveness env r (b.hunt r) else b.hunt r) := by
    split
    · exact after (modLink _ _) (modLink _ _)
    · exact modLink _ _
  have opened : ∀ b, RadioOnly r b (helloOpens env r x b) := fun b => by
    have ended : ∀ b, RadioOnly r b (endLinkSource env r b) := fun b => by
      unfold endLinkSource
      split
      · exact after (report _ (key := .link r) _ rfl) (modLink _ _)
      · exact refl _
    unfold helloOpens
    exact after (sched (SchedOnly.reviewAirs _ _ _)) (after (sched (SchedOnly.send _ _ _)) (after (ended _)
      (after (modLink _ _) (modLink _ _))))
  have restarted : ∀ b, RadioOnly r b (helloRestarts env r x b) := fun b => by
    unfold helloRestarts
    exact after (sched (SchedOnly.send _ _ _)) (after (modLink _ _) (after
      (of (Directed.restartContext _ _) (Near.restartContext _)) (modLink _ _)))
  unfold Machine.takeHello
  dsimp only
  split
  · exact after (sched (SchedOnly.count _ _ _)) begun
  · split
    · exact after (restarted _) (after (modLink _ _) (modLink _ _))
    · exact after (opened _) (modLink _ _)

theorem loseLink (b : Blocks) : RadioOnly r b (loseLink env r b) := by
  unfold Machine.loseLink
  exact after (of (Directed.restartLane (env := env) _ _) (Near.restartLane _)) (after (of (Directed.lossDirective _ _ _)
    (Near.lossDirective _ _)) (after (report _ (key := .link r) _ rfl) (after (modLink _ _) (modLink _ _))))

theorem withdrawRadio (b : Blocks) : RadioOnly r b (withdrawRadio env r b) := by
  unfold Machine.withdrawRadio
  exact after (of (Directed.restartIfMoved (env := env) _ _ _) (Near.restartIfMoved _ _)) (after
    (of (Directed.resolveAndReview _ _ _) (Near.resolveAndReview _ _ _)) (after (sched (SchedOnly.withdrawSched _ _ _))
      (after (forgetRadio _) (after (of (Directed.clearContext _ _) (Near.clearContext _)) (modChan _ _)))))

theorem issueHostMove (e : PlanEntry) (cost : Nat) (s : State) : RadioOnly r s.blocks (issueHostMove r e cost s).blocks := by
  unfold Machine.issueHostMove
  split
  · exact refl _
  · rename_i issued
    exact of (Directed.issueMove _ _ _ _ _ issued) (Near.issueMove issued)

theorem moveNamed (id : Nat) (s : State) : RadioOnly r s.blocks (moveNamed r id s).blocks := by
  unfold Machine.moveNamed
  split
  · exact refl _
  · split
    · exact refl _
    · exact issueHostMove _ _ _

theorem moveBest (s : State) : RadioOnly r s.blocks (moveBest r s).blocks := by
  unfold Machine.moveBest
  split
  · exact refl _
  · split
    · exact refl _
    · exact issueHostMove _ _ _

theorem execMove {x entry : Byte} {s t : State} (about : radioOf x = some r) (ran : execMove x entry s = .next t) :
    RadioOnly r s.blocks t.blocks := by
  unfold Machine.execMove at ran
  rw [about] at ran
  cases target : moveTargetOf entry with
  | none =>
    rw [target] at ran
    obtain rfl := Host.Outcome.next.inj ran
    exact refl _
  | some y =>
    rw [target] at ran
    dsimp only at ran
    split at ran
    · obtain rfl := Host.Outcome.next.inj ran; exact refl _
    · split at ran
      · obtain rfl := Host.Outcome.next.inj ran; exact refl _
      · split at ran
        · obtain rfl := Host.Outcome.next.inj ran; exact refl _
        · cases y with
          | entry id => obtain rfl := Host.Outcome.next.inj ran; exact moveNamed _ _
          | best => obtain rfl := Host.Outcome.next.inj ran; exact moveBest _

theorem execWithdraw {x : Byte} {s t : State} (about : radioOf x = some r) (ran : execWithdraw x s = .next t) :
    RadioOnly r s.blocks t.blocks := by
  unfold Machine.execWithdraw at ran
  rw [about] at ran
  dsimp only at ran
  split at ran
  · obtain rfl := Host.Outcome.next.inj ran
    exact refl _
  · obtain rfl := Host.Outcome.next.inj ran
    exact withdrawRadio _

theorem execRestore {x : Byte} {s t : State} (about : radioOf x = some r) (ran : execRestore x s = .next t) :
    RadioOnly r s.blocks t.blocks := by
  unfold Machine.execRestore at ran
  rw [about] at ran
  obtain rfl := Host.Outcome.next.inj ran
  exact modChan _ _

theorem issueMark (b : Blocks) : RadioOnly r b (issueMark env r b) := by
  unfold Machine.issueMark
  split
  · exact after (sched (SchedOnly.send _ _ _)) (modLink _ _)
  · exact refl _

theorem ifDue {b b' : Blocks} {due : Prop} [Decidable due] (h : RadioOnly r b b') : RadioOnly r b (if due then b' else b) := by
  split
  · exact h
  · exact refl _

theorem execReqAssertion {s t : State} (ran : execReqAssertion r s = .next t) : RadioOnly r s.blocks t.blocks := by
  unfold Machine.execReqAssertion at ran
  split at ran
  · obtain rfl := Host.Outcome.next.inj ran
    exact refl _
  · obtain rfl := Host.Outcome.next.inj ran
    rw [State.withBlocks_blocks]
    split
    · exact modLink _ _
    · exact after (sched (SchedOnly.assertInRun _ _ _)) (modLink _ _)

theorem execReqRelease {s t : State} (ran : execReqRelease r s = .next t) : RadioOnly r s.blocks t.blocks := by
  unfold Machine.execReqRelease at ran
  split at ran
  · obtain rfl := Host.Outcome.next.inj ran
    exact after (sched (SchedOnly.finishHold _ _ _)) (modLink _ _)
  · obtain rfl := Host.Outcome.next.inj ran
    exact refl _

/-- The end of a wait at its limit (R114). -/
theorem expireWait (id : Byte) (b : Blocks) : RadioOnly r b (match expiredWait env b r id with
    | none => b
    | some q => (b.modSched r fun x => x.dropWait id).sendRetry r id .wait (waitHint env b q)) := by
  split
  · exact refl _
  · exact sched (SchedOnly.after (SchedOnly.sendRetry _ _ _ _ _) (SchedOnly.modSched _ _ _))

/-- The end of a grant by expiry, of either kind (R118). -/
theorem expireGrants (id : Byte) (b : Blocks) : RadioOnly r b (if grantDue env b r id then expireGrant env r b
    else match expiredPass env b r id with
      | none => b
      | some g => expirePass r g b) := by
  split
  · exact sched (Regular.expireGrant (S := False) (env := env) r b).only
  · split
    · exact refl _
    · exact sched (Regular.expirePass (S := False) (env := env) r _ b).only

/-- A radio's event: what it makes of the blocks. -/
theorem radioEvent {c : Instr} {s t : State} (host : hostCommandOf c = false) (about : aboutRadio c = some r)
    (ran : exec c s = .next t) : RadioOnly r s.blocks t.blocks := by
  cases c with
  | hello q v bands width =>
    cases about
    change execHello r v bands width s = .next t at ran
    obtain rfl := Host.Outcome.next.inj ran
    exact takeHello _ _ _
  | keepalive =>
    cases about
    obtain rfl := Host.Outcome.next.inj ran
    exact receive refl _
  | windowRequest =>
    cases about
    obtain rfl := Host.Outcome.next.inj ran
    exact receive (fun b => sched (SchedOnly.takeRequest _ _ _ _)) _
  | release =>
    cases about
    obtain rfl := Host.Outcome.next.inj ran
    exact receive (fun b => of (Directed.takeRelease _ _ _) (Near.takeRelease _ _)) _
  | tuned =>
    cases about
    obtain rfl := Host.Outcome.next.inj ran
    exact receive (fun b => tunedMessage _ _ _) _
  | moved =>
    cases about
    obtain rfl := Host.Outcome.next.inj ran
    exact receive (fun b => of (Directed.takeMoved _ _ _) (Near.takeMoved _ _)) _
  | decline =>
    cases about
    obtain rfl := Host.Outcome.next.inj ran
    exact receive (fun b => of (Directed.takeDecline _ _ _ _) (Near.takeDecline _ _ _)) _
  | messageDiscarded | messageAbandoned =>
    cases about
    obtain rfl := Host.Outcome.next.inj ran
    exact after (sched (SchedOnly.count _ _ _)) (modLink _ _)
  | syncByte | transmitStart =>
    cases about
    obtain rfl := Host.Outcome.next.inj ran
    exact modLink _ _
  | mark =>
    cases about
    obtain rfl := Host.Outcome.next.inj ran
    exact issueMark _
  | reqAssertion =>
    cases about
    exact execReqAssertion ran
  | reqRelease =>
    cases about
    exact execReqRelease ran
  | linkLoss =>
    cases about
    obtain rfl := Host.Outcome.next.inj ran
    exact ifDue (loseLink _)
  | streamLapse =>
    cases about
    obtain rfl := Host.Outcome.next.inj ran
    exact ifDue (modLane _ _)
  | waitLimitExpiry =>
    cases about
    obtain rfl := Host.Outcome.next.inj ran
    exact expireWait _ _
  | grantExpiry =>
    cases about
    obtain rfl := Host.Outcome.next.inj ran
    exact expireGrants _ _
  | lastEndedExpiry =>
    cases about
    obtain rfl := Host.Outcome.next.inj ran
    exact ifDue (sched (SchedOnly.modSched _ _ _))
  | directiveLapse =>
    cases about
    obtain rfl := Host.Outcome.next.inj ran
    exact of (Directed.takeLapse _ _) (Near.takeLapse _)
  | declineHoldExpiry =>
    cases about
    obtain rfl := Host.Outcome.next.inj ran
    exact ifDue (modChan _ _)
  | move | withdraw | restore => cases host
  | _ => cases about

end RadioOnly

/-- A host command about a radio leaves the environment alone. -/
theorem Answers.env {c : Instr} {s t : State} (h : Answers c s t) (run : c ≠ .run) (setup : c ≠ .setup)
    (reads : writesRetained c = false) : t.env = s.env := by
  have now := h.now
  have mode := h.mode run setup
  have retained := h.retained reads
  cases e : t.env
  cases e' : s.env
  rw [e, e'] at now mode retained
  simp only at now mode retained
  rw [now, mode, retained]

/-- Settles O5. -/
theorem radioCommandsLeaveTheRest : Obligations.RadioCommandsLeaveTheRest := by
  intro c r s t about ran
  cases host : hostCommandOf c with
  | false =>
    have quiet : portEvent c = false := by cases c <;> first | rfl | cases about
    obtain ⟨b, ran'⟩ := event_blocks s host quiet
    obtain rfl := Host.Outcome.next.inj (ran'.symm.trans ran)
    exact ⟨rfl, RadioOnly.radioEvent host about ran, fun _ => rfl⟩
  | true =>
    obtain ⟨u, ran', answers⟩ := hostCommand_answered s host
    obtain rfl : u = t := Host.Outcome.next.inj (ran'.symm.trans ran)
    cases c with
    | move => exact ⟨answers.env nofun nofun rfl, RadioOnly.execMove about ran, nofun⟩
    | withdraw => exact ⟨answers.env nofun nofun rfl, RadioOnly.execWithdraw about ran, nofun⟩
    | restore => exact ⟨answers.env nofun nofun rfl, RadioOnly.execRestore about ran, nofun⟩
    | hello | keepalive | windowRequest | release | tuned | moved | decline | messageDiscarded | messageAbandoned | syncByte
    | transmitStart | mark | linkLoss | streamLapse | waitLimitExpiry | grantExpiry | lastEndedExpiry | directiveLapse
    | declineHoldExpiry | reqAssertion | reqRelease => cases host
    | _ => cases about

end Sys2Proof.Machine
end

