-- ==== Sys2Proof/Proofs/ParameterCommands.lean ====
section
/-! PROOF. SET PARAMETER and GET PARAMETER (R162), and O10: the ranges of section 9.3, the constraints of the owning rules, and what
the return of the tracker to SEARCH leaves in SETUP. -/

namespace Sys2Proof.Machine

/-- The 34 ranges of section 9.3, in the order of the ids. -/
def paramRanges : List (Nat × Nat) :=
  [(0, 126), (1000, 16000), (1000, 16000), (0, 15), (0, 15), (12000, 25000), (12000, 25000), (3, 15), (100, 2000),
   (50, 2000), (1, 15), (0, 2000), (0, 2000), (1, 600), (1, 255), (0, 254), (0, 126), (0, 1), (0, 64), (0, 64),
   (0, 64), (0, 64), (128, 4096), (0, 8000), (50, 1000), (0, 255), (1, 255), (0, 1000), (1, 255), (5, 500), (0, 1),
   (0, 600), (0, 1404), (1, 20)]

theorem paramRanges_getElem? {n : Nat} (low : 1 ≤ n) (high : n ≤ 34) : paramRanges[n - 1]? = some (paramRange n) := by
  interval_cases n <;> rfl

theorem inRange_iff {n v : Nat} (low : 1 ≤ n) (high : n ≤ 34) : inRange n v = true ↔
    (∃ x, paramRanges[n - 1]? = some x ∧ x.1 ≤ v ∧ v ≤ x.2) ∧ (n = 2 ∨ n = 3 → v % 50 = 0) := by
  rw [paramRanges_getElem? low high]
  simp only [inRange, Bool.and_eq_true, Bool.or_eq_true, Bool.not_eq_true', Bool.or_eq_false_iff, beq_eq_false_iff_ne,
    decide_eq_true_iff, beq_iff_eq, Option.some.injEq, exists_eq_left']
  exact and_congr_right fun _ => ⟨fun h step => by omega, fun h => by omega⟩

/-- The value of a parameter once another is written. -/
def valueAfter (p : Params) (n v j : Nat) : Nat := if j = n then v else (p.read j).getD 0

theorem read_write_getD (p : Params) {n : Nat} (low : 1 ≤ n) (high : n ≤ 34) (v j : Nat) :
    ((p.write n v).read j).getD 0 = valueAfter p n v j := by
  rw [Params.read_write p low high, valueAfter]
  split <;> rfl

theorem constraintsOk_iff (p : Params) {n : Nat} (low : 1 ≤ n) (high : n ≤ 34) (v : Nat) :
    constraintsOk n (p.write n v) = true ↔
      (n ≤ 5 → valueAfter p n v 2 ≤ valueAfter p n v 3 ∧ valueAfter p n v 4 ≤ valueAfter p n v 5)
        ∧ (n ≤ 13 → valueAfter p n v 6 < valueAfter p n v 7 ∧ valueAfter p n v 10 ≤ valueAfter p n v 9
          ∧ valueAfter p n v 3 + valueAfter p n v 9 + 1000 < valueAfter p n v 6)
        ∧ (n = 15 ∨ n = 16 → valueAfter p n v 16 < valueAfter p n v 15) := by
  have lane := Params.laneOk_iff (p.write n v)
  have track := Params.trackerOk_iff (p.write n v)
  have crowd := Params.crowdOk_iff (p.write n v)
  simp only [read_write_getD p low high, and_assoc] at lane track crowd
  rw [← lane, ← track, ← crowd]
  unfold constraintsOk
  by_cases isLane : n ≤ 5
  · have notCrowd : ¬ (n = 15 ∨ n = 16) := by omega
    rw [if_pos ((isLaneParam_iff n).mpr ⟨low, isLane⟩), Bool.and_eq_true]
    simp [isLane, show n ≤ 13 by omega, notCrowd]
  · rw [if_neg fun h => isLane ((isLaneParam_iff n).mp h).2]
    by_cases isTracker : n ≤ 13
    · have notCrowd : ¬ (n = 15 ∨ n = 16) := by omega
      rw [if_pos ((isTrackerParam_iff n).mpr ⟨by omega, isTracker⟩)]
      simp [isLane, isTracker, notCrowd]
    · rw [if_neg fun h => isTracker ((isTrackerParam_iff n).mp h).2]
      by_cases isCrowd : n = 15 ∨ n = 16
      · simp [isLane, isTracker, isCrowd]
      · simp [isLane, isTracker, isCrowd]

/-! ## A tracker event in SETUP -/

theorem monitorEvent_setup {env : Env} (setup : env.mode = .setup) (f : Monitor → Monitor) (b : Blocks) :
    monitorEvent env f b = { b with monitor := f b.monitor } := settleMonitor_setup setup setup _ _

/-- In SETUP a tracker event reaches the tracker, the monitor and the scheduler alone. -/
theorem trackerEvent_setup {env : Env} (setup : env.mode = .setup) (j : Judged) (b : Blocks) :
    ∃ p, SchedOnly { b with
      tracker := j.tracker
      monitor := afterOvenReport env j b.monitor
      sched := { b.sched with prediction := p } } (trackerEvent env j b) := by
  have reported : (if j.report then monitorEvent env (Monitor.reportOven env j.tracker.locked
        (footprintRange env.retained.params j.tracker)) { b with tracker := j.tracker } else { b with tracker := j.tracker })
      = { b with tracker := j.tracker, monitor := afterOvenReport env j b.monitor } := by
    unfold afterOvenReport
    split
    · exact monitorEvent_setup setup _ _
    · rfl
  unfold trackerEvent
  dsimp only
  rw [reported]
  split
  · exact ⟨b.sched.prediction, SchedOnly.refl _⟩
  · exact ⟨predictionOf env.retained.params j.tracker, takePrediction_spec env _
      { b with tracker := j.tracker, monitor := afterOvenReport env j b.monitor }⟩

/-- The oven source is reported absent with no footprint range when the tracker returns to SEARCH (R43, R59). -/
theorem afterOvenReport_toSearch (env : Env) (t : Tracker) (m : Monitor) :
    afterOvenReport env ⟨t.toSearch, true⟩ m = Monitor.absent env .oven { m with lastRange := none } := by
  have noRange : footprintRange env.retained.params t.toSearch = none := by
    simp [footprintRange, footprintCells, Tracker.toSearch, Tracker.reset]
  unfold afterOvenReport
  rw [if_pos rfl, noRange]
  rfl

/-! ## The commands -/

theorem exec_setParameter_unnamed {id : Byte} {s : State} (h : ¬ (1 ≤ id.toNat ∧ id.toNat ≤ 34)) (value : BitVec 32) :
    exec (.setParameter id value) s = .next (s.reject .badArgument) := by
  have none : (s.env.retained.params.read id.toNat).isNone = true := by
    rw [← Params.read_isSome (p := s.env.retained.params)] at h
    simpa using h
  show execSetParameter id value s = _
  simp only [execSetParameter, none, if_true]

theorem exec_setParameter_named {id : Byte} {s : State} (low : 1 ≤ id.toNat) (high : id.toNat ≤ 34) (value : BitVec 32) :
    exec (.setParameter id value) s
      = if id.toNat ≤ 13 ∧ s.env.mode = .run then .next (s.reject .wrongMode)
        else if inRange id.toNat value.toNat = true
            ∧ constraintsOk id.toNat (s.env.retained.params.write id.toNat value.toNat) = true then
          let t := s.modRetained fun x => { x with params := s.env.retained.params.write id.toNat value.toNat }
          if id.toNat ≤ 13 then .next ({ t with blocks := trackerEvent t.env ⟨s.blocks.tracker.toSearch, true⟩ s.blocks }.ok [])
          else .next (t.ok [])
        else .next (s.reject .badArgument) := by
  have some : (s.env.retained.params.read id.toNat).isNone = false := by
    have := (Params.read_isSome (p := s.env.retained.params)).mpr ⟨low, high⟩
    rw [Option.isNone_eq_false_iff]; exact this
  have only : setupOnly id.toNat = true ↔ id.toNat ≤ 13 := by rw [setupOnly_iff]; omega
  show execSetParameter id value s = _
  unfold execSetParameter
  simp only [some, Bool.false_eq_true, if_false, only, Bool.or_eq_true, Bool.not_eq_true']
  by_cases mode : id.toNat ≤ 13 ∧ s.env.mode = .run
  · simp only [mode, and_self, if_true]
  · simp only [mode, if_false]
    cases inRange id.toNat value.toNat <;>
      cases constraintsOk id.toNat (s.env.retained.params.write id.toNat value.toNat) <;> simp

/-- Settles O10. -/
theorem parameterStore : Obligations.ParameterStore := by
  intro id value s p n v ranges named then' lawful
  have lawful_iff : named → (lawful ↔ inRange n v = true ∧ constraintsOk n (p.write n v) = true) := by
    rintro ⟨low, high⟩
    rw [inRange_iff low high, constraintsOk_iff p low high]
    exact ⟨fun ⟨range, step, rest⟩ => ⟨⟨range, step⟩, rest⟩, fun ⟨⟨range, step⟩, rest⟩ => ⟨range, step, rest⟩⟩
  have written : named → (p.write n v).read n = some v ∧ ∀ j, j ≠ n → (p.write n v).read j = p.read j := fun h =>
    ⟨Params.read_write_same h.1 h.2 v, fun j other => Params.read_write_other other v⟩
  refine ⟨fun unnamed => ⟨exec_setParameter_unnamed unnamed value, ?_⟩, fun low high run => ?_, fun h mode bad => ?_,
    fun other h law => ?_, fun low high setup law => ?_, fun h => ?_⟩
  · have none : s.env.retained.params.read id.toNat = none := by
      rw [← Option.not_isSome_iff_eq_none, Params.read_isSome]
      exact unnamed
    show execGetParameter id s = _
    unfold execGetParameter
    rw [none]
  · rw [exec_setParameter_named low (by omega), if_pos ⟨high, run⟩]
  · have notRun : ¬ (n ≤ 13 ∧ s.env.mode = .run) := by
      rintro ⟨low, run⟩
      rcases mode with above | setup
      · omega
      · rw [setup] at run; cases run
    rw [exec_setParameter_named h.1 h.2, if_neg notRun, if_neg fun ok => bad ((lawful_iff h).mpr ok)]
  · refine ⟨p.write n v, ?_, written h⟩
    rw [exec_setParameter_named h.1 h.2, if_neg (by omega), if_pos ((lawful_iff h).mp law)]
    dsimp only
    rw [if_neg (by omega)]
    rfl
  · have h : named := ⟨low, by omega⟩
    have ran := exec_setParameter_named (s := s) h.1 h.2 value
    rw [if_neg (by rw [setup]; exact fun bad => nomatch bad.2), if_pos ((lawful_iff h).mp law)] at ran
    dsimp only at ran
    rw [if_pos high] at ran
    obtain ⟨_, only⟩ := trackerEvent_setup (env := { s.env with retained := { s.env.retained with params := p.write n v } })
      setup ⟨s.blocks.tracker.toSearch, true⟩ s.blocks
    exact ⟨_, p.write n v, ran, rfl, rfl, (written h).1, (written h).2, only.tracker,
      only.monitor.trans (afterOvenReport_toSearch _ _ _), only.cells, only.lanes, only.survey, only.chans⟩
  · obtain ⟨w, read⟩ := Option.isSome_iff_exists.mp (Params.read_isSome.mpr h)
    refine ⟨w, read, ?_⟩
    show execGetParameter id s = _
    unfold execGetParameter
    rw [show s.env.retained.params.read id.toNat = some w from read]
    rfl

end Sys2Proof.Machine
end

