-- ==== Sys2Proof/Proofs/ConfigurationCommands.lean ====
section
/-! PROOF. What operand bytes stand for (R169, R170), the remaining configuration commands, the resets, the host port's own
transactions, and the levels in force: O12, O6, O8 and O37. -/

namespace Sys2Proof.Machine

/-! ## Operand bytes -/

theorem radioOf_eq_some {x : Byte} {r : Radio} : radioOf x = some r ↔ x.toNat = Radio.number r := by
  unfold radioOf
  split <;> cases r <;> simp_all [Radio.number]

theorem radioOf_eq_none {x : Byte} : radioOf x = none ↔ 3 ≤ x.toNat := by
  unfold radioOf
  split <;> simp_all; omega

theorem flagOf_eq_none {x : Byte} : flagOf x = none ↔ 2 ≤ x.toNat := by
  unfold flagOf
  split <;> simp_all; omega

theorem cellOf_of_lt {x : Byte} (h : x.toNat < 156) : cellOf x = some x.toNat := if_pos h

theorem cellOf_of_le {x : Byte} (h : 156 ≤ x.toNat) : cellOf x = none := if_neg (Nat.not_lt.mpr h)

theorem spanArgs_of_lt {base limit : Byte} (low : base.toNat < 156) (high : limit.toNat < 156) :
    spanArgs base limit = some ⟨base.toNat, limit.toNat⟩ := by
  simp [spanArgs, cellOf_of_lt, low, high]

theorem spanArgs_of_le {base limit : Byte} (h : 156 ≤ base.toNat ∨ 156 ≤ limit.toNat) : spanArgs base limit = none := by
  unfold spanArgs
  rcases h with h | h <;> rw [cellOf_of_le h]
  split <;> simp_all

theorem reactionOf_eq_none {x : Byte} : reactionOf x = none ↔ 5 ≤ x.toNat := by
  unfold reactionOf
  split <;> simp_all; omega

theorem scopeOf_eq_none {x : Byte} : scopeOf x = none ↔ 3 ≤ x.toNat := by
  unfold scopeOf
  split <;> simp_all; omega

theorem actionOf_eq_none {x : Byte} : actionOf x = none ↔ 2 ≤ x.toNat := by
  unfold actionOf
  split <;> simp_all; omega

/-! ## SET SPAN and SET KEEP CLEAR (R11, R12) -/

theorem exec_setSpan_setup {s : State} (setup : s.env.mode = .setup) (x base limit : Byte) :
    exec (.setSpan x base limit) s
      = match radioOf x, spanArgs base limit with
        | some r, some y => .next ((s.modRetained fun z => { z with spans := z.spans.set r y }).ok [])
        | _, _ => .next (s.reject .badArgument) :=
  if_neg (by simp [setup])

theorem exec_setSpan_badArgument {s : State} {x base limit : Byte} (setup : s.env.mode = .setup)
    (bad : 3 ≤ x.toNat ∨ 156 ≤ base.toNat ∨ 156 ≤ limit.toNat) :
    exec (.setSpan x base limit) s = .next (s.reject .badArgument) := by
  rw [exec_setSpan_setup setup]
  rcases bad with radio | cells
  · rw [radioOf_eq_none.mpr radio]
  · rw [spanArgs_of_le cells]
    split <;> simp_all

theorem exec_setKeepClear_badArgument {s : State} {base limit : Byte} (setup : s.env.mode = .setup)
    (bad : 156 ≤ base.toNat ∨ 156 ≤ limit.toNat) :
    exec (.setKeepClear base limit) s = .next (s.reject .badArgument) := by
  change execSetKeepClear base limit s = _
  simp [execSetKeepClear, setup, spanArgs_of_le bad]

/-- In SETUP the change of the guard levels reaches no other block (R5). -/
theorem exec_setKeepClear_stores {s : State} {base limit : Byte} (setup : s.env.mode = .setup) (low : base.toNat < 156)
    (high : limit.toNat < 156) :
    exec (.setKeepClear base limit) s
      = .next ((s.modRetained fun y => { y with keepClear := ⟨base.toNat, limit.toNat⟩ }).ok []) := by
  change execSetKeepClear base limit s = _
  simp [execSetKeepClear, setup, spanArgs_of_lt low high, settleMonitor_setup (env0 := s.env), State.modRetained]

/-! ## SET REACTION (R85) -/

/-- The checks of R85 over the argument bytes, as the statement of O12 lists their failures. -/
theorem reactionArgs_eq_none {kind reaction scope : Byte} {filter extension : BitVec 16}
    (bad : 3 ≤ kind.toNat ∨ 5 ≤ reaction.toNat ∨ (kind = 1 ∧ reaction = 2) ∨ (kind = 2 ∧ 2 ≤ reaction.toNat)
      ∨ 3 ≤ scope.toNat ∨ 60000 < filter.toNat ∨ 60000 < extension.toNat) :
    reactionArgs kind reaction scope filter extension = none := by
  unfold reactionArgs
  split
  next k x c isKind isReaction isScope =>
    refine if_neg ?_
    rintro ⟨allowed, filterOk, extensionOk⟩
    rcases bad with bad | bad | ⟨rfl, rfl⟩ | ⟨rfl, bad⟩ | bad | bad | bad
    · unfold kindOf at isKind
      split at isKind <;> simp_all [CondKind.allows] <;> subst isKind <;> simp at allowed
    · simp [reactionOf_eq_none.mpr bad] at isReaction
    · obtain rfl : CondKind.crowd = k := Option.some.inj isKind
      obtain rfl : Reaction.shape = x := Option.some.inj isReaction
      cases allowed
    · obtain rfl : CondKind.overrun = k := Option.some.inj isKind
      unfold reactionOf at isReaction
      split at isReaction <;> simp_all [CondKind.allows] <;> subst isReaction <;> simp at allowed
    · simp [scopeOf_eq_none.mpr bad] at isScope
    · omega
    · omega
  next => rfl

theorem exec_setReaction_stores {kind reaction scope : Byte} {filter extension : BitVec 16} {k : CondKind} {x : Reaction}
    {c : Scope} (isKind : kindOf kind = some k) (isReaction : reactionOf reaction = some x) (isScope : scopeOf scope = some c)
    (allowed : CondKind.allows k x = true) (filterOk : filter.toNat ≤ 60000) (extensionOk : extension.toNat ≤ 60000) (s : State) :
    exec (.setReaction kind reaction scope filter extension) s
      = .next ((s.modRetained fun y => { y with
          reactions := y.reactions.set k ⟨x, c, filter.toNat, extension.toNat⟩ }).ok []) := by
  change execSetReaction kind reaction scope filter extension s = _
  simp [execSetReaction, reactionArgs, isKind, isReaction, isScope, allowed, filterOk, extensionOk]

theorem allows_crowd {reaction : Byte} {x : Reaction} (h : reactionOf reaction = some x) (other : reaction ≠ 2) :
    CondKind.allows .crowd x = true := by
  cases x with
  | shape =>
    refine absurd (BitVec.eq_of_toNat_eq (y := (2 : Byte)) ?_) other
    unfold reactionOf at h
    split at h <;> simp_all
  | _ => rfl

theorem allows_overrun {reaction : Byte} {x : Reaction} (h : reactionOf reaction = some x) (low : reaction.toNat < 2) :
    CondKind.allows .overrun x = true := by
  unfold reactionOf at h
  split at h <;> first | (cases h; rfl) | omega | cases h

/-! ## LOAD OWN and LOAD SIGNATURE (R67, R68) -/

theorem exec_loadOwn_badArgument {index flag : Byte} (bad : 16 ≤ index.toNat ∨ 2 ≤ flag.toNat) (bss : BssId) (s : State) :
    exec (.loadOwn index flag bss) s = .next (s.reject .badArgument) := by
  change execLoadOwn index flag bss s = _
  rcases bad with bad | bad
  · simp [execLoadOwn, bad]
  · simp [execLoadOwn, flagOf_eq_none.mpr bad]

theorem exec_loadSignature_badArgument {index flag action : Byte} (bad : 4 ≤ index.toNat ∨ 2 ≤ flag.toNat ∨ 2 ≤ action.toNat)
    (mask : BitVec 24) (expected : BitVec 16) (s : State) :
    exec (.loadSignature index flag mask expected action) s = .next (s.reject .badArgument) := by
  change execLoadSignature index flag mask expected action s = _
  rcases bad with bad | bad | bad
  · simp [execLoadSignature, bad]
  · simp [execLoadSignature, flagOf_eq_none.mpr bad]
  · simp [execLoadSignature, actionOf_eq_none.mpr bad]

/-- Settles O12. -/
theorem spansReactionsAndLists : Obligations.SpansReactionsAndLists := by
  refine ⟨fun x base limit s => ⟨fun run => ⟨if_pos run, if_pos run⟩, exec_setSpan_badArgument, exec_setKeepClear_badArgument,
    fun r setup radio low high => ?_, exec_setKeepClear_stores⟩, fun kind reaction scope filter extension s => ⟨fun bad => ?_,
    fun x c isReaction isScope filterOk extensionOk => ⟨?_, ?_, ?_⟩⟩,
    fun index flag action bss mask expected s => ⟨fun bad => exec_loadOwn_badArgument bad bss s, ?_, ?_,
      fun bad => exec_loadSignature_badArgument bad mask expected s, fun x a low isFlag isAction => ?_⟩⟩
  · refine ⟨s.env.retained.spans.set r ⟨base.toNat, limit.toNat⟩, ?_, PerRadio.get_set_same _ _ _,
      fun q other => PerRadio.get_set_other _ _ other⟩
    rw [exec_setSpan_setup setup, radioOf_eq_some.mpr radio, spanArgs_of_lt low high]
    rfl
  · change execSetReaction kind reaction scope filter extension s = _
    rw [execSetReaction, reactionArgs_eq_none bad]
  · rintro rfl
    exact exec_setReaction_stores (k := .oven) rfl isReaction isScope rfl filterOk extensionOk s
  · rintro rfl other
    exact exec_setReaction_stores rfl isReaction isScope (allows_crowd isReaction other) filterOk extensionOk s
  · rintro rfl low
    exact exec_setReaction_stores rfl isReaction isScope (allows_overrun isReaction low) filterOk extensionOk s
  · rintro low rfl
    exact if_neg (Nat.not_le.mpr low)
  · rintro low rfl
    exact if_neg (Nat.not_le.mpr low)
  · change execLoadSignature index flag mask expected action s = _
    rw [execLoadSignature, if_neg (Nat.not_le.mpr low), isFlag, isAction]

/-! ## Resets (R165 to R167) -/

/-- The reset blocks but for the links are those of the reset state. -/
theorem Blocks.reset_but_links (req : PerRadio Bool) :
    Blocks.reset req = { State.reset.blocks with links := (Blocks.reset req).links } := rfl

theorem reqLevels_links (b : Blocks) (r : Radio) :
    (Blocks.reset (reqLevels b)).links.get r = Link.reset (b.links.get r).req := by
  rw [Blocks.reset_links_get, reqLevels, PerRadio.get_map]

/-- Settles O6. -/
theorem resets : Obligations.Resets := by
  intro n s
  refine ⟨⟨_, exec_powerOnReset s, exec_pinReset s, rfl, rfl, rfl, reqLevels_links s.blocks, Blocks.reset_but_links _⟩, rfl,
    fun x ready soft whole => ?_⟩
  exact ⟨_, exec_fetch_softReset ready soft whole, rfl, rfl, rfl, rfl, reqLevels_links s.blocks, Blocks.reset_but_links _⟩

/-! ## The host port's own transactions (R158, R159) -/

theorem Slot.bytes_ready (x : Response) :
    (Slot.ready x).bytes
      = x.status.code :: BitVec.ofNat 8 x.payload.length :: BitVec.ofNat 8 (x.payload.length / 256) :: x.payload := rfl

theorem exec_fetch_plain {n : Nat} {s : State} (plain : (wholeRead s.port.slot n && s.port.softReset) = false) :
    exec (.fetch n) s = .next { s with port := s.port.fetched n } := by
  change execFetch n s = _
  simp [execFetch, plain]

theorem exec_fetch_partial {n : Nat} {s : State} (part : wholeRead s.port.slot n = false) :
    exec (.fetch n) s = .next { s with port := { s.port with miso := misoBytes s.port.slot n } } := by
  rw [exec_fetch_plain (by simp [part])]
  simp [HostPort.fetched, part]

/-- Settles O8. -/
theorem fetchesAndPortEvents : Obligations.FetchesAndPortEvents := by
  intro n s
  refine ⟨fun empty => ?_, fun x t preparing => ⟨?_, ?_⟩, fun x ready => ⟨fun short => ?_, fun long soft => ?_⟩, fun other => ?_,
    fun _ => rfl, rfl⟩
  · rw [exec_fetch_partial (by rw [empty]; rfl), empty]
    rfl
  · rw [exec_fetch_partial (by rw [preparing]; rfl), preparing]
    rfl
  · change execResponseReady s = _
    rw [execResponseReady, preparing]
    rfl
  · rw [exec_fetch_partial (by rw [ready, wholeRead, Slot.bytes_ready]; simpa using short), ready, misoBytes, Slot.bytes_ready,
      List.take_append_of_le_length (le_of_lt short)]
  · rw [exec_fetch_plain (by simp [soft])]
    have whole : wholeRead s.port.slot n = true := by
      rw [ready, wholeRead, Slot.bytes_ready]
      exact decide_eq_true long
    simp only [HostPort.fetched, whole, if_true, misoBytes]
    rw [ready, Slot.bytes_ready, List.take_append, List.take_of_length_le long, List.take_replicate]
    simp [idleBytes]
  · change execResponseReady s = _
    have kept : s.port.slot.prepared = s.port.slot := by
      cases slot : s.port.slot with
      | preparing x t => exact absurd slot (other x t)
      | _ => rfl
    rw [execResponseReady, kept]

/-! ## Guard levels, summaries and ALERT_N (R4, R96) -/

theorem CondRecord.covers_iff {c : CondRecord} {k : Nat} :
    c.covers k = true ↔ ∃ x, c.range = some x ∧ x.base ≤ k ∧ k ≤ x.limit := by
  unfold CondRecord.covers
  cases c.range <;> simp [Span.has]

theorem CondRecord.inForce_iff {c : CondRecord} : c.inForce = true ↔ c.state = .active ∨ c.state = .extending := by
  simp [CondRecord.inForce]

theorem CondRecord.bars_iff {c : CondRecord} {k : Nat} : c.bars k = true ↔
    c.config.reaction = .bar ∧ (c.state = .active ∨ c.state = .extending ∨ c.state = .latched) ∧ c.covers k = true := by
  simp [CondRecord.bars, CondRecord.inForce_iff, and_assoc, or_assoc]

theorem CondRecord.avoids_iff {c : CondRecord} {k : Nat} : c.avoids k = true ↔
    c.config.reaction = .avoid ∧ (c.state = .active ∨ c.state = .extending) ∧ c.covers k = true := by
  simp [CondRecord.avoids, CondRecord.inForce_iff, and_assoc]

theorem CondRecord.counts_iff {c : CondRecord} :
    c.counts = true ↔ c.state = .active ∨ c.state = .extending ∨ c.unread = true := by
  simp [CondRecord.counts, CondRecord.inForce_iff, or_assoc]

/-- Settles O37: the three levels are the three outcomes of two nested tests. -/
theorem guardLevelsAndAlert : Obligations.GuardLevelsAndAlert := by
  refine ⟨fun env m k => ?_, fun env m => ⟨?_, ?_, ?_⟩⟩
  · intro keep covers barred avoided
    have isKeep : env.retained.keepClear.has k = true ↔ keep := by simp [Span.has, keep]
    have isBarred : (env.mode = .run ∧ m.list.any (fun c => c.bars k) = true) ↔ barred := by
      simp [barred, covers, CondRecord.bars_iff, CondRecord.covers_iff]
    have isAvoided : (env.mode = .run ∧ m.list.any (fun c => c.avoids k) = true) ↔ avoided := by
      simp [avoided, covers, CondRecord.avoids_iff, CondRecord.covers_iff]
    simp only [guardLevel, isKeep, isBarred, isAvoided]
    by_cases keep <;> by_cases barred <;> by_cases avoided <;> simp [*]
  · simp [notice, CondRecord.counts_iff]
  · simp [faultSummary, CondRecord.counts_iff]
  · simp [alertLow]

end Sys2Proof.Machine
end

