-- ==== Sys2Proof/Proofs/ReadingCommands.lean ====
section
/-! PROOF. The reading commands and the payloads they return (R7, R40, R64, R76, R82, R88, R95, R157, R161, R170): O13, O14 and
O15. -/

namespace Sys2Proof.Machine

/-! ## An event of the monitor that changes no level and no shaping -/

theorem changedCells_eq_nil {env0 env : Env} {m0 m : Monitor} (level : ∀ k, guardLevel env m k = guardLevel env0 m0 k) :
    changedCells env0 m0 env m = [] := by
  simp [changedCells, level]

/-- Where no guard level and no shaping changes, no report is issued (R5, R97). -/
theorem settleMonitor_quiet {env0 env : Env} {m0 : Monitor} {b : Blocks}
    (changed : changedCells env0 m0 env b.monitor = []) (shaping : shapingHolds env b.monitor = shapingHolds env0 m0) :
    settleMonitor env0 m0 env b = b := by
  simp [settleMonitor, changed, shaping]

/-- A level is what the tests of R4 over the list say. -/
theorem guardLevel_congr {env : Env} {m n : Monitor} {k : Nat}
    (bars : n.list.any (fun c => c.bars k) = m.list.any (fun c => c.bars k))
    (avoids : n.list.any (fun c => c.avoids k) = m.list.any (fun c => c.avoids k)) :
    guardLevel env n k = guardLevel env m k := by
  simp only [guardLevel, bars, avoids]

/-! ## READ CONDITIONS (R95) -/

/-- A test that reads no unread flag and fails on RESOLVED records holds somewhere after a read just when it held before. -/
theorem Monitor.any_markRead {p : CondRecord → Bool} (seen : ∀ c : CondRecord, p { c with unread := false } = p c)
    (resolved : ∀ c : CondRecord, c.state = .resolved → p c = false) (first count : Nat) (m : Monitor) :
    (m.markRead first count).list.any p = m.list.any p := by
  have returned : ∀ l : List CondRecord,
      ((l.filter fun c => c.state != .resolved).map fun c => { c with unread := false }).any p = l.any p := by
    intro l
    induction l with
    | nil => rfl
    | cons c cs ih =>
      by_cases gone : c.state = .resolved
      · simp [gone, resolved c gone, ih]
      · simp [gone, seen, ih]
  conv_rhs => rw [← List.take_append_drop first m.list, ← List.take_append_drop count (m.list.drop first)]
  simp only [Monitor.markRead, page, List.any_append, returned, Bool.or_assoc]

theorem guardLevel_markRead (env : Env) (first count : Nat) (m : Monitor) (k : Nat) :
    guardLevel env (m.markRead first count) k = guardLevel env m k :=
  guardLevel_congr
    (Monitor.any_markRead (fun _ => rfl) (fun c h => by simp [CondRecord.bars, CondRecord.inForce, h]) _ _ _)
    (Monitor.any_markRead (fun _ => rfl) (fun c h => by simp [CondRecord.avoids, CondRecord.inForce, h]) _ _ _)

theorem shapingHolds_markRead (env : Env) (first count : Nat) (m : Monitor) :
    shapingHolds env (m.markRead first count) = shapingHolds env m := by
  unfold shapingHolds
  rw [Monitor.any_markRead (fun _ => rfl) (fun c h => by simp [CondRecord.inForce, h])]

/-- A read of the list is no event for the other blocks. -/
theorem monitorEvent_markRead (env : Env) (first count : Nat) (b : Blocks) :
    monitorEvent env (Monitor.markRead first count) b = { b with monitor := b.monitor.markRead first count } :=
  settleMonitor_quiet (changedCells_eq_nil (guardLevel_markRead env first count b.monitor))
    (shapingHolds_markRead env first count b.monitor)

/-! ## The commands -/

theorem exec_readConditions_ok {first count : Byte} (low : first.toNat < 32) (any : 1 ≤ count.toNat) (few : count.toNat ≤ 8)
    (s : State) :
    exec (.readConditions first count) s
      = .next ({ s with
          blocks := { s.blocks with monitor := s.blocks.monitor.markRead first.toNat count.toNat } }.ok
          (conditionsPayload s.blocks.monitor first.toNat count.toNat)) := by
  change execReadConditions first count s = _
  rw [execReadConditions, if_pos ⟨low, any, few⟩, monitorEvent_markRead]

theorem exec_readRadio_badArgument {x clear : Byte} (bad : 3 ≤ x.toNat ∨ 2 ≤ clear.toNat) (s : State) :
    exec (.readRadio x clear) s = .next (s.reject .badArgument) := by
  change execReadRadio x clear s = _
  rcases bad with bad | bad
  · simp [execReadRadio, radioOf_eq_none.mpr bad]
  · simp [execReadRadio, flagOf_eq_none.mpr bad]

theorem exec_readRadio_ok {x clear : Byte} {r : Radio} {cleared : Bool} (radio : x.toNat = Radio.number r)
    (flag : flagOf clear = some cleared) (s : State) :
    exec (.readRadio x clear) s
      = .next ({ s with blocks := if cleared then clearCounters r s.blocks else s.blocks }.ok
          (radioPayload s.env s.blocks r)) := by
  change execReadRadio x clear s = _
  simp [execReadRadio, radioOf_eq_some.mpr radio, flag]

/-- Settles O13. -/
theorem readCommands : Obligations.ReadCommands := by
  refine ⟨fun first count x s => ⟨rfl, fun low any few => if_pos ⟨low, any, few⟩, fun bad => ?_,
    fun low any few => if_pos ⟨low, any, few⟩, fun bad => ?_, fun r radio => ?_, fun bad => ?_⟩,
    fun first count x clear s => ?_⟩
  · exact if_neg fun ⟨low, any, few⟩ => by simp only [cellCount] at low; omega
  · exact if_neg fun ⟨low, any, few⟩ => by simp only [tableLimit] at low; omega
  · change execReadCosts x s = _
    rw [execReadCosts, radioOf_eq_some.mpr radio]
  · change execReadCosts x s = _
    rw [execReadCosts, radioOf_eq_none.mpr bad]
  · intro l records kept
    refine ⟨fun bad => if_neg fun ⟨low, any, few⟩ => by omega, fun low any few => ?_, rfl, rfl,
      fun bad => exec_readRadio_badArgument bad s, fun r radio same => ?_, fun r radio set => ?_⟩
    · rw [exec_readConditions_ok low any few, Monitor.markRead, List.drop_drop]
      rfl
    · rw [exec_readRadio_ok radio (cleared := false) (by rw [same]; rfl)]
      rfl
    · rw [exec_readRadio_ok radio (cleared := true) (by rw [set]; rfl)]
      rfl

/-! ## Records of a fixed size -/

/-- Records of one size lie one behind another. -/
theorem flatMap_record {α : Type} {f : α → List Byte} {n : Nat} {l : List α} (size : ∀ x ∈ l, (f x).length = n) {i : Nat} {x : α}
    (h : l[i]? = some x) : ((l.flatMap f).drop (n * i)).take n = f x := by
  induction l generalizing i with
  | nil => simp at h
  | cons y ys ih =>
    have first : (f y).length = n := size y List.mem_cons_self
    cases i with
    | zero =>
      obtain rfl : y = x := by simpa using h
      simp [List.flatMap_cons, ← first]
    | succ i =>
      have rest := ih (fun z hz => size z (List.mem_cons_of_mem _ hz)) (by simpa using h)
      have skip : n * (i + 1) = (f y).length + n * i := by rw [first, Nat.mul_succ, Nat.add_comm]
      rw [List.flatMap_cons, skip, List.drop_length_add_append]
      exact rest

theorem flatMap_record_length {α : Type} {f : α → List Byte} {n : Nat} {l : List α} (size : ∀ x ∈ l, (f x).length = n) :
    (l.flatMap f).length = n * l.length := by
  rw [List.length_flatMap, List.map_congr_left size]
  simp [Nat.mul_comm]

/-- A payload that is a head and records of one size. -/
theorem records_layout {α : Type} {f : α → List Byte} {n : Nat} {l : List α} (head : List Byte)
    (size : ∀ x ∈ l, (f x).length = n) :
    (head ++ l.flatMap f).length = head.length + n * l.length ∧ (head ++ l.flatMap f).take head.length = head
      ∧ ∀ i x, l[i]? = some x → ((head ++ l.flatMap f).drop (head.length + n * i)).take n = f x := by
  refine ⟨by rw [List.length_append, flatMap_record_length size], List.take_left, fun i x h => ?_⟩
  rw [List.drop_length_add_append]
  exact flatMap_record size h

theorem page_length {α : Type} (l : List α) (first count : Nat) : (page l first count).length = min count (l.length - first) := by
  simp [page]

theorem page_getElem? {α : Type} {l : List α} {first count i : Nat} (h : i < min count (l.length - first)) :
    (page l first count)[i]? = l[first + i]? := by
  rw [page, List.getElem?_take_of_lt (by omega), List.getElem?_drop]

/-! ## The encodings of single items -/

theorem cellBytes_length (env : Env) (m : Monitor) (k : Nat) (c : CellRecord) : (cellBytes env m k c).length = 9 := by
  unfold cellBytes
  cases c.surveyed <;> rfl

theorem condBytes_length (c : CondRecord) : (condBytes c).length = 25 := by
  unfold condBytes
  cases c.range <;> cases c.timer <;> rfl

theorem neighbourBytes_length (e : Neighbour) : (neighbourBytes e).length = 25 := rfl

theorem costBytes_length (env : Env) (b : Blocks) (r : Radio) (e : PlanEntry) : (costBytes env b r e).length = 6 := by
  unfold costBytes
  split <;> rfl

/-- The record of a cell of the map. -/
theorem cellsPayload_record (env : Env) {b : Blocks} {k : Nat} {c : CellRecord} (h : b.cells[k]? = some c) :
    ((b.cells[k]?).map (cellBytes env b.monitor k)).getD [] = cellBytes env b.monitor k c := by
  rw [h]; rfl

/-- Settles O14. -/
theorem recordPayloads : Obligations.RecordPayloads := by
  refine ⟨fun first count env b full low few => ?_, fun m first count => ?_, fun u first count => ?_, fun env b r => ?_⟩
  · intro n p
    have size : ∀ k ∈ List.range' first n, (((b.cells[k]?).map (cellBytes env b.monitor k)).getD []).length = 9 := by
      intro k hk
      rw [List.mem_range'_1] at hk
      obtain ⟨c, hc⟩ : ∃ c, b.cells[k]? = some c := List.getElem?_eq_some_iff.mpr ⟨by omega, rfl⟩ |> fun h => ⟨_, h⟩
      rw [cellsPayload_record env hc, cellBytes_length]
    obtain ⟨length, head, record⟩ := records_layout [156, BitVec.ofNat 8 n] size
    have payload : p = [156, BitVec.ofNat 8 n] ++ (List.range' first n).flatMap fun k =>
        ((b.cells[k]?).map (cellBytes env b.monitor k)).getD [] := by
      show cellsPayload env b first count = _
      simp only [cellsPayload, List.length_range']
      rfl
    rw [payload]
    rw [List.length_range'] at length
    refine ⟨length, head, fun i c hi hc => ?_⟩
    rw [show 2 + 9 * i = [(156 : Byte), BitVec.ofNat 8 n].length + 9 * i from rfl,
      record i (first + i) (by rw [List.getElem?_range' hi]; simp), cellsPayload_record env hc]
    unfold cellBytes
    cases c.holder <;> cases c.surveyed <;> cases guardLevel env b.monitor (first + i) <;> rfl
  · intro n p
    obtain ⟨length, head, record⟩ := records_layout (l := page m.list first count)
      [BitVec.ofNat 8 m.list.length, BitVec.ofNat 8 (page m.list first count).length] fun c _ => condBytes_length c
    rw [page_length] at length
    refine ⟨length, head.trans (by rw [page_length]), fun i c hi hc => ?_⟩
    intro kind state reaction scope flags
    have isKind : u8 (CondKind.code (CondKey.kind c.key)) ++ u8 (CondKey.subject c.key)
        = [BitVec.ofNat 8 kind.1, BitVec.ofNat 8 kind.2] := by
      simp only [kind]
      cases c.key <;> rfl
    have isState : u8 c.state.code = [BitVec.ofNat 8 state] := by
      simp only [state]
      cases c.state <;> rfl
    have isReaction : u8 c.config.reaction.code = [BitVec.ofNat 8 reaction] := by
      simp only [reaction]
      cases c.config.reaction <;> rfl
    have isScope : u8 (Scope.code c.config.scope) = [BitVec.ofNat 8 scope] := by
      simp only [scope]
      cases c.config.scope <;> rfl
    have isFlags : flagBits c.unread c.range.isSome c.timer.isSome = [BitVec.ofNat 8 flags] := rfl
    refine (record i c (by rw [page_getElem? hi, hc])).trans ?_
    rw [condBytes, isKind, isState, isReaction, isScope, isFlags]
    cases c.range <;> cases c.timer <;> rfl
  · intro n p c
    obtain ⟨length, head, record⟩ := records_layout (l := page u.table first count)
      (u8 u.table.length ++ u.counters.bytes ++ u8 (page u.table first count).length) fun e _ => neighbourBytes_length e
    rw [page_length] at length
    refine ⟨length, head.trans (by rw [page_length]; rfl), fun i e hi he => ?_⟩
    refine (record i e (by rw [page_getElem? hi, he])).trans ?_
    unfold neighbourBytes
    cases e.tag <;> rfl
  · intro plan p
    have five : (optBytes 2 u16 (currentCost env b r) ++ u8 plan.length ++ u8 plan.length).length = 5 := by
      cases currentCost env b r <;> rfl
    obtain ⟨length, head, record⟩ := records_layout (l := plan)
      (optBytes 2 u16 (currentCost env b r) ++ u8 plan.length ++ u8 plan.length) fun e _ => costBytes_length env b r e
    rw [five] at length head record
    refine ⟨length, head.trans ?_, fun i e he => (record i e he).trans ?_⟩
    · cases currentCost env b r <;> rfl
    · unfold costBytes
      cases unavailable env b r e with
      | none => rfl
      | some why => cases why <;> rfl

/-! ## STATUS, READ TRACKER and READ RADIO, item by item -/

/-- A flag as one byte. -/
def bitByte (x : Bool) : Byte := if x then 1 else 0

theorem flagByte_eq (x : Bool) : flagByte x = [bitByte x] := by cases x <;> rfl

/-- A port state as one byte. -/
def portByte : PortState → Byte
  | .down => 0
  | .up => 1
  | .lost => 2

theorem portByte_code (x : PortState) : u8 x.code = [portByte x] := by cases x <;> rfl

/-- A phase as one byte. -/
def phaseByte : TrackerPhase → Byte
  | .search => 0
  | .acquire => 1
  | .track => 2
  | .coast => 3

theorem phaseByte_code (x : TrackerPhase) : u8 x.code = [phaseByte x] := by cases x <;> rfl

theorem countState_eq (m : Monitor) (x : CondState) : countState m x = m.list.countP fun c => c.state == x :=
  List.countP_eq_length_filter.symm

/-- What READ TRACKER sends of the windows: none is published unless the tracker is locked (R60). -/
theorem publishedWindows_bytes (p : Params) (t : Tracker) :
    optBytes 32 (fun ws => ws.flatMap fun (w : Window) => timeBytes w.start ++ timeBytes w.stop) (publishedWindows p t)
      = match onWindows p t with
        | [] => List.replicate 33 0
        | ws => 1 :: ws.flatMap fun w => timeBytes w.start ++ timeBytes w.stop := by
  unfold publishedWindows onWindows
  cases t.locked <;> rfl

theorem u8_eq (n : Nat) : u8 n = [BitVec.ofNat 8 n] := rfl

theorem append_congr {a b c d : List Byte} (h : a = c) (g : b = d) : a ++ b = c ++ d := by rw [h, g]

/-- A tracker time has 36 bits, so its part time has no more than 32 (R42). -/
theorem onsetPart_bytes (x : TrackTime) : timeBytes (TrackTime.toPart x) = leBytes 4 (x.toNat / 16) := by
  have fits : (TrackTime.toPart x).toNat = x.toNat / 16 := by
    have := x.isLt
    rw [TrackTime.toPart, BitVec.toNat_ofNat]
    omega
  rw [timeBytes, fits]

theorem optBytes_eq {α : Type} (n : Nat) (f : α → List Byte) (o : Option α) :
    optBytes n f o = match o with
      | none => List.replicate (n + 1) 0
      | some x => 1 :: f x := by
  cases o <;> rfl

theorem laneBytes_items (l : Lane) :
    laneBytes l
      = (match l.burst with
          | none => List.replicate 8 0
          | some o => [1, 1] ++ timeBytes o.start ++ channelBytes o.span)
        ++ u16 l.survey.busy ++ u16 l.survey.idle ++ u16 l.survey.blind ++ leBytes 4 l.survey.own
        ++ [l.counters.glitch, l.counters.frame, l.counters.ovenLike, l.counters.long, l.counters.truncated,
          l.counters.discarded].flatMap u16 := by
  unfold laneBytes
  cases l.burst <;> rfl

theorem schedBytes_items (env : Env) (b : Blocks) (r : Radio) :
    schedBytes env b r
      = [match airOf env b r with
          | none => (0xFF : Byte)
          | some .l => 0
          | some .h0 => 1
          | some .h1 => 2
          | some .h2 => 3]
        ++ (match grantOf b r with
          | none => List.replicate 13 0
          | some g => [1, g.id] ++ timeBytes g.start ++ timeBytes g.stop
              ++ [bitByte (g.state == .active), bitByte g.shortened, bitByte g.exposed])
        ++ [bitByte (holdAir b r).isSome, BitVec.ofNat 8 (b.sched.radios.get r).waits.length,
          BitVec.ofNat 8 (b.sched.radios.get r).posted.length, BitVec.ofNat 8 (b.sched.radios.get r).headAttempts,
          BitVec.ofNat 8 (b.sched.radios.get r).lateCount, bitByte (b.sched.radios.get r).overrun] := by
  have air : u8 (((airOf env b r).map AirId.code).getD 255) = [match airOf env b r with
      | none => (0xFF : Byte)
      | some .l => 0
      | some .h0 => 1
      | some .h1 => 2
      | some .h2 => 3] := by
    cases airOf env b r with
    | none => rfl
    | some a => cases a <;> rfl
  have grant : optBytes 12 grantBytes (grantOf b r) = match grantOf b r with
      | none => List.replicate 13 0
      | some g => [1, g.id] ++ timeBytes g.start ++ timeBytes g.stop
          ++ [bitByte (g.state == .active), bitByte g.shortened, bitByte g.exposed] := by
    cases grantOf b r with
    | none => rfl
    | some g =>
      simp only [optBytes, grantBytes, flagByte_eq]
      cases g.state <;> rfl
  simp only [schedBytes, air, grant, flagByte_eq, List.append_assoc]
  rfl

theorem chanBytes_items (c : ChanState) :
    chanBytes c
      = (match c.operating with
          | none => [0, 0, 0]
          | some z => 1 :: channelBytes z)
        ++ [bitByte c.clash, bitByte c.isolated, bitByte c.withdrawn]
        ++ (match c.directive with
          | none => List.replicate 10 0
          | some d => [1, d.id, BitVec.ofNat 8 d.entry] ++ channelBytes d.chan ++ [match d.reason with
              | .avoid => (0 : Byte)
              | .bar => 1
              | .host => 2] ++ timeBytes d.expiry)
        ++ [c.nextId]
        ++ (match c.declined with
          | none => List.replicate 7 0
          | some d => [1, BitVec.ofNat 8 d.entry] ++ timeBytes d.expiry ++ [d.reason])
        ++ (match c.moveWait with
          | none => [0, 0, 0, 0]
          | some w => [1, BitVec.ofNat 8 (w.cells.head?.getD 0), BitVec.ofNat 8 (w.cells.getLast?.getD 0),
              bitByte w.noEntry]) := by
  have directive : optBytes 9 directiveBytes c.directive = match c.directive with
      | none => List.replicate 10 0
      | some d => [1, d.id, BitVec.ofNat 8 d.entry] ++ channelBytes d.chan ++ [match d.reason with
          | .avoid => (0 : Byte)
          | .bar => 1
          | .host => 2] ++ timeBytes d.expiry := by
    cases c.directive with
    | none => rfl
    | some d =>
      simp only [optBytes, directiveBytes]
      cases d.reason <;> rfl
  have wait : optBytes 3 moveWaitBytes c.moveWait = match c.moveWait with
      | none => [0, 0, 0, 0]
      | some w => [1, BitVec.ofNat 8 (w.cells.head?.getD 0), BitVec.ofNat 8 (w.cells.getLast?.getD 0),
          bitByte w.noEntry] := by
    cases c.moveWait with
    | none => rfl
    | some w => simp only [optBytes, moveWaitBytes, flagByte_eq]; rfl
  simp only [chanBytes, directive, wait, flagByte_eq]
  cases c.operating <;> cases c.declined <;> rfl

theorem linkBytes_items (k : Link) :
    linkBytes k
      = [portByte k.port]
        ++ (match k.capability with
          | none => [0, 0, 0]
          | some z => [(1 : Byte), match z.bands with
              | .bandL => 1
              | .bandH => 2
              | .both => 3, match z.width with
              | .w4 => 4
              | .w8 => 8
              | .w16 => 16])
        ++ [bitByte k.linkSource] ++ k.counters.bytes := by
  simp only [linkBytes, portByte_code, flagByte_eq]
  cases k.capability with
  | none => rfl
  | some z =>
    obtain ⟨bands, width⟩ := z
    cases bands <;> cases width <;> rfl

/-- Settles O15. -/
theorem statePayloads : Obligations.StatePayloads := by
  intro env b r byte bit m p k phase portOf count chan time ofRadio l x c y
  have isBit : bit = bitByte := rfl
  have isPhase : phase = phaseByte k.phase := by
    simp only [phase]
    cases k.phase <;> rfl
  have isPort : ∀ q, portOf q = portByte (b.links.get q).port := by
    intro q
    simp only [portOf]
    cases (b.links.get q).port <;> rfl
  refine ⟨?_, ?_, ?_⟩
  · rw [isPhase]
    simp only [ofRadio, isPort, isBit, count, statusPayload, flagByte_eq, countState_eq, portByte_code, phaseByte_code]
    cases env.mode <;> rfl
  · rw [isPhase]
    simp only [trackerPayload, publishedWindows_bytes, onsetPart_bytes, phaseByte_code]
    simp only [u8_eq, optBytes_eq, anchorBytes, List.append_assoc, List.cons_append, List.nil_append]
    refine congrArg₂ List.cons rfl (append_congr (by cases k.anchor <;> rfl) ?_)
    refine append_congr rfl (append_congr rfl (append_congr rfl (append_congr rfl ?_)))
    refine congrArg₂ List.cons rfl (congrArg₂ List.cons rfl (append_congr (by cases k.lastOnset <;> rfl) ?_))
    refine append_congr (by cases k.check <;> rfl) (congrArg₂ List.cons rfl (append_congr rfl ?_))
    exact append_congr (by cases footprintRange p k <;> rfl) rfl
  · rw [isPort]
    simp only [radioPayload, laneBytes_items, schedBytes_items, chanBytes_items, linkBytes_items, List.append_assoc]
    rfl

end Sys2Proof.Machine
end

