-- ==== Sys2Proof/Proofs/EntryChoice.lean ====
section
/-! PROOF. Why an entry is UNAVAILABLE, what a channel costs, and which entry is chosen (R79, R80, R133): O17. -/

namespace Sys2Proof.Machine

/-! ## The first test that holds -/

/-- The outcome of a list of tests: what stands with the first that holds. -/
def firstHolding {α : Type} (tests : List (Bool × α)) : Option α := (tests.find? fun x => x.1).map fun x => x.2

theorem firstHolding_cons {α : Type} (c : Bool) (x : α) (tests : List (Bool × α)) :
    firstHolding ((c, x) :: tests) = if c then some x else firstHolding tests := by
  cases c <;> rfl

/-- The same tests as propositions. -/
theorem firstHolding_spec {α : Type} {tests : List (Bool × α)} {props : List (Prop × α)}
    (same : List.Forall₂ (fun t p => (t.1 = true ↔ p.1) ∧ t.2 = p.2) tests props) :
    (∀ (i : Nat) (x : Prop × α), props[i]? = some x → x.1 →
        (∀ (j : Nat) (y : Prop × α), j < i → props[j]? = some y → ¬ y.1) → firstHolding tests = some x.2)
      ∧ ((∀ x ∈ props, ¬ x.1) → firstHolding tests = none) := by
  induction same with
  | nil => exact ⟨fun i x h => by simp at h, fun _ => rfl⟩
  | @cons t p tests props head _ ih =>
    obtain ⟨holds, label⟩ := head
    rw [show t = (t.1, t.2) from rfl, firstHolding_cons]
    refine ⟨fun i x here h earlier => ?_, fun none => ?_⟩
    · cases i with
      | zero =>
        obtain rfl : p = x := by simpa using here
        rw [if_pos (holds.mpr h), label]
      | succ i =>
        have fails : ¬ t.1 = true := fun c => earlier 0 p (Nat.zero_lt_succ i) rfl (holds.mp c)
        rw [if_neg fails]
        exact ih.1 i x (by simpa using here) h fun j y less at_ => earlier (j + 1) y (by omega) (by simpa using at_)
    · have fails : ¬ t.1 = true := fun c => none p List.mem_cons_self (holds.mp c)
      rw [if_neg fails]
      exact ih.2 fun x hx => none x (List.mem_cons_of_mem _ hx)

/-- The eight tests of R79. -/
def unavailableTests (env : Env) (b : Blocks) (r : Radio) (e : PlanEntry) : List (Bool × Unavailable) :=
  [(!e.mask.getLsbD (Radio.number r), .mask),
    (bandRefused (b.links.get r).capability e.chan, .band),
    (widthRefused (b.links.get r).capability e.chan, .width),
    (declinedNow env.now (b.chans.get r).declined e.id, .declined),
    (e.chan.cells.any fun k => !(env.retained.spans.get r).has k, .span),
    (e.chan.cells.any fun k => guardLevel env b.monitor k == .barred, .barred),
    (e.chan.cells.any fun k => guardLevel env b.monitor k == .avoided, .avoided),
    (!channelAll b.cells e.chan fun _ c => c.freeFor r, .held)]

theorem unavailable_eq (env : Env) (b : Blocks) (r : Radio) (e : PlanEntry) :
    unavailable env b r e = firstHolding (unavailableTests env b r e) := by
  simp only [unavailableTests, firstHolding_cons]
  rfl

theorem BandSet.includes_eq_false {s : BandSet} {c : Channel} : BandSet.includes s c = false ↔
    (s = .bandH ∧ c.start + c.width ≤ 16) ∨ (s = .bandL ∧ ¬ c.start + c.width ≤ 16) := by
  cases s <;> simp [BandSet.includes, Channel.inBandL]

theorem bandRefused_iff {k : Option Capability} {c : Channel} : bandRefused k c = true ↔
    ∀ x, k = some x → (x.bands = .bandH ∧ c.start + c.width ≤ 16) ∨ (x.bands = .bandL ∧ ¬ c.start + c.width ≤ 16) := by
  cases k with
  | none => simp [bandRefused]
  | some x => simp only [bandRefused, Bool.not_eq_true', BandSet.includes_eq_false, Option.some.injEq, forall_eq']

theorem declinedNow_iff {now : Time} {d : Option Declined} {id : Nat} : declinedNow now d id = true ↔
    ∃ x, d = some x ∧ x.entry = id ∧ Time.before now x.expiry = true := by
  cases d <;> simp [declinedNow]

theorem Span.has_eq_false {x : Span} {k : Nat} : x.has k = false ↔ k < x.base ∨ x.limit < k := by
  simp [Span.has]
  omega

/-- Some cell of a channel is no cell of the map, or held by another radio (R79 test 8). -/
theorem channel_held_iff {cells : List CellRecord} {ch : Channel} {r : Radio} :
    (!channelAll cells ch fun _ c => c.freeFor r) = true ↔
      ∃ k ∈ ch.cells, ∀ c : CellRecord, cells[k]? = some c → c.holder ≠ none ∧ c.holder ≠ some r := by
  rw [Bool.not_eq_true', ← Bool.not_eq_true, channelAll_iff]
  push Not
  constructor
  · rintro ⟨k, mem, held⟩
    refine ⟨k, mem, fun c hc => ?_⟩
    have := held c hc
    rw [Ne, CellRecord.freeFor_iff] at this
    exact not_or.mp this
  · rintro ⟨k, mem, held⟩
    exact ⟨k, mem, fun c hc => by rw [Ne, CellRecord.freeFor_iff]; exact not_or.mpr (held c hc)⟩

/-! ## Costs -/

theorem Channel.meets_iff {c d : Channel} : c.meets d = true ↔
    ∃ k ∈ List.range' d.start d.width, c.start ≤ k ∧ k < c.start + c.width := by
  simp only [Channel.meets, Bool.and_eq_true, decide_eq_true_iff, List.mem_range'_1]
  constructor
  · intro h
    exact ⟨max c.start d.start, by omega, by omega⟩
  · rintro ⟨k, in_d, in_c⟩
    omega

theorem nearCount_eq (env : Env) (b : Blocks) (c : Channel) :
    nearCount env b c = b.survey.table.countP fun n => decide (n.tag = none ∧ env.retained.params.nearCode ≤ n.strongest
      ∧ ∃ k ∈ List.range' c.start c.width, n.span.start ≤ k ∧ k < n.span.start + n.span.width) := by
  rw [nearCount, ← List.countP_eq_length_filter]
  refine List.countP_congr fun n _ => ?_
  simp only [Bool.and_eq_true, Option.isNone_iff_eq_none, decide_eq_true_iff, Channel.meets_iff, and_assoc]

theorem ovenForce_iff {m : Monitor} : (m.list.any fun x => x.key == .oven && x.inForce) = true ↔
    ∃ x ∈ m.list, x.key = .oven ∧ (x.state = .active ∨ x.state = .extending) := by
  simp [CondRecord.inForce_iff]

theorem ovenCells_hot {env : Env} {b : Blocks} (c : Channel)
    (hot : ∃ x ∈ b.monitor.list, x.key = .oven ∧ (x.state = .active ∨ x.state = .extending)) :
    ovenCells env b c
      = (List.range' env.retained.params.watchBase (env.retained.params.watchLimit + 1 - env.retained.params.watchBase)).countP
          fun k => decide (k ∈ List.range' c.start c.width ∧ ∃ x ∈ b.tracker.footprint, x.start ≤ k ∧ k < x.start + x.width) := by
  rw [ovenCells, if_pos (ovenForce_iff.mpr hot), footprintCells, List.filter_filter, ← List.countP_eq_length_filter]
  refine List.countP_congr fun k _ => ?_
  simp [Channel.has, List.mem_range'_1]

theorem scoreSum_eq (b : Blocks) (c : Channel) :
    scoreSum b c = ((List.range' c.start c.width).map fun k => match b.cells[k]? with
      | none => 0
      | some x => x.score).sum := by
  refine congrArg List.sum (List.map_congr_left fun k _ => ?_)
  cases b.cells[k]? <;> rfl

/-! ## The choice -/

theorem betterEntry_eq_none {env : Env} {b : Blocks} {r : Radio} {best : Option (PlanEntry × Nat)} {e : PlanEntry} :
    betterEntry env b r best e = none ↔ best = none ∧ unavailable env b r e ≠ none := by
  unfold betterEntry
  split
  · next why h => simp [h]
  · next h =>
    rcases best with _ | ⟨x, d⟩
    · simp [h]
    · dsimp only
      split <;> simp

theorem foldl_betterEntry_eq_none {env : Env} {b : Blocks} {r : Radio} (plan : List PlanEntry) (best : Option (PlanEntry × Nat)) :
    plan.foldl (betterEntry env b r) best = none ↔ best = none ∧ ∀ e ∈ plan, unavailable env b r e ≠ none := by
  induction plan generalizing best with
  | nil => simp
  | cons e plan ih =>
    rw [List.foldl_cons, ih, betterEntry_eq_none, and_assoc, List.forall_mem_cons]

/-- What the choice among the entries of a list is (R133). -/
def BestOf (env : Env) (b : Blocks) (r : Radio) (plan : List PlanEntry) : Option (PlanEntry × Nat) → Prop
  | none => ∀ e ∈ plan, unavailable env b r e ≠ none
  | some (e, cost) => e ∈ plan ∧ unavailable env b r e = none ∧ cost = channelCost env b e.chan
      ∧ ∀ x ∈ plan, unavailable env b r x = none →
        cost ≤ channelCost env b x.chan ∧ (channelCost env b x.chan = cost → e.id ≤ x.id)

/-- An entry behind those judged so far, in the order of the ids. -/
theorem BestOf.next {env : Env} {b : Blocks} {r : Radio} {plan : List PlanEntry} {e : PlanEntry}
    {best : Option (PlanEntry × Nat)} (h : BestOf env b r plan best) (behind : ∀ x ∈ plan, x.id < e.id) :
    BestOf env b r (plan ++ [e]) (betterEntry env b r best e) := by
  have split_mem : ∀ {P : PlanEntry → Prop}, (∀ x ∈ plan, P x) → P e → ∀ x ∈ plan ++ [e], P x := by
    intro P old new x hx
    rcases List.mem_append.mp hx with hx | hx
    · exact old x hx
    · rw [List.mem_singleton.mp hx]; exact new
  cases why : unavailable env b r e with
  | some why' =>
    have stands : betterEntry env b r best e = best := by simp [betterEntry, why]
    rw [stands]
    rcases best with _ | ⟨x, d⟩
    · exact split_mem h (by simp [why])
    · obtain ⟨mem, free, cost, least⟩ := h
      exact ⟨List.mem_append_left _ mem, free, cost, split_mem least (by simp [why])⟩
  | none =>
    have isLast : e ∈ plan ++ [e] := List.mem_append_right _ (List.mem_singleton_self e)
    rcases best with _ | ⟨x, d⟩
    · have taken : betterEntry env b r none e = some (e, channelCost env b e.chan) := by simp [betterEntry, why]
      rw [taken]
      exact ⟨isLast, why, rfl, split_mem (fun y hy free => absurd free (h y hy)) fun _ => ⟨le_refl _, fun _ => le_refl _⟩⟩
    · obtain ⟨mem, free, cost, least⟩ := h
      by_cases cheaper : channelCost env b e.chan < d
      · have taken : betterEntry env b r (some (x, d)) e = some (e, channelCost env b e.chan) := by
          simp [betterEntry, why, cheaper]
        rw [taken]
        exact ⟨isLast, why, rfl, split_mem (fun y hy free => by have := (least y hy free).1; omega)
          fun _ => ⟨le_refl _, fun _ => le_refl _⟩⟩
      · have stands : betterEntry env b r (some (x, d)) e = some (x, d) := by simp [betterEntry, why, cheaper]
        rw [stands]
        exact ⟨List.mem_append_left _ mem, free, cost, split_mem least fun _ =>
          ⟨Nat.le_of_not_lt cheaper, fun _ => le_of_lt (behind x mem)⟩⟩

theorem bestOf_foldl {env : Env} {b : Blocks} {r : Radio} {plan : List PlanEntry}
    (sorted : (plan.map PlanEntry.id).Pairwise (· < ·)) : BestOf env b r plan (plan.foldl (betterEntry env b r) none) := by
  induction plan using List.reverseRecOn with
  | nil => exact nofun
  | append_singleton plan e ih =>
    rw [List.map_append, List.pairwise_append] at sorted
    obtain ⟨before, _, behind⟩ := sorted
    rw [List.foldl_append]
    exact (ih before).next fun x hx => behind x.id (List.mem_map_of_mem hx) e.id (by simp)

/-- Settles O17. -/
theorem entryChoice : Obligations.EntryChoice := by
  intro env b r
  refine ⟨fun e => ?_, fun c => ?_, ?_, fun e cost sorted chosen => ?_⟩
  · intro cells inBandL capability widest tests
    have width : ∀ x : MaxWidth, widest x = MaxWidth.cells x := fun x => by cases x <;> rfl
    rw [unavailable_eq]
    refine firstHolding_spec (.cons ⟨by simp, rfl⟩ (.cons ⟨bandRefused_iff, rfl⟩ (.cons ⟨?_, rfl⟩ (.cons ⟨declinedNow_iff, rfl⟩
      (.cons ⟨?_, rfl⟩ (.cons ⟨by simp [cells, Channel.cells], rfl⟩ (.cons ⟨by simp [cells, Channel.cells], rfl⟩
      (.cons ⟨channel_held_iff, rfl⟩ .nil))))))))
    · simp only [width]
      cases h : capability <;> simp [widthRefused, capability] at h ⊢ <;> simp [h]
    · simp [cells, Channel.cells, Span.has_eq_false]
  · intro p cells scores hot near
    refine ⟨nearCount_eq env b c, ovenCells_hot c, fun cold => if_neg fun h => cold (ovenForce_iff.mp h), ?_⟩
    have scored : scoreSum b c = scores := scoreSum_eq b c
    have counted : nearCount env b c = near := nearCount_eq env b c
    rw [channelCost, scored, counted]
  · rw [chooseEntry, foldl_betterEntry_eq_none]
    simp
  · have best := bestOf_foldl (env := env) (b := b) (r := r) sorted
    rw [show env.retained.plan.foldl (betterEntry env b r) none = some (e, cost) from chosen] at best
    exact best

end Sys2Proof.Machine
end

