-- ==== Sys2Proof/Proofs/ReviewRules.lean ====
section
/-! PROOF. What the transmit queues keep, and what reviews and the answers to waiting requests leave alone (R105, R110 to R115,
R122). -/

namespace Sys2Proof.Machine

/-! ## Transmit queues -/

theorem Link.issue_queue_prefix (k : Link) (m : OutMsg) : k.queue <+: (k.issue m).queue := by
  unfold Link.issue
  split
  · exact List.prefix_append _ _
  · exact List.prefix_refl _

theorem sentLast_issue (k : Link) (m : OutMsg) : sentLast (k.issue m) m := by
  unfold Link.issue
  split
  · exact .inl (by simp)
  · next full => exact .inr (Nat.not_lt.mp full)

theorem sentLast.sent {k : Link} {m : OutMsg} (h : sentLast k m) : sent k m :=
  h.imp_left List.mem_of_getLast?

/-- A queue only grows, so what is in it stays in it. -/
theorem sent.grows {k k' : Link} {m : OutMsg} (h : sent k m) (grown : k.queue <+: k'.queue) : sent k' m :=
  h.imp (fun mem => grown.subset mem) fun full => full.trans grown.length_le

theorem Blocks.send_link_same (b : Blocks) (r : Radio) (m : OutMsg) : (b.send r m).links.get r = (b.links.get r).issue m :=
  PerRadio.get_modify_same _ _ _

theorem Blocks.count_link_same (b : Blocks) (r : Radio) (f : LinkCounters → LinkCounters) :
    (b.count r f).links.get r = { b.links.get r with counters := f (b.links.get r).counters } :=
  PerRadio.get_modify_same _ _ _

theorem Blocks.modLink_queue {b : Blocks} {r : Radio} {f : Link → Link} (grown : ∀ k : Link, k.queue <+: (f k).queue) (q : Radio) :
    (b.links.get q).queue <+: ((b.modLink r f).links.get q).queue := by
  rw [Blocks.modLink_links, PerRadio.get_modify]
  split
  · next e => subst e; exact grown _
  · exact List.prefix_refl _

theorem Blocks.send_queue (b : Blocks) (r : Radio) (m : OutMsg) (q : Radio) :
    (b.links.get q).queue <+: ((b.send r m).links.get q).queue := Blocks.modLink_queue (fun k => k.issue_queue_prefix m) q

theorem Blocks.count_queue (b : Blocks) (r : Radio) (f : LinkCounters → LinkCounters) (q : Radio) :
    (b.links.get q).queue <+: ((b.count r f).links.get q).queue := 
  Blocks.modLink_queue (f := fun k => { k with counters := f k.counters }) (fun _ => List.prefix_refl _) q

theorem sent_count {b : Blocks} {r q : Radio} {m : OutMsg} (h : sent (b.links.get q) m) (f : LinkCounters → LinkCounters) :
    sent ((b.count r f).links.get q) m := h.grows (b.count_queue r f q)

theorem sentLast_count {b : Blocks} {r : Radio} {m : OutMsg} (h : sentLast (b.links.get r) m) (f : LinkCounters → LinkCounters) :
    sentLast ((b.count r f).links.get r) m := by
  rw [Blocks.count_link_same]
  exact h

theorem sentLast_send (b : Blocks) (r : Radio) (m : OutMsg) : sentLast ((b.send r m).links.get r) m := by
  rw [Blocks.send_link_same]
  exact sentLast_issue _ _

/-! ## Reviews -/

/-- What a review makes sure of for a grant that it enters (R110, R112). -/
structure Entered (env : Env) (b : Blocks) (g : Grant) : Prop where
  unbarred : channelBarred env b g.radio = false
  lead : Time.atOrBefore g.start (Time.plus env.now env.retained.params.startLead) = true
  active : g.state = .active ↔ g.start = env.now
  exposed : g.exposed = false

/-- The lists of a radio have become shorter, and the rest of what the scheduler keeps for it stands. -/
def Shortened (x y : RadioSched) : Prop :=
  y.waits.Sublist x.waits ∧ y.posted.Sublist x.posted
    ∧ y = { x with waits := y.waits, posted := y.posted, headAttempts := y.headAttempts }

theorem Shortened.refl (x : RadioSched) : Shortened x x := ⟨.refl _, .refl _, rfl⟩

theorem Shortened.trans {x y z : RadioSched} (h : Shortened x y) (g : Shortened y z) : Shortened x z := by
  obtain ⟨hw, hp, hrest⟩ := h
  obtain ⟨gw, gp, grest⟩ := g
  exact ⟨gw.trans hw, gp.trans hp, by rw [grest, hrest]⟩

theorem Shortened.lastEnded {x y : RadioSched} (h : Shortened x y) : y.lastEnded = x.lastEnded := by rw [h.2.2]
theorem Shortened.passThrough {x y : RadioSched} (h : Shortened x y) : y.passThrough = x.passThrough := by rw [h.2.2]
theorem Shortened.waits_nil {x y : RadioSched} (h : Shortened x y) (none : x.waits = []) : y.waits = [] :=
  List.sublist_nil.mp (none ▸ h.1)
theorem Shortened.posted_nil {x y : RadioSched} (h : Shortened x y) (none : x.posted = []) : y.posted = [] :=
  List.sublist_nil.mp (none ▸ h.2.1)

/-- What reviews and the answers to waiting requests do: requests leave, messages are issued, grants enter airs without one. -/
structure Reviewed (env : Env) (b b' : Blocks) : Prop where
  only : SchedOnly b b'
  radios : ∀ r, Shortened (b.sched.radios.get r) (b'.sched.radios.get r)
  queues : ∀ r, (b.links.get r).queue <+: (b'.links.get r).queue
  holds : ∀ a, (b'.air a).hold = (b.air a).hold
  grants : ∀ a g, (b.air a).grant = some g → (b'.air a).grant = some g
  entered : ∀ a g, (b.air a).grant = none → (b'.air a).grant = some g → Entered env b g

theorem SchedOnly.operatingCells {b b' : Blocks} (h : SchedOnly b b') (r : Radio) : operatingCells b' r = operatingCells b r := by
  simp only [Machine.operatingCells, h.chans]

theorem SchedOnly.channelBarred {b b' : Blocks} (h : SchedOnly b b') (env : Env) (r : Radio) :
    channelBarred env b' r = channelBarred env b r := by
  simp only [Machine.channelBarred, h.operatingCells, h.monitor]

theorem SchedOnly.gate {b b' : Blocks} (h : SchedOnly b b') (env : Env) (r : Radio) : gate env b' r = gate env b r := by
  simp only [Machine.gate, h.chans, h.channelBarred]

theorem Entered.of {env : Env} {b b' : Blocks} {g : Grant} (h : Entered env b' g) (only : SchedOnly b b') : Entered env b g :=
  ⟨by rw [← only.channelBarred]; exact h.unbarred, h.lead, h.active, h.exposed⟩

namespace Reviewed

variable {env : Env}

theorem refl (b : Blocks) : Reviewed env b b :=
  ⟨.refl b, fun _ => .refl _, fun _ => List.prefix_refl _, fun _ => rfl, fun _ _ h => h, fun a g none some => by
    rw [none] at some; cases some⟩

theorem trans {a b c : Blocks} (h : Reviewed env a b) (g : Reviewed env b c) : Reviewed env a c where
  only := h.only.trans g.only
  radios r := (h.radios r).trans (g.radios r)
  queues r := (h.queues r).trans (g.queues r)
  holds k := (g.holds k).trans (h.holds k)
  grants k x hx := g.grants k x (h.grants k x hx)
  entered k x none some := by
    cases mid : (b.air k).grant with
    | none => exact (g.entered k x mid some).of h.only
    | some y =>
      have stands := g.grants k y mid
      rw [some] at stands
      cases stands
      exact h.entered k _ none mid

theorem after {a b c : Blocks} (g : Reviewed env b c) (h : Reviewed env a b) : Reviewed env a c := h.trans g

theorem foldl {α : Type} {f : Blocks → α → Blocks} (h : ∀ b x, Reviewed env b (f b x)) (l : List α) (b : Blocks) :
    Reviewed env b (l.foldl f b) := by
  induction l generalizing b with
  | nil => exact refl b
  | cons x xs ih => exact (h b x).trans (ih _)

/-- An operation that leaves the airs alone. -/
theorem ofAirs {b b' : Blocks} (only : SchedOnly b b') (airs : ∀ a, b'.air a = b.air a)
    (radios : ∀ r, Shortened (b.sched.radios.get r) (b'.sched.radios.get r))
    (queues : ∀ r, (b.links.get r).queue <+: (b'.links.get r).queue) : Reviewed env b b' :=
  ⟨only, radios, queues, fun a => by rw [airs], fun a g h => by rw [airs]; exact h,
    fun a g none some => by rw [airs, none] at some; cases some⟩

theorem send (b : Blocks) (r : Radio) (m : OutMsg) : Reviewed env b (b.send r m) :=
  ofAirs (.send _ _ _) (fun _ => rfl) (fun _ => .refl _) (b.send_queue r m)

theorem count (b : Blocks) (r : Radio) (f : LinkCounters → LinkCounters) : Reviewed env b (b.count r f) :=
  ofAirs (.count _ _ _) (fun _ => rfl) (fun _ => .refl _) (b.count_queue r f)

theorem sendGrant (b : Blocks) (r : Radio) (id : Byte) (t : Time) (n : Nat) (x : Bool) :
    Reviewed env b (b.sendGrant r id t n x) := (send _ _ _).trans (count _ _ _)

theorem sendRetry (b : Blocks) (r : Radio) (id : Byte) (c : RetryCause) (t : Time) :
    Reviewed env b (b.sendRetry r id c t) := (send _ _ _).trans (count _ _ _)

theorem sendRefuse (b : Blocks) (r : Radio) (id : Byte) (c : RefuseCause) : Reviewed env b (b.sendRefuse r id c) :=
  (send _ _ _).trans (count _ _ _)

theorem sendExpired (b : Blocks) (r : Radio) (id : Byte) : Reviewed env b (b.sendExpired r id) :=
  (send _ _ _).trans (count _ _ _)

theorem modSched (b : Blocks) {r : Radio} {f : RadioSched → RadioSched} (h : ∀ x, Shortened x (f x)) :
    Reviewed env b (b.modSched r f) :=
  ofAirs (.modSched _ _ _) (fun _ => rfl)
    (fun q => by
      rw [Blocks.modSched_radios, PerRadio.get_modify]
      split
      · next e => subst e; exact h _
      · exact .refl _)
    fun _ => List.prefix_refl _

theorem dropWait (b : Blocks) (r : Radio) (id : Byte) : Reviewed env b (b.modSched r fun x => x.dropWait id) :=
  modSched b fun _ => ⟨List.filter_sublist, .refl _, rfl⟩

theorem dropHead (b : Blocks) (r : Radio) : Reviewed env b (b.modSched r RadioSched.dropHead) :=
  modSched b fun _ => ⟨.refl _, List.tail_sublist _, rfl⟩

/-- A change of an air that keeps its grant and its hold. -/
theorem modReview (b : Blocks) (a : AirId) (t : Option Time) : Reviewed env b (b.modAir a fun x => { x with review := t }) where
  only := .modAir _ _ _
  radios _ := .refl _
  queues _ := List.prefix_refl _
  holds c := by
    by_cases e : c = a
    · subst e; rw [Blocks.modAir_air_same]
    · rw [Blocks.modAir_air_other _ _ e]
  grants c g h := by
    by_cases e : c = a
    · subst e; rw [Blocks.modAir_air_same]; exact h
    · rw [Blocks.modAir_air_other _ _ e]; exact h
  entered c g none some := by
    by_cases e : c = a
    · subst e; rw [Blocks.modAir_air_same] at some; rw [none] at some; cases some
    · rw [Blocks.modAir_air_other _ _ e, none] at some; cases some

/-- A grant enters an air without one. -/
theorem modGrant {b : Blocks} {a : AirId} {g : Grant} (free : (b.air a).grant = none) (h : Entered env b g) :
    Reviewed env b (b.modAir a fun x => { x with grant := some g }) where
  only := .modAir _ _ _
  radios _ := .refl _
  queues _ := List.prefix_refl _
  holds c := by
    by_cases e : c = a
    · subst e; rw [Blocks.modAir_air_same]
    · rw [Blocks.modAir_air_other _ _ e]
  grants c x hx := by
    by_cases e : c = a
    · subst e; rw [free] at hx; cases hx
    · rw [Blocks.modAir_air_other _ _ e]; exact hx
  entered c x none some := by
    by_cases e : c = a
    · subst e; rw [Blocks.modAir_air_same] at some; cases some; exact h
    · rw [Blocks.modAir_air_other _ _ e, none] at some; cases some

/-- A placed candidate's grant (R112). -/
theorem enterGrant {b : Blocks} {a : AirId} {q : Request} {p : Placement} (free : (b.air a).grant = none)
    (unbarred : channelBarred env b q.radio = false) (lead : withinLead env p = true) :
    Reviewed env b (enterGrant env a q p b) := by
  unfold Machine.enterGrant
  refine after (sendGrant _ _ _ _ _ _) (modGrant free ⟨unbarred, lead, ?_, rfl⟩)
  dsimp only
  split <;> simp [*]

theorem attemptHead (q : Request) (b : Blocks) : Reviewed env b (attemptHead env q b) := by
  unfold Machine.attemptHead
  dsimp only
  split
  · exact (dropHead _ _).trans (sendExpired _ _ _)
  · exact modSched b fun _ => ⟨.refl _, .refl _, rfl⟩

theorem admits_free {v : Review} {a : AirId} {p : Placement} (h : v.admits a p = true) : (v.blocks.air a).grant = none := by
  simp only [Review.admits, Bool.and_eq_true, Option.isNone_iff_eq_none] at h
  exact h.1

theorem reviewWaiting (a : AirId) (v : Review) (q : Request) : Reviewed env v.blocks (reviewWaiting env a v q).blocks := by
  have leave : Reviewed env v.blocks (v.blocks.modSched q.radio fun x => x.dropWait q.id) := dropWait _ _ _
  unfold Machine.reviewWaiting
  dsimp only
  split
  · exact refl _
  · next unbarred =>
    split
    · exact leave.trans (sendRetry _ _ _ _ _)
    · split
      · exact leave.trans (sendRetry _ _ _ _ _)
      · split
        · next lead =>
          split
          · next admitted =>
            exact leave.trans (enterGrant (admits_free admitted)
              (by rw [leave.only.channelBarred]; simpa using unbarred) lead)
          · exact refl _
        · exact refl _

theorem reviewHead (a : AirId) (v : Review) (q : Request) : Reviewed env v.blocks (reviewHead env a v q).blocks := by
  have leave : Reviewed env v.blocks (v.blocks.modSched q.radio RadioSched.dropHead) := dropHead _ _
  unfold Machine.reviewHead
  split
  · exact refl _
  · next taken =>
    split
    · exact attemptHead _ _
    · split
      · next lead =>
        split
        · next admitted =>
          have unbarred : channelBarred env v.blocks q.radio = false := by
            simp only [skipsHead, Bool.or_eq_true, not_or, Bool.not_eq_true] at taken
            exact taken.1.2
          exact leave.trans (enterGrant (admits_free admitted) (by rw [leave.only.channelBarred]; exact unbarred) lead)
        · exact attemptHead _ _
      · exact attemptHead _ _

theorem foldReview {f : Review → Request → Review} (h : ∀ v q, Reviewed env v.blocks (f v q).blocks) (l : List Request)
    (v : Review) : Reviewed env v.blocks (l.foldl f v).blocks := by
  induction l generalizing v with
  | nil => exact refl _
  | cons x xs ih => exact (h v x).trans (ih _)

theorem reviewAir (a : AirId) (b : Blocks) : Reviewed env b (reviewAir env a b) := by
  have begun : Reviewed env b (b.modAir a fun x => { x with review := none }) := modReview _ _ _
  unfold Machine.reviewAir
  generalize b.modAir a (fun x => { x with review := none }) = b₀ at begun ⊢
  have all := begun.trans ((foldReview (Reviewed.reviewWaiting a) (waitingCandidates env b₀ a) ⟨b₀, [], []⟩).trans
    (foldReview (Reviewed.reviewHead a) (headCandidates env b₀ a) _))
  dsimp only
  split
  · exact all.trans (modReview _ _ _)
  · exact all

theorem reviewAirs (p : AirId → Bool) (b : Blocks) : Reviewed env b (reviewAirs env p b) :=
  foldl (fun b a => reviewAir a b) _ _

/-! ## Answers to waiting requests (R105, R122) -/

theorem answerGate (b : Blocks) (r : Radio) (id : Byte) (x : GateAnswer) : Reviewed env b (answerGate b r id x) := by
  cases x
  · exact sendRefuse _ _ _ _
  · exact sendRetry _ _ _ _ _

theorem answerWaits (b : Blocks) (r : Radio) (x : GateAnswer) : Reviewed env b (answerWaits b r x) := by
  unfold Machine.answerWaits
  exact after (foldl (fun b (q : Request) => answerGate b r q.id x) _ _)
    (modSched b fun _ => ⟨List.nil_sublist _, .refl _, rfl⟩)

theorem retestWaits (b : Blocks) (r : Radio) : Reviewed env b (retestWaits env b r) := by
  unfold Machine.retestWaits
  split
  · exact refl _
  · exact answerWaits _ _ _

theorem retestAndReview (airs : List AirId) (rs : List Radio) (b : Blocks) :
    Reviewed env b (retestAndReview env airs rs b) := after (reviewAirs _ _) (foldl retestWaits _ _)

theorem radioChange_none (r : Radio) (old : Option AirId) (gained : List Radio) (b : Blocks) :
    Reviewed env b (radioChange env r none old gained b) := retestAndReview _ _ _

end Reviewed

/-! ## The answers, one by one -/

theorem answerGate_radios (b : Blocks) (r : Radio) (id : Byte) (x : GateAnswer) : (answerGate b r id x).sched = b.sched := by
  cases x <;> rfl

theorem foldl_answerGate_sched (r : Radio) (x : GateAnswer) (l : List Request) (b : Blocks) :
    (l.foldl (fun b q => answerGate b r q.id x) b).sched = b.sched := by
  induction l generalizing b with
  | nil => rfl
  | cons q l ih => rw [List.foldl_cons, ih, answerGate_radios]

/-- What `answerWaits` does to the scheduler's own record. -/
theorem answerWaits_sched (b : Blocks) (r : Radio) (x : GateAnswer) :
    (answerWaits b r x).sched = (b.modSched r fun y => { y with waits := [] }).sched := foldl_answerGate_sched _ _ _ _

theorem answerWaits_waits (b : Blocks) (r : Radio) (x : GateAnswer) : ((answerWaits b r x).sched.radios.get r).waits = [] := by
  rw [answerWaits_sched, Blocks.modSched_radios, PerRadio.get_modify_same]

/-- A radio that a row of R105 applies to has no request waiting after the test of its requests (R122). -/
theorem retestAndReview_waits {env : Env} {b : Blocks} {r : Radio} (closed : gate env b r ≠ none) (airs : List AirId)
    {rs : List Radio} (mem : r ∈ rs) : ((retestAndReview env airs rs b).sched.radios.get r).waits = [] := by
  obtain ⟨x, hx⟩ := Option.ne_none_iff_exists'.mp closed
  obtain ⟨before, rest, rfl⟩ := List.append_of_mem mem
  have first := Reviewed.foldl (env := env) Reviewed.retestWaits before b
  unfold retestAndReview
  refine ((Reviewed.reviewAirs _ _).radios r).waits_nil ?_
  rw [List.foldl_append, List.foldl_cons]
  refine ((Reviewed.foldl Reviewed.retestWaits rest _).radios r).waits_nil ?_
  rw [retestWaits, first.only.gate, hx]
  exact answerWaits_waits _ _ _

/-! ## Reviews without requests -/

theorem waitingCandidates_nil {env : Env} {b : Blocks} (none : noRequests b) (a : AirId) : waitingCandidates env b a = [] := by
  have empty : ((members env b a).flatMap fun r => (b.sched.radios.get r).waits) = [] :=
    List.flatMap_eq_nil_iff.mpr fun r _ => (none r).1
  rw [waitingCandidates, empty]
  rfl

theorem headCandidates_nil {env : Env} {b : Blocks} (none : noRequests b) (a : AirId) : headCandidates env b a = [] := by
  have empty : ((members env b a).flatMap fun r => (b.sched.radios.get r).posted.take 1) = [] :=
    List.flatMap_eq_nil_iff.mpr fun r _ => by rw [(none r).2]; rfl
  rw [headCandidates, empty]
  rfl

theorem modAir_modAir (b : Blocks) (a : AirId) (f g : Air → Air) : (b.modAir a f).modAir a g = b.modAir a fun x => g (f x) := by
  cases a <;> rfl

/-- With no request, a review clears the air's review timer and does nothing else (R112, R113). -/
theorem reviewAir_noRequests {env : Env} {b : Blocks} (free : noRequests b) (a : AirId) :
    reviewAir env a b = b.modAir a fun x => { x with review := none } := by
  have free' : noRequests (b.modAir a fun x => { x with review := none }) := free
  unfold reviewAir
  dsimp only
  rw [waitingCandidates_nil free', headCandidates_nil free']
  simp only [List.foldl_nil, earliestOf, Option.map_none, modAir_modAir, ite_self]

theorem reviewAirs_noRequests_air {env : Env} {b : Blocks} (free : noRequests b) (p : AirId → Bool) (a : AirId) :
    (reviewAirs env p b).air a = if p a then { b.air a with review := none } else b.air a := by
  have walk : ∀ (l : List AirId) (c : Blocks), noRequests c →
      (l.foldl (fun b a => reviewAir env a b) c).air a = if a ∈ l then { c.air a with review := none } else c.air a := by
    intro l
    induction l with
    | nil => exact fun _ _ => rfl
    | cons x xs ih =>
      intro c hc
      rw [List.foldl_cons, reviewAir_noRequests hc, ih (c.modAir x fun y => { y with review := none }) hc]
      by_cases same : a = x
      · subst same
        simp
      · simp [same]
  rw [reviewAirs, walk _ _ free]
  have mem : a ∈ airIds.filter p ↔ p a = true := by cases a <;> simp [airIds]
  simp [mem]

end Sys2Proof.Machine
end

