-- ==== Sys2Proof/Proofs/HostMoves.lean ====
section
/-! PROOF. The host's MOVE (R135, R136): its refusals, the outcome KEPT and what an issued directive leaves: O18 and O19. -/

namespace Sys2Proof.Machine

/-! ## Arguments and tests of MOVE -/

theorem moveTargetOf_entry {x : Byte} (h : x.toNat < 64) : moveTargetOf x = some (.entry x.toNat) := if_pos h

theorem moveTargetOf_best : moveTargetOf 0xFF = some .best := rfl

theorem moveTargetOf_eq_none {x : Byte} (high : 64 ≤ x.toNat) (other : x ≠ 0xFF) : moveTargetOf x = none := by
  have notBest : x.toNat ≠ 255 := fun h => other (BitVec.eq_of_toNat_eq h)
  rw [moveTargetOf, if_neg (Nat.not_lt.mpr high), if_neg notBest]

theorem cannotDirect_iff {b : Blocks} {r : Radio} : cannotDirect b r = true ↔
    (b.links.get r).port ≠ .up ∨ (b.chans.get r).clash = true ∨ (b.chans.get r).isolated = true
      ∨ (b.chans.get r).withdrawn = true := by
  simp [cannotDirect, or_assoc]

/-- MOVE to its target, of a radio that can be directed (R135). -/
def moveTo (r : Radio) (s : State) : MoveTarget → State
  | .entry id => moveNamed r id s
  | .best => moveBest r s

/-- What MOVE does with lawful arguments, before its target is looked at (R135). -/
theorem exec_move_eq {x entry : Byte} {r : Radio} {target : MoveTarget} (radio : x.toNat = Radio.number r)
    (named : moveTargetOf entry = some target) (s : State) :
    exec (.move x entry) s
      = if s.env.mode = .setup then .next (s.reject .wrongMode)
        else if (s.blocks.chans.get r).directive.isSome then .next (s.reject .busy)
        else if cannotDirect s.blocks r then .next (s.reject .wrongState)
        else .next (moveTo r s target) := by
  change execMove x entry s = _
  rw [execMove, radioOf_eq_some.mpr radio, named]
  cases target <;> rfl

/-- MOVE of a radio that can be directed. -/
theorem exec_move_open {x entry : Byte} {r : Radio} {target : MoveTarget} {s : State} (radio : x.toNat = Radio.number r)
    (named : moveTargetOf entry = some target) (run : s.env.mode = .run) (free : (s.blocks.chans.get r).directive = none)
    (open' : cannotDirect s.blocks r = false) :
    exec (.move x entry) s = .next (moveTo r s target) := by
  rw [exec_move_eq radio named, if_neg (by simp [run]), if_neg (by simp [free]), if_neg (by simp [open'])]

/-- Settles O18. -/
theorem hostMoveAnswered : Obligations.HostMoveAnswered := by
  intro x entry s
  refine ⟨fun bad => ?_, fun r radio lawful => ?_⟩
  · change execMove x entry s = _
    rcases bad with bad | ⟨high, other⟩
    · simp [execMove, radioOf_eq_none.mpr bad]
    · simp [execMove, moveTargetOf_eq_none high other]
  · intro c shut
    obtain ⟨target, named⟩ : ∃ target, moveTargetOf entry = some target := by
      rcases lawful with low | rfl
      · exact ⟨_, moveTargetOf_entry low⟩
      · exact ⟨_, moveTargetOf_best⟩
    have open_of : ¬ shut → cannotDirect s.blocks r = false := fun h => by
      rw [← Bool.not_eq_true, cannotDirect_iff]; exact h
    have isEntry : entry ≠ 0xFF → moveTargetOf entry = some (.entry entry.toNat) := fun other =>
      moveTargetOf_entry (lawful.resolve_right other)
    refine ⟨fun setup => ?_, fun run pending => ?_, fun run free closed => ?_, fun run free unshut other absent => ?_,
      fun e run free unshut other found refused => ?_, fun run free unshut best none => ?_,
      fun e best now run free unshut isBest chosen current kept => ?_⟩
    · rw [exec_move_eq radio named, if_pos setup]
    · rw [exec_move_eq radio named, if_neg (by simp [run]), if_pos (Option.isSome_iff_ne_none.mpr pending)]
    · rw [exec_move_eq radio named, if_neg (by simp [run]), if_neg (by rw [show (s.blocks.chans.get r).directive = none from free]; simp),
        if_pos (cannotDirect_iff.mpr closed)]
    · rw [exec_move_open radio (isEntry other) run free (open_of unshut)]
      simp [moveTo, moveNamed, absent]
    · rw [exec_move_open radio (isEntry other) run free (open_of unshut)]
      simp [moveTo, moveNamed, found, Option.isSome_iff_ne_none.mpr refused]
    · subst best
      rw [exec_move_open radio moveTargetOf_best run free (open_of unshut)]
      simp [moveTo, moveBest, none]
    · subst isBest
      rw [exec_move_open radio moveTargetOf_best run free (open_of unshut)]
      simp [moveTo, moveBest, chosen, keepsChannel, current, kept]
      rfl

/-! ## The issue of a MOVE -/

/-- An available entry's cells can be reserved (R13, R79 test 8). -/
theorem reserveTarget_of_available {env : Env} {b : Blocks} {r : Radio} {e : PlanEntry}
    (available : unavailable env b r e = none) : ∃ cells, reserveTarget r e.chan b.cells = some cells := by
  have all : channelAll b.cells e.chan (fun _ c => c.freeFor r) = true := by
    by_contra held
    rw [unavailable_eq, unavailableTests] at available
    simp only [firstHolding_cons, held] at available
    repeat' split at available
    all_goals simp_all
  exact ⟨_, if_pos all⟩

/-- The entry chosen is available, at its channel's cost. -/
theorem chooseEntry_available {env : Env} {b : Blocks} {r : Radio} {e : PlanEntry} {cost : Nat}
    (chosen : chooseEntry env b r = some (e, cost)) : unavailable env b r e = none ∧ cost = channelCost env b e.chan := by
  have walk : ∀ (plan : List PlanEntry) (best : Option (PlanEntry × Nat)),
      (∀ y, best = some y → unavailable env b r y.1 = none ∧ y.2 = channelCost env b y.1.chan) →
      ∀ y, plan.foldl (betterEntry env b r) best = some y → unavailable env b r y.1 = none ∧ y.2 = channelCost env b y.1.chan := by
    intro plan
    induction plan with
    | nil => exact fun _ h => h
    | cons x plan ih =>
      refine fun best h => ih _ fun y hy => ?_
      unfold betterEntry at hy
      split at hy
      · exact h y hy
      · next free =>
        dsimp only at hy
        split at hy
        · cases hy; exact ⟨free, rfl⟩
        · split at hy
          · cases hy; exact ⟨free, rfl⟩
          · cases hy; exact h _ rfl
  exact walk _ none nofun _ chosen

theorem gate_of_directive {env : Env} {b : Blocks} {r : Radio} (pending : (b.chans.get r).directive.isSome = true) :
    gate env b r ≠ none := by
  unfold gate
  dsimp only
  rw [if_pos pending]
  repeat' split
  all_goals exact nofun

/-- What the issue of a MOVE leaves in the scheduler and on the link (R122, R136). -/
theorem issueMove_sent {env : Env} {r : Radio} {e : PlanEntry} {why : MoveReason} {b b' : Blocks}
    (h : issueMove env r e why b = some b') :
    (b'.sched.radios.get r).waits = [] ∧ sentLast (b'.links.get r) (.move (b.chans.get r).nextId e.id e.chan why) := by
  unfold issueMove at h
  split at h
  · cases h
  · cases h
    refine ⟨?_, sentLast_send _ _ _⟩
    rw [Blocks.send_sched]
    refine retestAndReview_waits (gate_of_directive ?_) _ List.mem_cons_self
    rw [endMoveWait_chans, PerRadio.get_modify_same, Blocks.modChan_chans, PerRadio.get_modify_same]
    rfl

/-- Settles O19. -/
theorem hostMoveIssued : Obligations.HostMoveIssued := by
  intro x entry s r e cost c radio run free up clash isolated withdrawn target
  have open' : cannotDirect s.blocks r = false := by
    rw [← Bool.not_eq_true, cannotDirect_iff]
    simp only [c] at clash isolated withdrawn
    simp [up, clash, isolated, withdrawn]
  have issued : exec (.move x entry) s = .next (issueHostMove r e cost s) ∧ unavailable s.env s.blocks r e = none := by
    rcases target with ⟨low, found, available, rfl⟩ | ⟨rfl, chosen, dear⟩
    · rw [exec_move_open radio (moveTargetOf_entry low) run free open']
      exact ⟨by simp [moveTo, moveNamed, found, available], available⟩
    · rw [exec_move_open radio moveTargetOf_best run free open']
      refine ⟨?_, (chooseEntry_available chosen).1⟩
      have moves : keepsChannel s.env s.blocks r cost = none := by
        unfold keepsChannel
        split
        · rfl
        · next now current => exact if_neg (Nat.not_lt.mpr (dear now current))
      simp [moveTo, moveBest, chosen, moves]
  obtain ⟨ran, available⟩ := issued
  obtain ⟨cells, reserved⟩ := reserveTarget_of_available available
  obtain ⟨b, made⟩ : ∃ b, issueMove s.env r e .host s.blocks = some b := by
    unfold issueMove
    rw [reserved]
    exact ⟨_, rfl⟩
  obtain ⟨reserved', chans⟩ := issueMove_some made
  obtain ⟨waits, last⟩ := issueMove_sent made
  refine ⟨_, ran, ?_⟩
  rw [issueHostMove, made]
  refine ⟨rfl, ?_, fun k => ?_, waits, last⟩
  · rw [State.ok_blocks, chans, PerRadio.get_modify_same]
    rfl
  · rw [State.ok_blocks, (reserveTarget_eq_some.mp reserved').2, mapCells_getElem?]
    simp only [Channel.has_iff]

end Sys2Proof.Machine
end

