-- ==== Sys2Proof/Proofs/ControllerRules.lean ====
section
/-! PROOF. What the directive controller's own operations leave alone, and which source reports reach the condition list: rules
for the statements on sessions, directives and guard changes. -/

namespace Sys2Proof.Machine

variable {env : Env}

/-! ## Reports and the records of other keys -/

theorem updateKey_find_other {key j : CondKey} (other : j ≠ key) {f : CondRecord → Option CondRecord}
    (keys : ∀ c d, f c = some d → d.key = c.key) (l : List CondRecord) :
    (updateKey key f l).find? (fun c => c.key == j) = l.find? fun c => c.key == j := by
  induction l with
  | nil => rfl
  | cons c cs ih =>
    unfold updateKey
    split
    · next e =>
      have notHere : (c.key == j) = false := by simp [e, Ne.symm other]
      rw [List.find?_cons_of_neg (by simp [notHere])]
      split
      · rfl
      · next d hd => rw [List.find?_cons_of_neg (by simp [keys c d hd, notHere])]
    · rw [List.find?_cons, List.find?_cons, ih]

/-- A report of a source leaves the records of the other keys as they are (R88). -/
theorem Monitor.find_report_other (m : Monitor) {key j : CondKey} (other : j ≠ key) (x : Bool) :
    (m.report env key x).find j = m.find j := by
  unfold Monitor.report Monitor.find
  split
  · unfold Monitor.present
    split
    · exact updateKey_find_other other (fun c d e => by cases e; simp) _
    · split
      · have newKey : ((newRecord env m.lastRange key).key == j) = false := by simp [newRecord_key, Ne.symm other]
        dsimp only
        rw [List.find?_append, List.find?_cons_of_neg (by rw [newKey]; exact Bool.false_ne_true)]
        simp
      · rfl
  · exact updateKey_find_other other (fun _ _ => CondRecord.onAbsent_key) _

theorem Monitor.holds_iff_find (m : Monitor) (key : CondKey) : m.holds key = true ↔ (m.find key).isSome = true := by
  rw [Monitor.holds, Monitor.find, List.find?_isSome, List.any_eq_true]

theorem Monitor.overflow_report (m : Monitor) (key : CondKey) (x : Bool) (h : m.overflow = true) :
    (m.report env key x).overflow = true := by
  unfold Monitor.report Monitor.present
  repeat' split
  all_goals first | exact h | rfl

theorem Monitor.recordedOrFull_report (m : Monitor) (key : CondKey) : recordedOrFull (m.report env key true) key := by
  unfold Monitor.report Monitor.present
  rw [if_pos rfl]
  split
  · next held =>
    refine .inl ?_
    have keys : ∀ l : List CondRecord, (l.any fun c => c.key == key) = true →
        ((updateKey key (fun c => some (c.onPresent env.now m.lastRange)) l).any fun c => c.key == key) = true := by
      intro l
      induction l with
      | nil => exact id
      | cons c cs ih =>
        intro h
        unfold updateKey
        split
        · next e => simp [e]
        · next other =>
          simp only [List.any_cons, other, beq_iff_eq, Bool.or_eq_true] at h ⊢
          exact .inr (ih (h.resolve_left (by simp)))
    exact keys m.list held
  · split
    · refine .inl ?_
      simp [Monitor.holds, newRecord_key]
    · exact .inr rfl

/-! ## Runs of reports -/

/-- The monitor has taken some reports, all of them of the kind that `P` allows. -/
inductive Reported (P : CondKey → Bool → Prop) (env : Env) : Monitor → Monitor → Prop where
  | refl (m : Monitor) : Reported P env m m
  | report {m m' : Monitor} {key : CondKey} {x : Bool} (allowed : P key x) (h : Reported P env m m') :
      Reported P env m (m'.report env key x)

namespace Reported

variable {P Q : CondKey → Bool → Prop}

theorem one {m : Monitor} {key : CondKey} {x : Bool} (allowed : P key x) : Reported P env m (m.report env key x) :=
  .report allowed (.refl m)

theorem trans {a b c : Monitor} (h : Reported P env a b) (g : Reported P env b c) : Reported P env a c := by
  induction g with
  | refl => exact h
  | report allowed _ ih => exact .report allowed ih

theorem weaken {m m' : Monitor} (h : Reported P env m m') (imp : ∀ key x, P key x → Q key x) : Reported Q env m m' := by
  induction h with
  | refl => exact .refl _
  | report allowed _ ih => exact .report (imp _ _ allowed) ih

theorem of_eq {m m' : Monitor} (h : m' = m) : Reported P env m m' := by
  rw [h]
  exact .refl m

/-- The record of a key that no report names. -/
theorem find_other {m m' : Monitor} (h : Reported P env m m') {j : CondKey} (other : ∀ x, ¬ P j x) : m'.find j = m.find j := by
  induction h with
  | refl => rfl
  | @report m' key x allowed _ ih =>
    rw [Monitor.find_report_other m' (fun e => other x (by rw [e]; exact allowed)) x, ih]

theorem overflow {m m' : Monitor} (h : Reported P env m m') (full : m.overflow = true) : m'.overflow = true := by
  induction h with
  | refl => exact full
  | report _ _ ih => exact Monitor.overflow_report _ _ _ ih

theorem recordedOrFull {m m' : Monitor} (h : Reported P env m m') {j : CondKey} (other : ∀ x, ¬ P j x)
    (recorded : recordedOrFull m j) : recordedOrFull m' j := by
  rcases recorded with held | full
  · rw [Monitor.holds_iff_find] at held
    exact .inl ((Monitor.holds_iff_find _ _).mpr (by rw [h.find_other other]; exact held))
  · exact .inr (h.overflow full)

/-- Reports of absence leave no record that was not there. -/
theorem keys_of_absent {m m' : Monitor} (h : Reported P env m m') (absent : ∀ key x, P key x → x = false) :
    (m'.list.map CondRecord.key).Sublist (m.list.map CondRecord.key) := by
  induction h with
  | refl => exact .refl _
  | @report m' key x allowed _ ih =>
    rw [absent key x allowed]
    exact (updateKey_keys (fun _ _ => CondRecord.onAbsent_key) _).trans ih

end Reported

/-! ## What the controller's own operations leave alone -/

/-- Nothing but cells, channel states and condition records has changed. -/
structure ControlOnly (b b' : Blocks) : Prop where
  lanes : b'.lanes = b.lanes
  tracker : b'.tracker = b.tracker
  survey : b'.survey = b.survey
  sched : b'.sched = b.sched
  links : b'.links = b.links

namespace ControlOnly

theorem refl (b : Blocks) : ControlOnly b b := ⟨rfl, rfl, rfl, rfl, rfl⟩

theorem trans {a b c : Blocks} (h : ControlOnly a b) (g : ControlOnly b c) : ControlOnly a c :=
  ⟨g.lanes.trans h.lanes, g.tracker.trans h.tracker, g.survey.trans h.survey, g.sched.trans h.sched, g.links.trans h.links⟩

theorem after {a b c : Blocks} (g : ControlOnly b c) (h : ControlOnly a b) : ControlOnly a c := h.trans g

theorem air {b b' : Blocks} (h : ControlOnly b b') (a : AirId) : b'.air a = b.air a := by rw [Blocks.air, h.sched]; rfl

theorem foldl {α : Type} {f : Blocks → α → Blocks} (h : ∀ b x, ControlOnly b (f b x)) (l : List α) (b : Blocks) :
    ControlOnly b (l.foldl f b) := by
  induction l generalizing b with
  | nil => exact refl b
  | cons x xs ih => exact (h b x).trans (ih _)

theorem modChan (b : Blocks) (r : Radio) (f : ChanState → ChanState) : ControlOnly b (b.modChan r f) := ⟨rfl, rfl, rfl, rfl, rfl⟩

theorem setCells (b : Blocks) (cells : List CellRecord) : ControlOnly b { b with cells := cells } := ⟨rfl, rfl, rfl, rfl, rfl⟩

theorem endMoveWait (r : Radio) (b : Blocks) : ControlOnly b (endMoveWait env r b) := by
  unfold Machine.endMoveWait
  dsimp only
  repeat' split
  all_goals exact ⟨rfl, rfl, rfl, rfl, rfl⟩

theorem enterMoveWait (r : Radio) (cells : List Nat) (b : Blocks) : ControlOnly b (enterMoveWait env r cells b) := by
  unfold Machine.enterMoveWait
  dsimp only
  split <;> exact ⟨rfl, rfl, rfl, rfl, rfl⟩

theorem endLapse (r : Radio) (b : Blocks) : ControlOnly b (endLapse env r b) := by
  unfold Machine.endLapse
  split <;> exact ⟨rfl, rfl, rfl, rfl, rfl⟩

theorem setClash (r : Radio) (x : Bool) (b : Blocks) : ControlOnly b (setClash env r x b) := by
  unfold Machine.setClash
  split <;> exact ⟨rfl, rfl, rfl, rfl, rfl⟩

theorem dropDirective (r : Radio) (b : Blocks) : ControlOnly b (dropDirective r b) := by
  unfold Machine.dropDirective
  split <;> exact ⟨rfl, rfl, rfl, rfl, rfl⟩

theorem resolveOne (except : Option Radio) (b : Blocks) (c : Radio) : ControlOnly b (resolveOne env except b c) := by
  unfold Machine.resolveOne
  dsimp only
  repeat' split
  · exact refl _
  · exact after (setClash _ _ _) (setCells _ _)
  · exact refl _

theorem resolveClashes (except : Option Radio) (freed : Bool) (b : Blocks) :
    ControlOnly b (resolveClashes env except freed b) := by
  unfold Machine.resolveClashes
  split
  · exact foldl (resolveOne except) _ _
  · exact refl _

theorem clearContext (r : Radio) (b : Blocks) : ControlOnly b (clearContext env r b) :=
  after (endLapse _ _) (after (setClash _ _ _) (after (endMoveWait _ _) (after (modChan _ _ _) (after (setCells _ _)
    (dropDirective _ _)))))

end ControlOnly

/-! ## Which reports they take -/

theorem endMoveWait_reported (r : Radio) (b : Blocks) :
    Reported (fun key x => key = .noChannel r ∧ x = false) env b.monitor (endMoveWait env r b).monitor := by
  unfold endMoveWait
  split
  · exact .refl _
  · dsimp only
    split
    · exact .one (key := .noChannel r) (x := false) ⟨rfl, rfl⟩
    · exact .refl _

theorem setClash_reported (r : Radio) (x : Bool) (b : Blocks) :
    Reported (fun key y => key = .clash r ∧ y = x) env b.monitor (setClash env r x b).monitor := by
  unfold setClash
  split
  · exact .refl _
  · exact .one (key := .clash r) (x := x) ⟨rfl, rfl⟩

theorem dropDirective_monitor (r : Radio) (b : Blocks) : (dropDirective r b).monitor = b.monitor := by
  unfold dropDirective
  split <;> rfl

/-- Clash resolution reports clashes as absent (R142). -/
theorem resolveClashes_reported (except : Option Radio) (freed : Bool) (b : Blocks) :
    Reported (fun key x => (∃ q, key = .clash q) ∧ x = false) env b.monitor (resolveClashes env except freed b).monitor := by
  have one : ∀ b c, Reported (fun key x => (∃ q, key = .clash q) ∧ x = false) env b.monitor (resolveOne env except b c).monitor := by
    intro b c
    unfold resolveOne
    dsimp only
    repeat' split
    · exact .refl _
    · exact (setClash_reported c false { b with cells := acquire c _ b.cells }).weaken fun _ _ h => ⟨⟨c, h.1⟩, h.2⟩
    · exact .refl _
  have walk : ∀ (l : List Radio) (b : Blocks),
      Reported (fun key x => (∃ q, key = .clash q) ∧ x = false) env b.monitor (l.foldl (resolveOne env except) b).monitor := by
    intro l
    induction l with
    | nil => exact fun b => .refl _
    | cons c l ih => exact fun b => (one b c).trans (ih _)
  unfold resolveClashes
  split
  · exact walk _ _
  · exact .refl _

/-! ## Cells after clash resolution -/

theorem Resolved.holdsNothing {except : Option Radio} {b b' : Blocks} (h : Resolved except b b') {r : Radio}
    (quiet : (b.chans.get r).clash = false ∨ except = some r) (none : holdsNothing b r) : holdsNothing b' r := by
  intro c mem held
  obtain ⟨k, hk⟩ := List.mem_iff_getElem?.mp mem
  exact none c (List.mem_of_getElem? ((h.held r quiet k c held).mp hk)) held

theorem holdsNothing_releaseAll (r : Radio) (cells : List CellRecord) : ∀ c ∈ releaseAll r cells, c.holder ≠ some r := by
  intro c mem
  obtain ⟨k, hk⟩ := List.mem_iff_getElem?.mp mem
  rw [releaseAll, mapCells_getElem?] at hk
  obtain ⟨y, -, rfl⟩ := Option.map_eq_some_iff.mp hk
  split
  · exact nofun
  · next other => simpa using other

/-! ## What resolution and the reviews behind it leave -/

theorem resolveAndReview_eq (airs : List AirId) (freed : Bool) (b : Blocks) :
    resolveAndReview env airs freed b
      = retestAndReview env airs (unclashed b (resolveClashes env none freed b)) (resolveClashes env none freed b) := rfl

/-- A radio without a clash keeps its channel state and its cells through `resolveAndReview`. -/
theorem resolveAndReview_chans (airs : List AirId) (freed : Bool) (b : Blocks) (q : Radio) :
    (resolveAndReview env airs freed b).chans.get q
      = { b.chans.get q with clash := ((resolveAndReview env airs freed b).chans.get q).clash } := by
  rw [resolveAndReview_eq, (SchedOnly.retestAndReview _ _ _ _).chans]
  exact (Resolved.resolveClashes freed b).chans q

theorem resolveAndReview_same {b : Blocks} {q : Radio} (clear : (b.chans.get q).clash = false) (airs : List AirId) (freed : Bool) :
    (resolveAndReview env airs freed b).chans.get q = b.chans.get q := by
  rw [resolveAndReview_eq, (SchedOnly.retestAndReview _ _ _ _).chans]
  exact (Resolved.resolveClashes freed b).same clear

theorem resolveAndReview_holdsNothing {b : Blocks} {r : Radio} (clear : (b.chans.get r).clash = false) (none : holdsNothing b r)
    (airs : List AirId) (freed : Bool) : holdsNothing (resolveAndReview env airs freed b) r := by
  rw [resolveAndReview_eq, holdsNothing, (SchedOnly.retestAndReview _ _ _ _).cells]
  exact (Resolved.resolveClashes freed b).holdsNothing (.inl clear) none

theorem resolveAndReview_lanes (airs : List AirId) (freed : Bool) (b : Blocks) :
    (resolveAndReview env airs freed b).lanes = b.lanes := by
  rw [resolveAndReview_eq, (SchedOnly.retestAndReview _ _ _ _).lanes, (ControlOnly.resolveClashes _ _ _).lanes]

theorem resolveAndReview_reported (airs : List AirId) (freed : Bool) (b : Blocks) :
    Reported (fun key x => (∃ q, key = .clash q) ∧ x = false) env b.monitor (resolveAndReview env airs freed b).monitor := by
  rw [resolveAndReview_eq, (SchedOnly.retestAndReview _ _ _ _).monitor]
  exact resolveClashes_reported _ _ _

theorem resolveAndReview_radios (airs : List AirId) (freed : Bool) (b : Blocks) (q : Radio) :
    Shortened (b.sched.radios.get q) ((resolveAndReview env airs freed b).sched.radios.get q) := by
  have reviewed := (Reviewed.retestAndReview (env := env) airs (unclashed b (resolveClashes env none freed b))
    (resolveClashes env none freed b)).radios q
  rw [(ControlOnly.resolveClashes none freed b).sched] at reviewed
  exact reviewed

/-! ## The lane -/

theorem restartLane_lanes (r : Radio) (b : Blocks) : (restartLane r b).lanes.get r = Lane.restart (b.lanes.get r) :=
  PerRadio.get_modify_same _ _ _

theorem restartIfMoved_chans (r : Radio) (before : Option Channel) (b : Blocks) : (restartIfMoved r before b).chans = b.chans := by
  unfold restartIfMoved
  split <;> rfl

theorem restartIfMoved_cells (r : Radio) (before : Option Channel) (b : Blocks) : (restartIfMoved r before b).cells = b.cells := by
  unfold restartIfMoved
  split <;> rfl

theorem restartIfMoved_lanes (r : Radio) (before : Option Channel) (b : Blocks) :
    (restartIfMoved r before b).lanes.get r
      = if (b.chans.get r).operating = before then b.lanes.get r else Lane.restart (b.lanes.get r) := by
  unfold restartIfMoved
  split
  · rfl
  · exact restartLane_lanes r b

theorem restartIfMoved_monitor (r : Radio) (before : Option Channel) (b : Blocks) :
    (restartIfMoved r before b).monitor = b.monitor := by
  unfold restartIfMoved
  split <;> rfl

/-- A lane restart begins the late-release count anew, and changes nothing else that the scheduler keeps (R39, R119). -/
theorem restartIfMoved_radios (r : Radio) (before : Option Channel) (b : Blocks) :
    (restartIfMoved r before b).sched.radios.get r = b.sched.radios.get r
      ∨ (restartIfMoved r before b).sched.radios.get r = { b.sched.radios.get r with lateCount := 0 } := by
  unfold restartIfMoved
  split
  · exact .inl rfl
  · exact .inr (PerRadio.get_modify_same _ _ _)

end Sys2Proof.Machine
end

