-- ==== Sys2Proof/Proofs/Sessions.lean ====
section
/-! PROOF. The radio links: the receiver, the loss of a link and the transmitter (R123, R143, R148, R150 to R154): O22, O24 and O25. -/

namespace Sys2Proof.Machine

variable {env : Env}

/-! ## Changes of one link -/

theorem PerRadio.modify_congr {α : Type} {p : PerRadio α} {r : Radio} {f g : α → α} (h : f (p.get r) = g (p.get r)) :
    p.modify r f = p.modify r g := by
  rw [PerRadio.modify, h]
  rfl

theorem Blocks.modLink_congr {b : Blocks} {r : Radio} {f g : Link → Link} (h : f (b.links.get r) = g (b.links.get r)) :
    b.modLink r f = b.modLink r g := by
  rw [Blocks.modLink, PerRadio.modify_congr h]
  rfl

theorem Blocks.modLink_self {b : Blocks} {r : Radio} {f : Link → Link} (h : f (b.links.get r) = b.links.get r) :
    b.modLink r f = b := by
  rw [Blocks.modLink, PerRadio.modify_eq_self h]

/-- Events that leave the same blocks end in the same state. -/
theorem next_blocks {s : State} {b b' : Blocks} (h : b = b') :
    (Host.Outcome.next { s with blocks := b } : Host.Outcome State Fault Refusal) = .next { s with blocks := b' } := by
  rw [h]

/-- An event that leaves the blocks as they are changes nothing. -/
theorem withBlocks_self {s : State} {f : Env → Blocks → Blocks} (h : f s.env s.blocks = s.blocks) : s.withBlocks f = s := by
  rw [State.withBlocks, h]

theorem Time.reached_iff {t : Option Time} {now : Time} :
    Time.reached t now = true ↔ ∃ x, t = some x ∧ Time.atOrBefore x now = true := by
  cases t <;> simp [Time.reached]

theorem Time.reached_map_iff {α : Type} {x : Option α} {f : α → Time} {now : Time} :
    Time.reached (x.map f) now = true ↔ ∃ y, x = some y ∧ Time.atOrBefore (f y) now = true := by
  cases x <;> simp [Time.reached]

/-! ## The receiver -/

/-- A good message other than HELLO outside a session (R153). -/
theorem receive_of_not_up {r : Radio} {b : Blocks} (down : (b.links.get r).port ≠ .up) (handler : Blocks → Blocks) :
    receive env r handler b = b.modLink r fun k => Link.issue { k with receiver := .hunting } .relink := by
  have stillDown : ((b.hunt r).links.get r).port ≠ .up := by simpa [Blocks.hunt] using down
  rw [receive, if_neg stillDown]
  exact Blocks.modLink_modLink _ _ _ _

/-- The messages that only a session hands on are received (R153). -/
theorem exec_sessionMessage {c : Instr} {r : Radio} (h : sessionMessage c = some r) (s : State) :
    ∃ handler, exec c s = .next { s with blocks := receive s.env r handler s.blocks } := by
  cases c with
  | keepalive q => cases h; exact ⟨_, rfl⟩
  | windowRequest q ask => cases h; exact ⟨_, rfl⟩
  | release q id => cases h; exact ⟨_, rfl⟩
  | tuned q start width => cases h; exact ⟨_, rfl⟩
  | moved q id => cases h; exact ⟨_, rfl⟩
  | decline q id why => cases h; exact ⟨_, rfl⟩
  | samples q first levels =>
    by_cases full : levels.length = 8
    · rw [sessionMessage, if_pos full] at h
      cases h
      refine ⟨takeBatch s.env r first levels, ?_⟩
      change execSamples r first levels s = _
      simp only [execSamples, State.withBlocks, if_pos full]
    · rw [sessionMessage, if_neg full] at h
      cases h
  | heard q x =>
    by_cases wf : x.wf = true
    · rw [sessionMessage, if_pos wf] at h
      cases h
      refine ⟨takeHeard s.env r x, ?_⟩
      change execHeard r x s = _
      simp only [execHeard, State.withBlocks, if_pos wf]
    · rw [sessionMessage, if_neg wf] at h
      cases h
  | _ => cases h

/-- A lane without a channel, or of a withdrawn radio, takes no batch (R21). -/
theorem takeBatch_dropped {r : Radio} {b : Blocks}
    (shut : (b.chans.get r).operating = none ∨ (b.chans.get r).withdrawn = true) (f : Time) (levels : List (BitVec 16)) :
    takeBatch env r f levels b = b := by
  have takesNone : laneTakes b r = false := by
    rcases shut with shut | shut <;> simp [laneTakes, shut]
  unfold takeBatch
  split
  · rfl
  · rw [takesNone]
    rfl

theorem takeHeard_dropped {r : Radio} {b : Blocks}
    (shut : (b.chans.get r).operating = none ∨ (b.chans.get r).withdrawn = true) (h : Summary) : takeHeard env r h b = b := by
  unfold takeHeard
  split
  · rfl
  · next ch some =>
    rcases shut with none | withdrawn
    · rw [none] at some; cases some
    · rw [if_pos withdrawn]

/-- Settles O22. -/
theorem receiverAndSessions : Obligations.ReceiverAndSessions := by
  constructor
  · intro r s error
    have discarded : linkError r s.blocks = s.blocks.modLink r error := Blocks.modLink_modLink _ _ _ _
    refine ⟨rfl, fun _ => next_blocks discarded,
      fun _ => next_blocks discarded, ?_, ?_⟩
    all_goals
      intro version bands width wrong port
      refine next_blocks ?_
      show takeHello s.env r version ⟨bands, width⟩ s.blocks = _
      have kept : ((s.blocks.hunt r).links.get r).port = (s.blocks.links.get r).port := by simp [Blocks.hunt]
      unfold takeHello
      dsimp only
      rw [kept, if_pos wrong]
    · rw [if_neg (by simpa using port)]
      exact Blocks.modLink_modLink _ _ _ _
    · rw [if_pos (by simpa using port), restartLiveness_hunt, Blocks.count]
      exact Blocks.modLink_congr (by simp [error, heardOn, LinkCounters.linkError, bump, satAdd])
  · intro c r s port chan
    refine ⟨fun message down => ?_, fun up => ?_, fun f levels full up shut => ?_, fun h wf up shut => ?_⟩
    · obtain ⟨handler, ran⟩ := exec_sessionMessage message s
      rw [ran, receive_of_not_up down]
    · show Host.Outcome.next (s.withBlocks fun env b => receive env r id b) = _
      rw [State.withBlocks, receive_of_up up]
      rfl
    · rw [exec_samples_of_up full up, takeBatch_dropped (b := heardOn s.env r s.blocks) shut]
    · obtain ⟨handler, ran⟩ : ∃ handler, exec (.heard r h) s = .next { s with blocks := receive s.env r handler s.blocks }
          ∧ handler = takeHeard s.env r h := by
        refine ⟨_, ?_, rfl⟩
        change execHeard r h s = _
        simp only [execHeard, State.withBlocks, if_pos wf]
      rw [ran.1, ran.2, receive_of_up up, takeHeard_dropped (b := heardOn s.env r s.blocks) shut]

/-! ## The transmitter (R150) -/

theorem txdFree_iff {now : Time} {k : Link} :
    txdFree now k = true ↔ ∀ x, k.sending = some x → Time.atOrBefore x.freeAt now = true := by
  unfold txdFree
  cases k.sending <;> simp

theorem markDue_iff {now : Time} {k : Link} : markDue now k = true ↔
    k.port = .up ∧ ∃ t, k.markStart = some t ∧ Time.atOrBefore (Time.plus t 10000) now = true := by
  rw [markDue, Bool.and_eq_true, Time.reached_map_iff, beq_iff_eq]

/-- Settles O25. -/
theorem transmitter : Obligations.Transmitter := by
  intro r s k due
  have isDue : markDue s.env.now k = true ↔ due := markDue_iff
  refine ⟨fun m rest queue free => ?_, fun idle => ?_, fun h => ?_, fun h => ?_⟩
  · refine ⟨beginSending s.env.now m k.sending, ?_, rfl, rfl⟩
    refine next_blocks (Blocks.modLink_congr ?_)
    rw [Link.transmit, show (s.blocks.links.get r).queue = m :: rest from queue]
    exact if_pos (txdFree_iff.mpr free)
  · refine congrArg Host.Outcome.next (withBlocks_self (Blocks.modLink_self ?_))
    show Link.transmit s.env.now k = k
    unfold Link.transmit
    split
    · rfl
    · next m rest queue =>
      rcases idle with empty | ⟨x, sending, busy⟩
      · rw [empty] at queue; cases queue
      · refine if_neg fun free => ?_
        have := txdFree_iff.mp free x sending
        rw [busy] at this
        cases this
  · refine next_blocks ?_
    show issueMark s.env r s.blocks = _
    rw [issueMark, if_pos (isDue.mpr h)]
    exact Blocks.modLink_modLink _ _ _ _
  · refine congrArg Host.Outcome.next (withBlocks_self ?_)
    show issueMark s.env r s.blocks = _
    rw [issueMark, if_neg fun x => h (isDue.mp x)]

/-! ## The end of a session -/

/-- What the end of a session leaves of a radio's requests and records (R123). -/
theorem endSession_radios (r : Radio) (b : Blocks) :
    ∃ x : RadioSched, (endSession env r b).sched.radios.get r
      = { x with waits := [], posted := [], headAttempts := 0, passThrough := [], lastEnded := none } :=
  ⟨_, PerRadio.get_modify_same _ _ _⟩

theorem endMoveWait_get (r : Radio) (b : Blocks) : (endMoveWait env r b).chans.get r = { b.chans.get r with moveWait := none } := by
  rw [endMoveWait_chans, PerRadio.get_modify_same]

theorem dropDirective_get (r : Radio) (b : Blocks) : (dropDirective r b).chans.get r = { b.chans.get r with directive := none } := by
  rw [dropDirective_chans, PerRadio.get_modify_same]

/-- Requests and grants of a radio that is left without any. -/
structure Sessionless (x : RadioSched) : Prop where
  waits : x.waits = []
  posted : x.posted = []
  passThrough : x.passThrough = []
  lastEnded : x.lastEnded = none

theorem Sessionless.endSession (r : Radio) (b : Blocks) : Sessionless ((endSession env r b).sched.radios.get r) := by
  obtain ⟨x, hx⟩ := endSession_radios (env := env) r b
  rw [hx]
  exact ⟨rfl, rfl, rfl, rfl⟩

theorem Sessionless.shortened {x y : RadioSched} (h : Sessionless x) (g : Shortened x y) : Sessionless y :=
  ⟨g.waits_nil h.waits, g.posted_nil h.posted, g.passThrough.trans h.passThrough, g.lastEnded.trans h.lastEnded⟩

theorem Sessionless.lateCount {x : RadioSched} (h : Sessionless x) (n : Nat) : Sessionless { x with lateCount := n } :=
  ⟨h.waits, h.posted, h.passThrough, h.lastEnded⟩

theorem restartLane_get (r : Radio) (b : Blocks) :
    (restartLane r b).sched.radios.get r = { b.sched.radios.get r with lateCount := 0 } := PerRadio.get_modify_same _ _ _

/-- What the scheduler's and the controller's parts of a link loss leave (R123, R143). -/
theorem lossDirective_spec (r : Radio) (airs : List AirId) (b : Blocks) :
    Sessionless ((lossDirective env r airs b).sched.radios.get r)
      ∧ (lossDirective env r airs b).chans.get r = { b.chans.get r with
          directive := none
          moveWait := none
          clash := ((lossDirective env r airs b).chans.get r).clash }
      ∧ (lossDirective env r airs b).lanes = b.lanes
      ∧ Reported (fun key x => (∃ q, key = .clash q ∨ key = .noChannel q) ∧ x = false) env b.monitor
          (lossDirective env r airs b).monitor := by
  obtain ⟨reached, freed, eq⟩ : ∃ reached freed, lossDirective env r airs b
      = resolveAndReview env reached freed (endMoveWait env r (dropDirective r (endSession env r b))) := ⟨_, _, rfl⟩
  have ended : ControlOnly (endSession env r b) (endMoveWait env r (dropDirective r (endSession env r b))) :=
    .after (.endMoveWait _ _) (.dropDirective _ _)
  have only : SchedOnly b (endSession env r b) := .endSession _ _ _
  rw [eq]
  refine ⟨?_, ?_, ?_, ?_⟩
  · have sessionless := Sessionless.endSession (env := env) r b
    rw [← ended.sched] at sessionless
    exact sessionless.shortened (resolveAndReview_radios _ _ _ _)
  · rw [resolveAndReview_chans, endMoveWait_get, dropDirective_get, only.chans]
  · rw [resolveAndReview_lanes, ended.lanes, only.lanes]
  · have first := (endMoveWait_reported (env := env) r (dropDirective r (endSession env r b))).weaken
      (Q := fun key x => (∃ q, key = .clash q ∨ key = .noChannel q) ∧ x = false) fun _ _ h => ⟨⟨r, .inr h.1⟩, h.2⟩
    rw [dropDirective_monitor, only.monitor] at first
    exact first.trans ((resolveAndReview_reported _ _ _).weaken fun _ _ ⟨⟨q, hq⟩, absent⟩ => ⟨⟨q, .inl hq⟩, absent⟩)

theorem lossDue_iff {b : Blocks} {r : Radio} : lossDue env b r = true ↔
    (b.links.get r).port = .up ∧ ∃ t, (b.links.get r).liveness = some t ∧ Time.atOrBefore t env.now = true := by
  rw [lossDue, Bool.and_eq_true, Time.reached_iff, beq_iff_eq]

/-- Settles O24. -/
theorem linkLoss : Obligations.LinkLoss := by
  intro r s due
  have isDue : lossDue s.env s.blocks r = true ↔ due := lossDue_iff
  refine ⟨fun early => ?_, fun h => ?_⟩
  · refine congrArg Host.Outcome.next (withBlocks_self (if_neg fun x => early (isDue.mp x)))
  · refine ⟨{ s with blocks := loseLink s.env r s.blocks }, next_blocks (if_pos (isDue.mpr h)), ?_⟩
    let lost := (purgeQueue r (s.blocks.modLink r fun k =>
      { k with port := .lost, liveness := none, markStart := none, linkSource := true })).report s.env (.link r) true
    obtain ⟨airs, eq⟩ : ∃ airs, loseLink s.env r s.blocks = restartLane r (lossDirective s.env r airs lost) := ⟨_, rfl⟩
    obtain ⟨sessionless, chans, lanes, reported⟩ := lossDirective_spec (env := s.env) r airs lost
    have link := (Directed.lossDirective (env := s.env) r airs lost).links r
    have now : lost.links.get r = { s.blocks.links.get r with
        port := .lost
        liveness := none
        markStart := none
        linkSource := true
        queue := (s.blocks.links.get r).queue.filter fun m => m == .relink } := by
      simp [lost, purgeQueue]
    dsimp only
    rw [eq, restartLane_get]
    have done := sessionless.lateCount 0
    refine ⟨?_, ?_, ?_, ?_, ?_, done.waits, done.posted, done.passThrough, done.lastEnded, chans, ?_⟩
    · exact link.port.trans (by rw [now])
    · exact link.liveness.trans (by rw [now])
    · exact link.markStart.trans (by rw [now])
    · exact link.linkSource.trans (by rw [now])
    · refine reported.recordedOrFull (fun x => ?_) (Monitor.recordedOrFull_report _ _)
      rintro ⟨⟨q, same | same⟩, -⟩ <;> cases same
    · rw [restartLane_lanes, lanes]
      rfl

end Sys2Proof.Machine
end

