-- ==== Sys2Proof/Proofs/LaneMachine.lean ====
section
/-! PROOF. The burst machine of a lane: levels, samples and the lapse of a stream (R20, R22, R23, R27 to R33): O28 and O33. -/

namespace Sys2Proof.Machine

/-! ## Levels -/

theorem eq_blindMarker_iff (q : BitVec 16) : q = blindMarker ↔ q.toInt = -32768 := by
  rw [← BitVec.toInt_inj]
  exact Iff.rfl

/-- The code of a level that is not the blind marker (R22). -/
theorem codeOf_of_level {q : BitVec 16} (h : q.toInt ≠ -32768) :
    codeOf q = (clampInt 0 126 ((q.toInt + 400) / 2)).toNat := by
  rw [codeOf, if_neg (mt (eq_blindMarker_iff q).mp h), Int.fdiv_eq_ediv_of_nonneg _ (by decide)]

theorem codeOf_blind {q : BitVec 16} (h : q.toInt = -32768) : codeOf q = 127 := if_pos ((eq_blindMarker_iff q).mpr h)

theorem codeOf_low {q : BitVec 16} (h : q.toInt ≠ -32768) (low : q.toInt < -400) : codeOf q = 0 := by
  rw [codeOf_of_level h, clampInt, if_pos (by omega)]
  rfl

theorem codeOf_high {q : BitVec 16} (h : -146 ≤ q.toInt) : codeOf q = 126 := by
  rw [codeOf_of_level (by omega), clampInt]
  split_ifs <;> omega

theorem codeOf_between {q : BitVec 16} (low : -400 ≤ q.toInt) (high : q.toInt < -146) :
    2 * (codeOf q : Int) ≤ q.toInt + 400 ∧ q.toInt + 400 < 2 * (codeOf q : Int) + 2 := by
  rw [codeOf_of_level (by omega), clampInt, if_neg (by omega), if_neg (by omega)]
  omega

theorem sampleKind_blind (busyCode : Nat) : sampleKind busyCode 127 = .blind := if_pos rfl

theorem sampleKind_busy {busyCode code : Nat} (h : code ≠ 127) (busy : busyCode ≤ code) :
    sampleKind busyCode code = .busy := by
  rw [sampleKind, if_neg h, if_pos busy]

theorem sampleKind_idle {busyCode code : Nat} (h : code ≠ 127) (idle : code < busyCode) :
    sampleKind busyCode code = .idle := by
  rw [sampleKind, if_neg h, if_neg (Nat.not_le.mpr idle)]

/-! ## A sample in QUIET -/

/-- The history keeps its latest five entries (R20). -/
theorem pushHistory_eq {h : List HistEntry} (short : h.length ≤ 5) (e : HistEntry) :
    pushHistory h e = (h ++ [e]).drop (h.length - 4) := by
  unfold pushHistory
  split
  · next less => rw [show h.length - 4 = 0 by omega, List.drop_zero]
  · next full =>
    have five : h.length = 5 := by omega
    rw [five, List.drop_append_of_le_length (by omega), List.drop_one]

theorem Lane.feed_quiet {l : Lane} (quiet : l.burst = none) (p : Params) (ch : Channel) (t : Time) (k : SampleKind) :
    l.feed p ch t k = (l.feedQuiet ch t k, none) := by
  rw [Lane.feed, quiet]

theorem Lane.feedQuiet_busy_alone {l : Lane} (none : ∀ e ∈ l.history, e.busy = false) (ch : Channel) (t : Time) :
    l.feedQuiet ch t .busy = { l with history := pushHistory l.history ⟨true, t⟩ } := by
  have absent : l.history.find? (fun e => e.busy) = .none := by simpa using none
  simp [Lane.feedQuiet, absent]

/-- A busy sample opens a burst from the busy entry of the history (R28). -/
theorem Lane.feedQuiet_busy_pair {l : Lane} {e : HistEntry} (only : l.history.filter (fun e => e.busy) = [e])
    (ch : Channel) (t : Time) :
    l.feedQuiet ch t .busy = { l with burst := some ⟨e.time, ch, t⟩, history := [], idleRun := 0, blindRun := 0 } := by
  have found : l.history.find? (fun e => e.busy) = some e := by
    rw [← List.head?_filter, only]
    rfl
  simp [Lane.feedQuiet, found]

/-! ## A sample in OPEN -/

/-- The class counters after a burst of duration *d* has closed, written out by R33's bounds. -/
theorem ClassCounters.closed_eq (p : Params) (c : ClassCounters) (d : Nat) :
    c.closed (burstClass p d) false
      = (if d < 200 then { c with glitch := min (c.glitch + 1) 65535 }
        else if d < p.ovenMin then { c with frame := min (c.frame + 1) 65535 }
        else if d ≤ p.ovenMax then { c with ovenLike := min (c.ovenLike + 1) 65535 }
        else { c with long := min (c.long + 1) 65535 }) := by
  unfold burstClass
  split_ifs <;> rfl

theorem ClassCounters.closed_truncated (c : ClassCounters) (cls : BurstClass) :
    c.closed cls true = { c.closed cls false with truncated := min (c.truncated + 1) 65535 } := by
  cases cls <;> rfl

/-- What closing does to the lane (R30, R31). -/
theorem closeBurst_eq (p : Params) (truncated : Bool) (o : OpenBurst) (l : Lane) :
    closeBurst p truncated o l
      = ({ l.quiet with counters := l.counters.closed (burstClass p (o.lastBusy + 50 - o.start).toNat) truncated },
        ⟨o.start, (o.lastBusy + 50 - o.start).toNat, o.span, burstClass p (o.lastBusy + 50 - o.start).toNat,
          truncated⟩) := rfl

theorem Lane.feed_open {l : Lane} {o : OpenBurst} (h : l.burst = some o) (p : Params) (ch : Channel) (t : Time)
    (k : SampleKind) : l.feed p ch t k = l.feedOpen p t k o := by
  rw [Lane.feed, h]

/-- The last busy time, the idle run and the blind run after a sample in OPEN (R29). -/
def lastBusyAfter (t : Time) (o : OpenBurst) : SampleKind → Time
  | .busy => t
  | .idle | .blind => o.lastBusy

def idleAfter (l : Lane) : SampleKind → Nat
  | .busy => 0
  | .idle => l.idleRun + 1
  | .blind => l.idleRun

def blindAfter (l : Lane) : SampleKind → Nat
  | .busy => 0
  | .idle => 0
  | .blind => l.blindRun + 1

theorem Lane.followBurst_eq {l : Lane} {o : OpenBurst} (h : l.burst = some o) (t : Time) (k : SampleKind) :
    l.followBurst t k o
      = ({ l with
            burst := some { o with lastBusy := lastBusyAfter t o k }
            idleRun := idleAfter l k
            blindRun := blindAfter l k },
          { o with lastBusy := lastBusyAfter t o k }) := by
  cases k with
  | busy => rfl
  | idle => simp only [Lane.followBurst, lastBusyAfter, idleAfter, blindAfter, ← h]
  | blind => simp only [Lane.followBurst, lastBusyAfter, idleAfter, blindAfter, ← h]

section Open
variable {l : Lane} {o : OpenBurst} {p : Params} {t : Time} {k : SampleKind}

theorem Lane.feedOpen_normal (h : l.burst = some o) (idle : idleAfter l k = 10) :
    l.feedOpen p t k o
      = ((closeBurst p false { o with lastBusy := lastBusyAfter t o k } l).1,
        some (closeBurst p false { o with lastBusy := lastBusyAfter t o k } l).2) := by
  rw [Lane.feedOpen, Lane.followBurst_eq h]
  exact if_pos idle

theorem Lane.feedOpen_truncated (h : l.burst = some o) (idle : idleAfter l k ≠ 10)
    (ends : blindAfter l k = 40 ∨ Time.atOrBefore (o.start + BitVec.ofNat 32 (2 ^ 30)) t = true) :
    l.feedOpen p t k o
      = ((closeBurst p true { o with lastBusy := lastBusyAfter t o k } l).1,
        some (closeBurst p true { o with lastBusy := lastBusyAfter t o k } l).2) := by
  rw [Lane.feedOpen, Lane.followBurst_eq h]
  refine (if_neg idle).trans ?_
  by_cases blind : blindAfter l k = 40
  · exact if_pos blind
  · exact (if_neg blind).trans (if_pos (ends.resolve_left blind))

theorem Lane.feedOpen_on (h : l.burst = some o) (idle : idleAfter l k ≠ 10) (blind : blindAfter l k ≠ 40)
    (young : Time.atOrBefore (o.start + BitVec.ofNat 32 (2 ^ 30)) t = false) :
    l.feedOpen p t k o
      = ({ l with
            burst := some { o with lastBusy := lastBusyAfter t o k }
            idleRun := idleAfter l k
            blindRun := blindAfter l k }, none) := by
  rw [Lane.feedOpen, Lane.followBurst_eq h]
  refine (if_neg idle).trans ((if_neg blind).trans (if_neg ?_))
  exact ne_true_of_eq_false young

end Open

theorem burst_quiet_machine {p : Params} {ch : Channel} {t : Time} {k : SampleKind} {l : Lane} (quiet : l.burst = none)
    (short : l.history.length ≤ 5) :
    let pushed := fun e : HistEntry => { l with history := (l.history ++ [e]).drop (l.history.length - 4) }
    (k = .blind → l.feed p ch t k = (l, none))
    ∧ (k = .idle → l.feed p ch t k = (pushed ⟨false, t⟩, none))
    ∧ (k = .busy → (∀ e ∈ l.history, e.busy = false) → l.feed p ch t k = (pushed ⟨true, t⟩, none))
    ∧ (∀ e, k = .busy → l.history.filter (fun e => e.busy) = [e] →
      l.feed p ch t k
        = ({ l with burst := some ⟨e.time, ch, t⟩, history := [], idleRun := 0, blindRun := 0 }, none)) := by
  dsimp only
  rw [Lane.feed_quiet quiet, ← pushHistory_eq short, ← pushHistory_eq short]
  refine ⟨?_, ?_, ?_, ?_⟩
  · rintro rfl; rfl
  · rintro rfl; rfl
  · rintro rfl alone; rw [Lane.feedQuiet_busy_alone alone]
  · rintro e rfl only; rw [Lane.feedQuiet_busy_pair only]

/-- A sample in OPEN: the tests for closure in their order, and what each leaves (R29 to R31, R33). -/
theorem burst_open_machine {p : Params} {ch : Channel} {t : Time} {k : SampleKind} {l : Lane} {o : OpenBurst}
    (h : l.burst = some o) :
    let d := (lastBusyAfter t o k + 50 - o.start).toNat
    let aged := Time.atOrBefore (o.start + BitVec.ofNat 32 (2 ^ 30)) t = true
    let cls := burstClass p d
    let counted := l.counters.closed cls false
    (idleAfter l k = 10 →
      l.feed p ch t k = ({ l.quiet with counters := counted }, some ⟨o.start, d, o.span, cls, false⟩))
    ∧ (idleAfter l k ≠ 10 → blindAfter l k = 40 ∨ aged →
      l.feed p ch t k
        = ({ l.quiet with counters := { counted with truncated := min (l.counters.truncated + 1) 65535 } },
          some ⟨o.start, d, o.span, cls, true⟩))
    ∧ (idleAfter l k ≠ 10 → blindAfter l k ≠ 40 → ¬ aged →
      l.feed p ch t k
        = ({ l with
              burst := some { o with lastBusy := lastBusyAfter t o k }
              idleRun := idleAfter l k
              blindRun := blindAfter l k }, none)) := by
  dsimp only
  rw [Lane.feed_open h]
  refine ⟨fun idle => ?_, fun idle ends => ?_, fun idle blind young => ?_⟩
  · rw [Lane.feedOpen_normal h idle, closeBurst_eq]
  · rw [Lane.feedOpen_truncated h idle ends, closeBurst_eq, ClassCounters.closed_truncated]
  · exact Lane.feedOpen_on h idle blind (eq_false_of_ne_true young)

/-- Settles O28. -/
theorem burstMachine : Obligations.BurstMachine := by
  refine ⟨fun q => ⟨codeOf_blind, codeOf_low, codeOf_between, codeOf_high⟩, fun busyCode code => ?_, ?_⟩
  · exact ⟨fun h => h ▸ sampleKind_blind busyCode, sampleKind_busy, sampleKind_idle⟩
  · intro p ch t k l
    refine ⟨burst_quiet_machine, fun o h => ?_⟩
    cases k with
    | busy => exact burst_open_machine (p := p) (ch := ch) (t := t) (k := .busy) h
    | idle => exact burst_open_machine (p := p) (ch := ch) (t := t) (k := .idle) h
    | blind => exact burst_open_machine (p := p) (ch := ch) (t := t) (k := .blind) h

/-! ## The lapse of a stream -/

/-- An open burst closed as truncated, its class counted by R33's bounds. -/
theorem Lane.truncate_open {l : Lane} {o : OpenBurst} (h : l.burst = some o) (p : Params) :
    let d := (o.lastBusy + 50 - o.start).toNat
    let c := l.counters
    l.truncate p = { l.quiet with counters :=
      if d < 200 then { c with glitch := min (c.glitch + 1) 65535, truncated := min (c.truncated + 1) 65535 }
      else if d < p.ovenMin then { c with frame := min (c.frame + 1) 65535, truncated := min (c.truncated + 1) 65535 }
      else if d ≤ p.ovenMax then
        { c with ovenLike := min (c.ovenLike + 1) 65535, truncated := min (c.truncated + 1) 65535 }
      else { c with long := min (c.long + 1) 65535, truncated := min (c.truncated + 1) 65535 } } := by
  dsimp only
  simp only [Lane.truncate, h, closeBurst_eq, ClassCounters.closed_truncated, ClassCounters.closed_eq]
  split_ifs <;> rfl

theorem Lane.truncate_quiet {l : Lane} (h : l.burst = none) (p : Params) : l.truncate p = l.quiet := by
  rw [Lane.truncate, h]

theorem lapseDue_iff {env : Env} {b : Blocks} {r : Radio} : lapseDue env b r = true ↔
    ∃ x, (b.lanes.get r).expected = some x ∧ Time.atOrBefore (Time.plus x 100000) env.now = true := Time.reached_map_iff

theorem Blocks.modLane_congr {b : Blocks} {r : Radio} {f g : Lane → Lane} (h : f (b.lanes.get r) = g (b.lanes.get r)) :
    b.modLane r f = b.modLane r g := by
  rw [Blocks.modLane, PerRadio.modify_congr h]
  rfl

/-- Settles O33. -/
theorem streamLapse : Obligations.StreamLapse := by
  intro r s lane due p
  have isDue : lapseDue s.env s.blocks r = true ↔ due := lapseDue_iff
  have lapsed (h : due) : exec (.streamLapse r) s = .next { s with
      blocks := s.blocks.modLane r fun l => { l.truncate s.env.retained.params with expected := none } } :=
    next_blocks (if_pos (isDue.mpr h))
  refine ⟨fun early => ?_, fun h quiet => ?_, fun o h opened => ?_⟩
  · exact congrArg Host.Outcome.next (withBlocks_self (if_neg fun x => early (isDue.mp x)))
  · rw [lapsed h]
    refine next_blocks (Blocks.modLane_congr ?_)
    exact congrArg (fun l : Lane => { l with expected := none }) (Lane.truncate_quiet quiet p)
  · dsimp only
    rw [lapsed h]
    refine next_blocks (Blocks.modLane_congr ?_)
    have truncated := Lane.truncate_open opened p
    exact congrArg (fun l : Lane => { l with expected := none }) truncated

end Sys2Proof.Machine
end

