-- ==== Sys2Proof/Proofs/Batches.lean ====
section
/-! PROOF. A batch of samples in a lane (R24, R26, R34, R36, R38): O27, O29 and O30. -/

namespace Sys2Proof.Machine

variable {env : Env} {r : Radio} {ch : Channel} {p : Params}

/-! ## Several samples in the burst machine -/

/-- One sample's effect on a lane and on the list of the bursts closed so far. -/
def feedNext (p : Params) (ch : Channel) (y : Lane × List ClosedBurst) (x : Time × SampleKind) : Lane × List ClosedBurst :=
  ((y.1.feed p ch x.1 x.2).1, y.2 ++ (y.1.feed p ch x.1 x.2).2.toList)

/-- The lane after some samples, and the bursts that they closed. -/
def fedBy (p : Params) (ch : Channel) (l : Lane) (xs : List (Time × SampleKind)) : Lane × List ClosedBurst :=
  xs.foldl (feedNext p ch) (l, [])

theorem foldl_feedNext (l : Lane) (cs : List ClosedBurst) (xs : List (Time × SampleKind)) :
    xs.foldl (feedNext p ch) (l, cs) = ((fedBy p ch l xs).1, cs ++ (fedBy p ch l xs).2) := by
  induction xs generalizing l cs with
  | nil => simp [fedBy]
  | cons x xs ih =>
    simp only [fedBy, List.foldl_cons, feedNext, List.nil_append]
    rw [ih, ih _ (Option.toList _), List.append_assoc]

theorem fedBy_nil (l : Lane) : fedBy p ch l [] = (l, []) := rfl

theorem fedBy_cons (l : Lane) (x : Time × SampleKind) (xs : List (Time × SampleKind)) :
    fedBy p ch l (x :: xs)
      = ((fedBy p ch (l.feed p ch x.1 x.2).1 xs).1,
        (l.feed p ch x.1 x.2).2.toList ++ (fedBy p ch (l.feed p ch x.1 x.2).1 xs).2) := by
  rw [fedBy, List.foldl_cons]
  exact foldl_feedNext _ _ _

theorem fedBy_append (l : Lane) (xs ys : List (Time × SampleKind)) :
    fedBy p ch l (xs ++ ys)
      = ((fedBy p ch (fedBy p ch l xs).1 ys).1, (fedBy p ch l xs).2 ++ (fedBy p ch (fedBy p ch l xs).1 ys).2) := by
  rw [fedBy, List.foldl_append]
  exact foldl_feedNext _ _ _

/-- The burst machine neither reads nor writes the survey counts and the expected time. -/
theorem Lane.feed_beside (l : Lane) (t : Time) (k : SampleKind) (v : SurveyCounts) (e : Option Time) :
    ({ l with survey := v, expected := e } : Lane).feed p ch t k
      = ({ (l.feed p ch t k).1 with survey := v, expected := e }, (l.feed p ch t k).2) := by
  obtain ⟨x, burst, history, idleRun, blindRun, counts, counters⟩ := l
  cases burst with
  | none =>
    cases k with
    | blind => rfl
    | idle => rfl
    | busy =>
      simp only [Lane.feed, Lane.feedQuiet]
      cases history.find? (fun e => e.busy) <;> rfl
  | some o =>
    let before : Lane := ⟨x, some o, history, idleRun, blindRun, counts, counters⟩
    by_cases idle : idleAfter before k = 10
    · rw [Lane.feed_open rfl, Lane.feed_open rfl, Lane.feedOpen_normal rfl idle, Lane.feedOpen_normal rfl (by cases k <;> exact idle)]
      rfl
    · by_cases ends : blindAfter before k = 40 ∨ Time.atOrBefore (o.start + BitVec.ofNat 32 (2 ^ 30)) t = true
      · rw [Lane.feed_open rfl, Lane.feed_open rfl, Lane.feedOpen_truncated rfl idle ends,
          Lane.feedOpen_truncated rfl (by cases k <;> exact idle) (by cases k <;> exact ends)]
        rfl
      · obtain ⟨blind, young⟩ := not_or.mp ends
        rw [Lane.feed_open rfl, Lane.feed_open rfl, Lane.feedOpen_on rfl idle blind (eq_false_of_ne_true young),
          Lane.feedOpen_on rfl (by cases k <;> exact idle) (by cases k <;> exact blind) (eq_false_of_ne_true young)]
        cases k <;> rfl

theorem Lane.feed_survey (l : Lane) (t : Time) (k : SampleKind) : (l.feed p ch t k).1.survey = l.survey :=
  congrArg (fun y => y.1.survey) (l.feed_beside t k l.survey l.expected)

theorem fedBy_beside (l : Lane) (v : SurveyCounts) (e : Option Time) (xs : List (Time × SampleKind)) :
    fedBy p ch { l with survey := v, expected := e } xs
      = ({ (fedBy p ch l xs).1 with survey := v, expected := e }, (fedBy p ch l xs).2) := by
  induction xs generalizing l with
  | nil => rfl
  | cons x xs ih => simp only [fedBy_cons, Lane.feed_beside, ih]

theorem fedBy_expected (l : Lane) (xs : List (Time × SampleKind)) : (fedBy p ch l xs).1.expected = l.expected :=
  congrArg (fun y => y.1.expected) (fedBy_beside l l.survey l.expected xs)

theorem fedBy_survey (l : Lane) (xs : List (Time × SampleKind)) : (fedBy p ch l xs).1.survey = l.survey :=
  congrArg (fun y => y.1.survey) (fedBy_beside l l.survey l.expected xs)

/-! ## Samples that hand nothing to the tracker -/

theorem Blocks.modLane_modLane (b : Blocks) (f g : Lane → Lane) :
    (b.modLane r f).modLane r g = b.modLane r fun l => g (f l) := by
  simp [Blocks.modLane, PerRadio.modify_modify]

theorem Blocks.modLane_self {b : Blocks} {f : Lane → Lane} (h : f (b.lanes.get r) = b.lanes.get r) :
    b.modLane r f = b := by
  rw [Blocks.modLane, PerRadio.modify_eq_self h]

theorem Blocks.modLane_get (b : Blocks) (f : Lane → Lane) : (b.modLane r f).lanes.get r = f (b.lanes.get r) := by
  simp [Blocks.modLane]

theorem handsOff_eq_false_iff {c : ClosedBurst} : handsOff p c = false ↔
    (c.truncated = false → c.cls = .ovenLike →
      ¬ (c.span.start ≤ p.watchLimit ∧ p.watchBase < c.span.start + c.span.width)) := by
  rw [← Bool.not_eq_true]
  simp only [handsOff, Bool.and_eq_true, Bool.not_eq_true', beq_iff_eq, decide_eq_true_eq]
  tauto

theorem feedSample_kept {t : Time} {k : SampleKind} {b : Blocks}
    (h : ∀ c ∈ ((b.lanes.get r).feed env.retained.params ch t k).2, handsOff env.retained.params c = false) :
    feedSample env r ch t k b = b.modLane r fun l => (l.feed env.retained.params ch t k).1 := by
  have same : (b.modLane r fun _ => ((b.lanes.get r).feed env.retained.params ch t k).1)
      = b.modLane r fun l => (l.feed env.retained.params ch t k).1 := Blocks.modLane_congr rfl
  rw [← same]
  unfold feedSample
  dsimp only
  generalize (b.lanes.get r).feed env.retained.params ch t k = y at h ⊢
  obtain ⟨l, closed⟩ := y
  cases closed with
  | none => rfl
  | some c => exact if_neg (ne_true_of_eq_false (h c rfl))

/-- Nothing that some samples close is handed to the tracker. -/
def KeepsToLane (p : Params) (cs : List ClosedBurst) : Prop := ∀ c ∈ cs, handsOff p c = false

theorem KeepsToLane.append_iff {cs ds : List ClosedBurst} :
    KeepsToLane p (cs ++ ds) ↔ KeepsToLane p cs ∧ KeepsToLane p ds := List.forall_mem_append

theorem foldl_feedSample {b : Blocks} {xs : List (Time × SampleKind)}
    (h : KeepsToLane env.retained.params (fedBy env.retained.params ch (b.lanes.get r) xs).2) :
    xs.foldl (fun b x => feedSample env r ch x.1 x.2 b) b
      = b.modLane r fun l => (fedBy env.retained.params ch l xs).1 := by
  induction xs generalizing b with
  | nil => exact (Blocks.modLane_self rfl).symm
  | cons x xs ih =>
    rw [fedBy_cons, KeepsToLane.append_iff] at h
    obtain ⟨first, rest⟩ := h
    rw [List.foldl_cons, feedSample_kept fun c hc => first c (Option.mem_toList.mpr hc), ih, Blocks.modLane_modLane]
    · simp only [fedBy_cons]
    · rw [Blocks.modLane_get]
      exact rest

/-! ## Samples counted in the survey -/

/-- The survey counts after samples of the kinds given (R36). -/
def countedIn (v : SurveyCounts) (ks : List SampleKind) : SurveyCounts := ks.foldl SurveyCounts.add v

theorem countedIn_eq (v : SurveyCounts) (ks : List SampleKind) :
    countedIn v ks
      = { busy := v.busy + (ks.filter fun k => k == .busy).length
          idle := v.idle + (ks.filter fun k => k == .idle).length
          blind := v.blind + (ks.filter fun k => k == .blind).length
          own := v.own } := by
  induction ks generalizing v with
  | nil => rfl
  | cons k ks ih =>
    refine (ih (v.add k)).trans ?_
    cases k <;> simp [SurveyCounts.add] <;> omega

theorem SurveyCounts.total_add (v : SurveyCounts) (k : SampleKind) : (v.add k).total = v.total + 1 := by
  cases k <;> simp [SurveyCounts.add, SurveyCounts.total] <;> omega

theorem countedIn_total (v : SurveyCounts) (ks : List SampleKind) : (countedIn v ks).total = v.total + ks.length := by
  induction ks generalizing v with
  | nil => rfl
  | cons k ks ih =>
    refine (ih (v.add k)).trans ?_
    rw [SurveyCounts.total_add, List.length_cons]
    omega

/-- The samples of a batch by kind (R23, R24). -/
def kindsOf (p : Params) (xs : List (Time × BitVec 16)) : List (Time × SampleKind) :=
  xs.map fun x => (x.1, sampleKind p.busyCode (codeOf x.2))

/-- The lane after some samples of one survey: the burst machine, and the counts (R24, R36). -/
def Lane.used (p : Params) (ch : Channel) (xs : List (Time × SampleKind)) (l : Lane) : Lane :=
  { (fedBy p ch l xs).1 with survey := countedIn l.survey (xs.map Prod.snd) }

theorem Lane.used_cons (x : Time × SampleKind) (xs : List (Time × SampleKind)) (l : Lane) :
    l.used p ch (x :: xs) = (l.used p ch [x]).used p ch xs := by
  simp only [Lane.used, fedBy_beside, fedBy_cons, fedBy_nil, fedBy_expected]
  rfl

/-- A sample used without a hand-off, up to the survey's end (R24, R34, R36). -/
theorem useSample_eq {b : Blocks} {x : Time × BitVec 16}
    (h : KeepsToLane env.retained.params (fedBy env.retained.params ch (b.lanes.get r) (kindsOf env.retained.params [x])).2) :
    useSample env r ch b x
      = if (b.lanes.get r).survey.total + 1 = surveyLength then
          completeSurvey env r ch (b.modLane r (Lane.used env.retained.params ch (kindsOf env.retained.params [x])))
        else b.modLane r (Lane.used env.retained.params ch (kindsOf env.retained.params [x])) := by
  have fed := feedSample_kept (env := env) (r := r) (ch := ch) (b := b) (t := x.1)
    (k := sampleKind env.retained.params.busyCode (codeOf x.2))
    fun c hc => h c (Option.mem_toList.mpr hc)
  have lane : (feedSample env r ch x.1 (sampleKind env.retained.params.busyCode (codeOf x.2)) b).modLane r
      (fun l => { l with survey := l.survey.add (sampleKind env.retained.params.busyCode (codeOf x.2)) })
      = b.modLane r (Lane.used env.retained.params ch (kindsOf env.retained.params [x])) := by
    rw [fed, Blocks.modLane_modLane]
    refine Blocks.modLane_congr ?_
    rw [Lane.feed_survey]
    rfl
  unfold useSample
  dsimp only
  rw [lane, Blocks.modLane_get]
  have total : (Lane.used env.retained.params ch (kindsOf env.retained.params [x]) (b.lanes.get r)).survey.total
      = (b.lanes.get r).survey.total + 1 := countedIn_total _ _
  rw [total]

/-- Samples short of the survey's end. -/
theorem foldl_useSample {b : Blocks} {xs : List (Time × BitVec 16)}
    (h : KeepsToLane env.retained.params (fedBy env.retained.params ch (b.lanes.get r) (kindsOf env.retained.params xs)).2)
    (short : (b.lanes.get r).survey.total + xs.length < surveyLength) :
    xs.foldl (useSample env r ch) b
      = b.modLane r (Lane.used env.retained.params ch (kindsOf env.retained.params xs)) := by
  induction xs generalizing b with
  | nil => exact (Blocks.modLane_self rfl).symm
  | cons x xs ih =>
    rw [List.length_cons] at short
    have split := fedBy_append (p := env.retained.params) (ch := ch) (b.lanes.get r)
      (kindsOf env.retained.params [x]) (kindsOf env.retained.params xs)
    rw [show kindsOf env.retained.params (x :: xs)
      = kindsOf env.retained.params [x] ++ kindsOf env.retained.params xs from rfl, split, KeepsToLane.append_iff] at h
    obtain ⟨first, rest⟩ := h
    rw [List.foldl_cons, useSample_eq first, if_neg (by omega), ih, Blocks.modLane_modLane]
    · exact Blocks.modLane_congr (Lane.used_cons _ _ _).symm
    · rw [Blocks.modLane_get]
      have beside := fedBy_beside (p := env.retained.params) (ch := ch)
        (fedBy env.retained.params ch (b.lanes.get r) (kindsOf env.retained.params [x])).1
        (countedIn (b.lanes.get r).survey ((kindsOf env.retained.params [x]).map Prod.snd))
        (fedBy env.retained.params ch (b.lanes.get r) (kindsOf env.retained.params [x])).1.expected
        (kindsOf env.retained.params xs)
      exact (congrArg Prod.snd beside) ▸ rest
    · rw [Blocks.modLane_get]
      have total : (Lane.used env.retained.params ch (kindsOf env.retained.params [x]) (b.lanes.get r)).survey.total
          = (b.lanes.get r).survey.total + 1 := countedIn_total _ _
      omega

/-! ## A whole batch -/

/-- The eight samples of a batch with their times and kinds (R24). -/
theorem kindsOf_batch {levels : List (BitVec 16)} (len : levels.length = 8) (p : Params) (f : Time) :
    kindsOf p ((sampleTimes f levels.length).zip levels)
      = ([0, 50, 100, 150, 200, 250, 300, 350].map fun n => Time.plus f n).zip
          (levels.map fun q => sampleKind p.busyCode (codeOf q)) := by
  rw [len, List.zip_map_right]
  rfl

theorem kindsOf_batch_kinds {levels : List (BitVec 16)} (p : Params) (f : Time) :
    (kindsOf p ((sampleTimes f levels.length).zip levels)).map Prod.snd
      = levels.map fun q => sampleKind p.busyCode (codeOf q) := by
  have second : ((sampleTimes f levels.length).zip levels).map Prod.snd = levels :=
    List.map_snd_zip (by simp [sampleTimes])
  conv_rhs => rw [← second]
  rw [kindsOf, List.map_map, List.map_map]
  rfl

theorem batch_length (f : Time) (levels : List (BitVec 16)) :
    ((sampleTimes f levels.length).zip levels).length = levels.length := by
  simp [sampleTimes]

/-- A batch used short of a survey's end, without a hand-off (R24). -/
theorem useBatch_eq {b : Blocks} {f : Time} {levels : List (BitVec 16)}
    (h : KeepsToLane env.retained.params (fedBy env.retained.params ch (b.lanes.get r)
      (kindsOf env.retained.params ((sampleTimes f levels.length).zip levels))).2)
    (short : (b.lanes.get r).survey.total + levels.length < surveyLength) :
    useBatch env r ch f levels b = b.modLane r fun l =>
      { l.used env.retained.params ch (kindsOf env.retained.params ((sampleTimes f levels.length).zip levels)) with
        expected := some (Time.plus f 400) } := by
  rw [useBatch, foldl_useSample h (by rw [batch_length]; exact short)]
  exact Blocks.modLane_modLane _ _ _

/-- The missing samples of a gap, each blind (R26). -/
def missing (x : Time) (m : Nat) : List (Time × SampleKind) :=
  (List.range m).map fun i => (Time.plus x (50 * i), .blind)

theorem feedMissing_eq {b : Blocks} {x : Time} {m : Nat}
    (h : KeepsToLane env.retained.params (fedBy env.retained.params ch (b.lanes.get r) (missing x m)).2) :
    feedMissing env r ch x m b = b.modLane r fun l => (fedBy env.retained.params ch l (missing x m)).1 := by
  have fold := foldl_feedSample h
  have times : missing x m = (sampleTimes x m).map fun t => (t, SampleKind.blind) := by
    rw [missing, sampleTimes, List.map_map]
    rfl
  rw [feedMissing, ← fold, times, List.foldl_map]

/-- What a lane feeds its burst machine before a batch (R26): missing samples after a short gap, nothing without one, and
after a long one the lane is cut. -/
def readied (p : Params) (ch : Channel) (f : Time) (l : Lane) : Lane × List ClosedBurst :=
  match l.expected with
  | none => (l, [])
  | some x => if (f - x).toNat / 50 ≤ 10 then fedBy p ch l (missing x ((f - x).toNat / 50)) else (l.truncate p, [])

theorem readied_none {l : Lane} (h : l.expected = none) (p : Params) (ch : Channel) (f : Time) :
    readied p ch f l = (l, []) := by
  rw [readied, h]

theorem readied_some {l : Lane} {x : Time} (h : l.expected = some x) (p : Params) (ch : Channel) (f : Time) :
    readied p ch f l = if (f - x).toNat / 50 ≤ 10 then fedBy p ch l (missing x ((f - x).toNat / 50))
      else (l.truncate p, []) := by
  rw [readied, h]

theorem readied_gapless {l : Lane} {f : Time} (h : l.expected = none ∨ l.expected = some f) (p : Params) (ch : Channel) :
    readied p ch f l = (l, []) := by
  rcases h with h | h
  · exact readied_none h p ch f
  · rw [readied_some h, BitVec.sub_self]
    rfl

theorem Lane.truncate_survey (p : Params) (l : Lane) : (l.truncate p).survey = l.survey := by
  unfold Lane.truncate
  split <;> rfl

theorem readied_survey (p : Params) (ch : Channel) (f : Time) (l : Lane) : (readied p ch f l).1.survey = l.survey := by
  cases h : l.expected with
  | none => rw [readied_none h]
  | some x =>
    rw [readied_some h]
    split
    · exact fedBy_survey _ _
    · exact Lane.truncate_survey _ _

/-- The blocks with a lane made ready for a batch (R26). -/
theorem takeGap_eq {b : Blocks} {x : Time} (f : Time) (expected : (b.lanes.get r).expected = some x)
    (h : KeepsToLane env.retained.params (readied env.retained.params ch f (b.lanes.get r)).2) :
    takeGap env r ch x f b = b.modLane r fun l => (readied env.retained.params ch f l).1 := by
  have ready := readied_some expected env.retained.params ch f
  rw [ready] at h
  rw [takeGap, Time.span]
  split
  · next gap =>
    rw [if_pos gap] at ready h
    rw [feedMissing_eq h]
    exact Blocks.modLane_congr (by rw [ready])
  · next gap =>
    rw [if_neg gap] at ready
    exact Blocks.modLane_congr (by rw [ready])

/-- A batch that is not misordered is used after its gap has been taken (R24, R26). -/
theorem takeBatch_eq {b : Blocks} {f : Time} (levels : List (BitVec 16)) (operating : (b.chans.get r).operating = some ch)
    (takes : laneTakes b r = true)
    (ordered : ∀ x, (b.lanes.get r).expected = some x → Time.before f x = false)
    (h : KeepsToLane env.retained.params (readied env.retained.params ch f (b.lanes.get r)).2) :
    takeBatch env r f levels b
      = useBatch env r ch f levels (b.modLane r fun l => (readied env.retained.params ch f l).1) := by
  have gapless (g : (b.lanes.get r).expected = none ∨ (b.lanes.get r).expected = some f) :
      b.modLane r (fun l => (readied env.retained.params ch f l).1) = b :=
    Blocks.modLane_self (by rw [readied_gapless g])
  cases x : (b.lanes.get r).expected with
  | none => simp [takeBatch, operating, takes, x, gapless (.inl x)]
  | some y =>
    have late := ordered y x
    by_cases same : f = y
    · subst same
      simp [takeBatch, operating, takes, x, late, gapless (.inr x)]
    · simp [takeBatch, operating, takes, x, late, same, takeGap_eq f x h]

/-- What a batch without a hand-off and short of a survey's end leaves (R24, R26, R34, R36). -/
theorem takeBatch_short {b : Blocks} {f : Time} {levels : List (BitVec 16)}
    (operating : (b.chans.get r).operating = some ch) (takes : laneTakes b r = true)
    (ordered : ∀ x, (b.lanes.get r).expected = some x → Time.before f x = false)
    (short : (b.lanes.get r).survey.total + levels.length < surveyLength)
    (h : KeepsToLane env.retained.params ((kindsOf env.retained.params ((sampleTimes f levels.length).zip levels)).foldl
      (feedNext env.retained.params ch) (readied env.retained.params ch f (b.lanes.get r))).2) :
    takeBatch env r f levels b = b.modLane r fun l =>
      { ((kindsOf env.retained.params ((sampleTimes f levels.length).zip levels)).foldl
          (feedNext env.retained.params ch) (readied env.retained.params ch f l)).1 with
        expected := some (Time.plus f 400)
        survey := countedIn l.survey (levels.map fun q => sampleKind env.retained.params.busyCode (codeOf q)) } := by
  rw [show readied env.retained.params ch f (b.lanes.get r)
    = ((readied env.retained.params ch f (b.lanes.get r)).1, (readied env.retained.params ch f (b.lanes.get r)).2) from rfl,
    foldl_feedNext, KeepsToLane.append_iff] at h
  obtain ⟨gap, batch⟩ := h
  rw [takeBatch_eq levels operating takes ordered gap, useBatch_eq, Blocks.modLane_modLane]
  · refine Blocks.modLane_congr ?_
    have eq := foldl_feedNext (p := env.retained.params) (ch := ch) (readied env.retained.params ch f (b.lanes.get r)).1
      (readied env.retained.params ch f (b.lanes.get r)).2
      (kindsOf env.retained.params ((sampleTimes f levels.length).zip levels))
    rw [Lane.used, readied_survey, kindsOf_batch_kinds]
    exact (congrArg (fun y : Lane × List ClosedBurst => ({ y.1 with
      expected := some (Time.plus f 400)
      survey := countedIn (b.lanes.get r).survey
        (levels.map fun q => sampleKind env.retained.params.busyCode (codeOf q)) } : Lane)) eq).symm
  · rw [Blocks.modLane_get]
    exact batch
  · rw [Blocks.modLane_get, readied_survey]
    exact short

/-- Settles O27. -/
theorem batchUsed : Obligations.BatchUsed := by
  intro r f levels s ch p lane kinds times quiet cut use ready fed len up operating present ordered short kept
  have takes : laneTakes (heardOn s.env r s.blocks) r = true := by simp [laneTakes, up, operating, present]
  have truncated : cut = lane.truncate p := by
    cases h : lane.burst with
    | none => simp only [cut, h, Lane.truncate_quiet h p]; rfl
    | some o => simp only [cut, h, Lane.truncate_open h p]; rfl
  have isReady : ready = readied p ch f lane := by
    cases h : lane.expected with
    | none => simp only [ready, h, readied_none h p ch f]
    | some x => simp only [ready, h, readied_some h p ch f, truncated]; rfl
  have isFed : fed = (kindsOf p ((sampleTimes f levels.length).zip levels)).foldl (feedNext p ch) (readied p ch f lane) := by
    rw [kindsOf_batch len, ← isReady]
    rfl
  rw [exec_samples_of_up len up]
  refine next_blocks ((takeBatch_short (b := heardOn s.env r s.blocks) (ch := ch) operating takes ordered ?_ ?_).trans ?_)
  · rw [len]
    exact short
  · rw [isFed] at kept
    exact fun c hc => handsOff_eq_false_iff.mpr (kept c hc)
  · refine Blocks.modLane_congr ?_
    rw [heardOn_lanes, isFed, countedIn_eq]
    rfl

end Sys2Proof.Machine
end

