-- ==== Sys2Proof/Proofs/BatchEvents.lean ====
section
/-! PROOF. The batches that hand a burst to the tracker or end a survey (R34, R38, R77, R78, R119): O29 and O30. -/

namespace Sys2Proof.Machine

/-! ## What the delivery of reports leaves alone -/

/-- No lane, no score, no survey time, no late count and no overrun source has changed. -/
structure Steady (b b' : Blocks) : Prop where
  lanes : b'.lanes = b.lanes
  scores : b'.cells.map (fun c => (c.score, c.surveyed)) = b.cells.map fun c => (c.score, c.surveyed)
  lateCount : ∀ r, (b'.sched.radios.get r).lateCount = (b.sched.radios.get r).lateCount
  overrun : ∀ r, (b'.sched.radios.get r).overrun = (b.sched.radios.get r).overrun

theorem Reviewed.steady {env : Env} {b b' : Blocks} (h : Reviewed env b b') : Steady b b' :=
  ⟨h.only.lanes, by rw [h.only.cells], fun r => by rw [(h.radios r).2.2], fun r => by rw [(h.radios r).2.2]⟩

theorem ControlOnly.steady {r : Radio} {b b' : Blocks} (h : ControlOnly b b') (near : Near r b b') : Steady b b' :=
  ⟨h.lanes, near.scores, fun _ => by rw [h.sched], fun _ => by rw [h.sched]⟩

namespace Steady

variable {env : Env}

theorem refl (b : Blocks) : Steady b b := ⟨rfl, rfl, fun _ => rfl, fun _ => rfl⟩

theorem trans {a b c : Blocks} (h : Steady a b) (g : Steady b c) : Steady a c :=
  ⟨g.lanes.trans h.lanes, g.scores.trans h.scores, fun r => (g.lateCount r).trans (h.lateCount r),
    fun r => (g.overrun r).trans (h.overrun r)⟩

theorem after {a b c : Blocks} (g : Steady b c) (h : Steady a b) : Steady a c := h.trans g

theorem foldl {α : Type} {f : Blocks → α → Blocks} (h : ∀ b x, Steady b (f b x)) (l : List α) (b : Blocks) :
    Steady b (l.foldl f b) := by
  induction l generalizing b with
  | nil => exact refl b
  | cons x xs ih => exact (h b x).trans (ih _)

theorem modAir (b : Blocks) (a : AirId) (f : Air → Air) : Steady b (b.modAir a f) := ⟨rfl, rfl, fun _ => rfl, fun _ => rfl⟩

theorem setLastEnded (b : Blocks) (r : Radio) (id : Byte) (t : Time) (how : EndManner) :
    Steady b (b.setLastEnded r id t how) := by
  refine ⟨rfl, rfl, fun q => ?_, fun q => ?_⟩
  all_goals
    unfold Blocks.setLastEnded Blocks.modSched
    dsimp only
    by_cases same : q = r
    · subst same; rw [PerRadio.get_modify_same]
    · rw [PerRadio.get_modify_other _ _ same]

theorem cutGrant (a : AirId) (b : Blocks) : Steady b (cutGrant env a b) := by
  unfold Machine.cutGrant
  split
  · exact refl _
  · exact after (setLastEnded _ _ _ _ _) (after (Reviewed.send (env := env) _ _ _).steady (modAir _ _ _))

theorem endGrantOf (r : Radio) (how : GrantEnd) (b : Blocks) : Steady b (endGrantOf env r how b) := by
  unfold Machine.endGrantOf
  split
  · exact refl _
  · cases how with
    | silent => exact modAir _ _ _
    | cut => exact cutGrant _ _

theorem endHoldOf (r : Radio) (b : Blocks) : Steady b (endHoldOf r b) := by
  unfold Machine.endHoldOf
  split
  · exact refl _
  · exact modAir _ _ _

theorem shapeGrant (b : Blocks) (a : AirId) : Steady b (shapeGrant env b a) := by
  unfold Machine.shapeGrant
  dsimp only
  repeat' split
  · exact refl _
  · exact refl _
  · exact after (Reviewed.send (env := env) _ _ _).steady (modAir _ _ _)
  · exact cutGrant _ _
  · exact refl _
  · exact after (Reviewed.count (env := env) _ _ _).steady (modAir _ _ _)
  · exact refl _

theorem applyShaping (b : Blocks) : Steady b (applyShaping env b) :=
  after (Reviewed.reviewAirs _ _).steady (foldl shapeGrant _ _)

theorem takeGuardChange (changed : List Nat) (b : Blocks) : Steady b (takeGuardChange env changed b) := by
  unfold Machine.takeGuardChange
  split
  · exact after (Reviewed.reviewAirs _ _).steady (foldl (fun b r =>
      after (Reviewed.answerWaits (env := env) _ _ _).steady (after (endHoldOf _ _) (endGrantOf _ _ _))) _ _)
  · exact refl _

theorem endMoveWait (r : Radio) (b : Blocks) : Steady b (endMoveWait env r b) :=
  (ControlOnly.endMoveWait r b).steady (Near.endMoveWait (r := r) b)

theorem enterMoveWait (r : Radio) (cells : List Nat) (b : Blocks) : Steady b (enterMoveWait env r cells b) :=
  (ControlOnly.enterMoveWait r cells b).steady (Near.enterMoveWait (r := r) cells b)

theorem endClearedWaits (b : Blocks) : Steady b (endClearedWaits env b) := by
  refine foldl (fun b r => ?_) _ _
  repeat' split
  · exact refl _
  · exact refl _
  · exact endMoveWait _ _

theorem guardChoice {r : Radio} {b b' : Blocks} (h : guardChoice env r b = some b') : Steady b b' := by
  unfold Machine.guardChoice at h
  split at h
  · cases h
  · next e cost chosen =>
    unfold Machine.issueMove at h
    split at h
    · cases h
    · next cells reserved =>
      obtain ⟨_, rfl⟩ := reserveTarget_eq_some.mp reserved
      cases h
      refine after (Reviewed.send (env := env) _ _ _).steady (after (Reviewed.radioChange_none _ _ _ _).steady
        (after (endMoveWait _ _) ?_))
      have held := Near.setCells (r := r) b (f := fun k c => if e.chan.has k then
        { c with holder := some r, target := true } else c) fun k c => by split <;> exact ⟨rfl, rfl⟩
      exact ⟨rfl, held.scores, fun _ => rfl, fun _ => rfl⟩

theorem moveRequest (r : Radio) (cells : List Nat) (b : Blocks) : Steady b (moveRequest env r cells b) := by
  unfold Machine.moveRequest
  repeat' split
  · exact refl _
  · exact refl _
  · exact refl _
  · next chosen => exact guardChoice chosen
  · exact enterMoveWait _ _ _

theorem retryMove (r : Radio) (b : Blocks) : Steady b (retryMove env r b) := by
  unfold Machine.retryMove
  repeat' split
  · exact refl _
  · next chosen => exact guardChoice chosen
  · exact enterMoveWait _ _ _
  · exact endMoveWait _ _

theorem deliverGuardChange (changed risen : List Nat) (b : Blocks) :
    Steady b (deliverGuardChange env changed risen b) := by
  unfold Machine.deliverGuardChange
  dsimp only
  split
  · exact takeGuardChange _ _
  · refine after (foldl (fun b r => ?_) _ _) (after (endClearedWaits _) (takeGuardChange _ _))
    unfold requestMove
    dsimp only
    split
    · exact refl _
    · exact moveRequest _ _ _

theorem takePrediction (x : Prediction) (b : Blocks) : Steady b (takePrediction env x b) :=
  after (applyShaping _) ⟨rfl, rfl, fun _ => rfl, fun _ => rfl⟩

theorem takeShaping (on : Bool) (b : Blocks) : Steady b (takeShaping env on b) :=
  after (applyShaping _) ⟨rfl, rfl, fun _ => rfl, fun _ => rfl⟩

theorem settleMonitor (env0 : Env) (m0 : Monitor) (b : Blocks) : Steady b (settleMonitor env0 m0 env b) := by
  unfold Machine.settleMonitor
  extract_lets changed risen on delivered
  have upto : Steady b delivered := by
    unfold delivered
    split
    · exact refl _
    · exact deliverGuardChange _ _ _
  split
  · exact upto
  · exact after (takeShaping _ _) upto

theorem monitorEvent (f : Monitor → Monitor) (b : Blocks) : Steady b (monitorEvent env f b) :=
  after (settleMonitor _ _ _) ⟨rfl, rfl, fun _ => rfl, fun _ => rfl⟩

theorem trackerEvent (j : Judged) (b : Blocks) : Steady b (trackerEvent env j b) := by
  unfold Machine.trackerEvent
  extract_lets p old t judged reported same
  have upto : Steady b reported := by
    have set : Steady b judged := ⟨rfl, rfl, fun _ => rfl, fun _ => rfl⟩
    unfold reported
    split
    · exact after (monitorEvent _ _) set
    · exact set
  split
  · exact upto
  · exact after (takePrediction _ _) upto

end Steady

/-! ## Crowding -/

/-- The radio-kind reports of an event, as reports that spare the other kinds. -/
theorem RadioReported.reported {env : Env} {m m' : Monitor} (h : RadioReported env m m') :
    Reported (fun key _ => (CondKey.radio key).isSome = true) env m m' := by
  induction h with
  | refl => exact .refl _
  | report key x r radio _ ih => exact .report (by rw [radio]; rfl) ih

theorem crowdingReports_recorded (env : Env) (crowding : List Bool) (ks : List Nat) (m : Monitor) {k : Nat} (mem : k ∈ ks)
    (source : crowding[k]?.getD false = true) :
    recordedOrFull (ks.foldl (fun m k => m.report env (.crowd k) (crowding[k]?.getD false)) m) (.crowd k) := by
  induction ks generalizing m with
  | nil => cases mem
  | cons j ks ih =>
    by_cases later : k ∈ ks
    · exact ih _ later
    · obtain rfl : k = j := (List.mem_cons.mp mem).resolve_right later
      have others : ∀ (l : List Nat) (m : Monitor), (∀ j ∈ l, j ≠ k) →
          Reported (fun key _ => key ≠ .crowd k) env m
            (l.foldl (fun m k => m.report env (.crowd k) (crowding[k]?.getD false)) m) := by
        intro l
        induction l with
        | nil => exact fun m _ => .refl m
        | cons x l ih =>
          intro m apart
          have head : CondKey.crowd x ≠ .crowd k := fun e => apart x List.mem_cons_self (CondKey.crowd.inj e)
          exact (Reported.one head).trans (ih _ fun y hy => apart y (List.mem_cons_of_mem _ hy))
      refine (others ks _ fun y hy e => later (e ▸ hy)).recordedOrFull (fun _ h => h rfl) ?_
      dsimp only
      rw [source]
      exact Monitor.recordedOrFull_report _ _

theorem updateCrowding_getElem? (p : Params) (ch : Channel) (cells : List CellRecord) (sources : List Bool) (n k : Nat)
    {c : CellRecord} {old : Bool} (cell : cells[k]? = some c) (source : sources[k]? = some old) :
    (updateCrowding p ch n cells sources)[k]? = some (if ch.has (n + k) then crowdingAfter p c.score old else old) := by
  induction cells generalizing sources n k with
  | nil => cases cell
  | cons d cells ih =>
    cases sources with
    | nil => cases source
    | cons x xs =>
      cases k with
      | zero =>
        cases cell
        cases source
        rfl
      | succ k =>
        have next := ih xs (n + 1) k cell source
        rw [Nat.add_right_comm] at next
        exact next

/-! ## A survey's completion -/

section Completion
variable {env : Env} {r : Radio} {ch : Channel}

/-- The survey unit and the cells of a survey that heard something (R77, R78). -/
def scored (env : Env) (ch : Channel) (f : Nat) (b : Blocks) : Blocks :=
  let cells := scoreCells env.now ch f b.cells
  let crowding := updateCrowding env.retained.params ch 0 cells b.survey.crowding
  { b with cells := cells, survey := { b.survey with crowding := crowding } }

theorem scoreSurvey_some {s : SurveyCounts} {f : Nat} (h : foreignFraction s = some f) (b : Blocks) :
    scoreSurvey env ch s b
      = monitorEvent env (crowdingReports env ch (scored env ch f b).survey.crowding) (scored env ch f b) := by
  rw [scoreSurvey, h]
  rfl

theorem scoreSurvey_none {s : SurveyCounts} (h : foreignFraction s = none) (b : Blocks) : scoreSurvey env ch s b = b := by
  rw [scoreSurvey, h]

theorem scoreCells_getElem? {now : Time} {f k : Nat} {cells : List CellRecord} {c : CellRecord} (cell : cells[k]? = some c) :
    (scoreCells now ch f cells)[k]?
      = some (if ch.has k then { c with score := nextScore f c.score, surveyed := some now } else c) := by
  rw [scoreCells, mapCells_getElem?, cell]
  rfl

/-- The scheduler's part of a survey completion (R38, R119). -/
theorem surveyDone_get (b : Blocks) :
    (surveyDone env r b).sched.radios.get r
      = { b.sched.radios.get r with
          overrun := if (b.sched.radios.get r).lateCount < env.retained.params.overrunLimit then false
            else (b.sched.radios.get r).overrun
          lateCount := 0 } := by
  simp [surveyDone, Blocks.report, Blocks.modSched]

/-- What follows the survey unit's part of a completion (R38, R119, R134). -/
structure Completed (r : Radio) (env : Env) (b b' : Blocks) : Prop where
  lanes : b'.lanes = b.lanes.modify r fun l => { l with survey := SurveyCounts.zero }
  scores : b'.cells.map (fun c => (c.score, c.surveyed)) = b.cells.map fun c => (c.score, c.surveyed)
  survey : b'.survey = b.survey
  tracker : b'.tracker = b.tracker
  lateCount : (b'.sched.radios.get r).lateCount = 0
  overrun : (b'.sched.radios.get r).overrun
    = if (b.sched.radios.get r).lateCount < env.retained.params.overrunLimit then false else (b.sched.radios.get r).overrun
  monitor : RadioReported env b.monitor b'.monitor

theorem completeSurvey_rest (b : Blocks) : Completed r env b
    ((retryMove env r (surveyDone env r b)).modLane r fun l => { l with survey := SurveyCounts.zero }) := by
  have steady : Steady (surveyDone env r b) (retryMove env r (surveyDone env r b)) := .retryMove _ _
  have directed : Directed env (surveyDone env r b) (retryMove env r (surveyDone env r b)) := .retryMove _ _
  refine ⟨?_, steady.scores, directed.survey, directed.tracker, ?_, ?_, ?_⟩
  · rw [Blocks.modLane, steady.lanes]
    rfl
  · show ((retryMove env r (surveyDone env r b)).sched.radios.get r).lateCount = 0
    rw [steady.lateCount, surveyDone_get]
  · show ((retryMove env r (surveyDone env r b)).sched.radios.get r).overrun = _
    rw [steady.overrun, surveyDone_get]
  · exact (RadioReported.report (.overrun r) _ r rfl (.refl b.monitor)).trans directed.monitor

/-- What the survey unit's part of a completion leaves alone. -/
structure Scored (b b' : Blocks) : Prop where
  lanes : b'.lanes = b.lanes
  tracker : b'.tracker = b.tracker
  lateCount : ∀ r, (b'.sched.radios.get r).lateCount = (b.sched.radios.get r).lateCount
  overrun : ∀ r, (b'.sched.radios.get r).overrun = (b.sched.radios.get r).overrun

theorem scoreSurvey_scored (s : SurveyCounts) (b : Blocks) : Scored b (scoreSurvey env ch s b) := by
  cases h : foreignFraction s with
  | none =>
    rw [scoreSurvey_none h]
    exact ⟨rfl, rfl, fun _ => rfl, fun _ => rfl⟩
  | some f =>
    rw [scoreSurvey_some h]
    have steady := Steady.monitorEvent (env := env) (crowdingReports env ch (scored env ch f b).survey.crowding)
      (scored env ch f b)
    have settled := Settled.monitorEvent (env := env) (crowdingReports env ch (scored env ch f b).survey.crowding)
      (scored env ch f b)
    exact ⟨steady.lanes, settled.tracker, steady.lateCount, steady.overrun⟩

/-- A completion in terms of the survey unit's part. -/
theorem completeSurvey_completed (b : Blocks) :
    Completed r env (scoreSurvey env ch (b.lanes.get r).survey b) (completeSurvey env r ch b) := completeSurvey_rest _

theorem completeSurvey_lane (b : Blocks) :
    (completeSurvey env r ch b).lanes.get r = { b.lanes.get r with survey := SurveyCounts.zero } := by
  rw [(completeSurvey_completed b).lanes, PerRadio.get_modify_same, (scoreSurvey_scored _ _).lanes]

theorem fedBy_used_closed {p : Params} (l : Lane) (v : SurveyCounts) (xs ys : List (Time × SampleKind)) :
    (fedBy p ch { l.used p ch xs with survey := v } ys).2 = (fedBy p ch (fedBy p ch l xs).1 ys).2 := by
  have beside := fedBy_beside (p := p) (ch := ch) (fedBy p ch l xs).1 v (fedBy p ch l xs).1.expected ys
  have closed := congrArg Prod.snd beside
  exact closed

/-- Samples that end a survey and begin the next (R38). -/
theorem foldl_useSample_completing {b : Blocks} {xs : List (Time × BitVec 16)}
    (h : KeepsToLane env.retained.params (fedBy env.retained.params ch (b.lanes.get r) (kindsOf env.retained.params xs)).2)
    {n : Nat} (ends : (b.lanes.get r).survey.total + n = surveyLength) (begun : 0 < n) (within : n ≤ xs.length)
    (short : xs.length ≤ 8) :
    xs.foldl (useSample env r ch) b
      = (completeSurvey env r ch (b.modLane r (Lane.used env.retained.params ch
            (kindsOf env.retained.params (xs.take n))))).modLane r
          (Lane.used env.retained.params ch (kindsOf env.retained.params (xs.drop n))) := by
  induction xs generalizing b n with
  | nil => exact absurd within (by simp; omega)
  | cons x xs ih =>
    rw [List.length_cons] at within short
    have split := fedBy_append (p := env.retained.params) (ch := ch) (b.lanes.get r)
      (kindsOf env.retained.params [x]) (kindsOf env.retained.params xs)
    rw [show kindsOf env.retained.params (x :: xs)
      = kindsOf env.retained.params [x] ++ kindsOf env.retained.params xs from rfl, split, KeepsToLane.append_iff] at h
    obtain ⟨first, rest⟩ := h
    rw [List.foldl_cons, useSample_eq first]
    obtain ⟨m, rfl⟩ := Nat.exists_eq_add_one.mpr begun
    cases m with
    | zero =>
      rw [if_pos ends]
      refine foldl_useSample ?_ ?_
      · rw [completeSurvey_lane, Blocks.modLane_get, fedBy_used_closed]
        exact rest
      · rw [completeSurvey_lane]
        show 0 + xs.length < 2048
        omega
    | succ m =>
      rw [if_neg (by omega), ih ?_ ?_ (Nat.succ_pos m) (by omega) (by omega), Blocks.modLane_modLane]
      · exact congrArg (fun b => (completeSurvey env r ch b).modLane r _)
          (Blocks.modLane_congr (Lane.used_cons _ _ _).symm)
      · rw [Blocks.modLane_get]
        have closed := fedBy_used_closed (p := env.retained.params) (ch := ch) (b.lanes.get r)
          ((b.lanes.get r).used env.retained.params ch (kindsOf env.retained.params [x])).survey
          (kindsOf env.retained.params [x]) (kindsOf env.retained.params xs)
        exact closed ▸ rest
      · rw [Blocks.modLane_get]
        have total : (Lane.used env.retained.params ch (kindsOf env.retained.params [x]) (b.lanes.get r)).survey.total
            = (b.lanes.get r).survey.total + 1 := countedIn_total _ _
        omega

end Completion

/-- The fraction of a survey that heard something (R77). -/
theorem foreignFraction_heard {s : SurveyCounts} (h : 0 < s.busy + s.idle) :
    foreignFraction s
      = some (min (256 * (50 * s.busy - min s.own (50 * s.busy)) / (50 * (s.busy + s.idle))) 255) := by
  rw [foreignFraction]
  exact if_neg (by omega)

theorem foreignFraction_blind {s : SurveyCounts} (h : s.busy + s.idle = 0) : foreignFraction s = none := by
  rw [foreignFraction]
  exact if_pos h

section Scores
variable {env : Env} {r : Radio} {ch : Channel}

theorem scores_getElem? {cells cells' : List CellRecord}
    (h : cells'.map (fun c => (c.score, c.surveyed)) = cells.map fun c => (c.score, c.surveyed)) (k : Nat) :
    (cells'[k]?).map (fun c => (c.score, c.surveyed)) = (cells[k]?).map fun c => (c.score, c.surveyed) := by
  rw [← List.getElem?_map, h, List.getElem?_map]

/-- What a survey that heard something leaves of a cell and of its source (R77, R78). -/
theorem scored_cell {f : Nat} {b : Blocks} {k : Nat} {c : CellRecord} (cell : b.cells[k]? = some c) :
    let score := if ch.start ≤ k ∧ k < ch.start + ch.width then (c.score + ((f : Int) - c.score).tdiv 8).toNat else c.score
    (∃ c' : CellRecord, (scored env ch f b).cells[k]? = some c' ∧ c'.score = score
      ∧ c'.surveyed = if ch.start ≤ k ∧ k < ch.start + ch.width then some env.now else c.surveyed)
    ∧ ∀ old, b.survey.crowding[k]? = some old →
      (scored env ch f b).survey.crowding[k]?
        = some (if ch.start ≤ k ∧ k < ch.start + ch.width then
            (if env.retained.params.crowdOn ≤ score then true
              else if score < env.retained.params.crowdOff then false else old) else old) := by
  intro score
  have after := scoreCells_getElem? (now := env.now) (ch := ch) (f := f) cell
  by_cases inside : ch.start ≤ k ∧ k < ch.start + ch.width
  · have has : ch.has k = true := Channel.has_iff.mpr inside
    rw [if_pos has] at after
    simp only [score, if_pos inside]
    refine ⟨⟨_, after, rfl, rfl⟩, fun old source => ?_⟩
    have crowding := updateCrowding_getElem? env.retained.params ch _ _ 0 k after source
    rw [Nat.zero_add, if_pos has] at crowding
    exact crowding
  · have hasNot : ¬ ch.has k = true := fun h => inside (Channel.has_iff.mp h)
    rw [if_neg hasNot] at after
    simp only [score, if_neg inside]
    refine ⟨⟨_, after, rfl, rfl⟩, fun old source => ?_⟩
    have crowding := updateCrowding_getElem? env.retained.params ch _ _ 0 k after source
    rw [Nat.zero_add, if_neg hasNot] at crowding
    exact crowding

end Scores

section Batch
variable {env : Env} {r : Radio} {ch : Channel}

/-- A batch without a gap (R24). -/
theorem takeBatch_gapless {b : Blocks} {f : Time} (levels : List (BitVec 16)) (operating : (b.chans.get r).operating = some ch)
    (takes : laneTakes b r = true) (gapless : (b.lanes.get r).expected = none ∨ (b.lanes.get r).expected = some f) :
    takeBatch env r f levels b = useBatch env r ch f levels b := by
  have ordered : ∀ y, (b.lanes.get r).expected = some y → Time.before f y = false := by
    intro y hy
    obtain none | same := gapless
    · rw [none] at hy
      cases hy
    · rw [same] at hy
      cases hy
      simp [Time.before]
  have ready := readied_gapless gapless env.retained.params ch
  rw [takeBatch_eq levels operating takes ordered (by rw [ready]; exact fun c hc => nomatch hc),
    Blocks.modLane_self (by rw [ready])]

/-- A batch without a gap that ends a survey (R38). -/
theorem takeBatch_completing {b : Blocks} {f : Time} {levels : List (BitVec 16)}
    (operating : (b.chans.get r).operating = some ch) (takes : laneTakes b r = true)
    (gapless : (b.lanes.get r).expected = none ∨ (b.lanes.get r).expected = some f) (len : levels.length = 8)
    (h : KeepsToLane env.retained.params (fedBy env.retained.params ch (b.lanes.get r)
      (kindsOf env.retained.params ((sampleTimes f levels.length).zip levels))).2)
    {n : Nat} (ends : (b.lanes.get r).survey.total + n = surveyLength) (begun : 0 < n) (within : n ≤ 8) :
    takeBatch env r f levels b
      = ((completeSurvey env r ch (b.modLane r (Lane.used env.retained.params ch
          (kindsOf env.retained.params (((sampleTimes f levels.length).zip levels).take n))))).modLane r
        (Lane.used env.retained.params ch
          (kindsOf env.retained.params (((sampleTimes f levels.length).zip levels).drop n)))).modLane r
        fun l => { l with expected := some (Time.plus f 400) } := by
  have length := (batch_length f levels).trans len
  rw [takeBatch_gapless levels operating takes gapless, useBatch,
    foldl_useSample_completing h ends begun (by rw [length]; exact within) length.le]

theorem kindsOf_take_kinds (p : Params) (f : Time) (levels : List (BitVec 16)) (n : Nat) :
    (kindsOf p (((sampleTimes f levels.length).zip levels).take n)).map Prod.snd
      = (levels.map fun q => sampleKind p.busyCode (codeOf q)).take n := by
  rw [← kindsOf_batch_kinds p f, kindsOf, kindsOf, List.map_take, List.map_take]

theorem kindsOf_drop_kinds (p : Params) (f : Time) (levels : List (BitVec 16)) (n : Nat) :
    (kindsOf p (((sampleTimes f levels.length).zip levels).drop n)).map Prod.snd
      = (levels.map fun q => sampleKind p.busyCode (codeOf q)).drop n := by
  rw [← kindsOf_batch_kinds p f, kindsOf, kindsOf, List.map_drop, List.map_drop]

/-- The lane after a batch that ended a survey (R38): the counts begin anew, the burst machine goes on. -/
theorem used_completed (p : Params) (l : Lane) (xs ys : List (Time × SampleKind)) (e : Option Time) :
    ({ ({ l.used p ch xs with survey := SurveyCounts.zero } : Lane).used p ch ys with expected := e } : Lane)
      = { (fedBy p ch l (xs ++ ys)).1 with
          expected := e
          survey := countedIn SurveyCounts.zero (ys.map Prod.snd) } := by
  have beside := fedBy_beside (p := p) (ch := ch) (fedBy p ch l xs).1 SurveyCounts.zero (fedBy p ch l xs).1.expected ys
  have fed := congrArg (fun y : Lane × List ClosedBurst => ({ y.1 with
    expected := e
    survey := countedIn SurveyCounts.zero (ys.map Prod.snd) } : Lane)) beside
  rw [fedBy_append]
  exact fed

/-- What a completed survey that heard something leaves of the cells, the sources and the survey unit (R77, R78). -/
theorem scored_after {f : Nat} {b b' : Blocks}
    (completed : Completed r env (monitorEvent env (crowdingReports env ch (scored env ch f b).survey.crowding)
      (scored env ch f b)) b') :
    (∀ (k : Nat) (c : CellRecord), b.cells[k]? = some c →
      ∃ c' : CellRecord, b'.cells[k]? = some c'
        ∧ c'.score = (if ch.start ≤ k ∧ k < ch.start + ch.width then (c.score + ((f : Int) - c.score).tdiv 8).toNat
          else c.score)
        ∧ c'.surveyed = if ch.start ≤ k ∧ k < ch.start + ch.width then some env.now else c.surveyed)
    ∧ (∀ (k : Nat) (c : CellRecord) (old : Bool), b.cells[k]? = some c → b.survey.crowding[k]? = some old →
      let score := if ch.start ≤ k ∧ k < ch.start + ch.width then (c.score + ((f : Int) - c.score).tdiv 8).toNat else c.score
      let source := if ch.start ≤ k ∧ k < ch.start + ch.width then
          (if env.retained.params.crowdOn ≤ score then true else if score < env.retained.params.crowdOff then false else old)
          else old
      b'.survey.crowding[k]? = some source
        ∧ (ch.start ≤ k ∧ k < ch.start + ch.width → source = true → recordedOrFull b'.monitor (.crowd k)))
    ∧ b'.survey = { b.survey with crowding := b'.survey.crowding } := by
  have steady := Steady.monitorEvent (env := env) (crowdingReports env ch (scored env ch f b).survey.crowding)
    (scored env ch f b)
  have settled := Settled.monitorEvent (env := env) (crowdingReports env ch (scored env ch f b).survey.crowding)
    (scored env ch f b)
  have survey : b'.survey = (scored env ch f b).survey := completed.survey.trans settled.survey
  refine ⟨fun k c cell => ?_, fun k c old cell was => ?_, ?_⟩
  · obtain ⟨⟨d, at', score, surveyed⟩, -⟩ := scored_cell (env := env) (ch := ch) (f := f) cell
    have same := scores_getElem? (completed.scores.trans steady.scores) k
    rw [at', Option.map_some, Option.map_eq_some_iff] at same
    obtain ⟨d', at'', pair⟩ := same
    obtain ⟨score', surveyed'⟩ := Prod.mk.inj pair
    exact ⟨d', at'', score'.trans score, surveyed'.trans surveyed⟩
  · have source := (scored_cell (env := env) (ch := ch) (f := f) cell).2 old was
    dsimp only
    rw [survey]
    refine ⟨source, fun inside on => ?_⟩
    have recorded : recordedOrFull (crowdingReports env ch (scored env ch f b).survey.crowding b.monitor) (.crowd k) := by
      refine crowdingReports_recorded env _ ch.cells b.monitor (Channel.mem_cells.mpr inside) ?_
      rw [source, Option.getD_some]
      exact on
    have reported := (settled.monitor.trans completed.monitor).reported
    exact reported.recordedOrFull (fun _ h => nomatch h) recorded
  · rw [survey]
    rfl

end Batch

/-- Settles O30. -/
theorem surveyCompletes : Obligations.SurveyCompletes := by
  intro r f levels s ch p lane kinds times fed total before later number busy heard fraction x len up operating present gapless
    short ends kept
  have takes : laneTakes (heardOn s.env r s.blocks) r = true := by simp [laneTakes, up, operating, present]
  have isFed : fed = fedBy p ch lane (kindsOf p ((sampleTimes f levels.length).zip levels)) := by
    rw [kindsOf_batch len]
    rfl
  have keeps : KeepsToLane p (fedBy p ch lane (kindsOf p ((sampleTimes f levels.length).zip levels))).2 := by
    rw [isFed] at kept
    exact fun c hc => handsOff_eq_false_iff.mpr (kept c hc)
  have sum : lane.survey.total + (2048 - total) = surveyLength := by
    show total + (2048 - total) = 2048
    omega
  have batch := takeBatch_completing (env := s.env) (b := heardOn s.env r s.blocks) operating takes gapless len keeps sum
    (by omega) (by omega)
  refine ⟨{ s with blocks := takeBatch s.env r f levels (heardOn s.env r s.blocks) }, exec_samples_of_up len up f, ?_⟩
  dsimp only
  rw [batch]
  set xs := kindsOf s.env.retained.params (((sampleTimes f levels.length).zip levels).take (2048 - total)) with hxs
  set ys := kindsOf s.env.retained.params (((sampleTimes f levels.length).zip levels).drop (2048 - total)) with hys
  set first := (heardOn s.env r s.blocks).modLane r (Lane.used s.env.retained.params ch xs) with hfirst
  have firstLane : first.lanes.get r = lane.used p ch xs := Blocks.modLane_get _ _
  have counts : (first.lanes.get r).survey
      = ⟨busy, lane.survey.idle + number before .idle, lane.survey.blind + number before .blind, lane.survey.own⟩ := by
    rw [firstLane]
    show countedIn lane.survey (xs.map Prod.snd) = _
    rw [countedIn_eq, hxs, kindsOf_take_kinds]
  have completed : Completed r s.env (scoreSurvey s.env ch (first.lanes.get r).survey first)
    (completeSurvey s.env r ch first) := completeSurvey_completed first
  have sumOf : busy + (lane.survey.idle + number before .idle) = heard := (Nat.add_assoc _ _ _).symm
  have scoring := scoreSurvey_scored (env := s.env) (ch := ch) (first.lanes.get r).survey first
  refine ⟨?_, ?_, ?_, ?_, ?_, ?_, rfl, rfl⟩
  · rw [Blocks.modLane_get, Blocks.modLane_get, completeSurvey_lane, firstLane]
    refine (used_completed _ _ _ _ _).trans ?_
    have whole : xs ++ ys = kindsOf p ((sampleTimes f levels.length).zip levels) := by
      rw [hxs, hys, kindsOf, kindsOf, ← List.map_append, List.take_append_drop]
      rfl
    rw [whole, isFed, countedIn_eq, hys, kindsOf_drop_kinds]
    simp only [SurveyCounts.zero, Nat.zero_add]
    rfl
  · intro blind
    have none : scoreSurvey s.env ch (first.lanes.get r).survey first = first := by
      rw [counts]
      exact scoreSurvey_none (foreignFraction_blind (sumOf.trans blind)) first
    rw [none] at completed
    exact ⟨completed.survey, fun k => scores_getElem? completed.scores k⟩
  · intro some
    have scores : scoreSurvey s.env ch (first.lanes.get r).survey first
        = monitorEvent s.env (crowdingReports s.env ch (scored s.env ch fraction first).survey.crowding)
            (scored s.env ch fraction first) := by
      refine scoreSurvey_some ?_ first
      rw [counts, foreignFraction_heard (sumOf.symm ▸ some)]
      dsimp only
      rw [sumOf]
    rw [scores] at completed
    obtain ⟨cells, sources, unit⟩ := scored_after completed
    exact ⟨fun k c cell => ⟨cells k c cell, fun old source => sources k c old cell source⟩, unit⟩
  · exact completed.lateCount
  · refine completed.overrun.trans ?_
    rw [scoring.lateCount, scoring.overrun]
    show (if x.lateCount < p.overrunLimit then false else x.overrun) = _
    by_cases late : x.lateCount < p.overrunLimit
    · rw [if_pos late, decide_eq_false (Nat.not_le.mpr late), Bool.and_false]
    · rw [if_neg late, decide_eq_true (Nat.not_lt.mp late), Bool.and_true]
  · exact completed.tracker.trans scoring.tracker

/-! ## A burst that closes among idle samples -/

section Closing
variable {env : Env} {r : Radio} {ch : Channel} {p : Params}

/-- Idle samples that leave a burst open: the idle run alone grows. -/
theorem fedBy_idle_open {l : Lane} {o : OpenBurst} (opened : l.burst = some o) (xs : List (Time × SampleKind))
    (idle : ∀ x ∈ xs, x.2 = .idle ∧ Time.atOrBefore (o.start + BitVec.ofNat 32 (2 ^ 30)) x.1 = false)
    (few : l.idleRun + xs.length ≤ 9) :
    (fedBy p ch l xs).2 = [] ∧ (fedBy p ch l xs).1.burst = some o
      ∧ (fedBy p ch l xs).1.idleRun = l.idleRun + xs.length ∧ (fedBy p ch l xs).1.counters = l.counters := by
  induction xs generalizing l with
  | nil => exact ⟨rfl, opened, rfl, rfl⟩
  | cons x xs ih =>
    obtain ⟨t, k⟩ := x
    obtain ⟨⟨kind, young⟩, rest⟩ := List.forall_mem_cons.mp idle
    obtain rfl : k = .idle := kind
    rw [List.length_cons] at few
    have notTen : idleAfter l .idle ≠ 10 := by
      show l.idleRun + 1 ≠ 10
      omega
    have fed := Lane.feedOpen_on (p := p) opened notTen (show (0 : Nat) ≠ 40 by decide) young
    rw [← Lane.feed_open opened p ch] at fed
    have next := ih (l := (l.feed p ch t .idle).1) (by rw [fed]; rfl) rest (by
      rw [fed]
      show l.idleRun + 1 + xs.length ≤ 9
      omega)
    rw [fedBy_cons]
    dsimp only
    rw [fed] at next ⊢
    obtain ⟨closed, burst, run, counters⟩ := next
    refine ⟨closed, burst, run.trans ?_, counters⟩
    show l.idleRun + 1 + xs.length = _
    rw [List.length_cons]
    omega

/-- Idle samples in QUIET join the history (R28). -/
theorem fedBy_idle_quiet {l : Lane} (quiet : l.burst = none) (xs : List (Time × SampleKind))
    (idle : ∀ x ∈ xs, x.2 = .idle) (short : l.history.length ≤ 5) :
    (fedBy p ch l xs).2 = [] ∧ (fedBy p ch l xs).1.burst = none
      ∧ (fedBy p ch l xs).1.history.length = min (l.history.length + xs.length) 5
      ∧ (fedBy p ch l xs).1.counters = l.counters := by
  induction xs generalizing l with
  | nil => exact ⟨rfl, quiet, (min_eq_left short).symm, rfl⟩
  | cons x xs ih =>
    obtain ⟨t, k⟩ := x
    obtain ⟨kind, rest⟩ := List.forall_mem_cons.mp idle
    obtain rfl : k = .idle := kind
    have fed : l.feed p ch t .idle = ({ l with history := pushHistory l.history ⟨false, t⟩ }, none) := Lane.feed_quiet quiet p ch t .idle
    have length : (pushHistory l.history ⟨false, t⟩).length = min (l.history.length + 1) 5 := by
      rw [pushHistory_eq short, List.length_drop, List.length_append, List.length_singleton]
      omega
    have next := ih (l := (l.feed p ch t .idle).1) (by rw [fed]; exact quiet) rest (by
      rw [fed]
      exact length.le.trans (min_le_right _ _))
    rw [fedBy_cons]
    dsimp only
    rw [fed] at next ⊢
    obtain ⟨closed, burst, history, counters⟩ := next
    refine ⟨closed, burst, history.trans ?_, counters⟩
    show min ((pushHistory l.history ⟨false, t⟩).length + xs.length) 5 = _
    rw [length, List.length_cons]
    omega

/-- The tenth idle sample closes the burst normally (R29, R30). -/
theorem feed_tenth_idle {l : Lane} {o : OpenBurst} (opened : l.burst = some o) (run : l.idleRun = 9) (t : Time) :
    l.feed p ch t .idle
      = ({ l.quiet with counters := l.counters.closed (burstClass p (o.lastBusy + 50 - o.start).toNat) false },
        some ⟨o.start, (o.lastBusy + 50 - o.start).toNat, o.span, burstClass p (o.lastBusy + 50 - o.start).toNat, false⟩) := by
  have ten : idleAfter l .idle = 10 := by
    show l.idleRun + 1 = 10
    omega
  rw [Lane.feed_open opened, Lane.feedOpen_normal opened ten, closeBurst_eq]
  rfl

theorem handsOff_normal_iff {o : OpenBurst} {d : Nat} :
    handsOff p ⟨o.start, d, o.span, burstClass p d, false⟩ = true ↔
      (200 ≤ d ∧ p.ovenMin ≤ d ∧ d ≤ p.ovenMax)
        ∧ (o.span.start ≤ p.watchLimit ∧ p.watchBase < o.span.start + o.span.width) := by
  have cls : burstClass p d = .ovenLike ↔ 200 ≤ d ∧ p.ovenMin ≤ d ∧ d ≤ p.ovenMax := by
    unfold burstClass
    split_ifs <;> simp <;> omega
  simp only [handsOff, Bool.and_eq_true, Bool.not_false, beq_iff_eq, decide_eq_true_eq, cls, true_and]
  exact and_assoc

/-- What follows the close of a burst (R34): the hand-off, where its class and its span call for one. -/
def closedBlocks (env : Env) (c : ClosedBurst) (b : Blocks) (r : Radio) : Blocks :=
  if handsOff env.retained.params c then takeHandOff env ⟨r, c.start, c.duration, c.span⟩ b else b

theorem closedBlocks_lanes (c : ClosedBurst) (b : Blocks) : (closedBlocks env c b r).lanes = b.lanes := by
  unfold closedBlocks
  split
  · exact (Steady.trackerEvent _ _).lanes
  · rfl

theorem closedBlocks_survey (c : ClosedBurst) (b : Blocks) : (closedBlocks env c b r).survey = b.survey := by
  unfold closedBlocks
  split
  · exact trackerEvent_survey _ _ _
  · rfl

theorem Monitor.lastRange_report (m : Monitor) (key : CondKey) (x : Bool) : (m.report env key x).lastRange = m.lastRange := by
  unfold Monitor.report Monitor.present Monitor.absent
  split_ifs <;> rfl

/-- The footprint range that a report after a hand-off stores (R59, R87). -/
theorem takeHandOff_lastRange {h : HandOff} {b : Blocks}
    (reported : (b.tracker.judge env.retained.params h).report = true) :
    (takeHandOff env h b).monitor.lastRange
      = footprintRange env.retained.params (b.tracker.judge env.retained.params h).tracker := by
  obtain ⟨-, -, -, monitor⟩ := trackerEvent_spec env (b.tracker.judge env.retained.params h) b
  rw [afterOvenReport, if_pos reported] at monitor
  exact monitor.rest.2.trans (Monitor.lastRange_report _ _ _)

/-- A sample that closes a burst, counted short of the survey's end (R34, R36). -/
theorem useSample_closing {b : Blocks} {x : Time × BitVec 16} {l : Lane} {c : ClosedBurst}
    (closes : (b.lanes.get r).feed env.retained.params ch x.1 (sampleKind env.retained.params.busyCode (codeOf x.2))
      = (l, some c))
    (short : (b.lanes.get r).survey.total + 1 < surveyLength) :
    useSample env r ch b x
      = (closedBlocks env c (b.modLane r fun _ => l) r).modLane r fun l =>
        { l with survey := l.survey.add (sampleKind env.retained.params.busyCode (codeOf x.2)) } := by
  have survey : l.survey = (b.lanes.get r).survey := by
    have kept := Lane.feed_survey (p := env.retained.params) (ch := ch) (b.lanes.get r) x.1
      (sampleKind env.retained.params.busyCode (codeOf x.2))
    rw [closes] at kept
    exact kept
  have fed : feedSample env r ch x.1 (sampleKind env.retained.params.busyCode (codeOf x.2)) b
      = closedBlocks env c (b.modLane r fun _ => l) r := by
    rw [feedSample, closes]
    rfl
  unfold useSample
  dsimp only
  rw [fed]
  refine if_neg ?_
  rw [Blocks.modLane_get, closedBlocks_lanes, Blocks.modLane_get, SurveyCounts.total_add, survey]
  omega

/-- A batch without a gap whose eight idle samples close the open burst (R24, R30, R34). -/
theorem takeBatch_closing {b : Blocks} {f : Time} {levels : List (BitVec 16)} {o : OpenBurst}
    (operating : (b.chans.get r).operating = some ch) (takes : laneTakes b r = true)
    (expected : (b.lanes.get r).expected = some f) (len : levels.length = 8)
    (idle : ∀ q ∈ levels, sampleKind env.retained.params.busyCode (codeOf q) = .idle)
    (opened : (b.lanes.get r).burst = some o) (some : 2 ≤ (b.lanes.get r).idleRun) (few : (b.lanes.get r).idleRun ≤ 9)
    (young : ∀ j, j < 8 → Time.atOrBefore (o.start + BitVec.ofNat 32 (2 ^ 30)) (Time.plus f (50 * j)) = false)
    (short : (b.lanes.get r).survey.total + 8 < surveyLength) :
    let d := (o.lastBusy + 50 - o.start).toNat
    let cls := burstClass env.retained.params d
    ∃ (l : Lane) (g : Lane → Lane),
      takeBatch env r f levels b = (closedBlocks env ⟨o.start, d, o.span, cls, false⟩ (b.modLane r fun _ => l) r).modLane r g
      ∧ (g l).burst = none ∧ (g l).expected = .some (Time.plus f 400)
      ∧ (g l).history.length = min ((b.lanes.get r).idleRun - 2) 5
      ∧ (g l).counters = (b.lanes.get r).counters.closed cls false := by
  intro d cls
  have all : ∀ y ∈ (sampleTimes f levels.length).zip levels,
      sampleKind env.retained.params.busyCode (codeOf y.2) = .idle
        ∧ Time.atOrBefore (o.start + BitVec.ofNat 32 (2 ^ 30)) y.1 = false := by
    rintro ⟨t, q⟩ hy
    obtain ⟨time, level⟩ := List.of_mem_zip hy
    rw [sampleTimes, len, List.mem_map] at time
    obtain ⟨j, hj, rfl⟩ := time
    exact ⟨idle q level, young j (List.mem_range.mp hj)⟩
  have length : ((sampleTimes f levels.length).zip levels).length = 8 := (batch_length f levels).trans len
  rw [takeBatch_gapless levels operating takes (.inr expected), useBatch]
  obtain ⟨pre, x, post, split, before, behind⟩ :
      ∃ pre x post, (sampleTimes f levels.length).zip levels = pre ++ x :: post
        ∧ (b.lanes.get r).idleRun + pre.length = 9 ∧ post.length = (b.lanes.get r).idleRun - 2 := by
    have inside : 9 - (b.lanes.get r).idleRun < ((sampleTimes f levels.length).zip levels).length := by omega
    refine ⟨_, _, _, ((List.take_append_drop (9 - (b.lanes.get r).idleRun) _).symm.trans
      (congrArg _ (List.drop_eq_getElem_cons inside))), ?_, ?_⟩
    · rw [List.length_take]
      omega
    · rw [List.length_drop]
      omega
  rw [split] at all length ⊢
  rw [List.length_append, List.length_cons] at length
  obtain ⟨early, kind, late⟩ : (∀ y ∈ pre, _) ∧ _ ∧ ∀ y ∈ post, _ := by
    rw [List.forall_mem_append, List.forall_mem_cons] at all
    exact all
  have earlyIdle : ∀ y ∈ kindsOf env.retained.params pre,
      y.2 = .idle ∧ Time.atOrBefore (o.start + BitVec.ofNat 32 (2 ^ 30)) y.1 = false := by
    intro y hy
    obtain ⟨z, hz, rfl⟩ := List.mem_map.mp hy
    exact early z hz
  have lateIdle : ∀ y ∈ kindsOf env.retained.params post, y.2 = .idle := by
    intro y hy
    obtain ⟨z, hz, rfl⟩ := List.mem_map.mp hy
    exact (late z hz).1
  obtain ⟨none, stillOpen, run, counted⟩ := fedBy_idle_open (p := env.retained.params) (ch := ch) opened
    (kindsOf env.retained.params pre) earlyIdle (by rw [kindsOf, List.length_map]; omega)
  have shortPre : (b.lanes.get r).survey.total + pre.length < surveyLength := by omega
  rw [List.foldl_append, List.foldl_cons, foldl_useSample (by rw [none]; exact fun c hc => nomatch hc) shortPre]
  have closes := feed_tenth_idle (p := env.retained.params) (ch := ch)
    (l := (b.lanes.get r).used env.retained.params ch (kindsOf env.retained.params pre)) stillOpen
    (run.trans (by rw [kindsOf, List.length_map]; exact before)) x.1
  rw [← kind.1] at closes
  have total : ((b.lanes.get r).used env.retained.params ch (kindsOf env.retained.params pre)).survey.total
      = (b.lanes.get r).survey.total + pre.length := by
    refine (countedIn_total _ _).trans ?_
    rw [List.length_map, kindsOf, List.length_map]
  rw [useSample_closing (by rw [Blocks.modLane_get]; exact closes) (by rw [Blocks.modLane_get, total]; omega),
    Blocks.modLane_modLane]
  set l : Lane := { ((b.lanes.get r).used env.retained.params ch (kindsOf env.retained.params pre)).quiet with
    counters := ((b.lanes.get r).used env.retained.params ch (kindsOf env.retained.params pre)).counters.closed
      (burstClass env.retained.params (o.lastBusy + 50 - o.start).toNat) false } with hl
  obtain ⟨nothing, quiet, history, counters⟩ := fedBy_idle_quiet (p := env.retained.params) (ch := ch)
    (l := { l with survey := l.survey.add (sampleKind env.retained.params.busyCode (codeOf x.2)) }) rfl
    (kindsOf env.retained.params post) lateIdle (Nat.zero_le 5)
  have lane : (((closedBlocks env ⟨o.start, d, o.span, cls, false⟩ (b.modLane r fun _ => l) r).modLane r fun l =>
      { l with survey := l.survey.add (sampleKind env.retained.params.busyCode (codeOf x.2)) }).lanes.get r)
      = { l with survey := l.survey.add (sampleKind env.retained.params.busyCode (codeOf x.2)) } := by
    rw [Blocks.modLane_get, closedBlocks_lanes, Blocks.modLane_get]
  rw [foldl_useSample (by rw [lane, nothing]; exact fun c hc => nomatch hc), Blocks.modLane_modLane, Blocks.modLane_modLane]
  · refine ⟨l, _, rfl, quiet, rfl, history.trans ?_, counters.trans ?_⟩
    · rw [kindsOf, List.length_map, behind]
      exact congrArg (min · 5) (Nat.zero_add _)
    · exact congrArg (fun c : ClassCounters => c.closed cls false) counted
  · rw [lane]
    have sum := SurveyCounts.total_add l.survey (sampleKind env.retained.params.busyCode (codeOf x.2))
    have kept : l.survey.total = (b.lanes.get r).survey.total + pre.length := total
    show (l.survey.add _).total + post.length < surveyLength
    omega

end Closing

/-- Settles O29. -/
theorem burstHandedOff : Obligations.BurstHandedOff := by
  intro r f levels s ch o p lane i d c up ovenLike spans judged len idle isUp operating present expected opened some few young short
  have takes : laneTakes (heardOn s.env r s.blocks) r = true := by simp [laneTakes, isUp, operating, present]
  obtain ⟨l, g, batch, quiet, next, history, counted⟩ := takeBatch_closing (env := s.env) (b := heardOn s.env r s.blocks)
    operating takes expected len idle opened some few young short
  have own : (takeBatch s.env r f levels (heardOn s.env r s.blocks)).lanes.get r = g l := by
    rw [batch, Blocks.modLane_get, closedBlocks_lanes, Blocks.modLane_get]
  refine ⟨{ s with blocks := takeBatch s.env r f levels (heardOn s.env r s.blocks) }, exec_samples_of_up len isUp f,
    ?_, ?_, ?_, ?_, ?_, ?_, rfl, ?_, rfl⟩
  · exact own ▸ quiet
  · exact own ▸ next
  · exact own ▸ history
  · rw [own, counted]
    exact ClassCounters.closed_eq p c d
  · intro class' meets
    have handed := handsOff_normal_iff.mpr ⟨class', meets⟩
    have eq := batch.trans (congrArg (fun b : Blocks => b.modLane r g) (if_pos handed))
    have tracked := takeHandOff_tracker s.env ⟨r, o.start, d, o.span⟩ ((heardOn s.env r s.blocks).modLane r fun _ => l)
    have range := takeHandOff_lastRange (env := s.env) (h := ⟨r, o.start, d, o.span⟩)
      (b := (heardOn s.env r s.blocks).modLane r fun _ => l)
    dsimp only
    rw [eq]
    exact ⟨tracked, range⟩
  · intro kept
    have stays : ¬ handsOff p ⟨o.start, d, o.span, burstClass p d, false⟩ = true := fun h => kept (handsOff_normal_iff.mp h)
    have eq := batch.trans (congrArg (fun b : Blocks => b.modLane r g) (if_neg stays))
    rw [eq]
    exact ⟨rfl, rfl, rfl⟩
  · rw [batch]
    exact closedBlocks_survey _ _

end Sys2Proof.Machine
end

