-- ==== Sys2Proof/Proofs/HeardFrames.lean ====
section
/-! PROOF. Heard frames: how a summary is matched, the neighbour table and its sweep (R65 to R75): O31 and O32. -/

namespace Sys2Proof.Machine

/-! ## The capsule check -/

/-- The selected bytes as a selection by index. -/
theorem selectBytes_eq (mask : BitVec 24) (j : Nat) (capsule : List Byte) :
    selectBytes mask j capsule
      = (List.range capsule.length).filterMap fun i => if mask.getLsbD (j + i) then capsule[i]? else none := by
  induction capsule generalizing j with
  | nil => rfl
  | cons x xs ih =>
    have rest : ((List.range xs.length).map Nat.succ).filterMap
        (fun i => if mask.getLsbD (j + i) then (x :: xs)[i]? else none) = selectBytes mask (j + 1) xs := by
      rw [List.filterMap_map, ih (j + 1)]
      refine congrArg (fun f => (List.range xs.length).filterMap f) (funext fun i => ?_)
      rw [Function.comp, Nat.succ_eq_add_one, List.getElem?_cons_succ, Nat.add_right_comm, Nat.add_assoc]
    rw [List.length_cons, List.range_succ_eq_map, selectBytes]
    split
    · next picked => rw [List.filterMap_cons_some (b := x) (by simp [picked]), rest]
    · next skipped => rw [List.filterMap_cons_none (by simp [skipped]), rest]

theorem capsuleCheck_eq (mask : BitVec 24) (capsule : List Byte) :
    capsuleCheck mask capsule
      = crc16 ((List.range capsule.length).filterMap fun j => if mask.getLsbD j then capsule[j]? else none) := by
  rw [capsuleCheck, selectBytes_eq]
  simp only [Nat.zero_add]

theorem crc16_append_singleton (xs : List Byte) (x : Byte) : crc16 (xs ++ [x]) = crc16Byte (crc16 xs) x := by
  rw [crc16, List.foldl_append]
  rfl

/-! ## The filters -/

/-- A filter matches a capsule (R69, R70). -/
def SigFilter.takes (f : SigFilter) (capsule : List Byte) : Prop :=
  f.enable = true ∧ capsuleCheck f.mask capsule = f.expected

theorem firstFilter_cons_of_takes {f : SigFilter} {capsule : List Byte} (h : f.takes capsule) (j : Nat) (fs : List SigFilter) :
    firstFilter capsule j (f :: fs) = some (j, f.action) := if_pos h

theorem firstFilter_cons_of_not_takes {f : SigFilter} {capsule : List Byte} (h : ¬ f.takes capsule) (j : Nat)
    (fs : List SigFilter) : firstFilter capsule j (f :: fs) = firstFilter capsule (j + 1) fs := if_neg h

theorem firstFilter_first {capsule : List Byte} {f : SigFilter} (takes : f.takes capsule) (fs : List SigFilter) (j n : Nat)
    (found : fs[n]? = some f) (earlier : ∀ i g, i < n → fs[i]? = some g → ¬ g.takes capsule) :
    firstFilter capsule j fs = some (j + n, f.action) := by
  induction fs generalizing j n with
  | nil => cases found
  | cons g fs ih =>
    cases n with
    | zero =>
      cases found
      exact firstFilter_cons_of_takes takes j fs
    | succ n =>
      rw [firstFilter_cons_of_not_takes (earlier 0 g (Nat.succ_pos n) rfl),
        ih (j + 1) n found fun i h hi => earlier (i + 1) h (Nat.succ_lt_succ hi), Nat.add_right_comm, Nat.add_assoc]

theorem firstFilter_none {capsule : List Byte} (fs : List SigFilter) (j : Nat) (none : ∀ f ∈ fs, ¬ f.takes capsule) :
    firstFilter capsule j fs = .none := by
  induction fs generalizing j with
  | nil => rfl
  | cons g fs ih =>
    obtain ⟨first, rest⟩ := List.forall_mem_cons.mp none
    rw [firstFilter_cons_of_not_takes first, ih (j + 1) rest]

/-- The filter at index *j* matches a summary (R66, R69, R70). -/
def Retained.filterMatches (x : Retained) (h : Summary) (j : Nat) (f : SigFilter) : Prop :=
  x.filters[j]? = some f ∧ f.enable = true
    ∧ ∃ capsule, h.capsule = some capsule
      ∧ crc16 ((List.range capsule.length).filterMap fun j => if f.mask.getLsbD j then capsule[j]? else none) = f.expected

theorem Retained.filterMatches_iff {x : Retained} {h : Summary} {j : Nat} {f : SigFilter} :
    x.filterMatches h j f ↔ x.filters[j]? = some f ∧ ∃ capsule, h.capsule = some capsule ∧ f.takes capsule := by
  simp only [filterMatches, SigFilter.takes, capsuleCheck_eq]
  constructor
  · rintro ⟨at', enabled, capsule, given, check⟩
    exact ⟨at', capsule, given, enabled, check⟩
  · rintro ⟨at', capsule, given, enabled, check⟩
    exact ⟨at', enabled, capsule, given, check⟩

theorem matchingFilter_first {x : Retained} {h : Summary} {j : Nat} {f : SigFilter} (matched : x.filterMatches h j f)
    (earlier : ∀ i g, i < j → ¬ x.filterMatches h i g) : matchingFilter x h = some (j, f.action) := by
  obtain ⟨at', capsule, given, takes⟩ := Retained.filterMatches_iff.mp matched
  rw [matchingFilter, given]
  dsimp only
  rw [firstFilter_first takes x.filters 0 j at' fun i g hi hg htakes =>
    earlier i g hi (Retained.filterMatches_iff.mpr ⟨hg, capsule, given, htakes⟩), Nat.zero_add]

theorem matchingFilter_none {x : Retained} {h : Summary} (none : ∀ j f, ¬ x.filterMatches h j f) :
    matchingFilter x h = .none := by
  unfold matchingFilter
  split
  · rfl
  · next capsule given =>
    refine firstFilter_none _ _ fun f mem takes => ?_
    obtain ⟨j, at'⟩ := List.mem_iff_getElem?.mp mem
    exact none j f (Retained.filterMatches_iff.mpr ⟨at', capsule, given, takes⟩)

/-! ## The four steps of matching -/

theorem matchSummary_own {x : Retained} {h : Summary} {id : BssId} (given : h.bss = some id) (listed : some id ∈ x.ownList) :
    matchSummary x h = .own := by
  rw [matchSummary, given]
  exact if_pos (List.contains_iff_mem.mpr listed)

/-- A frame that is not on the own-network list, by the filter that matches it. -/
def matchByFilter (bss : Option BssId) : Option (Nat × FilterAction) → Match
  | some (_, .own) => .own
  | some (j, .tag) => match bss with
    | none => .anonymous
    | some id => .neighbour id (some j)
  | none => match bss with
    | none => .anonymous
    | some id => .neighbour id none

theorem matchSummary_foreign {x : Retained} {h : Summary} (foreign : ¬ ∃ id, h.bss = some id ∧ some id ∈ x.ownList) :
    matchSummary x h = matchByFilter h.bss (matchingFilter x h) := by
  unfold matchSummary
  cases given : h.bss with
  | none =>
    cases matchingFilter x h with
    | none => rfl
    | some y => obtain ⟨j, action⟩ := y; cases action <;> rfl
  | some id =>
    have unlisted : ¬ x.ownList.contains (some id) = true :=
      fun listed => foreign ⟨id, given, List.contains_iff_mem.mp listed⟩
    dsimp only
    rw [if_neg unlisted]
    cases matchingFilter x h with
    | none => rfl
    | some y => obtain ⟨j, action⟩ := y; cases action <;> rfl

/-- Settles O31. -/
theorem summariesMatched : Obligations.SummariesMatched := by
  refine ⟨fun x h => ?_, rfl, fun xs y => crc16_append_singleton xs y⟩
  intro own selected matched first
  refine ⟨fun ⟨id, given, listed⟩ => matchSummary_own given listed, fun j f foreign isFirst => ?_, fun foreign none => ?_⟩
  · obtain ⟨takes, earlier⟩ := isFirst
    have eq := matchSummary_foreign foreign
    rw [matchingFilter_first (x := x) takes earlier] at eq
    refine ⟨fun action => ?_, fun action => ?_⟩
    · rw [eq, action]
      rfl
    · rw [eq, action]
      cases h.bss <;> rfl
  · have eq := matchSummary_foreign foreign
    rw [matchingFilter_none (x := x) none] at eq
    rw [eq]
    cases h.bss <;> rfl

/-! ## HEARD -/

@[simp] theorem heardOn_survey (env : Env) (r : Radio) (b : Blocks) : (heardOn env r b).survey = b.survey := rfl

section Heard
variable {r : Radio} {h : Summary} {s : State} {ch : Channel}

theorem exec_heard_of_up (wf : h.wf = true) (up : (s.blocks.links.get r).port = .up) :
    exec (.heard r h) s = .next { s with blocks := takeHeard s.env r h (heardOn s.env r s.blocks) } := by
  exact next_blocks ((if_pos wf).trans (receive_of_up up _ _))

theorem malformed_iff : malformed h = true ↔ h.level = 0x8000 ∨ h.airtime = 0 := by
  rw [malformed, Bool.or_eq_true, beq_iff_eq, beq_iff_eq]
  exact Iff.rfl

theorem takeHeard_present {env : Env} {b : Blocks} (operating : (b.chans.get r).operating = some ch)
    (present : (b.chans.get r).withdrawn = false) :
    takeHeard env r h b
      = if malformed h then (b.modSurvey fun u => u.count HeardCounters.take).modSurvey fun u => u.count HeardCounters.malform
        else actOnSummary env r ch h (b.modSurvey fun u => u.count HeardCounters.take) := by
  simp [takeHeard, operating, present]

/-- The entry of a network in the table, updated with a frame (R71, R72). -/
theorem Neighbour.update_eq (now : Time) (tag : Option Nat) (n : Neighbour) :
    n.update now r ch h tag
      = { n with
          radio := r
          span := ch
          last := now
          frames := min (n.frames + 1) 65535
          airtime := min (n.airtime + min h.airtime.toNat 32767) (2 ^ 32 - 1)
          strongest := max n.strongest (codeOf h.level)
          tag := tag <|> n.tag } := by
  cases tag <;> rfl

section Enter
variable {u : SurveyUnit} {now : Time} {bss : BssId} {tag : Option Nat}

theorem SurveyUnit.enter_known {n : Neighbour} (known : findNeighbour u.table bss = some n) :
    u.enter now r ch h bss tag
      = { u with
          table := n.update now r ch h tag :: dropNeighbour u.table bss
          counters := u.counters.neighbourFrame } := by
  rw [enter, known]

theorem SurveyUnit.enter_control (unknown : findNeighbour u.table bss = none) (control : h.kind = .control) :
    u.enter now r ch h bss tag = u.count HeardCounters.anon := by
  rw [enter, unknown]
  exact if_pos control

theorem SurveyUnit.enter_new (unknown : findNeighbour u.table bss = none) (kind : h.kind ≠ .control)
    (room : u.table.length < 48) :
    u.enter now r ch h bss tag
      = { u with
          table := newNeighbour now r ch h bss tag :: u.table
          counters := u.counters.neighbourFrame.entry } := by
  rw [enter, unknown]
  exact (if_neg kind).trans (if_pos room)

theorem SurveyUnit.enter_full (unknown : findNeighbour u.table bss = none) (kind : h.kind ≠ .control)
    (full : u.table.length = 48) :
    u.enter now r ch h bss tag
      = { u with
          table := newNeighbour now r ch h bss tag :: u.table.take 47
          counters := u.counters.neighbourFrame.entry.evict } := by
  rw [enter, unknown]
  exact (if_neg kind).trans (if_neg (by rw [full]; decide))

end Enter

end Heard

/-! ## The sweep -/

theorem SurveyUnit.sweep_eq (env : Env) (u : SurveyUnit) :
    u.sweep env
      = { u with
          table := u.table.filter fun n => !tooOld env n
          counters := { u.counters with agedOut := min (u.counters.agedOut + u.table.countP (tooOld env)) 65535 }
          nextSweep := Time.plus u.nextSweep 1000000 } := by
  have removed : u.table.length - (u.table.filter fun n => !tooOld env n).length = u.table.countP (tooOld env) := by
    have total := List.length_eq_countP_add_countP (tooOld env) (l := u.table)
    have kept : u.table.countP (fun n => decide ¬ tooOld env n = true) = (u.table.filter fun n => !tooOld env n).length := by
      rw [List.countP_eq_length_filter]
      refine congrArg List.length (congrArg (fun f => u.table.filter f) (funext fun n => ?_))
      cases tooOld env n <;> rfl
    omega
  rw [← removed]
  rfl

/-- Settles O32. -/
theorem neighbourTable : Obligations.NeighbourTable := by
  refine ⟨fun r h s ch => ?_, fun s => ?_⟩
  · intro u b counted airtime new after wf up operating present
    have heard : exec (.heard r h) s = _ := exec_heard_of_up wf up
    rw [takeHeard_present (b := heardOn s.env r s.blocks) operating present] at heard
    refine ⟨fun bad => ?_, fun level airtime' => ?_⟩
    · rw [if_pos (malformed_iff.mpr bad)] at heard
      exact heard
    · rw [if_neg fun bad => (malformed_iff.mp bad).elim level airtime'] at heard
      unfold actOnSummary at heard
      refine ⟨fun own => ?_, fun anonymous => ?_, fun bss tag n neighbour known => ?_, fun bss tag neighbour unknown => ?_⟩
      · rw [own] at heard
        exact heard
      · rw [anonymous] at heard
        exact heard
      · rw [neighbour] at heard
        refine heard.trans (next_blocks ?_)
        dsimp only [Blocks.modSurvey, heardOn_survey]
        rw [SurveyUnit.enter_known (u := u.count HeardCounters.take) known, Neighbour.update_eq]
        rfl
      · rw [neighbour] at heard
        refine ⟨fun control => ?_, fun kind room => ?_, fun kind full => ?_⟩
        all_goals
          refine heard.trans (next_blocks ?_)
          dsimp only [Blocks.modSurvey, heardOn_survey]
        · rw [SurveyUnit.enter_control (u := u.count HeardCounters.take) unknown control]
          rfl
        · rw [SurveyUnit.enter_new (u := u.count HeardCounters.take) unknown kind room]
          rfl
        · rw [SurveyUnit.enter_full (u := u.count HeardCounters.take) unknown kind full]
          rfl
  · intro u old
    refine ⟨fun early => ?_, fun due => ?_⟩
    · exact congrArg Host.Outcome.next (withBlocks_self (if_neg (ne_true_of_eq_false early)))
    · refine next_blocks ((if_pos due).trans ?_)
      rw [Blocks.modSurvey, SurveyUnit.sweep_eq]
      rfl

end Sys2Proof.Machine
end

