-- ==== Sys2Proof/Proofs/TrackerEvents.lean ====
section
/-! PROOF. The cadence tracker: the judgement of a burst in each phase, the anchor's expiry and the onset check (R42 to R59):
O34 and O35. -/

namespace Sys2Proof.Machine

variable {p : Params} {h : HandOff} {k : Tracker}

/-! ## The arithmetic of the tracker -/

theorem clampPeriod_eq (limits : p.periodMin ≤ p.periodMax) (x : Int) :
    clampPeriod p x = (max (16 * p.periodMin : Int) (min x (16 * p.periodMax))).toNat := by
  unfold clampPeriod clampInt
  split_ifs <;> omega

theorem TrackTime.plus_natCast (t : TrackTime) (n : Nat) : TrackTime.plus t n = t + BitVec.ofNat 36 n := by
  rw [TrackTime.plus, BitVec.ofInt_natCast]

/-- A signed error within a window. -/
theorem natAbs_le_window_iff {e : Int} {w : Nat} : e.natAbs ≤ 16 * w ↔ -(16 * (w : Int)) ≤ e ∧ e ≤ 16 * (w : Int) := by
  omega

/-- A start repeats the last accepted one when it lies within the current window of it (R45). -/
def Tracker.repeats (p : Params) (h : HandOff) (k : Tracker) : Prop :=
  ∃ a, k.lastOnset = some a ∧ -(16 * (k.window p : Int)) ≤ TrackTime.diff (TrackTime.ofStart h.start) a
    ∧ TrackTime.diff (TrackTime.ofStart h.start) a ≤ 16 * (k.window p : Int)

theorem Tracker.isDuplicate_iff : k.isDuplicate p h = true ↔ k.repeats p h := by
  unfold isDuplicate repeats
  cases k.lastOnset with
  | none => simp
  | some a => simp [natAbs_le_window_iff]

/-! ## The judgement by phase -/

/-- The record with the burst counted as handed off (R44). -/
def Tracker.handed (k : Tracker) : Tracker := { k with counters := k.counters.handOff }

theorem Tracker.judge_search (phase : k.phase = .search) : k.judge p h = k.handed.judgeSearch p h := by
  simp [judge, phase, handed]

theorem Tracker.judge_repeated (phase : k.phase ≠ .search) (repeated : k.repeats p h) :
    k.judge p h
      = ⟨{ k with footprint := addSpan k.footprint h.span, counters := k.handed.counters.duplicate }, true⟩ :=
  if_pos ⟨phase, isDuplicate_iff.mpr repeated⟩

theorem Tracker.judge_acquire (phase : k.phase = .acquire) (fresh : ¬ k.repeats p h) :
    k.judge p h = k.handed.judgeAcquire p h := by
  refine (if_neg fun both => fresh (isDuplicate_iff.mp both.2)).trans ?_
  cases k
  cases phase
  rfl

theorem Tracker.judge_locked (phase : k.phase = .track ∨ k.phase = .coast) (fresh : ¬ k.repeats p h) :
    k.judge p h = k.handed.judgeLocked p h := by
  refine (if_neg fun both => fresh (isDuplicate_iff.mp both.2)).trans ?_
  cases k
  rcases phase with phase | phase
  · cases phase
    rfl
  · cases phase
    rfl

/-! ## SEARCH -/

theorem Tracker.judge_search_first (phase : k.phase = .search) (none : k.anchor = none) :
    k.judge p h = ⟨{ k.handed with anchor := some (anchorOf p h) }, false⟩ := by
  rw [judge_search phase, judgeSearch, show k.handed.anchor = .none from none]

theorem Tracker.judge_search_early {a : Anchor} (phase : k.phase = .search) (anchor : k.anchor = some a)
    (early : (h.start - a.start).toInt < p.periodMin) : k.judge p h = k.handed.ignoreBurst := by
  rw [judge_search phase, judgeSearch, show k.handed.anchor = some a from anchor]
  exact if_pos early

theorem Tracker.judge_search_between {a : Anchor} (phase : k.phase = .search) (anchor : k.anchor = some a)
    (low : (p.periodMin : Int) ≤ (h.start - a.start).toInt) (high : (h.start - a.start).toInt ≤ p.periodMax) :
    k.judge p h = ⟨k.handed.enterAcquire p a h, true⟩ := by
  rw [judge_search phase, judgeSearch, show k.handed.anchor = some a from anchor]
  exact (if_neg (not_lt.mpr low)).trans (if_pos high)

theorem Tracker.judge_search_late {a : Anchor} (phase : k.phase = .search) (anchor : k.anchor = some a)
    (limits : p.periodMin ≤ p.periodMax) (late : (p.periodMax : Int) < (h.start - a.start).toInt) :
    k.judge p h = ⟨{ k.handed with anchor := some (anchorOf p h) }, false⟩ := by
  rw [judge_search phase, judgeSearch, show k.handed.anchor = some a from anchor]
  exact (if_neg (by show ¬ (h.start - a.start).toInt < p.periodMin; omega)).trans (if_neg (not_le.mpr late))

/-- The entry to ACQUIRE (R47). -/
theorem Tracker.enterAcquire_eq (p : Params) (a : Anchor) (h : HandOff) (k : Tracker) :
    let period := 16 * (h.start - a.start).toInt.toNat
    let onset := TrackTime.ofStart h.start + BitVec.ofNat 36 period
    k.enterAcquire p a h
      = { phase := .acquire
          anchor := none
          period := period
          onset := onset
          onTime := (a.duration + h.duration) / 2
          matched := 2
          misses := 0
          lastOnset := some (TrackTime.ofStart h.start)
          check := some (checkTime p p.acquireWindow onset)
          footprint := addSpan (addSpan k.footprint a.span) h.span
          counters := k.counters.accept } := by
  intro period onset
  unfold enterAcquire
  dsimp only
  rw [TrackTime.plus_natCast]
  rfl

/-! ## ACQUIRE -/

/-- The error of a burst against the onset expected (R42). -/
def Tracker.error (h : HandOff) (k : Tracker) : Int := TrackTime.diff (TrackTime.ofStart h.start) k.onset

theorem Tracker.judgeAcquire_accepted (low : -(16 * (p.acquireWindow : Int)) ≤ k.error h)
    (high : k.error h ≤ 16 * (p.acquireWindow : Int)) : k.judgeAcquire p h = ⟨k.acceptAcquire p h (k.error h), true⟩ :=
  if_pos (natAbs_le_window_iff.mpr ⟨low, high⟩)

theorem Tracker.judgeAcquire_early (early : k.error h < -(16 * (p.acquireWindow : Int))) :
    k.judgeAcquire p h = k.ignoreBurst :=
  (if_neg fun within => absurd (natAbs_le_window_iff.mp within).1 (not_le.mpr early)).trans (if_pos (by
    show k.error h < 0
    omega))

theorem Tracker.judgeAcquire_late (late : 16 * (p.acquireWindow : Int) < k.error h) :
    k.judgeAcquire p h
      = ⟨{ Tracker.reset with anchor := some (anchorOf p h), counters := k.counters.break }, true⟩ :=
  (if_neg fun within => absurd (natAbs_le_window_iff.mp within).2 (not_le.mpr late)).trans (if_neg (by
    show ¬ k.error h < 0
    omega))

/-- A burst accepted in ACQUIRE, with the lock at the lock count (R49, R52). -/
theorem Tracker.acceptAcquire_eq (phase : k.phase = .acquire) (limits : p.periodMin ≤ p.periodMax) (e : Int) :
    let period := (max (16 * p.periodMin : Int) (min (k.period + e.tdiv 4) (16 * p.periodMax))).toNat
    let onset := TrackTime.ofStart h.start + BitVec.ofNat 36 period
    let locked := decide (p.lockCount ≤ k.matched + 1)
    k.acceptAcquire p h e
      = { k with
          phase := if locked then .track else .acquire
          period := period
          onset := onset
          onTime := nextOnTime k.onTime h.duration
          lastOnset := some (TrackTime.ofStart h.start)
          matched := k.matched + 1
          misses := if locked then 0 else k.misses
          footprint := addSpan k.footprint h.span
          check := some (checkTime p (if locked then p.trackWindow else p.acquireWindow) onset)
          counters := { k.counters.accept with locks := if locked then bump k.counters.locks else k.counters.locks } } := by
  intro period onset locked
  unfold acceptAcquire lockIfDue
  dsimp only
  rw [clampPeriod_eq limits, TrackTime.plus_natCast]
  by_cases lock : p.lockCount ≤ k.matched + 1
  · have on : locked = true := decide_eq_true lock
    rw [if_pos lock]
    simp only [on, if_true]
    rfl
  · have off : locked = false := decide_eq_false lock
    rw [if_neg lock]
    simp only [off, Bool.false_eq_true, if_false, ← phase]
    rfl

/-! ## TRACK and COAST -/

theorem Tracker.judgeLocked_accepted (low : -(16 * (p.trackWindow : Int)) ≤ k.error h)
    (high : k.error h ≤ 16 * (p.trackWindow : Int)) : k.judgeLocked p h = ⟨k.acceptTrack p h (k.error h), true⟩ :=
  if_pos (natAbs_le_window_iff.mpr ⟨low, high⟩)

theorem Tracker.judgeLocked_outlier (outside : k.error h < -(16 * (p.trackWindow : Int)) ∨ 16 * (p.trackWindow : Int) < k.error h) :
    k.judgeLocked p h = k.ignoreBurst := by
  refine if_neg fun within => ?_
  have bounds : _ ≤ k.error h ∧ k.error h ≤ _ := natAbs_le_window_iff.mp within
  omega

theorem Tracker.acceptTrack_eq (limits : p.periodMin ≤ p.periodMax) (e : Int) :
    let period := (max (16 * p.periodMin : Int) (min (k.period + e.tdiv 64) (16 * p.periodMax))).toNat
    let onset := k.onset + BitVec.ofInt 36 (period + e.tdiv 4)
    k.acceptTrack p h e
      = { k with
          phase := .track
          onset := onset
          period := period
          onTime := nextOnTime k.onTime h.duration
          lastOnset := some (TrackTime.ofStart h.start)
          misses := 0
          footprint := addSpan k.footprint h.span
          check := some (checkTime p p.trackWindow onset)
          counters := k.counters.accept } := by
  intro period onset
  unfold acceptTrack
  dsimp only
  rw [clampPeriod_eq limits]
  rfl

theorem Tracker.window_acquire (phase : k.phase = .acquire) : k.window p = p.acquireWindow := if_pos phase

theorem Tracker.window_locked (phase : k.phase = .track ∨ k.phase = .coast) : k.window p = p.trackWindow := by
  refine if_neg fun acquire => ?_
  rw [acquire] at phase
  rcases phase with phase | phase <;> cases phase

/-- Settles O35. -/
theorem burstsJudged : Obligations.BurstsJudged := by
  intro p k h limits up c ignored start e window repeated added limited checkAt onTime anchored
  have windowIs : window = 16 * (k.window p : Int) := rfl
  have repeats : repeated ↔ k.repeats p h := Iff.rfl
  refine ⟨fun phase => ⟨k.judge_search_first phase, fun a anchor => ?_⟩, fun phase again => k.judge_repeated phase again,
    fun phase fresh => ?_, fun phase fresh => ?_⟩
  · intro interval period onset
    refine ⟨k.judge_search_early phase anchor, k.judge_search_late phase anchor limits, fun low high => ?_⟩
    rw [k.judge_search_between phase anchor low high, Tracker.enterAcquire_eq]
    rfl
  · rw [windowIs, Tracker.window_acquire phase, k.judge_acquire phase fresh]
    refine ⟨fun low high => ?_, fun early => Tracker.judgeAcquire_early early, fun late => Tracker.judgeAcquire_late late⟩
    intro period onset locked
    rw [Tracker.judgeAcquire_accepted (k := k.handed) low high, k.handed.acceptAcquire_eq phase limits]
    rfl
  · rw [windowIs, Tracker.window_locked phase, k.judge_locked phase fresh]
    refine ⟨fun low high => ?_, fun outside => Tracker.judgeLocked_outlier outside⟩
    intro period onset
    rw [Tracker.judgeLocked_accepted (k := k.handed) low high, k.handed.acceptTrack_eq limits]
    rfl

/-! ## The tracker's timers -/

theorem anchorDue_iff {env : Env} {b : Blocks} : anchorDue env b = true ↔
    b.tracker.phase = .search ∧ ∃ a, b.tracker.anchor = some a ∧ Time.atOrBefore a.expiry env.now = true := by
  rw [anchorDue, Bool.and_eq_true, beq_iff_eq, Time.reached_map_iff]

theorem checkDue_iff {env : Env} {b : Blocks} : checkDue env b = true ↔
    b.tracker.phase ≠ .search ∧ ∃ t, b.tracker.check = some t ∧ Time.atOrBefore t env.now = true := by
  rw [checkDue, Bool.and_eq_true, bne_iff_ne, Time.reached_iff]

theorem exec_anchorExpiry_early {s : State} (early : ¬ anchorDue s.env s.blocks = true) :
    exec .anchorExpiry s = .next s := congrArg Host.Outcome.next (withBlocks_self (if_neg early))

theorem exec_anchorExpiry_due {s : State} (due : anchorDue s.env s.blocks = true) :
    exec .anchorExpiry s
      = .next { s with blocks := { s.blocks with tracker := { s.blocks.tracker with anchor := none } } } :=
  next_blocks (if_pos due)

theorem anchorTimer (s : State) (a : Anchor) (h : HandOff) (phase : s.blocks.tracker.phase = .search)
    (anchor : s.blocks.tracker.anchor = some a) :
    let p := s.env.retained.params
    let interval := (h.start - a.start).toInt
    let anchored : Anchor := ⟨h.start, h.duration, h.span, Time.plus h.start (p.periodMax + p.ovenMax + 1000)⟩
    (Time.atOrBefore a.expiry s.env.now = false → exec .anchorExpiry s = .next s)
    ∧ (Time.atOrBefore a.expiry s.env.now = true →
      ∃ t, exec .anchorExpiry s = .next t
        ∧ t = { s with blocks := { s.blocks with tracker := { s.blocks.tracker with anchor := none } } }
        ∧ (t.blocks.tracker.judge p h).tracker.anchor = some anchored
        ∧ (t.blocks.tracker.judge p h).tracker.phase = .search)
    ∧ ((p.periodMin : Int) ≤ interval → interval ≤ p.periodMax →
      (s.blocks.tracker.judge p h).tracker.phase = .acquire)
    ∧ ((p.periodMax : Int) < interval → (p.periodMin : Int) ≤ p.periodMax →
      (s.blocks.tracker.judge p h).tracker.phase = .search
        ∧ (s.blocks.tracker.judge p h).tracker.anchor = some anchored) := by
  intro p interval anchored
  refine ⟨fun early => exec_anchorExpiry_early ?_, fun due => ?_, fun low high => ?_, fun late limits => ?_⟩
  · rw [anchorDue_iff]
    rintro ⟨-, x, same, reached⟩
    cases anchor.symm.trans same
    exact absurd early (by rw [reached]; decide)
  · refine ⟨_, exec_anchorExpiry_due (anchorDue_iff.mpr ⟨phase, a, anchor, due⟩), rfl, ?_⟩
    rw [Tracker.judge_search_first (k := { s.blocks.tracker with anchor := none }) phase rfl]
    exact ⟨rfl, phase⟩
  · rw [Tracker.judge_search_between phase anchor low high]
    rfl
  · rw [Tracker.judge_search_late phase anchor (Int.ofNat_le.mp limits) late]
    exact ⟨phase, rfl⟩

theorem Tracker.onsetChecked_acquire (phase : k.phase = .acquire) :
    k.onsetChecked p = { Tracker.reset with counters := k.counters.miss.break } := by
  cases k
  cases phase
  rfl

theorem Tracker.onsetChecked_track (phase : k.phase = .track) :
    k.onsetChecked p = { (k.advance p) with phase := .coast, misses := 1, counters := k.counters.miss } := by
  cases k
  cases phase
  rfl

theorem Tracker.onsetChecked_coast (phase : k.phase = .coast) :
    k.onsetChecked p
      = if p.coastLimit ≤ k.misses + 1 then { Tracker.reset with counters := k.counters.miss.loss }
        else { (k.advance p) with misses := k.misses + 1, counters := k.counters.miss } := by
  cases k
  cases phase
  rfl

theorem Tracker.advance_eq : k.advance p = { k with
    onset := k.onset + BitVec.ofNat 36 k.period
    check := some (checkTime p p.trackWindow (k.onset + BitVec.ofNat 36 k.period)) } := by
  rw [advance, TrackTime.plus_natCast]

/-- Settles O34. -/
theorem trackerTimers : Obligations.TrackerTimers := by
  refine ⟨⟨anchorTimer, fun s outside => ?_⟩, fun s => ?_⟩
  · refine exec_anchorExpiry_early ?_
    rw [anchorDue_iff]
    rintro ⟨phase, a, anchor, -⟩
    rcases outside with other | none
    · exact other phase
    · cases none.symm.trans anchor
  · intro p k due c onset next
    have isDue : checkDue s.env s.blocks = true ↔ due := checkDue_iff
    refine ⟨fun early => ?_, fun now => ?_⟩
    · exact congrArg Host.Outcome.next (withBlocks_self (if_neg fun x => early (isDue.mp x)))
    · have tracker := (trackerEvent_spec s.env ⟨k.onsetChecked p, true⟩ s.blocks).1
      refine ⟨{ s with blocks := trackerEvent s.env ⟨k.onsetChecked p, true⟩ s.blocks }, next_blocks (if_pos (isDue.mpr now)),
        rfl, rfl, (Steady.trackerEvent _ _).lanes, trackerEvent_survey _ _ _, fun phase => ?_, fun phase => ?_,
        fun phase few => ?_, fun phase many => ?_⟩
      · exact tracker.trans (Tracker.onsetChecked_acquire phase)
      · refine tracker.trans ((Tracker.onsetChecked_track phase).trans ?_)
        rw [Tracker.advance_eq]
        rfl
      · refine tracker.trans ((Tracker.onsetChecked_coast phase).trans ((if_neg (by omega)).trans ?_))
        rw [Tracker.advance_eq]
        rfl
      · exact tracker.trans ((Tracker.onsetChecked_coast phase).trans (if_pos many))

end Sys2Proof.Machine
end

