-- ==== Sys2Proof/Proofs/Encodings.lean ====
section
/-! PROOF. The check byte of a link message, and the decoding of link messages and host transactions (R148, R149, R158, R168,
R169): O52 and O53. -/

namespace Sys2Proof.Machine

/-! ## The check byte -/

/-- One shift of the CRC-8 register, undone: the generator is odd, so the lowest bit tells whether it was added. -/
def crc8Unshift (c : BitVec 8) : BitVec 8 := if c.getLsbD 0 then ((c ^^^ 0x07#8) >>> 1) ||| 0x80#8 else c >>> 1

theorem crc8Shift_injective : Function.Injective crc8Shift :=
  Function.LeftInverse.injective (g := crc8Unshift) (by decide : ∀ c, crc8Unshift (crc8Shift c) = c)

theorem crc8Byte_injective_byte (c : BitVec 8) : Function.Injective (crc8Byte c) := by
  intro x y h
  exact (BitVec.xor_right_inj c).mp (crc8Shift_injective.iterate 8 h)

theorem crc8Byte_injective_register (x : Byte) : Function.Injective fun c => crc8Byte c x := by
  intro c d h
  exact (BitVec.xor_left_inj x).mp (crc8Shift_injective.iterate 8 h)

theorem crc8_fold_injective (ys : List Byte) : Function.Injective fun c => ys.foldl crc8Byte c := by
  induction ys with
  | nil => exact fun _ _ h => h
  | cons y ys ih => exact fun c d h => crc8Byte_injective_register y (ih h)

/-- A byte equal to the register leaves it at 0. -/
theorem crc8Byte_self (c : BitVec 8) : crc8Byte c c = 0 := by
  rw [crc8Byte, BitVec.xor_self]
  rfl

/-- Settles O52. -/
theorem checkByteDetects : Obligations.CheckByteDetects := by
  intro xs ys x y
  refine ⟨?_, fun differ same => differ ?_⟩
  · rw [crc8, List.foldl_append]
    exact crc8Byte_self _
  · rw [crc8, crc8, List.foldl_append, List.foldl_append] at same
    exact crc8Byte_injective_byte _ (crc8_fold_injective ys same)

/-! ## Numbers in bytes -/

theorem ofLeBytes_leBytes (n x : Nat) : ofLeBytes (leBytes n x) = x % 256 ^ n := by
  induction n generalizing x with
  | zero => rw [Nat.pow_zero, Nat.mod_one]; rfl
  | succ n ih =>
    rw [leBytes, ofLeBytes, ih, Nat.pow_succ', Nat.mod_mul]
    rfl

/-- A word of at most *n* bytes is its *n* bytes. -/
theorem ofNat_leBytes {w : Nat} (n : Nat) (x : BitVec w) (fits : w ≤ 8 * n) :
    BitVec.ofNat w (ofLeBytes (leBytes n x.toNat)) = x := by
  have bound : x.toNat < 256 ^ n := by
    rw [show 256 ^ n = 2 ^ (8 * n) by rw [Nat.pow_mul]]
    exact x.isLt.trans_le (Nat.pow_le_pow_right (by decide) fits)
  rw [ofLeBytes_leBytes, Nat.mod_eq_of_lt bound, BitVec.ofNat_toNat, BitVec.setWidth_eq]

/-! ## Link messages -/

/-- A message whose type, length and fields pass the checks stands for its command (R148). -/
theorem decode_envelope {r : Radio} {type : Byte} {p : List Byte} {c : Instr} (short : p.length < 256)
    (known : isRadioType type = true) (allowed : lengthAllowed type p = true) (fields : messageFields r type p = some c) :
    decodeMessage r (envelope type p) = some c := by
  have length : (BitVec.ofNat 8 p.length).toNat = p.length := by
    rw [BitVec.toNat_ofNat]
    exact Nat.mod_eq_of_lt short
  have complete : (0x5A : Byte) = 0x5A
      ∧ (p ++ [crc8 (BitVec.ofNat 8 p.length :: type :: p)]).length = (BitVec.ofNat 8 p.length).toNat + 1 := by
    rw [length, List.length_append, List.length_singleton]
    exact ⟨rfl, rfl⟩
  have decoded : decodeMessage r (envelope type p)
      = some (checkMessage r type
          ((p ++ [crc8 (BitVec.ofNat 8 p.length :: type :: p)]).take (BitVec.ofNat 8 p.length).toNat)
          (byteAt (p ++ [crc8 (BitVec.ofNat 8 p.length :: type :: p)]) (BitVec.ofNat 8 p.length).toNat)) := if_pos complete
  have check : byteAt (p ++ [crc8 (BitVec.ofNat 8 p.length :: type :: p)]) p.length
      = crc8 (BitVec.ofNat 8 p.length :: type :: p) := by
    simp [byteAt]
  rw [decoded, length, List.take_left, check]
  simp [checkMessage, known, allowed, fields]

theorem decode_hello (r : Radio) (version : Byte) (bands : BandSet) (width : MaxWidth) :
    decodeMessage r (envelope 1 (version :: u8 (BandSet.code bands) ++ u8 (MaxWidth.cells width)))
      = some (.hello r version bands width) := by
  refine decode_envelope (show 3 < 256 by decide) rfl rfl ?_
  cases bands <;> cases width <;> rfl

theorem decode_samples {levels : List (BitVec 16)} (r : Radio) (first : Time) (eight : levels.length = 8) :
    decodeMessage r (envelope 3 (timeBytes first ++ levels.flatMap fun q => u16 q.toNat))
      = some (.samples r first levels) := by
  match levels, eight with
  | [q0, q1, q2, q3, q4, q5, q6, q7], _ =>
    refine decode_envelope (show 20 < 256 by decide) rfl rfl ?_
    show some (Instr.samples r (BitVec.ofNat 32 (ofLeBytes (leBytes 4 first.toNat)))
      [BitVec.ofNat 16 (ofLeBytes (leBytes 2 q0.toNat)), BitVec.ofNat 16 (ofLeBytes (leBytes 2 q1.toNat)),
        BitVec.ofNat 16 (ofLeBytes (leBytes 2 q2.toNat)), BitVec.ofNat 16 (ofLeBytes (leBytes 2 q3.toNat)),
        BitVec.ofNat 16 (ofLeBytes (leBytes 2 q4.toNat)), BitVec.ofNat 16 (ofLeBytes (leBytes 2 q5.toNat)),
        BitVec.ofNat 16 (ofLeBytes (leBytes 2 q6.toNat)), BitVec.ofNat 16 (ofLeBytes (leBytes 2 q7.toNat))]) = _
    simp only [ofNat_leBytes 4 first (by decide), fun q : BitVec 16 => ofNat_leBytes 2 q (by decide)]

theorem decode_windowRequest (r : Radio) (q : WindowAsk) :
    decodeMessage r (envelope 5 ([q.id, q.cls] ++ u16 q.length.toNat ++ timeBytes q.earliest ++ timeBytes q.latest ++ [q.flags]))
      = some (.windowRequest r q) := by
  refine decode_envelope (show 13 < 256 by decide) rfl rfl ?_
  show some (Instr.windowRequest r
    { id := q.id
      cls := q.cls
      length := BitVec.ofNat 16 (ofLeBytes (leBytes 2 q.length.toNat))
      earliest := BitVec.ofNat 32 (ofLeBytes (leBytes 4 q.earliest.toNat))
      latest := BitVec.ofNat 32 (ofLeBytes (leBytes 4 q.latest.toNat))
      flags := q.flags }) = _
  rw [ofNat_leBytes 2 q.length (by decide), ofNat_leBytes 4 q.earliest (by decide), ofNat_leBytes 4 q.latest (by decide)]

theorem lengthAllowed_heard {p : List Byte} {flags : Byte} (given : byteAt p 5 = flags)
    (length : p.length = heardLength flags) : lengthAllowed 4 p = true := by
  have least : 6 ≤ p.length := by
    rw [length, heardLength]
    omega
  have allowed : lengthAllowed 4 p = (decide (6 ≤ p.length) && p.length == heardLength (byteAt p 5)) := rfl
  rw [allowed, given, length]
  simp [← length, least]

/-- A HEARD's command by its presence flags (R168). -/
theorem heardOf_eq {r : Radio} {p : List Byte} {flags : Byte} {kind : HeardKind} (given : byteAt p 5 = flags)
    (kindIs : byteAt p 4 = BitVec.ofNat 8 (HeardKind.code kind)) (clear : flags.toNat < 4) :
    heardOf r p
      = some (.heard r
          { airtime := BitVec.ofNat 16 (numAt p 0 2)
            level := BitVec.ofNat 16 (numAt p 2 2)
            kind := kind
            bss := if flags.getLsbD 0 then some (BitVec.ofNat 48 (numAt p 6 6)) else none
            capsule := if flags.getLsbD 1 then some (p.drop (if flags.getLsbD 0 then 12 else 6)) else none }) := by
  have known : heardKindOf (byteAt p 4) = some kind := by
    rw [kindIs]
    cases kind <;> rfl
  rw [heardOf, given, known]
  exact if_pos clear

theorem decode_heard {h : Summary} (r : Radio) (wf : h.wf = true) :
    decodeMessage r (envelope 4 (heardPayload h)) = some (.heard r h) := by
  obtain ⟨airtime, level, kind, bss, capsule⟩ := h
  have word : ∀ q : BitVec 16, BitVec.ofNat 16 (ofLeBytes (leBytes 2 q.toNat)) = q := fun q => ofNat_leBytes 2 q (by decide)
  have id : ∀ q : BssId, BitVec.ofNat 48 (ofLeBytes (leBytes 6 q.toNat)) = q := fun q => ofNat_leBytes 6 q (by decide)
  have decoded {flags : Byte} (given : byteAt (heardPayload ⟨airtime, level, kind, bss, capsule⟩) 5 = flags)
      (clear : flags.toNat < 4) (length : (heardPayload ⟨airtime, level, kind, bss, capsule⟩).length = heardLength flags)
      (hb : (if flags.getLsbD 0 then some (BitVec.ofNat 48 (numAt (heardPayload ⟨airtime, level, kind, bss, capsule⟩) 6 6))
        else none) = bss)
      (hc : (if flags.getLsbD 1 then some ((heardPayload ⟨airtime, level, kind, bss, capsule⟩).drop
        (if flags.getLsbD 0 then 12 else 6)) else none) = capsule) :
      decodeMessage r (envelope 4 (heardPayload ⟨airtime, level, kind, bss, capsule⟩))
        = some (.heard r ⟨airtime, level, kind, bss, capsule⟩) := by
    have short : heardLength flags < 256 := by
      unfold heardLength
      split_ifs <;> decide
    refine decode_envelope (length ▸ short) rfl (lengthAllowed_heard given length) ?_
    refine (heardOf_eq given rfl clear).trans ?_
    rw [hb, hc]
    show some (Instr.heard r ⟨BitVec.ofNat 16 (ofLeBytes (leBytes 2 airtime.toNat)),
      BitVec.ofNat 16 (ofLeBytes (leBytes 2 level.toNat)), kind, bss, capsule⟩) = _
    rw [word, word]
  cases capsule with
  | none =>
    cases bss with
    | none => exact decoded (flags := 0) rfl (by decide) rfl rfl rfl
    | some x => exact decoded (flags := 1) rfl (by decide) rfl (congrArg some (id x)) rfl
  | some c =>
    have len : c.length = 24 := beq_iff_eq.mp wf
    cases bss with
    | none => exact decoded (flags := 2) rfl (by decide) (congrArg (· + 6) len) rfl rfl
    | some x => exact decoded (flags := 3) rfl (by decide) (congrArg (· + 12) len) (congrArg some (id x)) rfl

/-- The radio of a message that is no batch and no heard frame. -/
theorem radio_of_about {c : Instr} {q r : Radio} (is : aboutRadio c = some q)
    (about : aboutRadio c = some r ∨ (∃ f l, c = .samples r f l) ∨ ∃ h, c = .heard r h) : q = r := by
  rcases about with same | ⟨f, l, rfl⟩ | ⟨h, rfl⟩
  · exact Option.some.inj (is.symm.trans same)
  · cases is
  · cases is

/-- The bytes of a link message stand for it (R148, R168). -/
theorem decodeMessage_encodeMessage {c : Instr} {r : Radio} {bytes : List Byte} (wf : c.wf = true)
    (encoded : encodeMessage c = some bytes)
    (about : aboutRadio c = some r ∨ (∃ f l, c = .samples r f l) ∨ ∃ h, c = .heard r h) :
    decodeMessage r bytes = some c := by
  cases c with
  | hello q version bands width =>
    cases encoded
    cases radio_of_about rfl about
    exact decode_hello _ _ _ _
  | keepalive q =>
    cases encoded
    cases radio_of_about rfl about
    exact decode_envelope (show 0 < 256 by decide) rfl rfl rfl
  | samples q f levels =>
    cases encoded
    obtain rfl : q = r := by
      rcases about with same | ⟨f, l, same⟩ | ⟨h, same⟩ <;> cases same
      rfl
    exact decode_samples _ _ (beq_iff_eq.mp wf)
  | heard q h =>
    cases encoded
    obtain rfl : q = r := by
      rcases about with same | ⟨f, l, same⟩ | ⟨h, same⟩ <;> cases same
      rfl
    exact decode_heard _ wf
  | windowRequest q ask =>
    cases encoded
    cases radio_of_about rfl about
    exact decode_windowRequest _ _
  | release q id =>
    cases encoded
    cases radio_of_about rfl about
    exact decode_envelope (show 1 < 256 by decide) rfl rfl rfl
  | tuned q start width =>
    cases encoded
    cases radio_of_about rfl about
    exact decode_envelope (show 2 < 256 by decide) rfl rfl rfl
  | moved q id =>
    cases encoded
    cases radio_of_about rfl about
    exact decode_envelope (show 1 < 256 by decide) rfl rfl rfl
  | decline q id reason =>
    cases encoded
    cases radio_of_about rfl about
    exact decode_envelope (show 2 < 256 by decide) rfl rfl rfl
  | _ => cases encoded

/-! ## Host transactions -/

/-- A frame whose argument length is its code's stands for the code's command (R158, R169). -/
theorem decode_frame {code : Byte} {x : List Byte} (other : code ≠ fetchCode) (short : x.length < 256)
    (length : argumentLength code = some x.length) : decodeTransaction (frame code x) = hostCommand code x := by
  have size : (BitVec.ofNat 8 x.length).toNat + 256 * (BitVec.ofNat 8 (x.length / 256)).toNat = x.length := by
    rw [BitVec.toNat_ofNat, BitVec.toNat_ofNat]
    omega
  have framed : decodeFrame code (u16 x.length ++ x)
      = (if x.length < (BitVec.ofNat 8 x.length).toNat + 256 * (BitVec.ofNat 8 (x.length / 256)).toNat then
          .malformedCommand .argumentsIncomplete
        else match argumentLength code with
          | none => .malformedCommand .noSuchCode
          | some k =>
            if (BitVec.ofNat 8 x.length).toNat + 256 * (BitVec.ofNat 8 (x.length / 256)).toNat = k then
              hostCommand code
                (x.take ((BitVec.ofNat 8 x.length).toNat + 256 * (BitVec.ofNat 8 (x.length / 256)).toNat))
            else .malformedCommand .wrongLength) := rfl
  have unfetched : decodeTransaction (frame code x) = decodeFrame code (u16 x.length ++ x) := if_neg other
  rw [unfetched, framed, size, length]
  simp

theorem decode_setReaction (kind reaction scope : Byte) (filter extension : BitVec 16) :
    decodeTransaction (frame 0x04 ([kind, reaction, scope] ++ u16 filter.toNat ++ u16 extension.toNat))
      = .setReaction kind reaction scope filter extension := by
  refine (decode_frame (x := [kind, reaction, scope] ++ u16 filter.toNat ++ u16 extension.toNat) (by decide)
    (show 7 < 256 by decide) rfl).trans ?_
  show Instr.setReaction kind reaction scope (BitVec.ofNat 16 (ofLeBytes (leBytes 2 filter.toNat)))
    (BitVec.ofNat 16 (ofLeBytes (leBytes 2 extension.toNat))) = _
  rw [ofNat_leBytes 2 filter (by decide), ofNat_leBytes 2 extension (by decide)]

theorem decode_setParameter (id : Byte) (value : BitVec 32) :
    decodeTransaction (frame 0x05 (id :: leBytes 4 value.toNat)) = .setParameter id value := by
  refine (decode_frame (x := id :: leBytes 4 value.toNat) (by decide)
    (show 5 < 256 by decide) rfl).trans ?_
  show Instr.setParameter id (BitVec.ofNat 32 (ofLeBytes (leBytes 4 value.toNat))) = _
  rw [ofNat_leBytes 4 value (by decide)]

theorem decode_loadOwn (index flag : Byte) (bss : BssId) :
    decodeTransaction (frame 0x0B ([index, flag] ++ leBytes 6 bss.toNat)) = .loadOwn index flag bss := by
  refine (decode_frame (x := [index, flag] ++ leBytes 6 bss.toNat) (by decide)
    (show 8 < 256 by decide) rfl).trans ?_
  show Instr.loadOwn index flag (BitVec.ofNat 48 (ofLeBytes (leBytes 6 bss.toNat))) = _
  rw [ofNat_leBytes 6 bss (by decide)]

theorem decode_loadSignature (index enable : Byte) (mask : BitVec 24) (expected : BitVec 16) (action : Byte) :
    decodeTransaction (frame 0x0C ([index, enable] ++ leBytes 3 mask.toNat ++ u16 expected.toNat ++ [action]))
      = .loadSignature index enable mask expected action := by
  refine (decode_frame (x := [index, enable] ++ leBytes 3 mask.toNat ++ u16 expected.toNat ++ [action]) (by decide)
    (show 8 < 256 by decide) rfl).trans ?_
  show Instr.loadSignature index enable (BitVec.ofNat 24 (ofLeBytes (leBytes 3 mask.toNat)))
    (BitVec.ofNat 16 (ofLeBytes (leBytes 2 expected.toNat))) action = _
  rw [ofNat_leBytes 3 mask (by decide), ofNat_leBytes 2 expected (by decide)]

/-- The bytes of a host transaction stand for its command (R158, R169). -/
theorem decodeTransaction_encodeTransaction {c : Instr} {bytes : List Byte} (encoded : encodeTransaction c = some bytes) :
    decodeTransaction bytes = c := by
  cases c with
  | emptyTransaction => cases encoded; rfl
  | fetch n =>
    cases encoded
    exact congrArg Instr.fetch (List.length_replicate (n := n) (a := (0 : Byte)))
  | setReaction => cases encoded; exact decode_setReaction _ _ _ _ _
  | setParameter => cases encoded; exact decode_setParameter _ _
  | loadOwn => cases encoded; exact decode_loadOwn _ _ _
  | loadSignature => cases encoded; exact decode_loadSignature _ _ _ _ _
  | status | readTracker | clearNeighbours | run | setup | softReset =>
    cases encoded
    exact decode_frame (by decide) (show 0 < 256 by decide) rfl
  | getParameter | deletePlanEntry | readCosts | withdraw | restore =>
    cases encoded
    exact decode_frame (by decide) (show 1 < 256 by decide) rfl
  | readConditions | clearLatch | setKeepClear | readCells | readNeighbours | readRadio | move =>
    cases encoded
    exact decode_frame (by decide) (show 2 < 256 by decide) rfl
  | setSpan =>
    cases encoded
    exact decode_frame (by decide) (show 3 < 256 by decide) rfl
  | loadPlanEntry =>
    cases encoded
    exact decode_frame (by decide) (show 4 < 256 by decide) rfl
  | _ => cases encoded

/-- Settles O53. -/
theorem framesDecodeToThemselves : Obligations.FramesDecodeToThemselves :=
  ⟨fun _ _ _ => decodeMessage_encodeMessage, fun _ _ => decodeTransaction_encodeTransaction⟩

end Sys2Proof.Machine
end

