-- ==== Sys2Proof/Proofs/WindowRequests.lean ====
section
/-! PROOF. A WINDOW REQUEST: the answers that turn it away, the requests taken, and the grant by the review of the same event
(R104 to R107, R110, R112): O39, O40 and O41. -/

namespace Sys2Proof.Machine

variable {env : Env} {r : Radio}

/-! ## Answers -/

theorem sendRefuse_eq (b : Blocks) (id : Byte) (cause : RefuseCause) :
    b.sendRefuse r id cause = b.modLink r fun k =>
      let k := k.issue (.refuse id cause)
      { k with counters := { k.counters with refusals := min (k.counters.refusals + 1) 65535 } } :=
  Blocks.modLink_modLink b r _ _

theorem sendRetry_eq (b : Blocks) (id : Byte) (cause : RetryCause) (hint : Time) :
    b.sendRetry r id cause hint = b.modLink r fun k =>
      let k := k.issue (.retry id cause hint)
      { k with counters := { k.counters with retries := min (k.counters.retries + 1) 65535 } } :=
  Blocks.modLink_modLink b r _ _

theorem sendGrant_eq (b : Blocks) (id : Byte) (start : Time) (length : Nat) :
    b.sendGrant r id start length false = b.modLink r fun k =>
      let k := k.issue (.grant id start length false)
      { k with counters := { k.counters with grantsIssued := min (k.counters.grantsIssued + 1) 65535 } } :=
  Blocks.modLink_modLink b r _ _

/-! ## The form of a request -/

theorem classOf_eq_none {x : Byte} : classOf x = none ↔ 4 ≤ x.toNat := by
  unfold classOf
  generalize x.toNat = n
  match n with
  | 0 | 1 | 2 | 3 => simp
  | n + 4 => simp

theorem classOf_eq_bulk {x : Byte} : classOf x = some .bulk ↔ x = 3 := by
  rw [← BitVec.toNat_inj]
  unfold classOf
  split <;> simp_all

/-- The checks of R104 that BAD REQUEST answers. -/
def badForm (b : Blocks) (r : Radio) (q : WindowAsk) : Prop :=
  4 ≤ q.cls.toNat ∨ q.length = 0 ∨ Time.before q.latest q.earliest = true ∨ idLive b r q.id = true

theorem formFault_bad {b : Blocks} {q : WindowAsk} (bad : badForm b r q) : formFault env b r q = some .badRequest := by
  unfold formFault
  split_ifs with cls length order live
  · rfl
  · rfl
  · rfl
  · rfl
  all_goals
    rcases bad with bad | bad | bad | bad
    · exact absurd (by rw [classOf_eq_none.mpr bad]; rfl) cls
    · exact absurd bad length
    · exact absurd bad order
    · exact absurd bad live

theorem formFault_good {b : Blocks} {q : WindowAsk} (good : ¬ badForm b r q) :
    formFault env b r q = if Time.before q.latest env.now then some .deadline else none := by
  simp only [badForm, not_or] at good
  obtain ⟨cls, length, order, live⟩ := good
  have known : ¬ (classOf q.cls).isNone = true := fun h => cls (classOf_eq_none.mp (Option.isNone_iff_eq_none.mp h))
  unfold formFault
  rw [if_neg known, if_neg length, if_neg order, if_neg live]

theorem exec_windowRequest_up {s : State} (up : (s.blocks.links.get r).port = .up) (q : WindowAsk) :
    exec (.windowRequest r q) s = .next { s with blocks := takeRequest s.env r q (heardOn s.env r s.blocks) } :=
  next_blocks (receive_of_up up _ _)

theorem takeRequest_fault {b : Blocks} {q : WindowAsk} {cause : RefuseCause} (fault : formFault env b r q = some cause) :
    takeRequest env r q b = b.sendRefuse r q.id cause := by
  rw [takeRequest, fault]

theorem takeRequest_run {b : Blocks} {q : WindowAsk} {cls : ReqClass} (fault : formFault env b r q = none)
    (known : classOf q.cls = some cls) (run : env.mode = .run) :
    takeRequest env r q b = requestInRun env r (requestOf env b r q cls) b := by
  rw [takeRequest, fault, known]
  simp only [run]

theorem takeRequest_setup {b : Blocks} {q : WindowAsk} {cls : ReqClass} (fault : formFault env b r q = none)
    (known : classOf q.cls = some cls) (setup : env.mode = .setup) :
    takeRequest env r q b
      = passThrough env r q.id (requestOf env b r q cls).length (requestOf env b r q cls).shortenable b := by
  rw [takeRequest, fault, known]
  simp only [setup]
  rfl

/-! ## The gate of R105 -/

theorem channelBarred_iff {b : Blocks} :
    channelBarred env b r = true ↔ ∃ k ∈ operatingCells b r, guardLevel env b.monitor k = .barred := by
  simp [channelBarred]

section Gate
variable {b : Blocks}

theorem gate_withdrawn (h : (b.chans.get r).withdrawn = true) : gate env b r = some (.refuse .withdrawn) := if_pos h

theorem gate_noChannel (present : (b.chans.get r).withdrawn = false) (h : (b.chans.get r).operating = none) :
    gate env b r = some (.refuse .noChannel) := by
  simp [gate, present, h]

theorem gate_clash (present : (b.chans.get r).withdrawn = false) (operating : (b.chans.get r).operating ≠ none)
    (h : (b.chans.get r).clash = true) : gate env b r = some (.refuse .clash) := by
  simp [gate, present, operating, h]

theorem gate_isolated (present : (b.chans.get r).withdrawn = false) (operating : (b.chans.get r).operating ≠ none)
    (clear : (b.chans.get r).clash = false) (h : (b.chans.get r).isolated = true) :
    gate env b r = some (.refuse .isolated) := by
  simp [gate, present, operating, clear, h]

theorem gate_served (present : (b.chans.get r).withdrawn = false) (operating : (b.chans.get r).operating ≠ none)
    (clear : (b.chans.get r).clash = false) (joined : (b.chans.get r).isolated = false) :
    gate env b r = if channelBarred env b r then some (.refuse .barred)
      else if (b.chans.get r).directive.isSome then some .retryMoving else none := by
  simp [gate, present, operating, clear, joined]

end Gate

theorem requestInRun_gate {b : Blocks} {q : Request} {x : GateAnswer} (h : gate env b r = some x) :
    requestInRun env r q b = answerGate b r q.id x := by
  rw [requestInRun, h]

theorem requestInRun_open {b : Blocks} {q : Request} (h : gate env b r = none) :
    requestInRun env r q b
      = if q.posted then
          if postedLimitCount ≤ (b.sched.radios.get r).posted.length then b.sendRetry r q.id .full 0 else joinPosted r q b
        else if waitLimitCount ≤ (b.sched.radios.get r).waits.length then b.sendRetry r q.id .full 0
        else joinWaits env r q b := by
  rw [requestInRun, h]

/-- Settles O39. -/
theorem requestsTurnedAway : Obligations.RequestsTurnedAway := by
  intro r q s up b c x after refused retried badForm' late barred run asksPosted
  have isBad : badForm' ↔ badForm b r q := Iff.rfl
  have taken (b' : Blocks) (h : takeRequest s.env r q b = b') : exec (.windowRequest r q) s = after b' :=
    (exec_windowRequest_up up q).trans (next_blocks h)
  have refusal (cause : RefuseCause) (h : takeRequest s.env r q b = b.sendRefuse r q.id cause) :
      exec (.windowRequest r q) s = refused cause := taken _ (h.trans (sendRefuse_eq _ _ _))
  have retrial (cause : RetryCause) (h : takeRequest s.env r q b = b.sendRetry r q.id cause 0) :
      exec (.windowRequest r q) s = retried cause := taken _ (h.trans (sendRetry_eq _ _ _ _))
  refine ⟨fun bad => refusal _ (takeRequest_fault (formFault_bad bad)), fun good isLate => ?_, fun good timely isRun => ?_⟩
  · exact refusal _ (takeRequest_fault ((formFault_good good).trans (if_pos isLate)))
  · have sound : formFault s.env b r q = none := (formFault_good good).trans (if_neg timely)
    obtain ⟨cls, known⟩ : ∃ cls, classOf q.cls = some cls :=
      Option.ne_none_iff_exists'.mp fun h => good (.inl (classOf_eq_none.mp h))
    have inRun := takeRequest_run sound known isRun
    have gated (cause : RefuseCause) (h : gate s.env b r = some (.refuse cause)) :
        exec (.windowRequest r q) s = refused cause := refusal _ (inRun.trans (requestInRun_gate h))
    refine ⟨fun h => gated _ (gate_withdrawn h), fun present => ⟨fun h => gated _ (gate_noChannel present h),
      fun operating h => gated _ (gate_clash present operating h),
      fun operating clear h => gated _ (gate_isolated present operating clear h), fun operating clear joined => ?_⟩⟩
    have served : gate s.env b r = _ := gate_served (b := b) present operating clear joined
    have isBarred : channelBarred s.env b r = true ↔ barred := channelBarred_iff
    have isPosted : (requestOf s.env b r q cls).posted = true ↔ asksPosted := by
      show (q.flags.getLsbD 1 && cls == .bulk) = true ↔ _
      rw [Bool.and_eq_true, beq_iff_eq, and_comm, ← Option.some_inj, ← known, classOf_eq_bulk]
    have open' (free : ¬ barred) (still : c.directive = none) : gate s.env b r = none := by
      rw [served, if_neg (mt isBarred.mp free)]
      exact if_neg (by rw [show (b.chans.get r).directive = none from still]; decide)
    refine ⟨fun h => gated _ (served.trans (if_pos (isBarred.mpr h))), fun free moving => ?_, fun free still posts full => ?_,
      fun free still posts full => ?_⟩
    · refine retrial _ (inRun.trans (requestInRun_gate (x := .retryMoving) ?_))
      rw [served, if_neg (mt isBarred.mp free)]
      exact if_pos (Option.isSome_iff_ne_none.mpr moving)
    · exact retrial _ (inRun.trans ((requestInRun_open (open' free still)).trans
        ((if_pos (isPosted.mpr posts)).trans (if_pos full))))
    · exact retrial _ (inRun.trans ((requestInRun_open (open' free still)).trans
        ((if_neg (mt isPosted.mp posts)).trans (if_pos full))))

/-- Settles O40. -/
theorem requestsTaken : Obligations.RequestsTaken := by
  intro r q cls s up known some order fresh timely b p cap length shortenable g joining
  have good : ¬ badForm b r q := by
    rintro (bad | bad | bad | bad)
    · rw [classOf_eq_none.mpr bad] at known
      cases known
    · exact some bad
    · exact absurd order (by rw [bad]; decide)
    · exact absurd fresh (by rw [show idLive s.blocks r q.id = true from bad]; decide)
  have sound : formFault s.env b r q = none := (formFault_good good).trans (if_neg (ne_true_of_eq_false timely))
  have taken := exec_windowRequest_up up q
  have capped : (requestOf s.env b r q cls).length = length := by
    cases cls <;> rfl
  refine ⟨fun setup => ?_, fun run bulk posts gated room => ?_⟩
  · refine taken.trans (next_blocks ((takeRequest_setup sound known setup).trans ?_))
    rw [capped, passThrough]
    exact sendGrant_eq _ _ _ _
  · have inRun := (takeRequest_run sound known run).trans (requestInRun_open (b := b) gated)
    have isPosted : (requestOf s.env b r q cls).posted = true := by
      show (q.flags.getLsbD 1 && cls == .bulk) = true
      rw [posts, bulk]
      rfl
    have few : ¬ postedLimitCount ≤ (b.sched.radios.get r).posted.length := Nat.not_le.mpr room
    refine taken.trans (next_blocks (inRun.trans ((if_pos isPosted).trans ((if_neg few).trans ?_))))
    have isJoining : requestOf s.env b r q cls = joining := by
      show (⟨r, q.id, cls, (requestOf s.env b r q cls).length, q.earliest, q.latest, shortenable,
        (requestOf s.env b r q cls).posted, b.sched.arrivals, none⟩ : Request) = joining
      rw [capped, isPosted]
      rfl
    rw [isJoining, joinPosted]
    simp only [List.isEmpty_iff]
    rfl

/-! ## A request granted by the review of its own event -/

/-- Of distinct radios, only one of which has something. -/
theorem flatMap_single {α : Type} {l : List Radio} (nodup : l.Nodup) {r : Radio} (mem : r ∈ l) {f : Radio → List α} {xs : List α}
    (own : f r = xs) (others : ∀ q, q ≠ r → f q = []) : l.flatMap f = xs := by
  induction l with
  | nil => cases mem
  | cons q l ih =>
    obtain ⟨fresh, rest⟩ := List.nodup_cons.mp nodup
    rw [List.flatMap_cons]
    by_cases same : q = r
    · subst same
      have none : l.flatMap f = [] := List.flatMap_eq_nil_iff.mpr fun x hx => others x fun e => fresh (e ▸ hx)
      rw [own, none, List.append_nil]
    · rw [others q same, List.nil_append, ih rest ((List.mem_cons.mp mem).resolve_left (Ne.symm same))]

theorem members_nodup (env : Env) (b : Blocks) (a : AirId) : (members env b a).Nodup :=
  List.Nodup.filter _ (by decide)

theorem mem_members_of_airOf {b : Blocks} {a : AirId} (home : airOf env b r = some a) : r ∈ members env b a :=
  List.mem_filter.mpr ⟨by cases r <;> decide, by rw [home]; exact beq_self_eq_true _⟩

/-- A waiting request placed in a review (R110, R112). -/
theorem reviewWaiting_placed {v : Review} {a : AirId} {q : Request} {p : Placement}
    (unbarred : channelBarred env v.blocks q.radio = false) (found : findWindow env v.blocks (v.blocks.air a) q = some p)
    (timely : Time.after p.start q.latest = false) (soon : withinLead env p = true) (admitted : v.admits a p = true) :
    reviewWaiting env a v q
      = { v with blocks := enterGrant env a q p (v.blocks.modSched q.radio fun x => x.dropWait q.id) } := by
  simp [reviewWaiting, unbarred, found, timely, soon, admitted]

/-- The grant of a placed candidate (R112). -/
def placedGrant (env : Env) (q : Request) (p : Placement) : Grant :=
  { radio := q.radio
    id := q.id
    start := p.start
    stop := p.stop
    shortenable := q.shortenable
    shortened := p.shortened
    exposed := false
    state := if p.start = env.now then .active else .scheduled }

theorem enterGrant_eq (a : AirId) (q : Request) (p : Placement) (b : Blocks) :
    enterGrant env a q p b
      = (b.modAir a fun x => { x with grant := some (placedGrant env q p) }).sendGrant q.radio q.id p.start p.length
          p.shortened := rfl

theorem enterGrant_air (a : AirId) (q : Request) (p : Placement) (b : Blocks) :
    (enterGrant env a q p b).air a = { b.air a with grant := some (placedGrant env q p) } := by
  exact Blocks.modAir_air_same b a fun x => { x with grant := some (placedGrant env q p) }

theorem enterGrant_air_other {a k : AirId} (q : Request) (p : Placement) (b : Blocks) (other : k ≠ a) :
    (enterGrant env a q p b).air k = b.air k :=
  Blocks.modAir_air_other b (fun x => { x with grant := some (placedGrant env q p) }) other

theorem enterGrant_sentLast (a : AirId) (q : Request) (p : Placement) (b : Blocks) :
    sentLast ((enterGrant env a q p b).links.get q.radio) (.grant q.id p.start p.length p.shortened) := by
  rw [enterGrant_eq]
  exact sentLast_count (sentLast_send _ _ _) _

/-- A review whose only candidate is one waiting request that can be placed at once (R110, R112). -/
theorem reviewAir_single {b : Blocks} {a : AirId} {q : Request} {p : Placement} (home : airOf env b r = some a)
    (alone : ∀ x, x ≠ r → (b.sched.radios.get x).waits = []) (waits : (b.sched.radios.get r).waits = [q])
    (posted : ∀ x, (b.sched.radios.get x).posted = []) (free : (b.air a).grant = none)
    (unbarred : channelBarred env b q.radio = false) (found : findWindow env b (b.air a) q = some p)
    (timely : Time.after p.start q.latest = false) (soon : withinLead env p = true) :
    reviewAir env a b
      = enterGrant env a q p ((b.modAir a fun x => { x with review := none }).modSched q.radio fun x => x.dropWait q.id) := by
  have only : SchedOnly b (b.modAir a fun x => { x with review := none }) := .modAir _ _ _
  have waiting : waitingCandidates env (b.modAir a fun x => { x with review := none }) a = [q] := by
    have one : (members env (b.modAir a fun x => { x with review := none }) a).flatMap
        (fun x => (b.sched.radios.get x).waits) = [q] :=
      flatMap_single (members_nodup _ _ _) (mem_members_of_airOf ((only.airOf env r).trans home)) waits alone
    exact congrArg sortByClass one
  have heads : headCandidates env (b.modAir a fun x => { x with review := none }) a = [] := by
    have none : (members env (b.modAir a fun x => { x with review := none }) a).flatMap
        (fun x => (b.sched.radios.get x).posted.take 1) = [] :=
      List.flatMap_eq_nil_iff.mpr fun x _ => by rw [posted x]; rfl
    exact congrArg sortByArrival none
  have air : (b.modAir a fun x => { x with review := none }).air a = { b.air a with review := none } :=
    Blocks.modAir_air_same _ _ _
  have placed : reviewWaiting env a ⟨b.modAir a fun x => { x with review := none }, [], []⟩ q
      = ⟨enterGrant env a q p ((b.modAir a fun x => { x with review := none }).modSched q.radio fun x => x.dropWait q.id), [], []⟩ := by
    refine reviewWaiting_placed ((only.channelBarred env _).trans unbarred) ?_ timely soon ?_
    · exact (findWindow_congr rfl rfl rfl (by rw [air]) (by rw [air]) env q).trans found
    · show (((b.modAir a fun x => { x with review := none }).air a).grant.isNone && _) = true
      rw [air]
      show ((b.air a).grant.isNone && _) = true
      rw [free]
      rfl
  unfold reviewAir
  dsimp only
  rw [waiting, heads, List.foldl_cons, List.foldl_nil, List.foldl_nil, placed]
  exact if_neg (by rw [enterGrant_air]; exact Bool.false_ne_true)

theorem reviewAirs_one (a : AirId) (p : AirId → Bool) (only : ∀ k, p k = true ↔ k = a) (b : Blocks) :
    reviewAirs env p b = reviewAir env a b := by
  have single : airIds.filter p = [a] := by
    have same : p = fun k => k == a := by
      funext k
      rw [Bool.eq_iff_iff, only, beq_iff_eq]
    rw [same]
    cases a <;> rfl
  rw [reviewAirs, single]
  rfl

theorem unbarred_of_gate {b : Blocks} (h : gate env b r = none) : channelBarred env b r = false := by
  unfold gate at h
  dsimp only at h
  split_ifs at h with _ _ _ _ barred _
  exact eq_false_of_ne_true barred

/-- Without shaping, on an air that is idle, a candidate's window begins at the later of now and its earliest start (R108). -/
theorem findWindow_idle {b : Blocks} {air : Air} (flat : b.sched.shaping = false) (free : air.grant = none)
    (idle : air.hold = none) (q : Request) :
    findWindow env b air q = some ⟨Time.later env.now q.earliest, q.length, false⟩ := by
  simp [findWindow, shapingApplies, flat, finderStart, free, idle, laterOpt]

/-- A radio of an air is in session (R102). -/
theorem up_of_airOf {b : Blocks} {a : AirId} (home : airOf env b r = some a) : (b.links.get r).port = .up := by
  unfold airOf at home
  split at home
  · next able =>
    simp only [eligible, Bool.and_eq_true, beq_iff_eq] at able
    exact able.1.1.1.1.1
  · cases home

theorem airOf_heardOn (b : Blocks) : airOf env (heardOn env r b) r = airOf env b r := by
  simp [airOf, eligible]

/-- The blocks with a request in a wait list (R105, R107). -/
def Blocks.withWait (b : Blocks) (r : Radio) (q : Request) : Blocks :=
  b.takeSeq.modSched r fun x => { x with waits := insertByClass q x.waits }

theorem joinWaits_eq {b : Blocks} {q : Request} {a : AirId} (home : airOf env b r = some a) :
    ∃ expiry, joinWaits env r q b = reviewAir env a (b.withWait r { q with waitExpiry := expiry }) := by
  let limit := env.retained.params.waitLimit
  let expiry := if limit = 0 then none else some (Time.plus env.now (limit * 64))
  have same : airOf env (b.withWait r { q with waitExpiry := expiry }) r = some a := home
  refine ⟨expiry, reviewAirs_one a _ (fun k => ?_) _⟩
  exact (beq_iff_eq.trans (by rw [← same]; exact eq_comm)).trans Option.some_inj

theorem withWait_first {b : Blocks} (quiet : noRequests b) (q : Request) :
    ((b.withWait r q).sched.radios.get r).waits = [q] ∧ (∀ x, x ≠ r → ((b.withWait r q).sched.radios.get x).waits = [])
      ∧ ∀ x, ((b.withWait r q).sched.radios.get x).posted = [] := by
  refine ⟨?_, fun x other => ?_, fun x => ?_⟩
  · show ((b.sched.radios.modify r _).get r).waits = [q]
    rw [PerRadio.get_modify_same, (quiet r).1]
    rfl
  · show ((b.sched.radios.modify r _).get x).waits = []
    rw [PerRadio.get_modify_other _ _ other]
    exact (quiet x).1
  · show ((b.sched.radios.modify r _).get x).posted = []
    rw [PerRadio.get_modify]
    split
    · next same => subst same; exact (quiet x).2
    · exact (quiet x).2

/-- The radio whose grant has entered an air holds that grant, when it held none before. -/
theorem gnt_of_only_grant {b : Blocks} {a : AirId} {g : Grant} (run : env.mode = .run) (grant : (b.air a).grant = some g)
    (mine : g.radio = r) (alone : ∀ k x, k ≠ a → (b.air k).grant = some x → x.radio ≠ r) (active : g.state = .active) :
    gnt env b r = true := by
  have found : grantAir b r = some a := by
    cases eq : grantAir b r with
    | none => exact absurd mine (grantAir_none eq grant)
    | some k =>
      obtain ⟨x, at', own⟩ := grantAir_some eq
      by_contra other
      exact alone k x (fun e => other (congrArg some e)) at' own
  simp [gnt, run, grantOf, found, grant, active]

/-- Settles O41. -/
theorem requestGrantedAtOnce : Obligations.RequestGrantedAtOnce := by
  intro r q cls a s known some order fresh timely run asks gated home quiet free idle flat length start reaches soon
  have up := up_of_airOf home
  have good : ¬ badForm (heardOn s.env r s.blocks) r q := by
    rintro (bad | bad | bad | bad)
    · rw [classOf_eq_none.mpr bad] at known
      cases known
    · exact some bad
    · exact absurd order (by rw [bad]; decide)
    · exact absurd fresh (by rw [show idLive s.blocks r q.id = true from bad]; decide)
  have sound : formFault s.env (heardOn s.env r s.blocks) r q = none :=
    (formFault_good good).trans (if_neg (ne_true_of_eq_false timely))
  have waits : ¬ (requestOf s.env (heardOn s.env r s.blocks) r q cls).posted = true := by
    show ¬ (q.flags.getLsbD 1 && cls == .bulk) = true
    rw [Bool.and_eq_true, beq_iff_eq]
    exact fun both => asks ⟨both.2, both.1⟩
  have room : ¬ waitLimitCount ≤ ((heardOn s.env r s.blocks).sched.radios.get r).waits.length := by
    rw [show ((heardOn s.env r s.blocks).sched.radios.get r).waits = [] from (quiet r).1]
    decide
  obtain ⟨expiry, joined⟩ := joinWaits_eq (env := s.env) (r := r) (b := heardOn s.env r s.blocks)
    (q := requestOf s.env (heardOn s.env r s.blocks) r q cls) ((airOf_heardOn _).trans home)
  have taken := (takeRequest_run sound known run).trans ((requestInRun_open (b := heardOn s.env r s.blocks) gated).trans
    ((if_neg waits).trans ((if_neg room).trans joined)))
  have only := SchedOnly.takeRequest s.env r q (heardOn s.env r s.blocks)
  obtain ⟨own, others, posted⟩ := withWait_first (r := r) (b := heardOn s.env r s.blocks) quiet
    { requestOf s.env (heardOn s.env r s.blocks) r q cls with waitExpiry := expiry }
  have placed := reviewAir_single (env := s.env) (r := r) (a := a) (p := ⟨start, length, false⟩)
    (b := (heardOn s.env r s.blocks).withWait r { requestOf s.env (heardOn s.env r s.blocks) r q cls with waitExpiry := expiry })
    ((airOf_heardOn _).trans home) others own posted free (unbarred_of_gate gated) (findWindow_idle flat free idle _) reaches soon
  have reviewed := taken.trans placed
  set waiting := (heardOn s.env r s.blocks).withWait r
    { requestOf s.env (heardOn s.env r s.blocks) r q cls with waitExpiry := expiry } with waitingIs
  have air (k : AirId) : ((waiting.modAir a fun x => { x with review := none }).air k).grant = (s.blocks.air k).grant := by
    by_cases same : k = a
    · subst same
      rw [Blocks.modAir_air_same]
      rfl
    · rw [Blocks.modAir_air_other _ _ same]
      rfl
  have granted : ((takeRequest s.env r q (heardOn s.env r s.blocks)).air a).grant = .some (placedGrant s.env
      { requestOf s.env (heardOn s.env r s.blocks) r q cls with waitExpiry := expiry } ⟨start, length, false⟩) := by
    rw [reviewed, enterGrant_air]
  refine ⟨_, exec_windowRequest_up up q, ?_, ?_, ?_, fun now none => ?_, only⟩
  · dsimp only
    rw [reviewed, enterGrant_air]
    have before : (waiting.modAir a fun x => { x with review := none }).air a = ⟨.none, .none, .none⟩ := by
      rw [Blocks.modAir_air_same, show waiting.air a = s.blocks.air a from rfl, free, idle]
    exact congrArg (fun x : Air => ({ x with grant := .some (placedGrant s.env
      { requestOf s.env (heardOn s.env r s.blocks) r q cls with waitExpiry := expiry } ⟨start, length, false⟩) } : Air)) before
  · dsimp only
    rw [reviewed]
    show ((waiting.sched.radios.modify r fun x => x.dropWait q.id).get r).waits = []
    rw [PerRadio.get_modify_same, RadioSched.dropWait, own]
    simp [requestOf]
  · dsimp only
    rw [reviewed]
    exact enterGrant_sentLast _ _ _ _
  · refine gnt_of_only_grant run granted rfl (fun k x other at' => ?_) (if_pos now)
    dsimp only at at'
    rw [reviewed, enterGrant_air_other _ _ _ other] at at'
    exact grantAir_none none ((air k).symm.trans at')

end Sys2Proof.Machine
end

