-- ==== Sys2Proof/Proofs/SchedulerEvents.lean ====
section
/-! PROOF. The scheduler's other events: REQ and GNT, the timers, the ends that a review follows, and RELEASE (R106, R111, R114,
R116 to R119, R124, R125): O43, O46, O47 and O48. -/

namespace Sys2Proof.Machine

variable {env : Env} {r : Radio}

/-! ## Looking a radio's grant and hold up -/

theorem Blocks.modAir_congr {b : Blocks} {a : AirId} {f g : Air → Air} (h : f (b.air a) = g (b.air a)) :
    b.modAir a f = b.modAir a g := by
  show { b with sched := { b.sched with airs := b.sched.airs.set a (f (b.sched.airs.get a)) } } = _
  rw [show f (b.sched.airs.get a) = g (b.sched.airs.get a) from h]
  rfl

/-- The grants of the airs decide which air holds a radio's grant. -/
theorem grantAir_congr {b b' : Blocks}
    (h : ∀ k, ((b'.air k).grant.map fun g => g.radio) = (b.air k).grant.map fun g => g.radio) : grantAir b' r = grantAir b r := by
  unfold grantAir
  refine congrArg (fun p => airIds.find? p) (funext fun k => ?_)
  have same := h k
  cases x : (b'.air k).grant <;> cases y : (b.air k).grant <;> rw [x, y] at same <;> simp_all

theorem holdAir_isSome {b : Blocks} {a : AirId} {h : Hold} (at' : (b.air a).hold = some h) (mine : h.radio = r) :
    (holdAir b r).isSome = true := by
  refine List.find?_isSome.mpr ⟨a, mem_airIds a, ?_⟩
  rw [at']
  exact beq_iff_eq.mpr mine

theorem gnt_of_hold {b : Blocks} {a : AirId} {h : Hold} (run : env.mode = .run) (at' : (b.air a).hold = some h)
    (mine : h.radio = r) : gnt env b r = true := by
  simp [gnt, run, holdAir_isSome at' mine]

theorem gnt_of_grant {b : Blocks} {a : AirId} {g : Grant} (run : env.mode = .run) (found : grantAir b r = some a)
    (grant : (b.air a).grant = some g) (active : g.state = .active) : gnt env b r = true := by
  simp [gnt, run, grantOf, found, grant, active]

/-! ## REQ -/

theorem exec_reqAssertion_high {s : State} (high : (s.blocks.links.get r).req = true) :
    exec (.reqAssertion r) s = .next s := if_pos high

theorem exec_reqAssertion_low {s : State} (low : (s.blocks.links.get r).req = false) :
    exec (.reqAssertion r) s = .next { s with blocks := match s.env.mode with
      | .setup => setReq r true s.blocks
      | .run => assertInRun s.env r (setReq r true s.blocks) } := if_neg (ne_true_of_eq_false low)

theorem exec_reqRelease_low {s : State} (low : (s.blocks.links.get r).req = false) :
    exec (.reqRelease r) s = .next s := if_neg (ne_true_of_eq_false low)

theorem exec_reqRelease_high {s : State} (high : (s.blocks.links.get r).req = true) :
    exec (.reqRelease r) s = .next { s with blocks := finishHold s.env r (setReq r false s.blocks) } := if_pos high

/-- The level of REQ decides no air (R102). -/
theorem airOf_setReq (level : Bool) (b : Blocks) : airOf env (setReq r level b) r = airOf env b r := by
  simp [airOf, eligible, setReq]

/-- The conditions of an immediate hold (R124). -/
theorem holdAllowed_iff {b : Blocks} {a : AirId} :
    holdAllowed env b r = some a ↔
      airOf env b r = some a ∧ channelBarred env b r = false ∧ (b.air a).hold = none
        ∧ (∀ g, (b.air a).grant = some g →
          Time.meets g.start g.stop env.now (Time.plus env.now env.retained.params.immediateMax) = false)
        ∧ (shapingApplies b r = true → ∀ w ∈ b.sched.prediction.windows,
          Time.meets w.start w.stop env.now (Time.plus env.now env.retained.params.immediateMax) = false) := by
  unfold holdAllowed
  cases home : airOf env b r with
  | none => simp
  | some k =>
    dsimp only
    have grants : (match (b.air k).grant with
        | none => true
        | some g => !Time.meets g.start g.stop env.now (Time.plus env.now env.retained.params.immediateMax)) = true ↔
        ∀ g, (b.air k).grant = some g →
          Time.meets g.start g.stop env.now (Time.plus env.now env.retained.params.immediateMax) = false := by
      cases (b.air k).grant <;> simp
    have windows : (!shapingApplies b r || b.sched.prediction.windows.all fun w =>
        !Time.meets w.start w.stop env.now (Time.plus env.now env.retained.params.immediateMax)) = true ↔
        (shapingApplies b r = true → ∀ w ∈ b.sched.prediction.windows,
          Time.meets w.start w.stop env.now (Time.plus env.now env.retained.params.immediateMax) = false) := by
      cases shapingApplies b r <;> simp
    rw [Option.ite_none_right_eq_some]
    rw [Bool.and_eq_true, Bool.and_eq_true, Bool.and_eq_true, Bool.not_eq_true', Option.isNone_iff_eq_none, windows]
    constructor
    · rintro ⟨⟨⟨⟨unbarred, idle⟩, clear⟩, apart⟩, same⟩
      cases same
      exact ⟨rfl, unbarred, idle, grants.mp clear, apart⟩
    · rintro ⟨same, unbarred, idle, clear, apart⟩
      cases same
      exact ⟨⟨⟨⟨unbarred, idle⟩, grants.mpr clear⟩, apart⟩, rfl⟩

theorem holdAllowed_setReq (level : Bool) (b : Blocks) : holdAllowed env (setReq r level b) r = holdAllowed env b r := by
  unfold holdAllowed
  rw [airOf_setReq]
  rfl

theorem immediateHold_air (b : Blocks) (a : AirId) (h : Hold) (f : LinkCounters → LinkCounters) :
    (((b.modAir a fun x => { x with hold := some h }).count r f).air a).hold = some h :=
  congrArg Air.hold (Blocks.modAir_air_same b a fun x => { x with hold := some h })

/-- Settles O46. -/
theorem reqAndGnt : Obligations.ReqAndGnt := by
  intro r s level after meetsHold allowed
  have isAllowed (a : AirId) : holdAllowed s.env (setReq r true s.blocks) r = some a ↔ allowed a := by
    rw [holdAllowed_setReq]
    exact holdAllowed_iff
  refine ⟨exec_reqAssertion_high, exec_reqRelease_low, fun low setup => ?_, fun a low run free => ?_, fun low run none => ?_,
    fun high none => ?_, fun a high holds => ?_⟩
  · have asserted := exec_reqAssertion_low low
    rw [setup] at asserted
    exact ⟨asserted, by simp [gnt, setup, level]⟩
  · have asserted := exec_reqAssertion_low low
    rw [run] at asserted
    dsimp only at asserted
    rw [assertInRun, (isAllowed a).mpr free] at asserted
    exact ⟨_, asserted, rfl, gnt_of_hold (a := a) (h := ⟨r, s.env.now, Time.plus s.env.now s.env.retained.params.immediateMax⟩)
      run (immediateHold_air _ _ _ _) rfl⟩
  · have asserted := exec_reqAssertion_low low
    rw [run] at asserted
    dsimp only at asserted
    have denied : holdAllowed s.env (setReq r true s.blocks) r = .none :=
      Option.eq_none_iff_forall_ne_some.mpr fun a h => none a ((isAllowed a).mp h)
    rw [assertInRun, denied] at asserted
    exact asserted
  · refine (exec_reqRelease_high high).trans (next_blocks ?_)
    rw [finishHold, show holdAir (setReq r false s.blocks) r = .none from none]
    rfl
  · have released := exec_reqRelease_high high
    have same : holdAir (setReq r false s.blocks) r = some a := holds
    have only := SchedOnly.finishHold s.env r (setReq r false s.blocks)
    refine ⟨_, released, ?_, ?_, only⟩
    · dsimp only
      rw [finishHold, same]
      dsimp only
      rw [(Reviewed.reviewAir a _).holds, endHoldOf, same]
      exact congrArg Air.hold (Blocks.modAir_air_same _ _ _)
    · rw [(only.links r).req]
      simp [setReq]

/-! ## The timers that touch one record -/

theorem Blocks.modSched_modSched (b : Blocks) (f g : RadioSched → RadioSched) :
    (b.modSched r f).modSched r g = b.modSched r fun x => g (f x) := by
  simp [Blocks.modSched, PerRadio.modify_modify]

theorem waitHint_eq (b : Blocks) (q : Request) :
    waitHint env b q = match (airOf env b q.radio).bind fun a => findWindow env b (b.air a) q with
      | none => 0
      | some p => p.start := by
  unfold waitHint
  cases airOf env b q.radio with
  | none => rfl
  | some a => cases h : findWindow env b (b.air a) q <;> simp [h]

theorem grantDue_eq_false_iff {b : Blocks} {id : Byte} : grantDue env b r id = false ↔
    ∀ g, grantOf b r = some g → g.id = id → ¬ Time.atOrBefore g.stop env.now = true := by
  unfold grantDue
  cases grantOf b r <;> simp

theorem startDue_iff {b : Blocks} {a : AirId} : startDue env b a = true ↔
    ∃ g, (b.air a).grant = some g ∧ g.state = .scheduled ∧ Time.atOrBefore g.start env.now = true := by
  unfold startDue
  cases (b.air a).grant <;> simp

theorem lastEndedDue_iff {b : Blocks} : lastEndedDue env b r = true ↔
    ∃ e, (b.sched.radios.get r).lastEnded = some e ∧ Time.atOrBefore (Time.plus e.stop 1000000) env.now = true :=
  Time.reached_map_iff

theorem exec_waitLimitExpiry_some {s : State} {id : Byte} {q : Request} (expired : expiredWait s.env s.blocks r id = some q) :
    exec (.waitLimitExpiry r id) s
      = .next { s with
          blocks := (s.blocks.modSched r fun x => x.dropWait id).sendRetry r id .wait (waitHint s.env s.blocks q) } := by
  refine next_blocks ?_
  dsimp only
  rw [expired]

theorem exec_waitLimitExpiry_none {s : State} {id : Byte} (none : expiredWait s.env s.blocks r id = .none) :
    exec (.waitLimitExpiry r id) s = .next s := by
  refine congrArg Host.Outcome.next (withBlocks_self ?_)
  rw [none]

theorem exec_grantExpiry_pass {s : State} {id : Byte} (others : grantDue s.env s.blocks r id = false) :
    exec (.grantExpiry r id) s
      = .next { s with blocks := match expiredPass s.env s.blocks r id with
        | none => s.blocks
        | some g => expirePass r g s.blocks } := next_blocks (if_neg (ne_true_of_eq_false others))

/-- Settles O47. -/
theorem requestAndGrantTimers : Obligations.RequestAndGrantTimers := by
  intro r id a s x after past
  refine ⟨fun q expired => ?_, fun none => ?_, fun g grant scheduled reached => ?_, fun early => ?_, fun g others expired => ?_,
    fun others early => ?_, fun e ended reached => ?_, fun early => ?_⟩
  · refine (exec_waitLimitExpiry_some expired).trans (next_blocks ?_)
    rw [sendRetry_eq, waitHint_eq]
    rfl
  · refine exec_waitLimitExpiry_none (List.find?_eq_none.mpr fun q mem both => ?_)
    rw [Bool.and_eq_true, beq_iff_eq] at both
    exact absurd both.2 (by rw [none q mem both.1]; decide)
  · have due : startDue s.env s.blocks a = true := startDue_iff.mpr ⟨g, grant, scheduled, reached⟩
    refine ⟨next_blocks ((if_pos due).trans (Blocks.modAir_congr ?_)), fun holds run => ?_⟩
    · rw [grant]
      rfl
    · refine gnt_of_grant (a := a) (g := { g with state := .active }) run ((grantAir_congr fun k => ?_).trans holds)
        (congrArg Air.grant (Blocks.modAir_air_same _ _ _)) rfl
      by_cases same : k = a
      · subst same
        rw [Blocks.modAir_air_same, grant]
        rfl
      · rw [Blocks.modAir_air_other _ _ same]
  · refine congrArg Host.Outcome.next (withBlocks_self (if_neg fun due => ?_))
    obtain ⟨g, grant, scheduled, reached⟩ := startDue_iff.mp due
    rcases early g grant with active | ahead
    · rw [active] at scheduled
      cases scheduled
    · exact ahead reached
  · have same : g.id = id := by
      have found := List.find?_some expired
      rw [Bool.and_eq_true, beq_iff_eq] at found
      exact found.1
    refine (exec_grantExpiry_pass (grantDue_eq_false_iff.mpr others)).trans (next_blocks ?_)
    rw [show expiredPass s.env s.blocks r id = some g from expired]
    dsimp only
    rw [expirePass, same]
    exact Blocks.modSched_modSched _ _ _
  · refine (exec_grantExpiry_pass (grantDue_eq_false_iff.mpr others)).trans ?_
    have none : expiredPass s.env s.blocks r id = .none := List.find?_eq_none.mpr fun g mem both => by
      rw [Bool.and_eq_true, beq_iff_eq] at both
      exact early g mem both.1 both.2
    rw [none]
  · exact next_blocks (if_pos (lastEndedDue_iff.mpr ⟨e, ended, reached⟩))
  · refine congrArg Host.Outcome.next (withBlocks_self (if_neg fun due => ?_))
    obtain ⟨e, ended, reached⟩ := lastEndedDue_iff.mp due
    exact early e ended reached

/-! ## Reviews and the ends before them -/

/-- A review writes one air, and of that air no review timer before its end (R112, R113). -/
structure OneAir (a : AirId) (b b' : Blocks) : Prop where
  others : ∀ k, k ≠ a → b'.air k = b.air k
  review : (b'.air a).review = (b.air a).review

namespace OneAir

theorem refl (a : AirId) (b : Blocks) : OneAir a b b := ⟨fun _ _ => rfl, rfl⟩

theorem trans {a : AirId} {b c d : Blocks} (h : OneAir a b c) (g : OneAir a c d) : OneAir a b d :=
  ⟨fun k other => (g.others k other).trans (h.others k other), g.review.trans h.review⟩

/-- An operation that leaves the airs alone. -/
theorem of_airs {a : AirId} {b b' : Blocks} (h : ∀ k, b'.air k = b.air k) : OneAir a b b' := ⟨fun k _ => h k, by rw [h a]⟩

theorem enterGrant (a : AirId) (q : Request) (p : Placement) (b : Blocks) : OneAir a b (enterGrant env a q p b) :=
  ⟨fun _ other => enterGrant_air_other q p b other, by rw [enterGrant_air]⟩

theorem attemptHead (a : AirId) (q : Request) (b : Blocks) : OneAir a b (attemptHead env q b) := by
  unfold Machine.attemptHead
  dsimp only
  split <;> exact of_airs fun _ => rfl

theorem reviewWaiting (a : AirId) (v : Review) (q : Request) : OneAir a v.blocks (reviewWaiting env a v q).blocks := by
  unfold Machine.reviewWaiting
  dsimp only
  repeat' split
  · exact refl _ _
  · exact of_airs fun _ => rfl
  · exact of_airs fun _ => rfl
  · exact (of_airs fun _ => rfl : OneAir a v.blocks (v.blocks.modSched q.radio fun x => x.dropWait q.id)).trans (enterGrant _ _ _ _)
  · exact refl _ _
  · exact refl _ _

theorem reviewHead (a : AirId) (v : Review) (q : Request) : OneAir a v.blocks (reviewHead env a v q).blocks := by
  unfold Machine.reviewHead
  repeat' split
  · exact refl _ _
  · exact attemptHead _ _ _
  · exact (of_airs fun _ => rfl : OneAir a v.blocks (v.blocks.modSched q.radio RadioSched.dropHead)).trans (enterGrant _ _ _ _)
  · exact attemptHead _ _ _
  · exact attemptHead _ _ _

theorem foldReview {a : AirId} {f : Review → Request → Review} (h : ∀ v q, OneAir a v.blocks (f v q).blocks)
    (l : List Request) (v : Review) : OneAir a v.blocks (l.foldl f v).blocks := by
  induction l generalizing v with
  | nil => exact refl _ _
  | cons q l ih => exact (h v q).trans (ih _)

end OneAir

/-- The other airs stand through a review, and an air that holds a grant after one has no review timer (R112, R113). -/
theorem reviewAir_airs (a : AirId) (b : Blocks) :
    (∀ k, k ≠ a → (reviewAir env a b).air k = b.air k)
      ∧ (((reviewAir env a b).air a).grant ≠ none → ((reviewAir env a b).air a).review = none) := by
  unfold reviewAir
  extract_lets begun waited v
  have walk : OneAir a begun v.blocks :=
    (OneAir.foldReview (OneAir.reviewWaiting a) _ ⟨begun, [], []⟩).trans (OneAir.foldReview (OneAir.reviewHead a) _ _)
  have start : ∀ k, k ≠ a → begun.air k = b.air k := fun k other => Blocks.modAir_air_other _ _ other
  split
  · next free =>
    refine ⟨fun k other => ?_, fun some => absurd ?_ some⟩
    · rw [Blocks.modAir_air_other _ _ other, walk.others k other, start k other]
    · rw [Blocks.modAir_air_same]
      exact Option.isNone_iff_eq_none.mp free
  · refine ⟨fun k other => (walk.others k other).trans (start k other), fun _ => walk.review.trans ?_⟩
    exact congrArg Air.review (Blocks.modAir_air_same _ _ _)

theorem reviewAir_noRequests_air {b : Blocks} (quiet : noRequests b) (a : AirId) :
    (reviewAir env a b).air a = { b.air a with review := none } := by
  rw [reviewAir_noRequests quiet, Blocks.modAir_air_same]

theorem exec_grantExpiry_due {s : State} {id : Byte} {a : AirId} {g : Grant} (held : grantAir s.blocks r = some a)
    (grant : (s.blocks.air a).grant = some g) (same : g.id = id) (reached : Time.atOrBefore g.stop s.env.now = true) :
    exec (.grantExpiry r id) s
      = .next { s with
          blocks := reviewAir s.env a ((dropGrant a s.blocks).setLastEnded r g.id g.stop .expiry) } := by
  have own : grantOf s.blocks r = some g := by rw [grantOf, held]; exact grant
  have due : grantDue s.env s.blocks r id = true := by simp [grantDue, own, same, reached]
  refine next_blocks ((if_pos due).trans ?_)
  rw [expireGrant, held, own]

/-- The end of a grant touches no request. -/
theorem setLastEnded_noRequests {b : Blocks} (quiet : noRequests b) (id : Byte) (t : Time) (how : EndManner) :
    noRequests (b.setLastEnded r id t how) := by
  intro q
  show ((b.sched.radios.modify r _).get q).waits = [] ∧ ((b.sched.radios.modify r _).get q).posted = []
  rw [PerRadio.get_modify]
  split
  · next same => subst same; exact quiet q
  · exact quiet q

theorem setLastEnded_lastEnded (b : Blocks) (id : Byte) (t : Time) (how : EndManner) :
    ((b.setLastEnded r id t how).sched.radios.get r).lastEnded = some ⟨id, t, how⟩ := by
  unfold Blocks.setLastEnded
  rw [Blocks.modSched_radios, PerRadio.get_modify_same]

theorem holdDue_iff {b : Blocks} {a : AirId} : holdDue env b a = true ↔
    ∃ h, (b.air a).hold = some h ∧ Time.atOrBefore h.stop env.now = true := Time.reached_map_iff

/-- Settles O48. -/
theorem endsAndReviews : Obligations.EndsAndReviews := by
  intro r a s past air
  refine ⟨fun g held grant reached => ?_, fun h hold reached => ?_, fun t0 timer reached => ?_, fun early => ?_, fun early => ?_⟩
  · refine ⟨_, exec_grantExpiry_due held grant rfl reached, ?_, ?_, fun quiet => ?_⟩
    · exact (SchedOnly.reviewAir _ _ _).after ((SchedOnly.setLastEnded _ _ _ _ _).after (SchedOnly.dropGrant _ _))
    · exact ((Reviewed.reviewAir a _).radios r).lastEnded.trans (setLastEnded_lastEnded _ _ _ _)
    · refine (reviewAir_noRequests_air (setLastEnded_noRequests (b := dropGrant a s.blocks) quiet _ _ _) a).trans ?_
      have dropped : ((dropGrant a s.blocks).setLastEnded r g.id g.stop .expiry).air a = { air with grant := none } :=
        Blocks.modAir_air_same s.blocks a fun x => { x with grant := none }
      rw [dropped]
  · have ended : exec (.holdEnd a) s = .next { s with
        blocks := reviewAir s.env a (s.blocks.modAir a fun x => { x with hold := none }) } :=
      next_blocks (if_pos (holdDue_iff.mpr ⟨h, hold, reached⟩))
    refine ⟨_, ended, (SchedOnly.reviewAir _ _ _).after (SchedOnly.modAir _ _ _), ?_, fun quiet => ?_⟩
    · rw [(Reviewed.reviewAir a _).holds, Blocks.modAir_air_same]
    · refine (reviewAir_noRequests_air (b := s.blocks.modAir a fun x => { x with hold := none }) quiet a).trans ?_
      rw [Blocks.modAir_air_same]
  · have due : Time.reached (s.blocks.air a).review s.env.now = true := Time.reached_iff.mpr ⟨t0, timer, reached⟩
    have reviewed : Reviewed s.env s.blocks (reviewAir s.env a s.blocks) := .reviewAir _ _
    obtain ⟨others, timerless⟩ := reviewAir_airs (env := s.env) a s.blocks
    refine ⟨_, next_blocks (if_pos due), reviewed.only, others, reviewed.holds a, reviewed.grants a,
      fun g none some => ?_, timerless, fun quiet => reviewAir_noRequests_air quiet a⟩
    have entered := reviewed.entered a g none some
    exact ⟨entered.lead, entered.active, entered.exposed⟩
  · refine congrArg Host.Outcome.next (withBlocks_self (if_neg fun due => ?_))
    obtain ⟨h, hold, reached⟩ := holdDue_iff.mp due
    exact early h hold reached
  · refine congrArg Host.Outcome.next (withBlocks_self (if_neg fun due => ?_))
    obtain ⟨t0, timer, reached⟩ := Time.reached_iff.mp due
    exact early t0 timer reached

/-! ## RELEASE -/

section Release
variable {b : Blocks} {id : Byte}

theorem ownsGrant_iff : ownsGrant b r id = true ↔ ∃ g, grantOf b r = some g ∧ g.id = id := by
  unfold ownsGrant
  cases grantOf b r <;> simp

theorem takeRelease_own (own : ownsGrant b r id = true) :
    takeRelease env r id b
      = reviewAirs env (fun k => grantAir b r == some k)
          ((endGrantOf env r .silent b).setLastEnded r id env.now .expiry) := if_pos own

theorem takeRelease_pass (own : ¬ ownsGrant b r id = true)
    (pass : (b.sched.radios.get r).passThrough.any (fun g => g.id == id) = true) :
    takeRelease env r id b
      = b.modSched r fun x => { x with passThrough := x.passThrough.filter fun g => g.id != id } :=
  (if_neg own).trans (if_pos pass)

theorem takeRelease_wait (own : ¬ ownsGrant b r id = true)
    (pass : ¬ (b.sched.radios.get r).passThrough.any (fun g => g.id == id) = true)
    (wait : (b.sched.radios.get r).waits.any (fun q => q.id == id) = true) :
    takeRelease env r id b = reviewAirs env (fun a => airOf env b r == some a) (b.modSched r fun x => x.dropWait id) :=
  (if_neg own).trans ((if_neg pass).trans (if_pos wait))

theorem takeRelease_posted (own : ¬ ownsGrant b r id = true)
    (pass : ¬ (b.sched.radios.get r).passThrough.any (fun g => g.id == id) = true)
    (wait : ¬ (b.sched.radios.get r).waits.any (fun q => q.id == id) = true)
    (posted : (b.sched.radios.get r).posted.any (fun q => q.id == id) = true) :
    ∃ f : RadioSched → RadioSched, (∀ x, (f x).posted = x.posted.filter fun q => q.id != id)
      ∧ takeRelease env r id b = reviewAirs env (fun a => airOf env b r == some a) (b.modSched r f) :=
  ⟨_, fun _ => rfl, (if_neg own).trans ((if_neg pass).trans ((if_neg wait).trans (if_pos posted)))⟩

theorem takeRelease_dead (dead : idLive b r id = false) : takeRelease env r id b = deadRelease env r id b := by
  simp only [idLive, Bool.or_eq_false_iff] at dead
  obtain ⟨⟨⟨wait, posted⟩, pass⟩, own⟩ := dead
  simp [takeRelease, own, pass, wait, posted]

theorem exec_release_up {s : State} (up : (s.blocks.links.get r).port = .up) (id : Byte) :
    exec (.release r id) s = .next { s with blocks := takeRelease s.env r id (heardOn s.env r s.blocks) } :=
  next_blocks (receive_of_up up _ _)

theorem deadRelease_stray (other : (b.sched.radios.get r).lastEnded = none
      ∨ ∃ e, (b.sched.radios.get r).lastEnded = some e ∧ e.id ≠ id) :
    deadRelease env r id b = b.count r LinkCounters.strayRelease := by
  unfold deadRelease
  rcases other with none | ⟨e, some, differs⟩
  · rw [none]
  · rw [some]
    exact if_neg differs

theorem deadRelease_known {e : LastEnded} (ended : (b.sched.radios.get r).lastEnded = some e) (same : e.id = id) :
    deadRelease env r id b
      = if e.manner = .expiry ∧ Time.after env.now (Time.plus e.stop env.retained.params.lateMargin) then
          lateRelease env r (b.modSched r fun x => { x with lastEnded := none })
        else b.modSched r fun x => { x with lastEnded := none } := by
  rw [deadRelease, ended]
  exact if_pos same

/-- A late release counted (R118, R119). -/
def Blocks.lateCounted (b : Blocks) (r : Radio) : Blocks :=
  (b.count r LinkCounters.lateRelease).modSched r fun x =>
    { x with lateCount := min ((b.sched.radios.get r).lateCount + 1) 255 }

theorem lateRelease_eq : lateRelease env r b
    = if env.retained.params.overrunLimit ≤ min ((b.sched.radios.get r).lateCount + 1) 255
          ∧ (b.sched.radios.get r).overrun = false then
        ((b.lateCounted r).modSched r fun x => { x with overrun := true }).report env (.overrun r) true
      else b.lateCounted r := by
  have same : ((b.lateCounted r).sched.radios.get r).overrun = (b.sched.radios.get r).overrun := by
    unfold Blocks.lateCounted
    rw [Blocks.modSched_radios, PerRadio.get_modify_same]
    rfl
  rw [← same]
  rfl

theorem lateCounted_get : (b.lateCounted r).sched.radios.get r
    = { b.sched.radios.get r with lateCount := min ((b.sched.radios.get r).lateCount + 1) 255 } := by
  unfold Blocks.lateCounted
  rw [Blocks.modSched_radios, PerRadio.get_modify_same]
  rfl

theorem lateRelease_get : (lateRelease env r b).sched.radios.get r
    = { b.sched.radios.get r with
        lateCount := min ((b.sched.radios.get r).lateCount + 1) 255
        overrun := (b.sched.radios.get r).overrun
          || decide (env.retained.params.overrunLimit ≤ min ((b.sched.radios.get r).lateCount + 1) 255) } := by
  rw [lateRelease_eq]
  split
  · next reached =>
    show ((b.lateCounted r).sched.radios.modify r _).get r = _
    rw [PerRadio.get_modify_same, lateCounted_get, decide_eq_true reached.1, Bool.or_true]
  · next not =>
    rw [lateCounted_get]
    cases on : (b.sched.radios.get r).overrun with
    | true => rw [Bool.true_or, ← on]
    | false =>
      have few : ¬ env.retained.params.overrunLimit ≤ min ((b.sched.radios.get r).lateCount + 1) 255 :=
        fun reached => not ⟨reached, on⟩
      rw [Bool.false_or, decide_eq_false few, ← on]

theorem lateRelease_counters :
    ((lateRelease env r b).links.get r).counters.lateReleases = min ((b.links.get r).counters.lateReleases + 1) 65535 := by
  have counted : ((b.lateCounted r).links.get r).counters.lateReleases = min ((b.links.get r).counters.lateReleases + 1) 65535 := by
    show ((b.links.modify r _).get r).counters.lateReleases = _
    rw [PerRadio.get_modify_same]
    rfl
  rw [lateRelease_eq]
  split
  · exact counted
  · exact counted

theorem lateRelease_recorded
    (reached : env.retained.params.overrunLimit ≤ min ((b.sched.radios.get r).lateCount + 1) 255)
    (off : (b.sched.radios.get r).overrun = false) : recordedOrFull (lateRelease env r b).monitor (.overrun r) := by
  rw [lateRelease_eq, if_pos ⟨reached, off⟩]
  exact Monitor.recordedOrFull_report _ _

end Release

/-- Settles O43. -/
theorem releases : Obligations.Releases := by
  intro r id s up b x mine passed waits posted dead after stray
  have taken := exec_release_up up id
  have only : SchedOnly b (b.modSched r fun x => x.dropWait id) := .modSched _ _ _
  have isMine : ownsGrant b r id = true ↔ mine := ownsGrant_iff
  have isPassed : (b.sched.radios.get r).passThrough.any (fun g => g.id == id) = true ↔ passed := by
    rw [List.any_eq_true]
    simp only [beq_iff_eq]
    exact Iff.rfl
  have isWaiting : (b.sched.radios.get r).waits.any (fun q => q.id == id) = true ↔ waits := by
    rw [List.any_eq_true]
    simp only [beq_iff_eq]
    exact Iff.rfl
  have isPosted : (b.sched.radios.get r).posted.any (fun q => q.id == id) = true ↔ posted := by
    rw [List.any_eq_true]
    simp only [beq_iff_eq]
    exact Iff.rfl
  refine ⟨fun a own held => ?_, fun other pass => ?_, fun other unpassed wait => ?_, fun other unpassed unwaiting post => ?_,
    fun gone other => ?_, fun e gone ended same => ⟨fun timely => ?_, fun expired late => ?_⟩⟩
  · have eq := takeRelease_own (env := s.env) (isMine.mpr own)
    have dropped : endGrantOf s.env r .silent b = dropGrant a b := by
      rw [endGrantOf, show grantAir b r = some a from held]
    refine ⟨_, taken, ?_, ?_, fun quiet => ?_⟩
    · dsimp only
      rw [eq]
      exact (SchedOnly.reviewAirs _ _ _).after ((SchedOnly.setLastEnded _ _ _ _ _).after (SchedOnly.endGrantOf _ _ _ _))
    · dsimp only
      rw [eq]
      exact ((Reviewed.reviewAirs _ _).radios r).lastEnded.trans (setLastEnded_lastEnded _ _ _ _)
    · dsimp only
      rw [eq, dropped, reviewAirs_noRequests_air (setLastEnded_noRequests (b := dropGrant a b) quiet _ _ _),
        if_pos (by rw [show grantAir b r = some a from held]; exact beq_self_eq_true _)]
      have air : ((dropGrant a b).setLastEnded r id s.env.now .expiry).air a = { b.air a with grant := none } :=
        Blocks.modAir_air_same b a fun x => { x with grant := none }
      rw [air]
      exact ⟨rfl, rfl⟩
  · refine taken.trans (next_blocks (takeRelease_pass (mt isMine.mp other) (isPassed.mpr pass)))
  · have eq := takeRelease_wait (env := s.env) (mt isMine.mp other) (mt isPassed.mp unpassed) (isWaiting.mpr wait)
    refine ⟨_, taken, ?_, ?_⟩
    · dsimp only
      rw [eq]
      exact (SchedOnly.reviewAirs _ _ _).after (.modSched _ _ _)
    · dsimp only
      rw [eq]
      intro q hq
      have kept := ((Reviewed.reviewAirs (env := s.env) _ _).radios r).1.mem hq
      rw [Blocks.modSched_radios, PerRadio.get_modify_same, RadioSched.dropWait, List.mem_filter] at kept
      exact ⟨kept.1, by simpa using kept.2⟩
  · obtain ⟨f, drops, eq⟩ := takeRelease_posted (env := s.env) (mt isMine.mp other) (mt isPassed.mp unpassed)
      (mt isWaiting.mp unwaiting) (isPosted.mpr post)
    refine ⟨_, taken, ?_, ?_⟩
    · dsimp only
      rw [eq]
      exact (SchedOnly.reviewAirs _ _ _).after (.modSched _ _ _)
    · dsimp only
      rw [eq]
      intro q hq
      have kept := ((Reviewed.reviewAirs (env := s.env) _ _).radios r).2.1.mem hq
      rw [Blocks.modSched_radios, PerRadio.get_modify_same, drops, List.mem_filter] at kept
      exact ⟨kept.1, by simpa using kept.2⟩
  · refine taken.trans (next_blocks ((takeRelease_dead (b := b) gone).trans (deadRelease_stray (b := b) ?_)))
    exact other
  · refine taken.trans (next_blocks ((takeRelease_dead (b := b) gone).trans ((deadRelease_known (b := b) ended same).trans (if_neg ?_))))
    rintro ⟨expired, late⟩
    rcases timely with cut | timely
    · rw [cut] at expired
      cases expired
    · exact timely late
  · have eq := (takeRelease_dead (env := s.env) (b := b) gone).trans ((deadRelease_known (b := b) ended same).trans (if_pos ⟨expired, late⟩))
    have cleared : (b.modSched r fun x => { x with lastEnded := none }).sched.radios.get r = { x with lastEnded := none } :=
      PerRadio.get_modify_same _ _ _
    refine ⟨_, taken, ?_, ?_, fun reached off => ?_⟩
    · dsimp only
      rw [eq, lateRelease_get, cleared]
    · dsimp only
      rw [eq, lateRelease_counters]
      simp [b, heardOn]
    · dsimp only
      rw [eq]
      exact lateRelease_recorded (by rw [cleared]; exact reached) (by rw [cleared]; exact off)

end Sys2Proof.Machine
end

