-- ==== Sys2Proof/Proofs/WindowFinder.lean ====
section
/-! PROOF. The window finder (R108, R109): O44. -/

namespace Sys2Proof.Machine

/-! ## Times read from a base time -/

theorem Time.before_of_diff_pos {a b : Time} (h : 0 < (b - a).toInt) : Time.before a b = true := by
  refine Time.before_iff.mpr ⟨?_, ?_⟩
  · rw [BitVec.toInt_eq_toNat_cond] at h
    split at h <;> omega
  · rintro rfl
    simp at h

theorem Time.span_of_diff_pos {a b : Time} (h : 0 < (b - a).toInt) : Time.span b a = (b - a).toInt.toNat := by
  rw [BitVec.toInt_eq_toNat_cond] at h ⊢
  rw [Time.span]
  split at h
  · next low => rw [if_pos low]; omega
  · omega

/-- Within 2^30 µs of a base time, differences subtract. -/
theorem diff_of_near {s a b : Time} (la : -2 ^ 30 < (a - s).toInt) (ha : (a - s).toInt < 2 ^ 30) (lb : -2 ^ 30 < (b - s).toInt)
    (hb : (b - s).toInt < 2 ^ 30) : (b - a).toInt = (b - s).toInt - (a - s).toInt := by
  have split : b - a = (b - s) - (a - s) := by bv_omega
  rw [split, BitVec.toInt_sub]
  exact Int.bmod_eq_of_le (by omega) (by omega)

/-- Within 2^30 µs of a base time, part times compare as their distances from it. -/
theorem Time.atOrAfter_iff_of_near {s a b : Time} (la : -2 ^ 30 < (a - s).toInt) (ha : (a - s).toInt < 2 ^ 30)
    (lb : -2 ^ 30 < (b - s).toInt) (hb : (b - s).toInt < 2 ^ 30) :
    Time.atOrAfter a b = true ↔ (b - s).toInt ≤ (a - s).toInt := by
  have forth := diff_of_near la ha lb hb
  rw [Time.atOrAfter, Bool.not_eq_true']
  constructor
  · intro late
    by_contra early
    exact absurd late (by rw [Time.before_of_diff_pos (by omega)]; decide)
  · intro le
    refine eq_false_of_ne_true fun early => ?_
    obtain ⟨low, differ⟩ := Time.before_iff.mp early
    have nonneg : 0 ≤ (b - a).toInt := by
      rw [BitVec.toInt_eq_toNat_cond]
      split <;> omega
    have zero : (b - a).toInt = 0 := by omega
    have same : b - a = 0#32 := BitVec.eq_of_toInt_eq zero
    exact differ (by bv_omega)

/-! ## The walk over the windows -/

section Walk
variable {minGrant length : Nat} {shortenable : Bool}

theorem walkWindows_start (ws : List Window) (t : Time) :
    (walkWindows minGrant length shortenable ws t).start = t
      ∨ ∃ w ∈ ws, (walkWindows minGrant length shortenable ws t).start = w.stop := by
  induction ws generalizing t with
  | nil => exact .inl rfl
  | cons w ws ih =>
    have later (u : Time) (h : u = t ∨ u = w.stop) :
        (walkWindows minGrant length shortenable ws u).start = t
          ∨ ∃ v ∈ w :: ws, (walkWindows minGrant length shortenable ws u).start = v.stop := by
      rcases ih u with same | ⟨v, mem, same⟩
      · rcases h with rfl | rfl
        · exact .inl same
        · exact .inr ⟨w, List.mem_cons_self, same⟩
      · exact .inr ⟨v, List.mem_cons_of_mem _ mem, same⟩
    unfold walkWindows
    dsimp only
    split_ifs
    · exact later t (.inl rfl)
    · exact later w.stop (.inr rfl)
    · exact .inl rfl
    · exact .inl rfl
    · exact later w.stop (.inr rfl)

theorem walkWindows_length (ws : List Window) (t : Time) :
    let p := walkWindows minGrant length shortenable ws t
    (p.shortened = false → p.length = length)
      ∧ (p.shortened = true → shortenable = true ∧ minGrant ≤ p.length ∧ p.length < length) := by
  induction ws generalizing t with
  | nil => exact ⟨fun _ => rfl, nofun⟩
  | cons w ws ih =>
    unfold walkWindows
    dsimp only
    split_ifs with _ _ whole short
    · exact ih t
    · exact ih w.stop
    · exact ⟨fun _ => rfl, nofun⟩
    · rw [Bool.and_eq_true, decide_eq_true_iff] at short
      exact ⟨nofun, fun _ => ⟨short.1, short.2, Nat.not_le.mp whole⟩⟩
    · exact ih w.stop

/-- The placement overlaps no window and begins no earlier than the walk (R109). -/
theorem walkWindows_clear {s : Time} (ws : List Window)
    (near : ∀ w ∈ ws, -2 ^ 30 < (w.start - s).toInt ∧ (w.start - s).toInt ≤ (w.stop - s).toInt ∧ (w.stop - s).toInt < 2 ^ 30)
    (ordered : ws.Pairwise fun w v => (w.start - s).toInt ≤ (v.start - s).toInt ∧ (w.stop - s).toInt ≤ (v.stop - s).toInt)
    (t : Time) (low : -2 ^ 30 < (t - s).toInt) (high : (t - s).toInt < 2 ^ 30) :
    let p := walkWindows minGrant length shortenable ws t
    (t - s).toInt ≤ (p.start - s).toInt
      ∧ ∀ w ∈ ws, (p.start - s).toInt + p.length ≤ (w.start - s).toInt ∨ (w.stop - s).toInt ≤ (p.start - s).toInt := by
  induction ws generalizing t with
  | nil => exact ⟨le_refl _, nofun⟩
  | cons w ws ih =>
    obtain ⟨⟨lowStart, order, highStop⟩, nearRest⟩ := List.forall_mem_cons.mp near
    obtain ⟨behind, orderedRest⟩ := List.pairwise_cons.mp ordered
    have step := ih nearRest orderedRest
    have afterStop := Time.atOrAfter_iff_of_near (b := w.stop) low high (by omega) highStop
    have afterStart := Time.atOrAfter_iff_of_near (b := w.start) low high lowStart (by omega)
    have skipped : (t - s).toInt ≤ (w.stop - s).toInt →
        let p := walkWindows minGrant length shortenable ws w.stop
        (t - s).toInt ≤ (p.start - s).toInt
          ∧ ∀ v ∈ w :: ws, (p.start - s).toInt + p.length ≤ (v.start - s).toInt
              ∨ (v.stop - s).toInt ≤ (p.start - s).toInt := by
      intro before
      obtain ⟨first, rest⟩ := step w.stop (by omega) highStop
      exact ⟨before.trans first, List.forall_mem_cons.mpr ⟨.inr first, rest⟩⟩
    unfold walkWindows
    dsimp only
    split_ifs with past inside whole short
    · obtain ⟨first, rest⟩ := step t low high
      exact ⟨first, List.forall_mem_cons.mpr ⟨.inr ((afterStop.mp past).trans first), rest⟩⟩
    · exact skipped (by have := mt afterStop.mpr past; omega)
    all_goals
      have ahead : (t - s).toInt < (w.start - s).toInt := not_le.mp (mt afterStart.mpr inside)
      have gap : (Time.span w.start t : Int) = (w.start - s).toInt - (t - s).toInt := by
        have diff := diff_of_near low high lowStart (by omega)
        rw [Time.span_of_diff_pos (by omega), diff]
        omega
    · refine ⟨le_refl _, List.forall_mem_cons.mpr ⟨.inl ?_, fun v mem => .inl ?_⟩⟩
      · dsimp only
        omega
      · have := behind v mem
        dsimp only
        omega
    · refine ⟨le_refl _, List.forall_mem_cons.mpr ⟨.inl ?_, fun v mem => .inl ?_⟩⟩
      · dsimp only
        omega
      · have := behind v mem
        dsimp only
        omega
    · exact skipped (by omega)

/-- A gap before the first window that holds the candidate is used from the start (R109). -/
theorem walkWindows_first {w : Window} {t : Time} (ws : List Window) (start : 0 < (w.start - t).toInt)
    (stop : 0 < (w.stop - t).toInt) :
    walkWindows minGrant length shortenable (w :: ws) t
      = if length ≤ (w.start - t).toInt.toNat then ⟨t, length, false⟩
        else if shortenable && decide (minGrant ≤ (w.start - t).toInt.toNat) then ⟨t, (w.start - t).toInt.toNat, true⟩
        else walkWindows minGrant length shortenable ws w.stop := by
  rw [walkWindows, Time.atOrAfter, Time.atOrAfter, Time.before_of_diff_pos start, Time.before_of_diff_pos stop,
    Time.span_of_diff_pos start]
  rfl

end Walk

/-! ## The gaps between windows -/

theorem gapFits_iff (need : Nat) (ws : List Window) :
    gapFits need ws = true ↔ ∃ (i : Nat) (w v : Window), ws[i]? = some w ∧ ws[i + 1]? = some v
      ∧ 0 < (v.start - w.stop).toInt ∧ (need : Int) ≤ (v.start - w.stop).toInt := by
  induction ws with
  | nil => simp [gapFits]
  | cons w ws ih =>
    cases ws with
    | nil => simp [gapFits]
    | cons v ws =>
      rw [gapFits, Bool.or_eq_true, Bool.and_eq_true, decide_eq_true_iff, decide_eq_true_iff, ih]
      constructor
      · rintro (here | ⟨i, x, y, hx, hy, fits⟩)
        · exact ⟨0, w, v, rfl, rfl, here⟩
        · exact ⟨i + 1, x, y, hx, hy, fits⟩
      · rintro ⟨i, x, y, hx, hy, fits⟩
        cases i with
        | zero =>
          cases hx
          cases hy
          exact .inl fits
        | succ i => exact .inr ⟨i, x, y, hx, hy, fits⟩

theorem shapingApplies_iff {b : Blocks} {r : Radio} : shapingApplies b r = true ↔
    b.sched.shaping = true ∧ b.sched.prediction.windows ≠ []
      ∧ ∃ k ∈ operatingCells b r, k ∈ b.sched.prediction.cells := by
  simp [shapingApplies, and_assoc]

theorem findWindow_flat {env : Env} {b : Blocks} {q : Request} (flat : ¬ shapingApplies b q.radio = true) (air : Air) :
    findWindow env b air q = some ⟨finderStart env.now air q.earliest, q.length, false⟩ := if_neg flat

theorem findWindow_shaped {env : Env} {b : Blocks} {q : Request} (shaped : shapingApplies b q.radio = true) (air : Air) :
    findWindow env b air q
      = if gapFits (if q.shortenable then min q.length env.retained.params.minGrant else q.length) b.sched.prediction.windows then
          some (walkWindows env.retained.params.minGrant q.length q.shortenable b.sched.prediction.windows
            (finderStart env.now air q.earliest))
        else none := if_pos shaped

/-- Settles O44. -/
theorem shapedWindow : Obligations.ShapedWindow := by
  intro env b air q ws shaped first second start shortest need rel fits
  have isShaped : shapingApplies b q.radio = true ↔ shaped := shapingApplies_iff
  have isFits : gapFits need ws = true ↔ fits := gapFits_iff _ _
  have isStart : finderStart env.now air q.earliest = start := by
    simp only [start, second, finderStart]
    cases air.grant <;> cases air.hold <;> rfl
  refine ⟨fun flat => ?_, fun on none => ?_, fun on some => ⟨_, ((findWindow_shaped (isShaped.mpr on) air).trans
    (if_pos (isFits.mpr some))), ?_⟩⟩
  · rw [findWindow_flat (mt isShaped.mp flat), isStart]
  · exact (findWindow_shaped (isShaped.mpr on) air).trans (if_neg (mt isFits.mp none))
  · rw [isStart]
    obtain ⟨whole, shortened⟩ := walkWindows_length (minGrant := shortest) (length := q.length) (shortenable := q.shortenable)
      ws start
    refine ⟨walkWindows_start _ _, whole, shortened, fun near ordered => ?_, fun w head begins ends => ?_⟩
    · have zero : (start - start).toInt = 0 := by rw [BitVec.sub_self]; rfl
      have clear := walkWindows_clear (minGrant := shortest) (length := q.length) (shortenable := q.shortenable) (s := start)
        ws near ordered start (by omega) (by omega)
      rw [zero] at clear
      exact clear
    · obtain ⟨rest, split⟩ : ∃ rest, ws = w :: rest := by
        cases hws : ws with
        | nil => rw [hws] at head; cases head
        | cons v vs => rw [hws] at head; cases head; exact ⟨vs, rfl⟩
      have walk := walkWindows_first (minGrant := shortest) (length := q.length) (shortenable := q.shortenable) (w := w)
        (t := start) rest begins ends
      rw [← split] at walk
      refine ⟨fun holds => walk.trans (if_pos ?_), fun tight may least => walk.trans ((if_neg ?_).trans (if_pos ?_))⟩
      · have : (q.length : Int) ≤ (w.start - start).toInt := holds
        omega
      · have : (w.start - start).toInt < q.length := tight
        omega
      · have : (shortest : Int) ≤ (w.start - start).toInt := least
        rw [may, Bool.true_and, decide_eq_true_iff]
        omega

end Sys2Proof.Machine
end

