-- ==== Sys2Proof/Proofs/Restarts.lean ====
section
/-! PROOF. Sessions opened and restarted by a HELLO, and radios withdrawn and restored: the return of a channel context to its
starting point (R100, R119, R123, R143 to R146, R152): O23 and O20. -/

namespace Sys2Proof.Machine

variable {env : Env}

/-! ## The end of an event that cleared a channel context -/

/-- A radio without a channel that was cleared before clash resolution keeps its state through the end of the event, and its lane
restarts when it had a channel (R39, R144, R145). -/
theorem leftContext_spec {b : Blocks} {r : Radio} (clear : (b.chans.get r).clash = false) (off : (b.chans.get r).operating = none)
    (free : holdsNothing b r) (airs : List AirId) (freed : Bool) (chan : Option Channel) :
    let t := restartIfMoved r chan (resolveAndReview env airs freed b)
    t.chans.get r = b.chans.get r ∧ holdsNothing t r
      ∧ (chan.isSome = true → t.lanes.get r = Lane.restart (b.lanes.get r)) := by
  refine ⟨?_, ?_, fun was => ?_⟩
  · rw [restartIfMoved_chans, resolveAndReview_same clear]
  · rw [holdsNothing, restartIfMoved_cells]
    exact resolveAndReview_holdsNothing clear free _ _
  · have moved : ((resolveAndReview env airs freed b).chans.get r).operating ≠ chan := by
      rw [resolveAndReview_same clear, off]
      rintro rfl
      cases was
    rw [restartIfMoved_lanes, if_neg moved, resolveAndReview_lanes]

theorem clearContext_get (r : Radio) (b : Blocks) :
    (clearContext env r b).chans.get r = (b.chans.get r).cleared := by
  rw [clearContext_chans, PerRadio.get_modify_same]

theorem clearContext_holdsNothing (r : Radio) (b : Blocks) : holdsNothing (clearContext env r b) r := by
  rw [holdsNothing, clearContext_cells]
  exact holdsNothing_releaseAll _ _

/-! ## HELLO (R152) -/

theorem endLinkSource_chans (r : Radio) (b : Blocks) : (endLinkSource env r b).chans = b.chans := by
  unfold endLinkSource
  split <;> rfl

theorem endLinkSource_cells (r : Radio) (b : Blocks) : (endLinkSource env r b).cells = b.cells := by
  unfold endLinkSource
  split <;> rfl

theorem endLinkSource_lanes (r : Radio) (b : Blocks) : (endLinkSource env r b).lanes = b.lanes := by
  unfold endLinkSource
  split <;> rfl

theorem endLinkSource_link (r : Radio) (b : Blocks) :
    (endLinkSource env r b).links.get r = { b.links.get r with linkSource := false } := by
  unfold endLinkSource
  split
  · exact PerRadio.get_modify_same _ _ _
  · next absent =>
    rw [Bool.not_eq_true] at absent
    rw [← absent]

theorem endLinkSource_monitor (r : Radio) (b : Blocks) : (endLinkSource env r b).monitor
    = if (b.links.get r).linkSource then b.monitor.absent env (.link r) else b.monitor := by
  unfold endLinkSource
  split <;> rfl

/-- What the restart of a radio's channel context leaves (R123, R144). -/
theorem restartContext_spec (r : Radio) (b : Blocks) :
    (restartContext env r b).chans.get r = { (b.chans.get r).cleared with declined := none }
      ∧ holdsNothing (restartContext env r b) r
      ∧ Sessionless ((restartContext env r b).sched.radios.get r)
      ∧ ((b.chans.get r).operating.isSome = true → (restartContext env r b).lanes.get r = Lane.restart (b.lanes.get r)) := by
  let ended := (endSession env r b).modChan r fun c => { c with declined := none }
  obtain ⟨airs, freed, eq⟩ : ∃ airs freed, restartContext env r b
      = restartIfMoved r (b.chans.get r).operating (resolveAndReview env airs freed (clearContext env r ended)) := ⟨_, _, rfl⟩
  have only : SchedOnly b (endSession env r b) := .endSession _ _ _
  have cleared : (clearContext env r ended).chans.get r = { (b.chans.get r).cleared with declined := none } := by
    rw [clearContext_get]
    simp [ended, ChanState.cleared, only.chans]
  have control : ControlOnly (endSession env r b) (clearContext env r ended) :=
    .after (.clearContext _ _) (.modChan _ _ _)
  obtain ⟨chans, free, lane⟩ := leftContext_spec (env := env) (b := clearContext env r ended) (r := r)
    (by rw [cleared]; rfl) (by rw [cleared]; rfl) (clearContext_holdsNothing r ended) airs freed (b.chans.get r).operating
  rw [eq]
  refine ⟨chans.trans cleared, free, ?_, fun was => ?_⟩
  · have sessionless := Sessionless.endSession (env := env) r b
    rw [← control.sched] at sessionless
    have reviewed := sessionless.shortened (resolveAndReview_radios (env := env) airs freed (clearContext env r ended) r)
    rcases restartIfMoved_radios r (b.chans.get r).operating (resolveAndReview env airs freed (clearContext env r ended))
      with same | late
    · rw [same]; exact reviewed
    · rw [late]; exact reviewed.lateCount 0
  · rw [lane was, control.lanes, only.lanes]

theorem takeHello_opens {r : Radio} {b : Blocks} (down : (b.links.get r).port ≠ .up) (x : Capability) :
    takeHello env r 1 x b = helloOpens env r x (b.hunt r) := by
  have stillDown : ¬ ((b.hunt r).links.get r).port == .up := by simpa [Blocks.hunt] using down
  rw [takeHello, if_neg (by simp), if_neg stillDown, if_neg stillDown]

theorem takeHello_restarts {r : Radio} {b : Blocks} (up : (b.links.get r).port = .up) (x : Capability) :
    takeHello env r 1 x b = helloRestarts env r x (heardOn env r b) := by
  have stillUp : ((b.hunt r).links.get r).port == .up := by simpa [Blocks.hunt] using up
  rw [takeHello, if_neg (by simp), if_pos stillUp, if_pos stillUp, restartLiveness_hunt]

/-- Settles O23. -/
theorem helloSessions : Obligations.HelloSessions := by
  intro r bands width s expiry
  refine ⟨fun down => ?_, fun up => ?_⟩
  · let joined := restartLiveness s.env r ((s.blocks.hunt r).modLink r fun k =>
      { k with capability := some ⟨bands, width⟩, port := .up })
    let begun := endLinkSource s.env r joined
    obtain ⟨here, eq⟩ : ∃ here, helloOpens s.env r ⟨bands, width⟩ (s.blocks.hunt r)
        = reviewAirs s.env here (welcome s.env r begun) := ⟨_, rfl⟩
    have reviewed : Reviewed s.env (welcome s.env r begun) (reviewAirs s.env here (welcome s.env r begun)) := .reviewAirs _ _
    have only : SchedOnly begun (reviewAirs s.env here (welcome s.env r begun)) := .trans (.send _ _ _) reviewed.only
    have link := only.links r
    have now : begun.links.get r = { s.blocks.links.get r with
        receiver := .hunting
        capability := some ⟨bands, width⟩
        port := .up
        liveness := expiry
        linkSource := false } := by
      rw [endLinkSource_link]
      simp [joined, restartLiveness, Blocks.hunt, expiry, afterMillis]
    have chans : begun.chans = s.blocks.chans := endLinkSource_chans _ _
    refine ⟨{ s with blocks := helloOpens s.env r ⟨bands, width⟩ (s.blocks.hunt r) },
      next_blocks (takeHello_opens down _), ?_⟩
    dsimp only
    rw [eq]
    refine ⟨?_, ?_, ?_, ?_, ?_, ?_, only.chans.trans chans, ?_, ?_, ?_⟩
    · exact link.port.trans (by rw [now])
    · exact link.capability.trans (by rw [now])
    · exact link.receiver.trans (by rw [now])
    · exact link.linkSource.trans (by rw [now])
    · exact link.liveness.trans (by rw [now])
    · have first := (sentLast_send begun r (.welcome r s.env.mode (begun.chans.get r).withdrawn)).sent
      rw [chans] at first
      exact first.grows (by simpa [welcome, chans] using reviewed.queues r)
    · exact only.cells.trans (endLinkSource_cells _ _)
    · exact only.lanes.trans (endLinkSource_lanes _ _)
    · rw [only.monitor, endLinkSource_monitor]
      simp [joined, restartLiveness, Blocks.hunt]
  · let purged := purgeQueue r (heardOn s.env r s.blocks)
    let restarted := restartContext s.env r purged
    let able := restarted.modLink r fun k => { k with capability := some ⟨bands, width⟩ }
    have eq : helloRestarts s.env r ⟨bands, width⟩ (heardOn s.env r s.blocks) = welcome s.env r able := rfl
    obtain ⟨chans, free, sessionless, lane⟩ := restartContext_spec (env := s.env) r purged
    have link := (Directed.restartContext (env := s.env) r purged).links r
    have now : purged.links.get r = { s.blocks.links.get r with
        receiver := .hunting
        liveness := expiry
        queue := (s.blocks.links.get r).queue.filter fun m => m == .relink } := by
      simp [purged, purgeQueue, heardOn, expiry]
    have ableLink : able.links.get r = { restarted.links.get r with capability := some ⟨bands, width⟩ } :=
      PerRadio.get_modify_same _ _ _
    have sending : SameLink (able.links.get r) ((welcome s.env r able).links.get r) := SchedOnly.links (.send _ _ _) r
    refine ⟨{ s with blocks := welcome s.env r able }, next_blocks ((takeHello_restarts up _).trans eq), ?_, ?_, ?_, ?_, ?_, ?_,
      free, sessionless.waits, sessionless.posted, sessionless.passThrough, sessionless.lastEnded, lane⟩
    · exact sending.port.trans (by rw [ableLink]; exact link.port.trans (by rw [now]; exact up))
    · exact sending.capability.trans (by rw [ableLink])
    · exact sending.receiver.trans (by rw [ableLink]; exact link.receiver.trans (by rw [now]))
    · exact sending.liveness.trans (by rw [ableLink]; exact link.liveness.trans (by rw [now]))
    · have sent := sentLast_send able r (.welcome r s.env.mode (able.chans.get r).withdrawn)
      have same : (able.chans.get r).withdrawn = (s.blocks.chans.get r).withdrawn := by
        have c := congrArg ChanState.withdrawn chans
        exact c
      rw [same] at sent
      simpa [welcome, same] using sent
    · exact chans.trans (by simp [ChanState.cleared, ChanState.reset, purged, purgeQueue, heardOn])

/-! ## Reviews and the posted heads of other radios -/

/-- Nothing but the wait list has changed. -/
def WaitsOnly (x y : RadioSched) : Prop := y = { x with waits := y.waits }

theorem WaitsOnly.refl (x : RadioSched) : WaitsOnly x x := rfl

theorem WaitsOnly.trans {x y z : RadioSched} (h : WaitsOnly x y) (g : WaitsOnly y z) : WaitsOnly x z := by
  unfold WaitsOnly at *
  rw [g, h]

theorem WaitsOnly.modSched (b : Blocks) (q : Radio) {f : RadioSched → RadioSched} (h : ∀ x, WaitsOnly x (f x)) (r : Radio) :
    WaitsOnly (b.sched.radios.get r) ((b.modSched q f).sched.radios.get r) := by
  rw [Blocks.modSched_radios, PerRadio.get_modify]
  split
  · next e => subst e; exact h _
  · exact .refl _

theorem WaitsOnly.dropWait (b : Blocks) (q : Radio) (id : Byte) (r : Radio) :
    WaitsOnly (b.sched.radios.get r) ((b.modSched q fun x => x.dropWait id).sched.radios.get r) :=
  .modSched (f := fun x => x.dropWait id) b q (fun _ => rfl) r

/-- A waiting request taken in a review changes no posted queue and no attempt count (R112, R115). -/
theorem reviewWaiting_waitsOnly (a : AirId) (v : Review) (q : Request) (r : Radio) :
    WaitsOnly (v.blocks.sched.radios.get r) ((reviewWaiting env a v q).blocks.sched.radios.get r) := by
  have left := WaitsOnly.dropWait v.blocks q.radio q.id r
  unfold reviewWaiting
  dsimp only
  repeat' split
  all_goals first | exact .refl _ | exact left

theorem attemptHead_other {q : Request} {r : Radio} (other : r ≠ q.radio) (b : Blocks) :
    (attemptHead env q b).sched.radios.get r = b.sched.radios.get r := by
  unfold attemptHead
  dsimp only
  split <;> exact PerRadio.get_modify_other _ _ other

/-- A posted head taken in a review changes nothing that the scheduler keeps for another radio (R112, R115). -/
theorem reviewHead_other {q : Request} {r : Radio} (other : r ≠ q.radio) (a : AirId) (v : Review) :
    (reviewHead env a v q).blocks.sched.radios.get r = v.blocks.sched.radios.get r := by
  have left : (v.blocks.modSched q.radio RadioSched.dropHead).sched.radios.get r = v.blocks.sched.radios.get r :=
    PerRadio.get_modify_other _ _ other
  unfold reviewHead
  repeat' split
  all_goals first | rfl | exact left | exact attemptHead_other other _

theorem foldReviewWaiting_waitsOnly (a : AirId) (r : Radio) (l : List Request) (v : Review) :
    WaitsOnly (v.blocks.sched.radios.get r) ((l.foldl (reviewWaiting env a) v).blocks.sched.radios.get r) := by
  induction l generalizing v with
  | nil => exact .refl _
  | cons q l ih => exact (reviewWaiting_waitsOnly a v q r).trans (ih _)

theorem foldReviewHead_other {r : Radio} (a : AirId) {l : List Request} (others : ∀ q ∈ l, r ≠ q.radio) (v : Review) :
    (l.foldl (reviewHead env a) v).blocks.sched.radios.get r = v.blocks.sched.radios.get r := by
  induction l generalizing v with
  | nil => rfl
  | cons q l ih =>
    rw [List.foldl_cons, ih fun x mem => others x (List.mem_cons_of_mem _ mem), reviewHead_other (others q List.mem_cons_self)]

theorem headCandidates_posted {b : Blocks} (sound : requestsSound b) {a : AirId} {q : Request} (h : q ∈ headCandidates env b a) :
    q ∈ (b.sched.radios.get q.radio).posted := by
  rw [headCandidates, (sortByArrival_perm _).mem_iff] at h
  obtain ⟨r, -, hq⟩ := List.mem_flatMap.mp h
  have posted := List.mem_of_mem_take hq
  rw [(sound r).posted q posted]
  exact posted

/-- A review changes nothing but the wait list of a radio that has posted nothing. -/
theorem reviewAir_unposted {b : Blocks} (sound : requestsSound b) {r : Radio} (unposted : (b.sched.radios.get r).posted = [])
    (a : AirId) : WaitsOnly (b.sched.radios.get r) ((reviewAir env a b).sched.radios.get r) := by
  let begun := b.modAir a fun x => { x with review := none }
  have others : ∀ q ∈ headCandidates env begun a, r ≠ q.radio := by
    rintro q mem rfl
    have posted : q ∈ (b.sched.radios.get q.radio).posted := headCandidates_posted (b := begun) sound mem
    rw [unposted] at posted
    cases posted
  have waited := foldReviewWaiting_waitsOnly (env := env) a r (waitingCandidates env begun a) ⟨begun, [], []⟩
  rw [reviewAir]
  split
  all_goals
    refine waited.trans ?_
    exact WaitsOnly.trans (by rw [← foldReviewHead_other (env := env) a others]; exact .refl _) (.refl _)

theorem reviewAirs_unposted {b : Blocks} (sound : requestsSound b) {r : Radio} (unposted : (b.sched.radios.get r).posted = [])
    (p : AirId → Bool) : WaitsOnly (b.sched.radios.get r) ((reviewAirs env p b).sched.radios.get r) := by
  unfold reviewAirs
  induction airIds.filter p generalizing b with
  | nil => exact .refl _
  | cons a l ih =>
    refine (reviewAir_unposted sound unposted a).trans (ih (b := reviewAir env a b) ?_ ?_)
    · exact fun q => (Regular.reviewAir (S := False) (env := env) a b).requests q (sound q)
    · exact ((Reviewed.reviewAir (env := env) a b).radios r).posted_nil unposted

theorem retestWaits_waitsOnly (b : Blocks) (q r : Radio) :
    WaitsOnly (b.sched.radios.get r) ((retestWaits env b q).sched.radios.get r) := by
  unfold retestWaits
  split
  · exact .refl _
  · rw [answerWaits_sched]
    exact .modSched (f := fun y => { y with waits := [] }) b q (fun _ => rfl) r

theorem resolveAndReview_unposted {b : Blocks} (sound : requestsSound b) {r : Radio}
    (unposted : (b.sched.radios.get r).posted = []) (airs : List AirId) (freed : Bool) :
    WaitsOnly (b.sched.radios.get r) ((resolveAndReview env airs freed b).sched.radios.get r) := by
  have walk : ∀ (l : List Radio) (c : Blocks), requestsSound c → (c.sched.radios.get r).posted = [] →
      WaitsOnly (c.sched.radios.get r) ((l.foldl (retestWaits env) c).sched.radios.get r)
        ∧ requestsSound (l.foldl (retestWaits env) c) := by
    intro l
    induction l with
    | nil => exact fun c sound _ => ⟨.refl _, sound⟩
    | cons q l ih =>
      intro c sound unposted
      have next := ih (retestWaits env c q)
        (fun x => (Regular.retestWaits (S := False) (env := env) c q).requests x (sound x))
        (((Reviewed.retestWaits (env := env) c q).radios r).posted_nil unposted)
      exact ⟨(retestWaits_waitsOnly c q r).trans next.1, next.2⟩
  have resolved := (ControlOnly.resolveClashes (env := env) none freed b).sched
  rw [resolveAndReview_eq]
  generalize resolveClashes env none freed b = c at resolved ⊢
  have soundC : requestsSound c := by rw [requestsSound, resolved]; exact sound
  rw [← resolved] at unposted ⊢
  obtain ⟨retested, soundNow⟩ := walk (unclashed b c) c soundC unposted
  refine retested.trans (reviewAirs_unposted soundNow ?_ _)
  exact ((Reviewed.foldl (env := env) Reviewed.retestWaits (unclashed b c) c).radios r).posted_nil unposted

/-! ## WITHDRAW and RESTORE (R145, R146) -/

theorem cutPassThrough_passThrough (r : Radio) (b : Blocks) : ((cutPassThrough env r b).sched.radios.get r).passThrough = [] := by
  have walk : ∀ (l : List Grant) (c : Blocks), (c.sched.radios.get r).passThrough = [] →
      ((l.foldl (fun b (g : Grant) => (b.send r (.cut g.id env.now)).setLastEnded r g.id env.now .cut) c).sched.radios.get
        r).passThrough = [] := by
    intro l
    induction l with
    | nil => exact fun _ h => h
    | cons g l ih =>
      intro c h
      refine ih _ ?_
      have kept := congrArg RadioSched.passThrough (PerRadio.get_modify_same (c.send r (.cut g.id env.now)).sched.radios r
        fun x => { x with lastEnded := some ⟨g.id, env.now, .cut⟩ })
      exact kept.trans h
  exact walk _ _ (by rw [Blocks.modSched_radios, PerRadio.get_modify_same])

/-- What a WITHDRAW leaves of a radio's requests and records (R119, R123). -/
theorem withdrawSched_radios (r : Radio) (b : Blocks) :
    ∃ e, (withdrawSched env r b).sched.radios.get r = { RadioSched.reset with lastEnded := e } := by
  let ended := endHoldOf r (cutPassThrough env r (endGrantOf env r .cut b))
  have passThrough : (ended.sched.radios.get r).passThrough = [] := by
    have cut := cutPassThrough_passThrough (env := env) r (endGrantOf env r .cut b)
    simp only [ended]
    unfold endHoldOf
    split <;> exact cut
  have answered : ((answerWaits ended r (.refuse .withdrawn)).sched.radios.get r)
      = { ended.sched.radios.get r with waits := [] } := by
    rw [answerWaits_sched, Blocks.modSched_radios, PerRadio.get_modify_same]
  have expired : ∀ (l : List Request) (c : Blocks),
      (l.foldl (fun b (q : Request) => b.sendExpired r q.id) c).sched = c.sched := by
    intro l
    induction l with
    | nil => exact fun _ => rfl
    | cons q l ih => exact fun c => ih _
  refine ⟨(ended.sched.radios.get r).lastEnded, ?_⟩
  unfold withdrawSched
  dsimp only
  rw [expired, Blocks.modSched_radios, PerRadio.get_modify_same, answered]
  dsimp only
  rw [passThrough]
  rfl

theorem restartIfMoved_reset {b : Blocks} {r : Radio} {e : Option LastEnded}
    (h : b.sched.radios.get r = { RadioSched.reset with lastEnded := e }) (chan : Option Channel) :
    (restartIfMoved r chan b).sched.radios.get r = { RadioSched.reset with lastEnded := e } := by
  rcases restartIfMoved_radios r chan b with same | late
  · rw [same, h]
  · rw [late, h]
    rfl

/-- What a WITHDRAW leaves of its radio (R100, R119, R123, R145). -/
theorem withdrawRadio_spec (r : Radio) (b : Blocks) :
    (withdrawRadio env r b).chans.get r = { (b.chans.get r).cleared with withdrawn := true }
      ∧ holdsNothing (withdrawRadio env r b) r
      ∧ (requestsSound b → ∃ e, (withdrawRadio env r b).sched.radios.get r = { RadioSched.reset with lastEnded := e })
      ∧ (∀ c ∈ (withdrawRadio env r b).monitor.list, CondKey.radio c.key ≠ some r)
      ∧ ((b.chans.get r).operating.isSome = true → (withdrawRadio env r b).lanes.get r = Lane.restart (b.lanes.get r)) := by
  let flagged := b.modChan r fun c => { c with withdrawn := true }
  let cleared := clearContext env r flagged
  let forgotten := { cleared with monitor := cleared.monitor.forgetRadio r }
  let served := withdrawSched env r forgotten
  obtain ⟨airs, freed, eq⟩ : ∃ airs freed, withdrawRadio env r b
      = restartIfMoved r (b.chans.get r).operating (resolveAndReview env airs freed served) := ⟨_, _, rfl⟩
  have only : SchedOnly forgotten served := .withdrawSched _ _ _
  have control : ControlOnly b cleared := .after (.clearContext _ _) (.modChan _ _ _)
  have chan : served.chans.get r = { (b.chans.get r).cleared with withdrawn := true } := by
    rw [only.chans]
    exact (clearContext_get r flagged).trans (by simp [flagged, ChanState.cleared])
  have free : holdsNothing served r := by
    rw [holdsNothing, only.cells]
    exact clearContext_holdsNothing r flagged
  obtain ⟨chans, stillFree, lane⟩ := leftContext_spec (env := env) (b := served) (r := r)
    (by rw [chan]; rfl) (by rw [chan]; rfl) free airs freed (b.chans.get r).operating
  rw [eq]
  refine ⟨chans.trans chan, stillFree, fun sound => ?_, ?_, fun was => ?_⟩
  · obtain ⟨e, reset⟩ := withdrawSched_radios (env := env) r forgotten
    have soundForgotten : requestsSound forgotten := by rw [requestsSound, show forgotten.sched = b.sched from control.sched]; exact sound
    have soundServed : requestsSound served := fun q =>
      (Regular.withdrawSched (S := False) (env := env) r forgotten).requests q (soundForgotten q)
    have kept := resolveAndReview_unposted (env := env) soundServed (r := r) (by rw [reset]; rfl) airs freed
    have waits : ((resolveAndReview env airs freed served).sched.radios.get r).waits = [] :=
      (resolveAndReview_radios (env := env) airs freed served r).waits_nil (by rw [reset]; rfl)
    refine ⟨e, restartIfMoved_reset ?_ _⟩
    rw [kept, waits, reset]
    rfl
  · intro c mem
    rw [restartIfMoved_monitor] at mem
    have keys := (resolveAndReview_reported (env := env) airs freed served).keys_of_absent fun _ _ h => h.2
    obtain ⟨d, hd, same⟩ := List.mem_map.mp (keys.subset (List.mem_map_of_mem mem))
    rw [only.monitor] at hd
    rw [← same]
    simpa using (List.mem_filter.mp hd).2
  · rw [lane was, only.lanes]
    exact congrArg (fun x => Lane.restart (PerRadio.get x r)) control.lanes

/-- Settles O20. -/
theorem withdrawAndRestore : Obligations.WithdrawAndRestore := by
  intro x s
  refine ⟨fun out => ?_, fun r named => ?_⟩
  · have unnamed : radioOf x = none := radioOf_eq_none.mpr out
    constructor
    · show execWithdraw x s = _
      rw [execWithdraw, unnamed]
    · show execRestore x s = _
      rw [execRestore, unnamed]
  · have is : radioOf x = some r := radioOf_eq_some.mpr named
    have withdraws : exec (.withdraw x) s = if (s.blocks.chans.get r).withdrawn then .next (s.ok [])
        else .next ({ s with blocks := withdrawRadio s.env r s.blocks }.ok []) := by
      show execWithdraw x s = _
      rw [execWithdraw, is]
    refine ⟨?_, fun already => ?_, fun fresh sound => ?_⟩
    · show execRestore x s = _
      rw [execRestore, is]
    · rw [withdraws, if_pos already]
    · rw [withdraws, if_neg (by rw [fresh]; exact Bool.false_ne_true)]
      obtain ⟨chan, free, reset, keys, lane⟩ := withdrawRadio_spec (env := s.env) r s.blocks
      refine ⟨_, rfl, rfl, chan.trans ?_, free, reset sound, keys, lane⟩
      simp [ChanState.cleared, ChanState.reset]

end Sys2Proof.Machine
end

