-- ==== Sys2Proof/Proofs/DirectiveRules.lean ====
section
/-! PROOF. What a move request, a directive carried out, dropped or lapsed, and a TUNED report leave of their radio: its channel
state, its cells, its lane and the condition records (R13 to R18, R132 to R142). -/

namespace Sys2Proof.Machine

variable {env : Env} {except : Option Radio}

/-! ## Lists of cells -/

theorem resolveClashes_length (freed : Bool) (b : Blocks) :
    (resolveClashes env except freed b).cells.length = b.cells.length := by
  have one : ∀ b c, (resolveOne env except b c).cells.length = b.cells.length := by
    intro b c
    unfold resolveOne
    dsimp only
    repeat' split
    · rfl
    · rw [setClash_cells, acquire, mapCells_length]
    · rfl
  have walk : ∀ (l : List Radio) (b : Blocks), (l.foldl (resolveOne env except) b).cells.length = b.cells.length := by
    intro l
    induction l with
    | nil => exact fun _ => rfl
    | cons c l ih => exact fun b => (ih _).trans (one b c)
  unfold resolveClashes
  split
  · exact walk _ _
  · rfl

/-- Two lists that agree on the cells of a radio. -/
structure SameHeld (r : Radio) (cells cells' : List CellRecord) : Prop where
  length : cells'.length = cells.length
  held : ∀ (k : Nat) (c : CellRecord), c.holder = some r → (cells'[k]? = some c ↔ cells[k]? = some c)

theorem Resolved.sameHeld {r : Radio} {b : Blocks} {freed : Bool} (quiet : (b.chans.get r).clash = false ∨ except = some r) :
    SameHeld r b.cells (Machine.resolveClashes env except freed b).cells :=
  ⟨resolveClashes_length freed b, (Resolved.resolveClashes freed b).held r quiet⟩

/-- A cell that the radio does not hold, it does not hold in the other list either. -/
theorem SameHeld.not_held {r : Radio} {cells cells' : List CellRecord} (h : SameHeld r cells cells') {k : Nat} {c : CellRecord}
    (cell : cells[k]? = some c) (other : c.holder ≠ some r) : ∃ c', cells'[k]? = some c' ∧ c'.holder ≠ some r := by
  have here : k < cells'.length := by rw [h.length]; exact (List.getElem?_eq_some_iff.mp cell).1
  refine ⟨cells'[k], List.getElem?_eq_getElem here, fun held => other ?_⟩
  have same := (h.held k _ held).mp (List.getElem?_eq_getElem here)
  rw [cell] at same
  rw [Option.some.inj same]
  exact held

theorem promoteTarget_target {r : Radio} {cells : List CellRecord} {k : Nat} {c : CellRecord} (cell : cells[k]? = some c)
    (mine : c.holder = some r) (target : c.target = true) :
    (promoteTarget r cells)[k]? = some { c with current := true, target := false } := by
  rw [promoteTarget, mapCells_getElem?, cell]
  simp [mine, target]

theorem promoteTarget_other {r : Radio} {cells : List CellRecord} {k : Nat} {c : CellRecord} (cell : cells[k]? = some c)
    (mine : c.holder = some r) (target : c.target = false) : (promoteTarget r cells)[k]? = some c.released := by
  rw [promoteTarget, mapCells_getElem?, cell]
  simp [mine, target]

theorem dropTarget_current {r : Radio} {cells : List CellRecord} {k : Nat} {c : CellRecord} (cell : cells[k]? = some c)
    (current : c.current = true) : ∃ x, (dropTarget r cells)[k]? = some { c with target := x } ∧ (c.holder = some r → x = false) := by
  rw [dropTarget, mapCells_getElem?, cell, Option.map_some]
  split
  · exact ⟨false, rfl, fun _ => rfl⟩
  · next kept =>
    refine ⟨c.target, rfl, fun mine => ?_⟩
    simpa [mine] using kept

theorem dropTarget_target {r : Radio} {cells : List CellRecord} {k : Nat} {c : CellRecord} (cell : cells[k]? = some c)
    (mine : c.holder = some r) (apart : c.current = false) (target : c.target = true) :
    (dropTarget r cells)[k]? = some c.released := by
  rw [dropTarget, mapCells_getElem?, cell]
  simp [mine, apart, target]

theorem mapCells_mapCells (f g : Nat → CellRecord → CellRecord) (cells : List CellRecord) :
    mapCells g (mapCells f cells) = mapCells (fun k c => g k (f k c)) cells := by
  refine List.ext_getElem? fun k => ?_
  simp only [mapCells_getElem?, Option.map_map]
  rfl

/-- A target dropped before the release of all of a radio's cells makes no difference (R15, R16). -/
theorem releaseAll_dropTarget (r : Radio) (cells : List CellRecord) : releaseAll r (dropTarget r cells) = releaseAll r cells := by
  unfold releaseAll dropTarget
  rw [mapCells_mapCells]
  refine congrArg (mapCells · cells) (funext₂ fun _ c => ?_)
  by_cases mine : c.holder = some r
  · cases c.target <;> cases c.current <;> simp [mine, CellRecord.released]
  · simp [mine]

theorem releaseAll_dropDirective (r : Radio) (b : Blocks) : releaseAll r (dropDirective r b).cells = releaseAll r b.cells := by
  rw [dropDirective_cells]
  split
  · exact releaseAll_dropTarget _ _
  · rfl

/-- The acquisition test after the release of the radio's own cells (R17, R141). -/
theorem acquisitionTest_released {r : Radio} {ch : Channel} {cells : List CellRecord} :
    acquisitionTest env r ch (releaseAll r cells) = true ↔ ∀ k ∈ ch.cells, ∃ c : CellRecord, cells[k]? = some c
      ∧ (c.holder = none ∨ c.holder = some r)
      ∧ (env.retained.spans.get r).has k = true ∧ env.retained.keepClear.has k = false := by
  have free : ∀ c : CellRecord, CellRecord.freeFor (if c.holder = some r then c.released else c) r = true
      ↔ c.holder = none ∨ c.holder = some r := by
    intro c
    by_cases mine : c.holder = some r
    · simp [mine, CellRecord.released, CellRecord.freeFor]
    · rw [if_neg mine, CellRecord.freeFor_iff]
  rw [acquisitionTest, channelAll_iff]
  refine forall₂_congr fun k _ => ?_
  rw [releaseAll, mapCells_getElem?]
  cases cells[k]? with
  | none => simp
  | some c => simp [free, and_assoc]

/-! ## Condition records added by reports -/

theorem updateKey_length (key : CondKey) (f : CondRecord → Option CondRecord) (l : List CondRecord) :
    (updateKey key f l).length ≤ l.length := by
  induction l with
  | nil => exact Nat.le_refl _
  | cons c cs ih =>
    unfold updateKey
    repeat' split
    · exact Nat.le_succ _
    · exact Nat.le_refl _
    · exact Nat.succ_le_succ ih

theorem Monitor.absent_length (m : Monitor) (key : CondKey) : (m.report env key false).list.length ≤ m.list.length :=
  updateKey_length _ _ _

theorem Monitor.present_length (m : Monitor) (key : CondKey) : (m.report env key true).list.length ≤ m.list.length + 1 := by
  unfold Monitor.report Monitor.present
  rw [if_pos rfl]
  repeat' split
  · exact Nat.le_succ_of_le (updateKey_length _ _ _)
  · rw [List.length_append]; exact Nat.le_refl _
  · exact Nat.le_succ _

theorem Reported.length_of_absent {P : CondKey → Bool → Prop} {m m' : Monitor} (h : Reported P env m m')
    (absent : ∀ key x, P key x → x = false) : m'.list.length ≤ m.list.length := by
  have keys := (h.keys_of_absent absent).length_le
  rwa [List.length_map, List.length_map] at keys

/-! ## A move request (R132 to R136) -/

/-- What a move request leaves: of its radio's channel state all but the directive, its id and the move wait; the radio's cells
but for target marks; the lanes; the condition records but for NOCHANNEL's. -/
structure MoveTaken (env : Env) (r : Radio) (b b' : Blocks) : Prop where
  chan : b'.chans.get r = { b.chans.get r with
    directive := (b'.chans.get r).directive
    nextId := (b'.chans.get r).nextId
    moveWait := (b'.chans.get r).moveWait }
  lanes : b'.lanes = b.lanes
  cells : ∀ (k : Nat) (c : CellRecord), b.cells[k]? = some c → c.holder = some r → ∃ x, b'.cells[k]? = some { c with target := x }
  reported : Reported (fun key _ => key = .noChannel r) env b.monitor b'.monitor
  length : b'.monitor.list.length ≤ b.monitor.list.length + 1

namespace MoveTaken

theorem refl (r : Radio) (b : Blocks) : MoveTaken env r b b :=
  ⟨rfl, rfl, fun _ c h _ => ⟨c.target, h⟩, .refl _, Nat.le_succ _⟩

theorem enterMoveWait (r : Radio) (cells : List Nat) (b : Blocks) : MoveTaken env r b (enterMoveWait env r cells b) where
  chan := by rw [enterMoveWait_chans, PerRadio.get_modify_same]
  lanes := (ControlOnly.enterMoveWait r cells b).lanes
  cells k c h _ := ⟨c.target, by rw [enterMoveWait_cells]; exact h⟩
  reported := by
    unfold Machine.enterMoveWait
    dsimp only
    split
    · exact .refl _
    · exact .one (key := .noChannel r) (x := true) rfl
  length := by
    unfold Machine.enterMoveWait
    dsimp only
    split
    · exact Nat.le_succ _
    · exact Monitor.present_length _ _

theorem issueMove {r : Radio} {e : PlanEntry} {why : MoveReason} {b b' : Blocks} (h : issueMove env r e why b = some b') :
    MoveTaken env r b b' := by
  obtain ⟨reserved, chans⟩ := issueMove_some h
  obtain ⟨free, cells⟩ := reserveTarget_eq_some.mp reserved
  have monitor : ∃ b₀ : Blocks, b₀.monitor = b.monitor ∧ b'.monitor = (endMoveWait env r b₀).monitor := by
    unfold Machine.issueMove at h
    split at h
    · cases h
    · cases h
      exact ⟨_, by rfl, (SchedOnly.radioChange _ _ _ _ _ _).monitor⟩
  obtain ⟨b₀, same, ended⟩ := monitor
  have reported := endMoveWait_reported (env := env) r b₀
  rw [same, ← ended] at reported
  refine ⟨by rw [chans, PerRadio.get_modify_same], ?_, fun k c cell mine => ?_, reported.weaken fun _ _ h => h.1,
    Nat.le_succ_of_le (reported.length_of_absent fun _ _ h => h.2)⟩
  · unfold Machine.issueMove at h
    split at h
    · cases h
    · cases h
      exact (SchedOnly.radioChange _ _ _ _ _ _).lanes.trans (ControlOnly.endMoveWait _ _).lanes
  · rw [cells, mapCells_getElem?, cell, Option.map_some]
    split
    · exact ⟨true, by rw [← mine]⟩
    · exact ⟨c.target, rfl⟩

theorem guardChoice {r : Radio} {b b' : Blocks} (h : guardChoice env r b = some b') : MoveTaken env r b b' := by
  unfold Machine.guardChoice at h
  split at h
  · cases h
  · exact issueMove h

theorem moveRequest (r : Radio) (cells : List Nat) (b : Blocks) : MoveTaken env r b (moveRequest env r cells b) := by
  unfold Machine.moveRequest
  repeat' split
  · exact refl r b
  · exact refl r b
  · exact refl r b
  · next chosen => exact guardChoice chosen
  · exact enterMoveWait r cells b

/-- The promotion check (R138). -/
theorem promotionCheck (r : Radio) (b : Blocks) : MoveTaken env r b (promotionCheck env r b) := by
  unfold Machine.promotionCheck
  dsimp only
  split
  · exact moveRequest _ _ _
  · exact refl r b

end MoveTaken

theorem promotionCheck_setup (setup : env.mode = .setup) (r : Radio) (b : Blocks) : promotionCheck env r b = b :=
  if_neg fun h => by rw [setup] at h; cases h.1

/-! ## A directive carried out (R14, R137) -/

/-- A directive carried out, before the promotion check. -/
structure Promoted (env : Env) (r : Radio) (d : Directive) (b b' : Blocks) : Prop where
  chan : b'.chans.get r = { b.chans.get r with operating := some d.chan, directive := none }
  cells : SameHeld r (promoteTarget r b.cells) b'.cells
  lane : b'.lanes.get r
    = if (b.chans.get r).operating = some d.chan then b.lanes.get r else Lane.restart (b.lanes.get r)
  reported : Reported (fun key x => (∃ q, key = .clash q) ∧ x = false) env b.monitor b'.monitor

theorem carryOut_eq {r : Radio} {d : Directive} {b : Blocks} (quiet : (b.chans.get r).clash = false ∨ except = some r) :
    ∃ b', carryOut env r d except b = promotionCheck env r b' ∧ Promoted env r d b b' := by
  let begun := { b with cells := promoteTarget r b.cells }.modChan r fun c =>
    { c with operating := some d.chan, directive := none }
  have chan : begun.chans.get r = { b.chans.get r with operating := some d.chan, directive := none } :=
    PerRadio.get_modify_same _ _ _
  have stillQuiet : (begun.chans.get r).clash = false ∨ except = some r := by rw [chan]; exact quiet
  obtain ⟨freed, gained, air, eq⟩ : ∃ freed gained air, carryOut env r d except b = promotionCheck env r
      (restartIfMoved r (b.chans.get r).operating
        (radioChange env r (some .silent) air gained (resolveClashes env except freed begun))) := ⟨_, _, _, rfl⟩
  have only : SchedOnly (resolveClashes env except freed begun)
      (radioChange env r (some .silent) air gained (resolveClashes env except freed begun)) := .radioChange _ _ _ _ _ _
  have resolved : (resolveClashes env except freed begun).chans.get r = begun.chans.get r := by
    rcases stillQuiet with clear | out
    · exact (Resolved.resolveClashes freed begun).same clear
    · exact (Resolved.resolveClashes freed begun).out r out
  have now := (congrArg (PerRadio.get · r) only.chans).trans (resolved.trans chan)
  refine ⟨_, eq, ?_, ?_, ?_, ?_⟩
  · rw [restartIfMoved_chans]
    exact now
  · rw [restartIfMoved_cells, only.cells]
    exact Resolved.sameHeld stillQuiet
  · have lanes : (radioChange env r (some .silent) air gained (resolveClashes env except freed begun)).lanes = b.lanes :=
      only.lanes.trans (ControlOnly.resolveClashes _ _ _).lanes
    rw [restartIfMoved_lanes, lanes, now]
    simp only [eq_comm]
  · rw [restartIfMoved_monitor, only.monitor]
    exact resolveClashes_reported except freed begun

/-- What a directive carried out leaves of its radio in either mode (R14, R137, R138). -/
structure CarriedOut (env : Env) (r : Radio) (d : Directive) (b b' : Blocks) : Prop where
  chan : b'.chans.get r = { b.chans.get r with
    operating := some d.chan
    directive := (b'.chans.get r).directive
    nextId := (b'.chans.get r).nextId
    moveWait := (b'.chans.get r).moveWait }
  cells : ∀ (k : Nat) (c : CellRecord), b.cells[k]? = some c → c.holder = some r → c.target = true →
    ∃ x, b'.cells[k]? = some { c with current := true, target := x }
  lane : b'.lanes.get r
    = if (b.chans.get r).operating = some d.chan then b.lanes.get r else Lane.restart (b.lanes.get r)
  reported : Reported (fun key _ => (∃ q, key = .clash q) ∨ key = .noChannel r) env b.monitor b'.monitor
  length : b'.monitor.list.length ≤ b.monitor.list.length + 1
  setup : env.mode = .setup → b'.chans.get r = { b.chans.get r with operating := some d.chan, directive := none }
    ∧ ∀ (k : Nat) (c : CellRecord), b.cells[k]? = some c → c.holder = some r → c.target = false →
      ∃ c' : CellRecord, b'.cells[k]? = some c' ∧ c'.holder ≠ some r

theorem carryOut_spec {r : Radio} {d : Directive} {b : Blocks} (quiet : (b.chans.get r).clash = false ∨ except = some r) :
    CarriedOut env r d b (carryOut env r d except b) := by
  obtain ⟨b', eq, promoted⟩ := carryOut_eq (env := env) (d := d) quiet
  have taken := MoveTaken.promotionCheck (env := env) r b'
  rw [eq]
  refine ⟨?_, fun k c cell mine target => ?_, by rw [taken.lanes]; exact promoted.lane, ?_, ?_, fun setup => ?_⟩
  · rw [taken.chan, promoted.chan]
  · have now := (promoted.cells.held k { c with current := true, target := false } mine).mpr
      (promoteTarget_target cell mine target)
    exact taken.cells k _ now mine
  · exact (promoted.reported.weaken fun _ _ h => .inl h.1).trans (taken.reported.weaken fun _ _ h => .inr h)
  · exact taken.length.trans (Nat.succ_le_succ (promoted.reported.length_of_absent fun _ _ h => h.2))
  · rw [promotionCheck_setup setup]
    refine ⟨promoted.chan, fun k c cell mine apart => ?_⟩
    exact promoted.cells.not_held (promoteTarget_other cell mine apart) (by simp [CellRecord.released])

end Sys2Proof.Machine
end

