-- ==== Sys2Proof/Proofs/DirectiveEvents.lean ====
section
/-! PROOF. The radios' answers to a directive, its lapse, and the TUNED reports (R14, R15, R137, R139 to R142): O49, O50 and
O51. -/

namespace Sys2Proof.Machine

variable {env : Env}

/-! ## A TUNED that is not taken as MOVED (R140, R141) -/

/-- The map and flags that such a report leaves before clash resolution. -/
def tunedMap (env : Env) (r : Radio) (report : Option Channel) (b : Blocks) : Blocks :=
  match report with
  | none => tunedOff env r (dropDirective r b)
  | some ch => tunedChannel env r ch (dropDirective r b)

theorem tunedMap_control (r : Radio) (report : Option Channel) (b : Blocks) : ControlOnly b (tunedMap env r report b) := by
  have dropped : ControlOnly b (dropDirective r b) := .dropDirective _ _
  cases report with
  | none => exact .after (.setClash _ _ _) (.after (.modChan _ _ _) (.after (.setCells _ _) dropped))
  | some ch =>
    unfold tunedMap tunedChannel
    dsimp only
    split
    · exact .after (.setClash _ _ _) (.after (.modChan _ _ _) (.after (.setCells _ _) (.after (.setCells _ _) dropped)))
    · exact .after (.setClash _ _ _) (.after (.modChan _ _ _) (.after (.setCells _ _) dropped))

theorem tunedAfresh_spec (r : Radio) (report : Option Channel) (b : Blocks) :
    let mapped := tunedMap env r report b
    let t := tunedAfresh env r report b
    t.chans.get r = mapped.chans.get r ∧ SameHeld r mapped.cells t.cells
      ∧ t.lanes.get r = if (mapped.chans.get r).operating = (b.chans.get r).operating then b.lanes.get r
          else Lane.restart (b.lanes.get r) := by
  intro mapped t
  obtain ⟨freed, gained, air, eq⟩ : ∃ freed gained air, t = restartIfMoved r (b.chans.get r).operating
      (radioChange env r (some .silent) air gained (resolveClashes env (some r) freed mapped)) := by
    cases report <;> exact ⟨_, _, _, rfl⟩
  have only : SchedOnly (resolveClashes env (some r) freed mapped)
      (radioChange env r (some .silent) air gained (resolveClashes env (some r) freed mapped)) := .radioChange _ _ _ _ _ _
  have chan := (congrArg (PerRadio.get · r) only.chans).trans ((Resolved.resolveClashes freed mapped).out r rfl)
  refine ⟨?_, ?_, ?_⟩
  · rw [eq, restartIfMoved_chans]
    exact chan
  · rw [eq, restartIfMoved_cells, only.cells]
    exact Resolved.sameHeld (.inr rfl)
  · have lanes : (radioChange env r (some .silent) air gained (resolveClashes env (some r) freed mapped)).lanes = b.lanes :=
      only.lanes.trans ((ControlOnly.resolveClashes _ _ _).lanes.trans (tunedMap_control _ _ _).lanes)
    have operating := congrArg ChanState.operating chan
    rw [eq, restartIfMoved_lanes, lanes]
    rw [operating]

theorem tunedMap_off (r : Radio) (b : Blocks) :
    (tunedMap env r none b).chans.get r
        = { b.chans.get r with operating := none, isolated := false, clash := false, directive := none }
      ∧ (tunedMap env r none b).cells = releaseAll r b.cells := by
  unfold tunedMap tunedOff
  dsimp only
  rw [setClash_chans, PerRadio.get_modify_same, setClash_cells, Blocks.modChan_chans, PerRadio.get_modify_same,
    dropDirective_get, Blocks.modChan_cells, releaseAll_dropDirective]
  exact ⟨rfl, rfl⟩

theorem tunedMap_passed {r : Radio} {ch : Channel} {b : Blocks} (passes : acquisitionTest env r ch (releaseAll r b.cells) = true) :
    (tunedMap env r (some ch) b).chans.get r
        = { b.chans.get r with operating := some ch, isolated := false, clash := false, directive := none }
      ∧ (tunedMap env r (some ch) b).cells = acquire r ch (releaseAll r b.cells) := by
  rw [← releaseAll_dropDirective] at passes
  unfold tunedMap tunedChannel
  dsimp only
  rw [if_pos passes, setClash_chans, PerRadio.get_modify_same, setClash_cells, Blocks.modChan_chans, PerRadio.get_modify_same,
    dropDirective_get, Blocks.modChan_cells, releaseAll_dropDirective]
  exact ⟨rfl, rfl⟩

theorem tunedMap_failed {r : Radio} {ch : Channel} {b : Blocks} (fails : ¬ acquisitionTest env r ch (releaseAll r b.cells) = true) :
    (tunedMap env r (some ch) b).chans.get r
        = { b.chans.get r with operating := some ch, clash := true, directive := none }
      ∧ (tunedMap env r (some ch) b).cells = releaseAll r b.cells := by
  rw [← releaseAll_dropDirective] at fails
  unfold tunedMap tunedChannel
  dsimp only
  rw [if_neg fails, setClash_chans, PerRadio.get_modify_same, setClash_cells, Blocks.modChan_chans, PerRadio.get_modify_same,
    dropDirective_get, Blocks.modChan_cells, releaseAll_dropDirective]
  exact ⟨rfl, rfl⟩

theorem SameHeld.holdsNothing {r : Radio} {b : Blocks} {cells : List CellRecord}
    (h : SameHeld r cells b.cells) (none : ∀ c ∈ cells, c.holder ≠ some r) : holdsNothing b r := by
  intro c mem held
  obtain ⟨k, hk⟩ := List.mem_iff_getElem?.mp mem
  exact none c (List.mem_of_getElem? ((h.held k c held).mp hk)) held

/-- The cells of a radio that acquired a channel after the release of its own (R16, R17). -/
theorem acquire_released {r : Radio} {ch : Channel} {cells cells' : List CellRecord}
    (same : SameHeld r (acquire r ch (releaseAll r cells)) cells') {k : Nat} {c : CellRecord} (cell : cells'[k]? = some c) :
    (ch.has k = true → c.holder = some r ∧ c.current = true ∧ c.target = false) ∧ (¬ ch.has k = true → c.holder ≠ some r) := by
  have before : k < (acquire r ch (releaseAll r cells)).length := by
    rw [← same.length]
    exact (List.getElem?_eq_some_iff.mp cell).1
  have length : (acquire r ch (releaseAll r cells)).length = cells.length := by
    rw [acquire, mapCells_length, releaseAll, mapCells_length]
  obtain ⟨x, hx⟩ : ∃ x, cells[k]? = some x := ⟨_, List.getElem?_eq_getElem (length ▸ before)⟩
  have now : (acquire r ch (releaseAll r cells))[k]?
      = some (if ch.has k then { (if x.holder == some r then x.released else x) with
          holder := some r, current := true, target := false } else if x.holder == some r then x.released else x) := by
    rw [acquire, releaseAll, mapCells_getElem?, mapCells_getElem?, hx]
    rfl
  refine ⟨fun inside => ?_, fun outside held => ?_⟩
  · rw [if_pos inside] at now
    have there := (same.held k _ rfl).mpr now
    rw [cell] at there
    rw [Option.some.inj there]
    exact ⟨rfl, rfl, rfl⟩
  · rw [if_neg outside] at now
    have there := (same.held k c held).mp cell
    rw [now] at there
    have eq := Option.some.inj there
    split at eq
    · rw [← eq] at held; cases held
    · next other => rw [← eq] at held; exact other (by simp [held])

/-! ## TUNED (R140) -/

theorem exec_tuned_up {r : Radio} {s : State} (up : (s.blocks.links.get r).port = .up) (start width : Byte) :
    exec (.tuned r start width) s
      = .next { s with blocks := tunedMessage s.env r start width (heardOn s.env r s.blocks) } :=
  next_blocks (receive_of_up up s.env (tunedMessage s.env r start width))

/-- What a TUNED ends first: the move wait and the LAPSE source (R140). -/
def tunedBegun (env : Env) (r : Radio) (b : Blocks) : Blocks := endLapse env r (endMoveWait env r b)

theorem tunedBegun_chan (r : Radio) (b : Blocks) :
    (tunedBegun env r b).chans.get r = { b.chans.get r with moveWait := none, lapseSource := false } := by
  rw [tunedBegun, endLapse_chans, PerRadio.get_modify_same, endMoveWait_get]

theorem tunedBegun_cells (r : Radio) (b : Blocks) : (tunedBegun env r b).cells = b.cells := by
  rw [tunedBegun, endLapse_cells, endMoveWait_cells]

theorem tunedBegun_lanes (r : Radio) (b : Blocks) : (tunedBegun env r b).lanes = b.lanes :=
  (ControlOnly.endLapse _ _).lanes.trans (ControlOnly.endMoveWait _ _).lanes

theorem takeTuned_moved {r : Radio} {b : Blocks} {d : Directive} (pending : (b.chans.get r).directive = some d) :
    takeTuned env r (some d.chan) b = carryOut env r d (some r) (tunedBegun env r b) := by
  have still : ((tunedBegun env r b).chans.get r).directive = some d := by rw [tunedBegun_chan]; exact pending
  rw [tunedBegun] at still
  rw [takeTuned]
  simp only [still]
  exact if_pos trivial

theorem takeTuned_afresh {r : Radio} {b : Blocks} {report : Option Channel}
    (other : ∀ d, (b.chans.get r).directive = some d → report ≠ some d.chan) :
    takeTuned env r report b = tunedAfresh env r report (tunedBegun env r b) := by
  have still : ((tunedBegun env r b).chans.get r).directive = (b.chans.get r).directive := by rw [tunedBegun_chan]
  rw [tunedBegun] at still
  rw [takeTuned, still]
  split
  · next d pending => exact if_neg (other d pending)
  · rfl

theorem Channel.valid_iff_wellFormed {start width : Byte} : Channel.valid ⟨start.toNat, width.toNat⟩ = true ↔
    (width = 4 ∨ width = 8 ∨ width = 16)
      ∧ ((start.toNat + width.toNat ≤ 16 ∧ width ≠ 16) ∨ (16 ≤ start.toNat ∧ start.toNat + width.toNat ≤ 156)) := by
  by_cases allowed : width = 4 ∨ width = 8 ∨ width = 16
  · rw [Channel.valid_iff_of_width allowed]
    exact ⟨fun h => ⟨allowed, h⟩, fun h => h.2⟩
  · refine ⟨fun h => absurd ?_ allowed, fun h => absurd h.1 allowed⟩
    simp only [Channel.valid, Bool.or_eq_true, Bool.and_eq_true, beq_iff_eq] at h
    simp only [← BitVec.toNat_inj]
    change width.toNat = 4 ∨ width.toNat = 8 ∨ width.toNat = 16
    omega

/-- What a TUNED in UP is, by its operands (R140). -/
theorem tunedMessage_channel {r : Radio} {start width : Byte} {b : Blocks} (free : (b.chans.get r).withdrawn = false)
    (valid : Channel.valid ⟨start.toNat, width.toNat⟩ = true) :
    tunedMessage env r start width b = takeTuned env r (some ⟨start.toNat, width.toNat⟩) b := by
  have wide : ¬ width.toNat = 0 := by
    intro zero
    rcases (Channel.valid_iff_wellFormed.mp valid).1 with rfl | rfl | rfl <;> cases zero
  rw [tunedMessage, if_neg (by simp [free]), if_neg wide, if_pos valid]

/-- Settles O49. -/
theorem tunedReports : Obligations.TunedReports := by
  intro r start width s up x ch ended lane wellFormed passes
  have begun : (tunedBegun s.env r (heardOn s.env r s.blocks)).chans.get r
      = { x with moveWait := none, lapseSource := false } := tunedBegun_chan _ _
  have cells : (tunedBegun s.env r (heardOn s.env r s.blocks)).cells = s.blocks.cells := tunedBegun_cells _ _
  have lanes : (tunedBegun s.env r (heardOn s.env r s.blocks)).lanes.get r = lane :=
    congrArg (PerRadio.get · r) (tunedBegun_lanes _ _)
  rw [exec_tuned_up up]
  refine ⟨fun withdrawn => next_blocks (if_pos withdrawn), fun free wide bad => ?_, fun free off => ?_,
    fun d free good pending same => ?_, fun free good other => ?_⟩
  · have notOff : ¬ width.toNat = 0 := fun zero => wide (BitVec.eq_of_toNat_eq zero)
    refine next_blocks ?_
    rw [tunedMessage, if_neg (by simpa using free), if_neg notOff,
      if_neg fun valid => bad (Channel.valid_iff_wellFormed.mp valid)]
    rfl
  · subst off
    obtain ⟨chan, held, moved⟩ := tunedAfresh_spec (env := s.env) r none (tunedBegun s.env r (heardOn s.env r s.blocks))
    obtain ⟨mapped, released⟩ := tunedMap_off (env := s.env) r (tunedBegun s.env r (heardOn s.env r s.blocks))
    have eq : tunedMessage s.env r start 0 (heardOn s.env r s.blocks)
        = tunedAfresh s.env r none (tunedBegun s.env r (heardOn s.env r s.blocks)) := by
      rw [tunedMessage, if_neg (by simpa using free), if_pos (show BitVec.toNat (0 : Byte) = 0 from rfl), takeTuned_afresh (b := heardOn s.env r s.blocks) fun _ _ h => by cases h]
    refine ⟨_, next_blocks eq, ?_, ?_, ?_⟩
    · rw [released] at held
      exact held.holdsNothing (holdsNothing_releaseAll _ _)
    · rw [chan, mapped, begun]
    · rw [moved, mapped, begun, lanes]
      simp only [eq_comm]
  · have eq : tunedMessage s.env r start width (heardOn s.env r s.blocks)
        = carryOut s.env r d (some r) (tunedBegun s.env r (heardOn s.env r s.blocks)) := by
      rw [tunedMessage_channel (b := heardOn s.env r s.blocks) free (Channel.valid_iff_wellFormed.mpr good)]
      show takeTuned s.env r (some ch) (heardOn s.env r s.blocks) = _
      rw [← same]
      exact takeTuned_moved (b := heardOn s.env r s.blocks) pending
    have done := carryOut_spec (env := s.env) (d := d) (b := tunedBegun s.env r (heardOn s.env r s.blocks))
      (except := some r) (.inr rfl)
    have chan := done.chan
    rw [begun, same] at chan
    refine ⟨_, next_blocks eq, ?_, ?_, ?_, ?_, ?_, ?_, ?_, fun k c cell mine target => ?_, fun setup => ⟨?_, ?_⟩⟩
    · rw [chan]
    · rw [chan]
    · rw [chan]
    · rw [chan]
    · rw [chan]
    · rw [chan]; exact free
    · rw [done.lane, begun, lanes, same]
    · rw [← cells] at cell
      obtain ⟨y, hy⟩ := done.cells k c cell mine target
      exact ⟨_, hy, mine, rfl⟩
    · rw [(done.setup setup).1, begun, same]
    · rw [← cells]
      exact (done.setup setup).2
  · have eq : tunedMessage s.env r start width (heardOn s.env r s.blocks)
        = tunedAfresh s.env r (some ch) (tunedBegun s.env r (heardOn s.env r s.blocks)) := by
      rw [tunedMessage_channel (b := heardOn s.env r s.blocks) free (Channel.valid_iff_wellFormed.mpr good)]
      exact takeTuned_afresh (b := heardOn s.env r s.blocks) fun d pending same => other d pending (Option.some.inj same).symm
    obtain ⟨chan, held, moved⟩ := tunedAfresh_spec (env := s.env) r (some ch) (tunedBegun s.env r (heardOn s.env r s.blocks))
    have tested : acquisitionTest s.env r ch (releaseAll r (tunedBegun s.env r (heardOn s.env r s.blocks)).cells) = true
        ↔ passes := by
      rw [cells]
      exact acquisitionTest_released
    refine ⟨_, next_blocks eq, ?_, fun passed => ?_, fun failed => ?_⟩
    · have operating : ((tunedMap s.env r (some ch) (tunedBegun s.env r (heardOn s.env r s.blocks))).chans.get r).operating
          = some ch := by
        by_cases passed : passes
        · rw [(tunedMap_passed (tested.mpr passed)).1]
        · rw [(tunedMap_failed fun h => passed (tested.mp h)).1]
      rw [moved, operating, begun, lanes]
      simp only [eq_comm]
    · obtain ⟨mapped, acquired⟩ := tunedMap_passed (tested.mpr passed)
      rw [acquired] at held
      refine ⟨by rw [chan, mapped, begun], fun k c cell => ?_⟩
      rw [← Channel.has_iff (ch := ch)]
      exact acquire_released held cell
    · obtain ⟨mapped, released⟩ := tunedMap_failed fun h => failed (tested.mp h)
      rw [released] at held
      exact ⟨by rw [chan, mapped, begun], held.holdsNothing (holdsNothing_releaseAll _ _)⟩

/-! ## MOVED and DECLINE (R137) -/

theorem takeMoved_ignored {r : Radio} {id : Byte} {b : Blocks} (other : ∀ d, (b.chans.get r).directive = some d → d.id ≠ id) :
    takeMoved env r id b = b := by
  unfold takeMoved
  split
  · rfl
  · next d pending => exact if_neg (other d pending)

theorem takeMoved_matching {r : Radio} {b : Blocks} {d : Directive} (pending : (b.chans.get r).directive = some d) :
    takeMoved env r d.id b = carryOut env r d none b := by
  unfold takeMoved
  rw [pending]
  exact if_pos rfl

theorem takeDecline_ignored {r : Radio} {id why : Byte} {b : Blocks}
    (other : ∀ d, (b.chans.get r).directive = some d → d.id ≠ id) : takeDecline env r id why b = b := by
  unfold takeDecline
  split
  · rfl
  · next d pending => exact if_neg (other d pending)

/-- A pending directive dropped, before clash resolution: the radio's target goes, its current cells stay (R15). -/
theorem SameHeld.dropped {r : Radio} {cells cells' : List CellRecord} (h : SameHeld r (dropTarget r cells) cells') :
    (∀ (k : Nat) (c : CellRecord), cells[k]? = some c → c.holder = some r → c.current = true →
      cells'[k]? = some { c with target := false })
    ∧ (∀ (k : Nat) (c : CellRecord), cells[k]? = some c → c.holder = some r → c.current = false → c.target = true →
      ∃ c' : CellRecord, cells'[k]? = some c' ∧ c'.holder ≠ some r) := by
  refine ⟨fun k c cell mine current => ?_, fun k c cell mine apart target => ?_⟩
  · obtain ⟨x, dropped, clear⟩ := dropTarget_current (r := r) cell current
    rw [clear mine] at dropped
    exact (h.held k { c with target := false } mine).mpr dropped
  · exact h.not_held (dropTarget_target cell mine apart target) (by simp [CellRecord.released])

/-- What a matching DECLINE leaves before the move wait (R137). -/
theorem takeDecline_matching {r : Radio} {why : Byte} {b : Blocks} {d : Directive}
    (pending : (b.chans.get r).directive = some d) (clear : (b.chans.get r).clash = false) :
    ∃ b', takeDecline env r d.id why b = waitAfterDecline env r d.reason b'
      ∧ b'.chans.get r = { b.chans.get r with
          directive := none
          declined := some ⟨d.entry, Time.plus env.now (env.retained.params.declineHold * 1000000), why⟩ }
      ∧ SameHeld r (dropTarget r b.cells) b'.cells := by
  let begun := (dropDirective r b).modChan r fun c =>
    { c with declined := some ⟨d.entry, Time.plus env.now (env.retained.params.declineHold * 1000000), why⟩ }
  have chan : begun.chans.get r = { b.chans.get r with
      directive := none
      declined := some ⟨d.entry, Time.plus env.now (env.retained.params.declineHold * 1000000), why⟩ } := by
    rw [Blocks.modChan_chans, PerRadio.get_modify_same, dropDirective_get]
  have cells : begun.cells = dropTarget r b.cells := by
    rw [Blocks.modChan_cells, dropDirective_cells, pending]
    rfl
  have stillClear : (begun.chans.get r).clash = false := by rw [chan]; exact clear
  obtain ⟨freed, gained, air, eq⟩ : ∃ freed gained air, takeDecline env r d.id why b = waitAfterDecline env r d.reason
      (radioChange env r none air gained (resolveClashes env none freed begun)) := by
    unfold takeDecline
    rw [pending]
    exact ⟨_, _, _, if_pos rfl⟩
  have only : SchedOnly (resolveClashes env none freed begun)
      (radioChange env r none air gained (resolveClashes env none freed begun)) := .radioChange _ _ _ _ _ _
  refine ⟨_, eq, ?_, ?_⟩
  · rw [only.chans, (Resolved.resolveClashes freed begun).same stillClear, chan]
  · rw [only.cells, ← cells]
    exact Resolved.sameHeld (.inl stillClear)

theorem waitAfterDecline_cells (r : Radio) (why : MoveReason) (b : Blocks) : (waitAfterDecline env r why b).cells = b.cells := by
  unfold waitAfterDecline
  dsimp only
  split <;> rfl

theorem waitAfterDecline_guardedCells (r : Radio) (why : MoveReason) (b : Blocks) :
    guardedCells env (waitAfterDecline env r why b) r = guardedCells env b r := by
  unfold waitAfterDecline
  dsimp only
  split
  · simp [guardedCells, operatingCells, Blocks.modChan, PerRadio.get_modify_same]
  · rfl

theorem waitAfterDecline_chan (r : Radio) (why : MoveReason) (b : Blocks) :
    (waitAfterDecline env r why b).chans.get r = { b.chans.get r with
      moveWait := if why ≠ .host ∧ env.mode = .run ∧ guardedCells env b r ≠ [] then some ⟨guardedCells env b r, false⟩
        else (b.chans.get r).moveWait } := by
  unfold waitAfterDecline
  dsimp only
  split
  · rw [Blocks.modChan_chans, PerRadio.get_modify_same]
  · rfl

/-- Settles O50. -/
theorem directiveAnswers : Obligations.DirectiveAnswers := by
  constructor
  · intro r id s up x
    have taken : exec (.moved r id) s = .next { s with blocks := takeMoved s.env r id (heardOn s.env r s.blocks) } :=
      next_blocks (receive_of_up up s.env (takeMoved s.env r id))
    refine ⟨fun other => taken.trans (next_blocks (takeMoved_ignored (b := heardOn s.env r s.blocks) other)), ?_⟩
    rintro d pending rfl clear
    have done := carryOut_spec (env := s.env) (d := d) (b := heardOn s.env r s.blocks) (r := r) (except := none) (.inl clear)
    have chan := done.chan
    refine ⟨_, taken.trans (next_blocks (takeMoved_matching (b := heardOn s.env r s.blocks) pending)), ?_, ?_, ?_, ?_,
      fun k c cell mine target => ?_, done.lane, done.setup⟩
    · rw [chan]
    · rw [chan]; rfl
    · rw [chan]; rfl
    · rw [chan]; rfl
    · obtain ⟨y, hy⟩ := done.cells k c cell mine target
      exact ⟨_, hy, mine, rfl, rfl⟩
  · intro r id why s up x
    have taken : exec (.decline r id why) s
        = .next { s with blocks := takeDecline s.env r id why (heardOn s.env r s.blocks) } :=
      next_blocks (receive_of_up up s.env (takeDecline s.env r id why))
    refine ⟨fun other => taken.trans (next_blocks (takeDecline_ignored (b := heardOn s.env r s.blocks) other)), ?_⟩
    rintro d pending rfl clear
    obtain ⟨b', eq, chan, held⟩ := takeDecline_matching (env := s.env) (b := heardOn s.env r s.blocks) (why := why) pending clear
    have stays := waitAfterDecline_cells (env := s.env) r d.reason b'
    rw [← stays] at held
    refine ⟨_, taken.trans (next_blocks eq), ?_, held.dropped.1, held.dropped.2⟩
    dsimp only
    rw [waitAfterDecline_guardedCells, waitAfterDecline_chan, chan]
    rfl

/-! ## The lapse of a directive (R139) -/

theorem takeLapse_eq {r : Radio} {b : Blocks} {d : Directive} (pending : (b.chans.get r).directive = some d)
    (past : Time.atOrBefore d.expiry env.now = true) :
    takeLapse env r b = if env.retained.params.lapseMode = 0 then lapseAssume env r d b else lapseRevoke env r b := by
  unfold takeLapse
  rw [pending]
  exact if_pos past

/-- A momentary source with no record of its own leaves a RESOLVED one, where there is room (R87, R88, R90, R92). -/
theorem Monitor.momentary_lapse {m : Monitor} {r : Radio} (new : m.holds (.lapse r) = false) (room : m.list.length < listLimit) :
    ∃ c, ((m.report env (.lapse r) true).report env (.lapse r) false).find (.lapse r) = some c
      ∧ c.state = .resolved ∧ c.unread = true ∧ c.changed = env.now := by
  have added : m.report env (.lapse r) true = { m with list := m.list ++ [newRecord env m.lastRange (.lapse r)] } := by
    unfold Monitor.report Monitor.present
    rw [if_pos rfl, if_neg (by simp [new]), if_pos room]
  have absent : ∀ l : List CondRecord, (l.any fun c => c.key == .lapse r) = false → ∀ n : CondRecord, n.key = .lapse r →
      (updateKey (.lapse r) (fun c => c.onAbsent env.now) (l ++ [n])).find? (fun c => c.key == .lapse r)
        = (updateKey (.lapse r) (fun c => c.onAbsent env.now) [n]).find? fun c => c.key == .lapse r := by
    intro l
    induction l with
    | nil => exact fun _ _ _ => rfl
    | cons c cs ih =>
      intro none n named
      rw [List.any_cons, Bool.or_eq_false_iff] at none
      have other : c.key ≠ .lapse r := by simpa using none.1
      rw [List.cons_append, updateKey, if_neg other, List.find?_cons_of_neg (by simp [other]), ih none.2 n named]
  rw [added, Monitor.report, if_neg Bool.false_ne_true, Monitor.absent, Monitor.find]
  dsimp only
  rw [absent m.list new _ (newRecord_key _ _ _)]
  have ends : (newRecord env m.lastRange (.lapse r)).onAbsent env.now
      = some { newRecord env m.lastRange (.lapse r) with state := .resolved, changed := env.now, timer := none } := rfl
  rw [updateKey, if_pos (newRecord_key _ _ _), ends]
  exact ⟨_, List.find?_cons_of_pos (by simp [newRecord_key]), rfl, rfl, rfl⟩

/-- What a lapse under REVOKE leaves (R139). -/
theorem lapseRevoke_spec {r : Radio} {b : Blocks} {d : Directive} (pending : (b.chans.get r).directive = some d)
    (clear : (b.chans.get r).clash = false) :
    (lapseRevoke env r b).chans.get r = { b.chans.get r with directive := none, isolated := true, lapseSource := true }
      ∧ recordedOrFull (lapseRevoke env r b).monitor (.lapse r) ∧ (lapseRevoke env r b).lanes = b.lanes
      ∧ SameHeld r (dropTarget r b.cells) (lapseRevoke env r b).cells := by
  have chan : (dropDirective r b).chans.get r = { b.chans.get r with directive := none } := dropDirective_get _ _
  have cells : (dropDirective r b).cells = dropTarget r b.cells := by
    rw [dropDirective_cells, pending]
    rfl
  have stillClear : ((dropDirective r b).chans.get r).clash = false := by rw [chan]; exact clear
  obtain ⟨freed, gained, air, eq⟩ : ∃ freed gained air, lapseRevoke env r b = radioChange env r (some .cut) air gained
      (((resolveClashes env none freed (dropDirective r b)).modChan r fun c =>
        { c with isolated := true, lapseSource := true }).report env (.lapse r) true) := ⟨_, _, _, rfl⟩
  have only := SchedOnly.radioChange env r (some .cut) air gained
    (((resolveClashes env none freed (dropDirective r b)).modChan r fun c =>
      { c with isolated := true, lapseSource := true }).report env (.lapse r) true)
  rw [eq]
  refine ⟨?_, ?_, ?_, ?_⟩
  · rw [only.chans]
    refine (PerRadio.get_modify_same _ _ _).trans ?_
    rw [(Resolved.resolveClashes freed (dropDirective r b)).same stillClear, chan]
  · rw [only.monitor]
    exact Monitor.recordedOrFull_report _ _
  · rw [only.lanes]
    exact (ControlOnly.resolveClashes _ _ _).lanes.trans (ControlOnly.dropDirective _ _).lanes
  · rw [only.cells, ← cells]
    exact Resolved.sameHeld (.inl stillClear)

theorem declineDue_iff {r : Radio} {b : Blocks} : declineDue env b r = true
    ↔ ∃ d, (b.chans.get r).declined = some d ∧ Time.atOrBefore d.expiry env.now = true := Time.reached_map_iff

/-- Settles O51. -/
theorem directiveTimers : Obligations.DirectiveTimers := by
  intro r s x past
  have lapses : exec (.directiveLapse r) s = .next { s with blocks := takeLapse s.env r s.blocks } := rfl
  refine ⟨fun d pending due clear assume => ?_, fun d pending due clear revoke => ?_, fun early => ?_, fun d declined due => ?_,
    fun early => ?_⟩
  · have eq : takeLapse s.env r s.blocks = lapseAssume s.env r d s.blocks := (takeLapse_eq pending due).trans (if_pos assume)
    have done := carryOut_spec (env := s.env) (d := d) (b := s.blocks) (r := r) (except := none) (.inl clear)
    have chan : (lapseAssume s.env r d s.blocks).chans.get r = (carryOut s.env r d none s.blocks).chans.get r := rfl
    rw [done.chan] at chan
    refine ⟨_, lapses.trans (next_blocks eq), ?_, ?_, ?_, fun new room => ?_, fun k c cell mine target => ?_⟩
    · rw [chan]
    · rw [chan]
    · rw [chan]
    · refine Monitor.momentary_lapse ?_ (Nat.lt_of_le_of_lt done.length (Nat.succ_lt_succ room))
      have same := done.reported.find_other (j := .lapse r) (by
        rintro y (⟨q, h⟩ | h) <;> cases h)
      rw [← Bool.not_eq_true, Monitor.holds_iff_find] at new ⊢
      rwa [same]
    · obtain ⟨y, hy⟩ := done.cells k c cell mine target
      exact ⟨_, hy, mine, rfl⟩
  · have eq : takeLapse s.env r s.blocks = lapseRevoke s.env r s.blocks := (takeLapse_eq pending due).trans (if_neg revoke)
    obtain ⟨chan, recorded, lanes, held⟩ := lapseRevoke_spec (env := s.env) pending clear
    exact ⟨_, lapses.trans (next_blocks eq), chan, recorded, lanes, held.dropped.1⟩
  · refine lapses.trans (congrArg Host.Outcome.next ?_)
    have idle : takeLapse s.env r s.blocks = s.blocks := by
      unfold takeLapse
      split
      · rfl
      · next d pending => exact if_neg (early d pending)
    rw [idle]
  · exact next_blocks (if_pos (declineDue_iff.mpr ⟨d, declined, due⟩))
  · refine congrArg Host.Outcome.next (withBlocks_self (if_neg fun due => ?_))
    obtain ⟨d, declined, reached⟩ := declineDue_iff.mp due
    exact early d declined reached

end Sys2Proof.Machine
end

