-- ==== Sys2Proof/Proofs/RecordEvents.lean ====
section
/-! PROOF. Events of one condition record, its timers and CLEAR LATCH, and what the reports they call for leave alone (R4, R5, R89,
R92, R93, R97, R98): O16 and O36. -/

namespace Sys2Proof.Machine

variable {env : Env}

/-! ## An update of the record of one key -/

theorem find_of_key {key : CondKey} {l : List CondRecord} {c : CondRecord}
    (found : l.find? (fun x => x.key == key) = some c) : c.key = key := by
  simpa using List.find?_some found

theorem updateKey_same {key : CondKey} {f : CondRecord → Option CondRecord} {l : List CondRecord}
    (same : ∀ c, l.find? (fun x => x.key == key) = some c → f c = some c) : updateKey key f l = l := by
  induction l with
  | nil => rfl
  | cons c cs ih =>
    unfold updateKey
    by_cases e : c.key = key
    · rw [if_pos e, same c (List.find?_cons_of_pos (by simp [e]))]
    · rw [if_neg e, ih fun d found => same d (by rw [List.find?_cons_of_neg (by simp [e])]; exact found)]

/-- The other keys of a list without two records of one key. -/
theorem flatMap_other_keys {key : CondKey} {l : List CondRecord} (absent : key ∉ l.map CondRecord.key) (d : List CondRecord) :
    (l.flatMap fun x => if x.key = key then d else [x]) = l := by
  induction l with
  | nil => rfl
  | cons c cs ih =>
    rw [List.map_cons, List.mem_cons, not_or] at absent
    rw [List.flatMap_cons, if_neg (Ne.symm absent.1), ih absent.2]
    rfl

/-- In a list without two records of one key, an update replaces the one record of its key (R86). -/
theorem updateKey_eq_flatMap {key : CondKey} {f : CondRecord → Option CondRecord} {l : List CondRecord} {c : CondRecord}
    (keys : (l.map CondRecord.key).Nodup) (found : l.find? (fun x => x.key == key) = some c) :
    updateKey key f l = l.flatMap fun x => if x.key = key then (f c).toList else [x] := by
  induction l with
  | nil => cases found
  | cons x xs ih =>
    rw [List.map_cons, List.nodup_cons] at keys
    rw [List.flatMap_cons]
    unfold updateKey
    by_cases e : x.key = key
    · rw [List.find?_cons_of_pos (by simp [e])] at found
      cases found
      rw [if_pos e, if_pos e, flatMap_other_keys (e ▸ keys.1)]
      cases f c <;> rfl
    · rw [List.find?_cons_of_neg (by simp [e])] at found
      rw [if_neg e, if_neg e, ih keys.2 found]
      rfl

theorem updateKey_find {key : CondKey} {f : CondRecord → Option CondRecord} {l : List CondRecord} {c : CondRecord}
    (kept : ∀ c d, f c = some d → d.key = c.key) (keys : (l.map CondRecord.key).Nodup)
    (found : l.find? (fun x => x.key == key) = some c) : (updateKey key f l).find? (fun x => x.key == key) = f c := by
  induction l with
  | nil => cases found
  | cons x xs ih =>
    rw [List.map_cons, List.nodup_cons] at keys
    unfold updateKey
    by_cases e : x.key = key
    · rw [List.find?_cons_of_pos (by simp [e])] at found
      cases found
      rw [if_pos e]
      cases image : f c with
      | none =>
        refine List.find?_eq_none.mpr fun d mem same => keys.1 ?_
        rw [e, ← beq_iff_eq.mp same]
        exact List.mem_map_of_mem mem
      | some d => exact List.find?_cons_of_pos (by simp [kept c d image, e])
    · rw [List.find?_cons_of_neg (by simp [e])] at found
      rw [if_neg e, List.find?_cons_of_neg (by simp [e]), ih keys.2 found]

/-- An update that removes the record of a key leaves the list without it (R86). -/
theorem updateKey_removed {key : CondKey} {l : List CondRecord} (keys : (l.map CondRecord.key).Nodup) :
    updateKey key (fun _ => none) l = l.filter fun x => x.key != key := by
  induction l with
  | nil => rfl
  | cons x xs ih =>
    rw [List.map_cons, List.nodup_cons] at keys
    unfold updateKey
    by_cases e : x.key = key
    · rw [if_pos e, List.filter_cons_of_neg (by simp [e]), List.filter_eq_self.mpr]
      intro d mem
      simp only [bne_iff_ne, ne_eq]
      intro same
      exact keys.1 (by rw [e, ← same]; exact List.mem_map_of_mem mem)
    · rw [if_neg e, List.filter_cons_of_pos (by simp [e]), ih keys.2]

/-! ## Levels under reports of radio-kind sources -/

theorem any_report {p : CondRecord → Bool} {key : CondKey} (unseen : ∀ c : CondRecord, c.key = key → p c = false) (m : Monitor)
    (x : Bool) : (m.report env key x).list.any p = m.list.any p := by
  unfold Monitor.report
  split
  · unfold Monitor.present
    split
    · exact updateKey_any_other (fun c d e => by cases e; simp) unseen _
    · split
      · rw [List.any_append, List.any_cons, unseen _ (newRecord_key _ _ _)]
        simp
      · rfl
  · exact updateKey_any_other (fun _ _ => CondRecord.onAbsent_key) unseen _

/-- A record that affects no cell passes no test of R4. -/
theorem any_ranged {p : CondRecord → Bool} (seen : ∀ c : CondRecord, p c = true → c.range ≠ none) {l : List CondRecord}
    (ranges : ∀ c ∈ l, c.ranged) : l.any p = l.any fun c => p c && (CondKey.radio c.key).isNone := by
  refine Bool.eq_iff_iff.mpr ?_
  simp only [List.any_eq_true, Bool.and_eq_true, Option.isNone_iff_eq_none]
  refine exists_congr fun c => and_congr_right fun mem => ⟨fun h => ⟨h, ?_⟩, fun h => h.1⟩
  by_contra about
  exact seen c h (ranges c mem (Option.isSome_iff_ne_none.mpr about))

theorem CondRecord.bars_range {c : CondRecord} {k : Nat} (h : c.bars k = true) : c.range ≠ none := by
  obtain ⟨-, -, covers⟩ := CondRecord.bars_iff.mp h
  obtain ⟨x, hx, -⟩ := CondRecord.covers_iff.mp covers
  rw [hx]
  exact nofun

theorem CondRecord.avoids_range {c : CondRecord} {k : Nat} (h : c.avoids k = true) : c.range ≠ none := by
  obtain ⟨-, -, covers⟩ := CondRecord.avoids_iff.mp h
  obtain ⟨x, hx, -⟩ := CondRecord.covers_iff.mp covers
  rw [hx]
  exact nofun

theorem guardLevel_radioReported {m m' : Monitor} (h : RadioReported env m m') (sound : m.Sound) (e : Env) (k : Nat) :
    guardLevel e m' k = guardLevel e m k := by
  induction h with
  | refl => rfl
  | @report m' key x r about before ih =>
    rw [← ih]
    have ranges := (Monitor.Sound.radioReported before sound)
    have unseen : ∀ (p : CondRecord → Bool) (c : CondRecord), c.key = key → (p c && (CondKey.radio c.key).isNone) = false := by
      intro p c same
      rw [same, about]
      exact Bool.and_false _
    have test : ∀ p : CondRecord → Bool, (∀ c : CondRecord, p c = true → c.range ≠ none) →
        (m'.report env key x).list.any p = m'.list.any p := fun p seen => by
      rw [any_ranged seen (ranges.report env key x).ranges, any_report (unseen p), ← any_ranged seen ranges.ranges]
    exact guardLevel_congr (test _ fun _ => CondRecord.bars_range) (test _ fun _ => CondRecord.avoids_range)

/-! ## Reports of NOCHANNEL alone -/

/-- The delivery of an event's reports touches no record but NOCHANNEL's (R98, R134). -/
theorem settleMonitor_reported (env0 : Env) (m0 : Monitor) (b : Blocks) :
    Reported (fun key _ => ∃ r, key = .noChannel r) env b.monitor (settleMonitor env0 m0 env b).monitor := by
  have request : ∀ (risen : List Nat) (l : List Radio) (b : Blocks),
      Reported (fun key _ => ∃ r, key = .noChannel r) env b.monitor (l.foldl (requestMove env risen) b).monitor := by
    intro risen l
    induction l with
    | nil => exact fun b => .refl _
    | cons r l ih =>
      intro b
      refine .trans ?_ (ih _)
      unfold requestMove
      dsimp only
      split
      · exact .refl _
      · exact (MoveTaken.moveRequest r _ b).reported.weaken fun _ _ h => ⟨r, h⟩
  have cleared : ∀ b : Blocks,
      Reported (fun key _ => ∃ r, key = .noChannel r) env b.monitor (endClearedWaits env b).monitor := by
    intro b
    unfold endClearedWaits
    induction radios generalizing b with
    | nil => exact .refl _
    | cons r l ih =>
      refine .trans ?_ (ih _)
      dsimp only
      repeat' split
      · exact .refl _
      · exact .refl _
      · exact (endMoveWait_reported r b).weaken fun _ _ h => ⟨r, h.1⟩
  have delivered : ∀ changed risen, Reported (fun key _ => ∃ r, key = .noChannel r) env b.monitor
      (deliverGuardChange env changed risen b).monitor := by
    intro changed risen
    have taken := (SchedOnly.takeGuardChange env changed b).monitor
    unfold deliverGuardChange
    dsimp only
    split
    · exact .of_eq taken
    · rw [← taken]
      exact (cleared _).trans (request _ _ _)
  have first : Reported (fun key _ => ∃ r, key = .noChannel r) env b.monitor
      (if (changedCells env0 m0 env b.monitor).isEmpty then b
        else deliverGuardChange env (changedCells env0 m0 env b.monitor) (risenCells env0 m0 env b.monitor) b).monitor := by
    split
    · exact .refl _
    · exact delivered _ _
  unfold settleMonitor
  dsimp only
  split
  · exact first
  · unfold takeShaping
    rw [(SchedOnly.applyShaping _ _).monitor]
    exact first

/-! ## Events without a rise -/

/-- Nothing but the scheduler, the links and the move waits has changed, and NOCHANNEL's records under reports of absence. -/
structure Calm (env : Env) (b b' : Blocks) : Prop where
  cells : b'.cells = b.cells
  lanes : b'.lanes = b.lanes
  tracker : b'.tracker = b.tracker
  survey : b'.survey = b.survey
  chans : ∀ r, b'.chans.get r = { b.chans.get r with moveWait := (b'.chans.get r).moveWait }
  reported : Reported (fun key x => (∃ r, key = .noChannel r) ∧ x = false) env b.monitor b'.monitor

namespace Calm

theorem refl (b : Blocks) : Calm env b b := ⟨rfl, rfl, rfl, rfl, fun _ => rfl, .refl _⟩

theorem trans {a b c : Blocks} (h : Calm env a b) (g : Calm env b c) : Calm env a c where
  cells := g.cells.trans h.cells
  lanes := g.lanes.trans h.lanes
  tracker := g.tracker.trans h.tracker
  survey := g.survey.trans h.survey
  chans r := by rw [g.chans, h.chans]
  reported := h.reported.trans g.reported

theorem foldl {α : Type} {f : Blocks → α → Blocks} (h : ∀ b x, Calm env b (f b x)) (l : List α) (b : Blocks) :
    Calm env b (l.foldl f b) := by
  induction l generalizing b with
  | nil => exact refl b
  | cons x xs ih => exact (h b x).trans (ih _)

theorem of_schedOnly {b b' : Blocks} (h : SchedOnly b b') : Calm env b b' :=
  ⟨h.cells, h.lanes, h.tracker, h.survey, fun r => by rw [h.chans], .of_eq h.monitor⟩

theorem takeShaping (on : Bool) (b : Blocks) : Calm env b (takeShaping env on b) := by
  have stored : Calm env b { b with sched := { b.sched with shaping := on } } := ⟨rfl, rfl, rfl, rfl, fun _ => rfl, .refl _⟩
  exact stored.trans (of_schedOnly (.applyShaping _ _))

theorem endMoveWait (r : Radio) (b : Blocks) : Calm env b (endMoveWait env r b) where
  cells := endMoveWait_cells r b
  lanes := (ControlOnly.endMoveWait r b).lanes
  tracker := (ControlOnly.endMoveWait r b).tracker
  survey := (ControlOnly.endMoveWait r b).survey
  chans q := by
    rw [endMoveWait_chans, PerRadio.get_modify]
    split
    · next e => subst e; rfl
    · rfl
  reported := (endMoveWait_reported r b).weaken fun _ _ h => ⟨⟨r, h.1⟩, h.2⟩

theorem endClearedWaits (b : Blocks) : Calm env b (endClearedWaits env b) := by
  unfold Machine.endClearedWaits
  refine foldl (fun b r => ?_) _ _
  repeat' split
  · exact refl _
  · exact refl _
  · exact endMoveWait r b

theorem requestMove_none (l : List Radio) (b : Blocks) : l.foldl (requestMove env []) b = b := by
  induction l generalizing b with
  | nil => rfl
  | cons r l ih =>
    rw [List.foldl_cons, ih]
    simp [requestMove]

/-- A guard change report without a rise. -/
theorem deliverGuardChange (changed : List Nat) (b : Blocks) : Calm env b (deliverGuardChange env changed [] b) := by
  have taken : Calm env b (takeGuardChange env changed b) := of_schedOnly (.takeGuardChange _ _ _)
  unfold Machine.deliverGuardChange
  dsimp only
  split
  · exact taken
  · rw [requestMove_none]
    exact taken.trans (endClearedWaits _)

/-- The delivery of an event's reports where no level rises (R5, R98, R134). -/
theorem settleMonitor {env0 : Env} {m0 : Monitor} {b : Blocks} (level : risenCells env0 m0 env b.monitor = []) :
    Calm env b (settleMonitor env0 m0 env b) := by
  have first : Calm env b (if (changedCells env0 m0 env b.monitor).isEmpty then b
      else Machine.deliverGuardChange env (changedCells env0 m0 env b.monitor) (risenCells env0 m0 env b.monitor) b) := by
    rw [level]
    split
    · exact refl b
    · exact deliverGuardChange _ _
  unfold Machine.settleMonitor
  dsimp only
  split
  · exact first
  · exact first.trans (takeShaping _ _)

end Calm

/-- Fewer records in force raise no level (R4). -/
theorem guardLevel_strength_le {m n : Monitor} {k : Nat} (fewer : ∀ c ∈ n.list, c ∈ m.list) :
    (guardLevel env n k).strength ≤ (guardLevel env m k).strength := by
  have bars : n.list.any (fun c => c.bars k) = true → m.list.any (fun c => c.bars k) = true := by
    simp only [List.any_eq_true]
    exact fun ⟨c, mem, h⟩ => ⟨c, fewer c mem, h⟩
  have avoids : n.list.any (fun c => c.avoids k) = true → m.list.any (fun c => c.avoids k) = true := by
    simp only [List.any_eq_true]
    exact fun ⟨c, mem, h⟩ => ⟨c, fewer c mem, h⟩
  unfold guardLevel
  split
  · exact Nat.le_refl _
  · split
    · next h => rw [if_pos ⟨h.1, bars h.2⟩]
    · split
      · next h =>
        split
        · decide
        · rw [if_pos ⟨h.1, avoids h.2⟩]
      · exact Nat.zero_le _

theorem risenCells_eq_nil {env0 : Env} {m0 m : Monitor}
    (level : ∀ k, (guardLevel env m k).strength ≤ (guardLevel env0 m0 k).strength) : risenCells env0 m0 env m = [] := by
  simp only [risenCells, List.filter_eq_nil_iff, decide_eq_true_eq, Nat.not_lt]
  exact fun k _ => level k

/-! ## CLEAR LATCH (R93) -/

/-- What a CLEAR LATCH does to a latched record. -/
def removeRecord (key : CondKey) (m : Monitor) : Monitor := { m with list := updateKey key (fun _ => none) m.list }

theorem exec_clearLatch {kind subject : Byte} {key : CondKey} {c : CondRecord} {s : State}
    (named : ((kindOf kind).bind fun k => keyOf k subject) = some key) (found : s.blocks.monitor.find key = some c) :
    exec (.clearLatch kind subject) s = if c.state = .latched then
        .next ({ s with blocks := monitorEvent s.env (removeRecord key) s.blocks }.ok [])
      else .next (s.reject .wrongState) := by
  show execClearLatch kind subject s = _
  rw [execClearLatch, named]
  simp only [found]
  rfl

/-- Settles O16. -/
theorem clearLatch : Obligations.ClearLatch := by
  intro kind subject s key
  refine ⟨fun none => ?_, fun k named none => ?_, fun k c named found other => ?_, fun k c named found latched sound => ?_⟩
  · show execClearLatch kind subject s = _
    rw [execClearLatch, show ((kindOf kind).bind fun k => keyOf k subject) = .none from none]
  · show execClearLatch kind subject s = _
    rw [execClearLatch, show ((kindOf kind).bind fun k => keyOf k subject) = some k from named]
    simp only [none]
  · rw [exec_clearLatch named found, if_neg other]
  · rw [exec_clearLatch named found, if_pos latched]
    have removed : removeRecord k s.blocks.monitor
        = { s.blocks.monitor with list := s.blocks.monitor.list.filter fun x => x.key != k } := by
      rw [removeRecord, updateKey_removed sound.keys]
    have calm : Calm s.env { s.blocks with monitor := removeRecord k s.blocks.monitor }
        (monitorEvent s.env (removeRecord k) s.blocks) :=
      Calm.settleMonitor (risenCells_eq_nil fun n => guardLevel_strength_le fun c mem => by
        change c ∈ (removeRecord k s.blocks.monitor).list at mem
        rw [removed] at mem
        exact (List.mem_filter.mp mem).1)
    have reported : RadioReported s.env (removeRecord k s.blocks.monitor)
        (monitorEvent s.env (removeRecord k) s.blocks).monitor := (Settled.monitorEvent (removeRecord k) s.blocks).monitor
    refine ⟨_, rfl, rfl, rfl, ?_, fun j other about => ?_, fun n => ?_, calm.cells, calm.lanes, calm.tracker, calm.survey,
      calm.chans⟩
    · have keys := calm.reported.keys_of_absent fun _ _ h => h.2
      refine List.find?_eq_none.mpr fun c mem same => ?_
      obtain ⟨d, hd, e⟩ := List.mem_map.mp (keys.subset (List.mem_map_of_mem mem))
      change d ∈ (removeRecord k s.blocks.monitor).list at hd
      rw [removed] at hd
      have gone := (List.mem_filter.mp hd).2
      rw [e, beq_iff_eq.mp same] at gone
      simp at gone
    · have kept := calm.reported.find_other (j := j) (by
        rintro x ⟨⟨r, rfl⟩, -⟩
        cases about)
      refine kept.trans ?_
      exact updateKey_find_other other (fun _ _ h => by cases h) _
    · rw [← removed]
      exact guardLevel_radioReported reported (sound.removed k) _ _

/-! ## The timers of a record (R89, R92) -/

theorem Monitor.filterExpires_eq (key : CondKey) (m : Monitor) : m.filterExpires env key
    = { m with
        list := updateKey key (fun c => if c.state = .pending ∧ Time.reached c.timer env.now = true
          then some (c.enterActive env.now m.lastRange) else some c) m.list } := rfl

theorem Monitor.extensionExpires_eq (key : CondKey) (m : Monitor) : m.extensionExpires env key
    = { m with
        list := updateKey key (fun c => if c.state = .extending ∧ Time.reached c.timer env.now = true
          then c.extensionEnds env.now else some c) m.list } := rfl

/-- An event that changes nothing of the monitor calls for no report. -/
theorem monitorEvent_self {f : Monitor → Monitor} {b : Blocks} (same : f b.monitor = b.monitor) : monitorEvent env f b = b := by
  unfold monitorEvent
  rw [same]
  exact settleMonitor_quiet (changedCells_eq_nil fun _ => rfl) rfl

theorem changedCells_of_guardLevels {m n : Monitor} (same : guardLevels env n = guardLevels env m) :
    changedCells env m env n = [] := by
  simp only [changedCells, List.filter_eq_nil_iff, bne_iff_ne, ne_eq, not_not]
  intro k mem
  exact (List.map_inj_left.mp same k mem).symm

/-- What an event that updates one record leaves (R101). -/
theorem monitorEvent_updated {key : CondKey} {f : Monitor → Monitor} {g : CondRecord → Option CondRecord} {b : Blocks}
    {c : CondRecord} (is : f b.monitor = { b.monitor with list := updateKey key g b.monitor.list })
    (kept : ∀ c d, g c = some d → d.key = c.key) (sound : b.monitor.Sound) (found : b.monitor.find key = some c) :
    let replaced : Monitor :=
      { b.monitor with list := b.monitor.list.flatMap fun x => if x.key = key then (g c).toList else [x] }
    ((∀ r, key ≠ .noChannel r) → (monitorEvent env f b).monitor.find key = g c)
    ∧ (guardLevels env replaced = guardLevels env b.monitor ∧ shapingHolds env replaced = shapingHolds env b.monitor →
      monitorEvent env f b = { b with monitor := replaced }) := by
  intro replaced
  have now : f b.monitor = replaced := by rw [is, updateKey_eq_flatMap sound.keys found]
  refine ⟨fun other => ?_, fun ⟨levels, shaping⟩ => ?_⟩
  · have reported := settleMonitor_reported (env := env) env b.monitor { b with monitor := f b.monitor }
    refine (reported.find_other (j := key) fun x ⟨r, h⟩ => other r h).trans ?_
    rw [is]
    exact updateKey_find kept sound.keys found
  · unfold monitorEvent
    rw [now]
    exact settleMonitor_quiet (changedCells_of_guardLevels levels) shaping

theorem filterExpires_keeps {now : Time} {last : Option Span} (c d : CondRecord)
    (h : (if c.state = .pending ∧ Time.reached c.timer now = true then some (c.enterActive now last) else some c) = some d) :
    d.key = c.key := by
  split at h <;> (cases h; rfl)

theorem extensionExpires_keeps {now : Time} (c d : CondRecord)
    (h : (if c.state = .extending ∧ Time.reached c.timer now = true then c.extensionEnds now else some c) = some d) :
    d.key = c.key := by
  split at h
  · exact CondRecord.extensionEnds_key h
  · cases h; rfl

/-- Settles O36. -/
theorem recordTimers : Obligations.RecordTimers := by
  intro key s m past replaced quiet only sound
  have reached : ∀ c, past c → Time.reached c.timer s.env.now = true := fun c => Time.reached_iff.mpr
  refine ⟨fun c found pending due => ?_, fun c found extending due => ?_, fun early => ?_, fun early => ?_⟩
  · intro active
    obtain ⟨record, silent⟩ := monitorEvent_updated (env := s.env) (b := s.blocks) (Monitor.filterExpires_eq key m)
      filterExpires_keeps sound found
    rw [if_pos ⟨pending, reached c due⟩] at record silent
    exact ⟨⟨_, rfl, rfl, record⟩, fun same => next_blocks (silent same)⟩
  · intro resolved after
    obtain ⟨record, silent⟩ := monitorEvent_updated (env := s.env) (b := s.blocks) (Monitor.extensionExpires_eq key m)
      extensionExpires_keeps sound found
    have ends : c.extensionEnds s.env.now = after.head? := by
      simp only [after]
      unfold CondRecord.extensionEnds
      split <;> rfl
    have list : (c.extensionEnds s.env.now).toList = after := by
      simp only [after]
      unfold CondRecord.extensionEnds
      split <;> rfl
    rw [if_pos ⟨extending, reached c due⟩] at record silent
    rw [ends] at record
    rw [list] at silent
    exact ⟨⟨_, rfl, rfl, record⟩, fun same => next_blocks (silent same)⟩
  · refine congrArg Host.Outcome.next (withBlocks_self (monitorEvent_self ?_))
    rw [Monitor.filterExpires_eq, updateKey_same]
    intro c found
    refine if_neg fun ⟨pending, due⟩ => ?_
    exact (early c found).elim (fun h => h pending) fun h => h (Time.reached_iff.mp due)
  · refine congrArg Host.Outcome.next (withBlocks_self (monitorEvent_self ?_))
    rw [Monitor.extensionExpires_eq, updateKey_same]
    intro c found
    refine if_neg fun ⟨extending, due⟩ => ?_
    exact (early c found).elim (fun h => h extending) fun h => h (Time.reached_iff.mp due)

end Sys2Proof.Machine
end

