-- ==== Sys2Proof/Proofs/GuardRules.lean ====
section
/-! PROOF. What a guard change does to the requests, grants and holds of a radio with a BARRED cell, and what everything that
follows it in the same event leaves of them (R111, R112, R121, R122): rules for O38. -/

namespace Sys2Proof.Machine

variable {env : Env} {r : Radio}

/-! ## Operations for other radios -/

/-- Nothing that the scheduler has of a radio has changed, no air has gained a grant or a hold, and the queues have grown. -/
structure Spared (r : Radio) (b b' : Blocks) : Prop where
  radio : b'.sched.radios.get r = b.sched.radios.get r
  queue : ∀ q, (b.links.get q).queue <+: (b'.links.get q).queue
  grants : ∀ a g, g.radio = r → (b.air a).grant = some g → (b'.air a).grant = some g
  holds : ∀ a h, h.radio = r → (b.air a).hold = some h → (b'.air a).hold = some h
  fewer : ∀ a g, (b'.air a).grant = some g → (b.air a).grant = some g
  fewerHolds : ∀ a h, (b'.air a).hold = some h → (b.air a).hold = some h

namespace Spared

theorem refl (b : Blocks) : Spared r b b :=
  ⟨rfl, fun _ => List.prefix_refl _, fun _ _ _ h => h, fun _ _ _ h => h, fun _ _ h => h, fun _ _ h => h⟩

theorem trans {a b c : Blocks} (h : Spared r a b) (g : Spared r b c) : Spared r a c where
  radio := g.radio.trans h.radio
  queue q := (h.queue q).trans (g.queue q)
  grants k x mine hx := g.grants k x mine (h.grants k x mine hx)
  holds k x mine hx := g.holds k x mine (h.holds k x mine hx)
  fewer k x hx := h.fewer k x (g.fewer k x hx)
  fewerHolds k x hx := h.fewerHolds k x (g.fewerHolds k x hx)

theorem foldl {f : Blocks → Radio → Blocks} {l : List Radio} (h : ∀ q ∈ l, ∀ b, Spared r b (f b q)) (b : Blocks) :
    Spared r b (l.foldl f b) := by
  induction l generalizing b with
  | nil => exact refl b
  | cons q l ih => exact (h q List.mem_cons_self b).trans (ih (fun x mem => h x (List.mem_cons_of_mem _ mem)) _)

/-- The scheduler finds the radio's grant where it was. -/
theorem grantAir {b b' : Blocks} (h : Spared r b b') : grantAir b' r = grantAir b r := by
  unfold Machine.grantAir
  refine congrArg (fun p => airIds.find? p) (funext fun a => Bool.eq_iff_iff.mpr ?_)
  constructor
  · cases after : (b'.air a).grant with
    | none => exact nofun
    | some g => rw [h.fewer a g after]; exact id
  · cases before : (b.air a).grant with
    | none => exact nofun
    | some g =>
      intro mine
      rw [h.grants a g (beq_iff_eq.mp mine) before]
      exact mine

theorem holdAir {b b' : Blocks} (h : Spared r b b') : holdAir b' r = holdAir b r := by
  unfold Machine.holdAir
  refine congrArg (fun p => airIds.find? p) (funext fun a => Bool.eq_iff_iff.mpr ?_)
  constructor
  · cases after : (b'.air a).hold with
    | none => exact nofun
    | some g => rw [h.fewerHolds a g after]; exact id
  · cases before : (b.air a).hold with
    | none => exact nofun
    | some g =>
      intro mine
      rw [h.holds a g (beq_iff_eq.mp mine) before]
      exact mine

end Spared

/-! ## The effect on one radio of a BARRED cell in its channel (R121) -/

/-- A radio's grant cut, its hold ended and its waiting requests refused (R121). -/
def cutOff (env : Env) (b : Blocks) (r : Radio) : Blocks :=
  answerWaits (endHoldOf r (endGrantOf env r .cut b)) r (.refuse .barred)

theorem cutGrant_queue (a : AirId) (b : Blocks) (q : Radio) :
    (b.links.get q).queue <+: ((cutGrant env a b).links.get q).queue := by
  unfold cutGrant
  split
  · exact List.prefix_refl _
  · exact Blocks.send_queue (b.modAir a fun x => { x with grant := none }) _ _ q

theorem cutGrant_hold (a c : AirId) (b : Blocks) : ((cutGrant env a b).air c).hold = (b.air c).hold := by
  unfold cutGrant
  split
  · rfl
  · have kept : ((b.modAir a fun x => { x with grant := none }).air c).hold = (b.air c).hold := by
      by_cases e : c = a
      · subst e; rw [Blocks.modAir_air_same]
      · rw [Blocks.modAir_air_other _ _ e]
    exact kept

/-- The cut of a grant of another radio. -/
theorem cutGrant_radio {a : AirId} {b : Blocks} (other : ∀ g, (b.air a).grant = some g → g.radio ≠ r) :
    (cutGrant env a b).sched.radios.get r = b.sched.radios.get r := by
  unfold cutGrant
  split
  · rfl
  · next g grant => exact PerRadio.get_modify_other _ _ (other g grant).symm

/-- A cut changes no list of any radio (R118, R120). -/
theorem cutGrant_lists (a : AirId) (b : Blocks) (r : Radio) : ∃ e, (cutGrant env a b).sched.radios.get r
    = { b.sched.radios.get r with lastEnded := e } := by
  unfold cutGrant
  split
  · exact ⟨_, rfl⟩
  · next g _ =>
    by_cases mine : r = g.radio
    · subst mine
      exact ⟨_, PerRadio.get_modify_same _ _ _⟩
    · exact ⟨_, PerRadio.get_modify_other _ _ mine⟩

theorem endGrantOf_spared {q : Radio} (other : q ≠ r) (b : Blocks) : Spared r b (endGrantOf env q .cut b) := by
  unfold endGrantOf
  split
  · exact .refl b
  · next a found =>
    obtain ⟨g, grant, mine⟩ := grantAir_some found
    refine ⟨cutGrant_radio fun x hx => ?_, cutGrant_queue a b, fun c x hers hx => ?_, fun c x _ hx => ?_, fun c x hx => ?_,
      fun c x hx => ?_⟩
    · rw [grant] at hx
      cases hx
      rw [mine]
      exact other
    · dsimp only
      rw [cutGrant_air, if_neg, hx]
      rintro rfl
      rw [grant] at hx
      cases hx
      exact other (mine.symm.trans hers)
    · exact (cutGrant_hold _ _ _).trans hx
    · dsimp only at hx
      rw [cutGrant_air] at hx
      split at hx
      · cases hx
      · exact hx
    · exact (cutGrant_hold _ _ _).symm.trans hx

theorem endHoldOf_spared {q : Radio} (other : q ≠ r) (b : Blocks) : Spared r b (endHoldOf q b) := by
  unfold endHoldOf
  split
  · exact .refl b
  · next a found =>
    have at' : ∀ c, (b.modAir a fun x => { x with hold := none }).air c
        = if c = a then { b.air c with hold := none } else b.air c := by
      intro c
      by_cases e : c = a
      · subst e; rw [Blocks.modAir_air_same, if_pos rfl]
      · rw [Blocks.modAir_air_other _ _ e, if_neg e]
    have grants : ∀ c, ((b.modAir a fun x => { x with hold := none }).air c).grant = (b.air c).grant := by
      intro c
      rw [at']
      split <;> rfl
    refine ⟨rfl, fun _ => List.prefix_refl _, fun c x _ hx => (grants c).trans hx, fun c x hers hx => ?_,
      fun c x hx => (grants c).symm.trans hx, fun c x hx => ?_⟩
    · rw [at', if_neg, hx]
      rintro rfl
      have held := List.find?_some found
      rw [hx] at held
      exact other ((beq_iff_eq.mp held).symm.trans hers)
    · rw [at'] at hx
      split at hx
      · cases hx
      · exact hx

theorem answerWaits_spared (env : Env) {q : Radio} (other : q ≠ r) (b : Blocks) (x : GateAnswer) : Spared r b (answerWaits b q x) := by
  have reviewed : Reviewed env b (answerWaits b q x) := .answerWaits b q x
  have airs : ∀ a, (answerWaits b q x).air a = b.air a := fun a => by
    rw [Blocks.air, answerWaits_sched]
    rfl
  refine ⟨?_, reviewed.queues, fun a g _ h => by rw [airs]; exact h, fun a g _ h => by rw [airs]; exact h,
    fun a g h => by rw [← airs]; exact h, fun a g h => by rw [← airs]; exact h⟩
  rw [answerWaits_sched]
  exact PerRadio.get_modify_other _ _ (Ne.symm other)

theorem cutOff_spared {q : Radio} (other : q ≠ r) (b : Blocks) : Spared r b (cutOff env b q) :=
  ((endGrantOf_spared other b).trans (endHoldOf_spared other _)).trans (answerWaits_spared env other _ _)

/-- What a guard change leaves of a radio with a BARRED cell in its channel, before the reviews (R121). -/
structure CutOff (env : Env) (r : Radio) (b b' : Blocks) : Prop where
  waits : (b'.sched.radios.get r).waits = []
  posted : (b'.sched.radios.get r).posted = (b.sched.radios.get r).posted
  refused : ∀ q ∈ (b.sched.radios.get r).waits, sent (b'.links.get r) (.refuse q.id .barred)
  hold : ∀ a, holdAir b r = some a → (b'.air a).hold = none
  grant : ∀ a g, grantAir b r = some a → (b.air a).grant = some g →
    (b'.air a).grant = none ∧ sent (b'.links.get r) (.cut g.id (if g.state = .active then env.now else g.start))
      ∧ (b'.sched.radios.get r).lastEnded = some ⟨g.id, if g.state = .active then env.now else g.start, .cut⟩
  fewer : ∀ a g, (b'.air a).grant = some g → (b.air a).grant = some g

theorem foldl_answerGate_sent (env : Env) (x : GateAnswer) (l : List Request) (b : Blocks) :
    (b.links.get r).queue <+: ((l.foldl (fun b q => answerGate b r q.id x) b).links.get r).queue :=
  (Reviewed.foldl (env := env) (fun b (q : Request) => Reviewed.answerGate b r q.id x) l b).queues r

/-- Every waiting request is answered (R121, R122). -/
theorem answerWaits_refused (env : Env) (b : Blocks) (cause : RefuseCause) :
    ∀ q ∈ (b.sched.radios.get r).waits, sent ((answerWaits b r (.refuse cause)).links.get r) (.refuse q.id cause) := by
  intro q mem
  obtain ⟨before, after, split⟩ := List.append_of_mem mem
  unfold answerWaits
  dsimp only
  rw [split, List.foldl_append, List.foldl_cons]
  refine sent.grows ?_ (foldl_answerGate_sent env _ _ _)
  exact sent_count (sentLast_send _ r (.refuse q.id cause)).sent _

theorem endHoldOf_radios (q : Radio) (b : Blocks) : (endHoldOf q b).sched.radios = b.sched.radios := by
  unfold endHoldOf
  split <;> rfl

theorem endHoldOf_links (q : Radio) (b : Blocks) : (endHoldOf q b).links = b.links := by
  unfold endHoldOf
  split <;> rfl

theorem endHoldOf_grant (q : Radio) (b : Blocks) (a : AirId) : ((endHoldOf q b).air a).grant = (b.air a).grant := by
  unfold endHoldOf
  split
  · rfl
  · next c _ =>
    by_cases e : a = c
    · subst e; rw [Blocks.modAir_air_same]
    · rw [Blocks.modAir_air_other _ _ e]

theorem endHoldOf_hold {b : Blocks} {a : AirId} (found : holdAir b r = some a) : ((endHoldOf r b).air a).hold = none := by
  unfold endHoldOf
  rw [found]
  exact congrArg Air.hold (Blocks.modAir_air_same b a fun x => { x with hold := none })

theorem endGrantOf_cut {b : Blocks} {a : AirId} (found : grantAir b r = some a) :
    endGrantOf env r .cut b = cutGrant env a b := by
  unfold endGrantOf
  rw [found]

theorem endGrantOf_none {b : Blocks} {how : GrantEnd} (none : grantAir b r = none) : endGrantOf env r how b = b := by
  unfold endGrantOf
  rw [none]

/-- A radio's lists stand at the end of its grant. -/
theorem endGrantOf_cut_radio (b : Blocks) : ∃ e, (endGrantOf env r .cut b).sched.radios.get r
    = { b.sched.radios.get r with lastEnded := e } := by
  cases found : grantAir b r with
  | none => exact ⟨_, by rw [endGrantOf_none found]⟩
  | some a =>
    rw [endGrantOf_cut found]
    exact cutGrant_lists a b r

theorem cutGrant_sent {b : Blocks} {a : AirId} {g : Grant} (grant : (b.air a).grant = some g) :
    sent ((cutGrant env a b).links.get g.radio) (.cut g.id (if g.state = .active then env.now else g.start))
      ∧ ((cutGrant env a b).sched.radios.get g.radio).lastEnded
        = some ⟨g.id, if g.state = .active then env.now else g.start, .cut⟩ := by
  unfold cutGrant
  rw [grant]
  exact ⟨(sentLast_send _ _ _).sent, congrArg RadioSched.lastEnded (PerRadio.get_modify_same _ _ _)⟩

theorem holdAir_congr {b b' : Blocks} (h : ∀ a, (b'.air a).hold = (b.air a).hold) : holdAir b' r = holdAir b r := by
  unfold holdAir
  exact congrArg (fun p => airIds.find? p) (funext fun a => by rw [h])

theorem endGrantOf_hold (q : Radio) (b : Blocks) (a : AirId) : ((endGrantOf env q .cut b).air a).hold = (b.air a).hold := by
  unfold endGrantOf
  split
  · rfl
  · exact cutGrant_hold _ _ _

theorem cutOff_spec (b : Blocks) : CutOff env r b (cutOff env b r) := by
  let ended := endHoldOf r (endGrantOf env r .cut b)
  have reviewed : Reviewed env ended (cutOff env b r) := .answerWaits _ _ _
  have airs : ∀ a, (cutOff env b r).air a = ended.air a := fun a => by
    rw [Blocks.air, cutOff, answerWaits_sched]
    rfl
  obtain ⟨e, lists⟩ := endGrantOf_cut_radio (env := env) (r := r) b
  have radio : ended.sched.radios.get r = { b.sched.radios.get r with lastEnded := e } := by
    rw [endHoldOf_radios]
    exact lists
  have answered : (cutOff env b r).sched.radios.get r = { ended.sched.radios.get r with waits := [] } := by
    rw [cutOff, answerWaits_sched, Blocks.modSched_radios, PerRadio.get_modify_same]
  refine ⟨?_, ?_, fun q mem => ?_, fun a found => ?_, fun a g found grant => ?_, fun a g grant => ?_⟩
  · rw [answered]
  · rw [answered, radio]
  · refine answerWaits_refused env ended .barred q ?_
    rw [radio]
    exact mem
  · rw [airs]
    refine endHoldOf_hold ?_
    rw [holdAir_congr (endGrantOf_hold r b)]
    exact found
  · obtain ⟨g', grant', mine⟩ := grantAir_some found
    rw [grant] at grant'
    cases grant'
    have cut := endGrantOf_cut (env := env) found
    obtain ⟨message, record⟩ := cutGrant_sent (env := env) grant
    refine ⟨?_, ?_, ?_⟩
    · rw [airs, endHoldOf_grant, cut, cutGrant_air, if_pos rfl]
    · rw [← mine]
      refine message.grows ?_
      rw [← cut, ← endHoldOf_links r, mine]
      exact reviewed.queues r
    · rw [answered]
      show (ended.sched.radios.get r).lastEnded = _
      rw [endHoldOf_radios, cut, ← mine]
      exact record
  · rw [airs, endHoldOf_grant] at grant
    cases found : grantAir b r with
    | none => rwa [endGrantOf_none found] at grant
    | some c =>
      rw [endGrantOf_cut found, cutGrant_air] at grant
      split at grant
      · cases grant
      · exact grant

/-- The cuts of a guard change, for one of the radios that they hit. -/
theorem foldl_cutOff {hit : List Radio} (nodup : hit.Nodup) (mem : r ∈ hit) (b : Blocks) :
    CutOff env r b (hit.foldl (cutOff env) b) := by
  obtain ⟨before, after, rfl⟩ := List.append_of_mem mem
  rw [List.nodup_append] at nodup
  obtain ⟨-, tail, apart⟩ := nodup
  have first : Spared r b (before.foldl (cutOff env) b) := .foldl (fun q hq _ => cutOff_spared (apart q hq r List.mem_cons_self) _) b
  rw [List.foldl_append, List.foldl_cons]
  generalize before.foldl (cutOff env) b = c at first ⊢
  have cut := cutOff_spec (env := env) (r := r) c
  have last : Spared r (cutOff env c r) (after.foldl (cutOff env) (cutOff env c r)) :=
    .foldl (fun q hq _ => cutOff_spared (fun e => (List.nodup_cons.mp tail).1 (by rw [← e]; exact hq)) _) _
  have noHold : ∀ a, ((cutOff env c r).air a).hold = none →
      ((after.foldl (cutOff env) (cutOff env c r)).air a).hold = none := fun a none => by
    cases now : ((after.foldl (cutOff env) (cutOff env c r)).air a).hold with
    | none => rfl
    | some h => rw [last.fewerHolds a h now] at none; cases none
  have noGrant : ∀ a, ((cutOff env c r).air a).grant = none →
      ((after.foldl (cutOff env) (cutOff env c r)).air a).grant = none := fun a none => by
    cases now : ((after.foldl (cutOff env) (cutOff env c r)).air a).grant with
    | none => rfl
    | some g => rw [last.fewer a g now] at none; cases none
  refine ⟨?_, ?_, fun q hq => ?_, fun a found => ?_, fun a g found grant => ?_,
    fun a g grant => first.fewer a g (cut.fewer a g (last.fewer a g grant))⟩
  · rw [last.radio, cut.waits]
  · rw [last.radio, cut.posted, first.radio]
  · rw [← first.radio] at hq
    exact (cut.refused q hq).grows (last.queue r)
  · rw [← first.holdAir] at found
    exact noHold a (cut.hold a found)
  · obtain ⟨x, hx, mine⟩ := grantAir_some found
    rw [grant] at hx
    cases hx
    rw [← first.grantAir] at found
    obtain ⟨gone, message, record⟩ := cut.grant a g found (first.grants a g mine grant)
    exact ⟨noGrant a gone, message.grows (last.queue r), by rw [last.radio]; exact record⟩

/-! ## What follows in the same event -/

theorem WaitsOnly.posted {x y : RadioSched} (h : WaitsOnly x y) : y.posted = x.posted := by rw [h]

/-- What stands of a radio with a BARRED cell in its channel: its posted requests, an empty wait list, airs without its grant, the
last ended record. -/
structure ShutKept (r : Radio) (b b' : Blocks) : Prop where
  waits : (b.sched.radios.get r).waits = [] → (b'.sched.radios.get r).waits = []
  posted : (b'.sched.radios.get r).posted = (b.sched.radios.get r).posted
  grants : ∀ a, (∀ g, (b.air a).grant = some g → g.radio ≠ r) → ∀ g, (b'.air a).grant = some g → g.radio ≠ r
  holds : ∀ a, (b'.air a).hold = (b.air a).hold
  lastEnded : (∀ a g, (b.air a).grant = some g → g.radio ≠ r) →
    (b'.sched.radios.get r).lastEnded = (b.sched.radios.get r).lastEnded

theorem ShutKept.refl (b : Blocks) : ShutKept r b b := ⟨id, rfl, fun _ h => h, fun _ => rfl, fun _ => rfl⟩

theorem ShutKept.trans {a b c : Blocks} (h : ShutKept r a b) (g : ShutKept r b c) : ShutKept r a c where
  waits x := g.waits (h.waits x)
  posted := g.posted.trans h.posted
  grants k x := g.grants k (h.grants k x)
  holds k := (g.holds k).trans (h.holds k)
  lastEnded x := (g.lastEnded fun k => h.grants k (x k)).trans (h.lastEnded x)

/-- What the reviews, the controller's part and the shaping of an event leave of a radio: its operating channel, its queue but for
new messages, the records that are no radio's, and, with a BARRED cell in its channel, what `ShutKept` says. -/
structure Followed (env : Env) (r : Radio) (b b' : Blocks) : Prop where
  queue : (b.links.get r).queue <+: (b'.links.get r).queue
  operating : (b'.chans.get r).operating = (b.chans.get r).operating
  reported : RadioReported env b.monitor b'.monitor
  shut : b.monitor.Sound → channelBarred env b r = true → ShutKept r b b'

theorem channelBarred_followed {b b' : Blocks} (operating : (b'.chans.get r).operating = (b.chans.get r).operating)
    (reported : RadioReported env b.monitor b'.monitor) (sound : b.monitor.Sound) :
    channelBarred env b' r = channelBarred env b r := by
  simp only [channelBarred, operatingCells, operating, guardLevel_radioReported reported sound]

namespace Followed

theorem refl (b : Blocks) : Followed env r b b := ⟨List.prefix_refl _, rfl, .refl _, fun _ _ => .refl b⟩

theorem trans {a b c : Blocks} (h : Followed env r a b) (g : Followed env r b c) : Followed env r a c where
  queue := h.queue.trans g.queue
  operating := g.operating.trans h.operating
  reported := h.reported.trans g.reported
  shut sound barred := (h.shut sound barred).trans (g.shut (sound.radioReported h.reported)
    ((channelBarred_followed h.operating h.reported sound).trans barred))

theorem foldl {α : Type} {f : Blocks → α → Blocks} (h : ∀ b x, Followed env r b (f b x)) (l : List α) (b : Blocks) :
    Followed env r b (l.foldl f b) := by
  induction l generalizing b with
  | nil => exact refl b
  | cons x xs ih => exact (h b x).trans (ih _)

/-- Reviews and answers, which enter no grant of a radio with a BARRED cell (R112). -/
theorem reviewed {b b' : Blocks} (h : Reviewed env b b')
    (posted : channelBarred env b r = true → (b'.sched.radios.get r).posted = (b.sched.radios.get r).posted) :
    Followed env r b b' where
  queue := h.queues r
  operating := by rw [h.only.chans]
  reported := by rw [h.only.monitor]; exact .refl _
  shut _ barred :=
    { waits := (h.radios r).waits_nil
      posted := posted barred
      grants := fun a others g grant => by
        cases before : (b.air a).grant with
        | some x =>
          rw [h.grants a x before] at grant
          cases grant
          exact others _ before
        | none =>
          rintro rfl
          have open' := (h.entered a g before grant).unbarred
          rw [barred] at open'
          cases open'
      holds := h.holds
      lastEnded := fun _ => (h.radios r).lastEnded }

/-- The controller's own operations. -/
theorem control {b b' : Blocks} (h : ControlOnly b b') (operating : (b'.chans.get r).operating = (b.chans.get r).operating)
    (reported : RadioReported env b.monitor b'.monitor) : Followed env r b b' where
  queue := by rw [h.links]
  operating := operating
  reported := reported
  shut _ _ :=
    ⟨fun x => by rw [h.sched]; exact x, by rw [h.sched], fun a x => by rw [h.air]; exact x, fun a => by rw [h.air],
      fun _ => by rw [h.sched]⟩

/-- A posted head of a radio with a BARRED cell is skipped (R112). -/
theorem reviewHead_posted (a : AirId) (v : Review) (q : Request) (barred : channelBarred env v.blocks r = true) :
    ((reviewHead env a v q).blocks.sched.radios.get r).posted = (v.blocks.sched.radios.get r).posted := by
  by_cases mine : r = q.radio
  · subst mine
    have skipped : reviewHead env a v q = v := by
      unfold reviewHead
      rw [if_pos (by simp [skipsHead, barred])]
    rw [skipped]
  · rw [reviewHead_other mine]

theorem reviewAir (a : AirId) (b : Blocks) : Followed env r b (reviewAir env a b) := by
  refine reviewed (.reviewAir a b) fun barred => ?_
  let begun := b.modAir a fun x => { x with review := none }
  have waited := foldReviewWaiting_waitsOnly (env := env) a r (waitingCandidates env begun a) ⟨begun, [], []⟩
  have heads : ∀ (l : List Request) (v : Review), channelBarred env v.blocks r = true →
      ((l.foldl (reviewHead env a) v).blocks.sched.radios.get r).posted = (v.blocks.sched.radios.get r).posted := by
    intro l
    induction l with
    | nil => exact fun _ _ => rfl
    | cons q l ih =>
      intro v barred
      rw [List.foldl_cons, ih _ ?_, reviewHead_posted a v q barred]
      rw [(Reviewed.reviewHead a v q).only.channelBarred]
      exact barred
  have only := (Reviewed.foldReview (env := env) (Reviewed.reviewWaiting a) (waitingCandidates env begun a) ⟨begun, [], []⟩).only
  have all := (heads (headCandidates env begun a) _ (by rw [only.channelBarred]; exact barred)).trans
    waited.posted
  rw [Machine.reviewAir]
  split
  all_goals exact all

theorem reviewAirs (p : AirId → Bool) (b : Blocks) : Followed env r b (reviewAirs env p b) :=
  foldl (fun b a => reviewAir a b) _ _

theorem retestAndReview (airs : List AirId) (rs : List Radio) (b : Blocks) : Followed env r b (retestAndReview env airs rs b) :=
  (foldl (fun b q => reviewed (.retestWaits b q) fun _ => (retestWaits_waitsOnly b q r).posted) _ _).trans
    (reviewAirs _ _)

theorem send (b : Blocks) (q : Radio) (m : OutMsg) : Followed env r b (b.send q m) := reviewed (.send b q m) fun _ => rfl

theorem endMoveWait (q : Radio) (b : Blocks) : Followed env r b (endMoveWait env q b) :=
  control (.endMoveWait q b)
    (by rw [endMoveWait_chans, PerRadio.get_modify]; split <;> simp [*]) (Directed.endMoveWait q b).monitor

theorem enterMoveWait (q : Radio) (cells : List Nat) (b : Blocks) : Followed env r b (enterMoveWait env q cells b) :=
  control (.enterMoveWait q cells b)
    (by rw [enterMoveWait_chans, PerRadio.get_modify]; split <;> simp [*]) (Directed.enterMoveWait q cells b).monitor

theorem endClearedWaits (b : Blocks) : Followed env r b (endClearedWaits env b) := by
  unfold Machine.endClearedWaits
  refine foldl (fun b q => ?_) _ _
  repeat' split
  · exact refl _
  · exact refl _
  · exact endMoveWait q b

theorem issueMove {q : Radio} {e : PlanEntry} {why : MoveReason} {b b' : Blocks} (h : issueMove env q e why b = some b') :
    Followed env r b b' := by
  unfold Machine.issueMove at h
  split at h
  · cases h
  · cases h
    have pending : Followed env r b ({ b with cells := ‹_› }.modChan q fun c =>
        { c with directive := some (issuedDirective env b q e why), nextId := (b.chans.get q).nextId + 1 }) :=
      control (.after (.modChan _ _ _) (.setCells _ _))
        (by rw [Blocks.modChan_chans, PerRadio.get_modify]; split <;> simp [*]) (.refl _)
    exact (pending.trans (endMoveWait q _)).trans ((retestAndReview _ _ _).trans (send _ _ _))

theorem moveRequest (q : Radio) (cells : List Nat) (b : Blocks) : Followed env r b (moveRequest env q cells b) := by
  unfold Machine.moveRequest
  repeat' split
  · exact refl b
  · exact refl b
  · exact refl b
  · next chosen =>
    unfold guardChoice at chosen
    split at chosen
    · cases chosen
    · exact issueMove chosen
  · exact enterMoveWait q cells b

theorem requestMove (risen : List Nat) (b : Blocks) (q : Radio) : Followed env r b (requestMove env risen b q) := by
  unfold Machine.requestMove
  dsimp only
  split
  · exact refl b
  · exact moveRequest q _ b

theorem cutGrant (a : AirId) (b : Blocks) : Followed env r b (cutGrant env a b) where
  queue := cutGrant_queue a b r
  operating := by rw [(SchedOnly.cutGrant env a b).chans]
  reported := by rw [(SchedOnly.cutGrant env a b).monitor]; exact .refl _
  shut _ _ :=
    have lists := cutGrant_lists (env := env) a b r
    { waits := fun none => by obtain ⟨e, he⟩ := lists; rw [he]; exact none
      posted := by obtain ⟨e, he⟩ := lists; rw [he]
      grants := fun c others g grant => by
        rw [cutGrant_air] at grant
        split at grant
        · cases grant
        · exact others g grant
      holds := fun c => cutGrant_hold a c b
      lastEnded := fun others => by rw [cutGrant_radio (others a)] }

/-- A grant that stands, changed. -/
theorem setGrant {b : Blocks} {a : AirId} {g g' : Grant} (grant : (b.air a).grant = some g) (mine : g'.radio = g.radio) :
    Followed env r b (b.modAir a fun x => { x with grant := some g' }) where
  queue := List.prefix_refl _
  operating := rfl
  reported := .refl _
  shut _ _ :=
    { waits := id
      posted := rfl
      grants := fun c others x hx => by
        by_cases e : c = a
        · subst e
          rw [Blocks.modAir_air_same] at hx
          cases hx
          rw [mine]
          exact others g grant
        · rw [Blocks.modAir_air_other _ _ e] at hx
          exact others x hx
      holds := fun c => by
        by_cases e : c = a
        · subst e; rw [Blocks.modAir_air_same]
        · rw [Blocks.modAir_air_other _ _ e]
      lastEnded := fun _ => rfl }

theorem shapeGrant (b : Blocks) (a : AirId) : Followed env r b (shapeGrant env b a) := by
  unfold Machine.shapeGrant
  split
  · exact refl b
  · next g grant =>
    split
    · dsimp only
      split
      · exact refl b
      · next w _ =>
        split
        · split
          · exact (setGrant (g' := { g with stop := w.start }) grant rfl).trans (send _ _ _)
          · exact cutGrant a b
        · split
          · exact refl b
          · exact (setGrant (g' := { g with exposed := true }) grant rfl).trans (reviewed (.count _ _ _) fun _ => rfl)
    · exact refl b

theorem takeShaping (on : Bool) (b : Blocks) : Followed env r b (takeShaping env on b) := by
  have stored : Followed env r b { b with sched := { b.sched with shaping := on } } :=
    ⟨List.prefix_refl _, rfl, .refl _, fun _ _ => ⟨id, rfl, fun _ h => h, fun _ => rfl, fun _ => rfl⟩⟩
  exact stored.trans ((foldl shapeGrant _ _).trans (reviewAirs _ _))

end Followed

end Sys2Proof.Machine
end

