-- ==== Sys2Proof/Proofs/GuardRises.lean ====
section
/-! PROOF. A guard rise in RUN, at the filter expiry of a record (R5, R98, R121, R132, R134, R136): O38. -/

namespace Sys2Proof.Machine

variable {env : Env} {r : Radio}

/-! ## The entry of a record to ACTIVE -/

theorem updateKey_eq_map {key : CondKey} {f : CondRecord → Option CondRecord} {l : List CondRecord} {c d : CondRecord}
    (keys : (l.map CondRecord.key).Nodup) (found : l.find? (fun x => x.key == key) = some c) (image : f c = some d) :
    updateKey key f l = l.map fun x => if x.key = key then d else x := by
  rw [updateKey_eq_flatMap keys found, image, List.map_eq_flatMap]
  refine congrArg (l.flatMap ·) (funext fun x => ?_)
  split <;> rfl

/-- The filter expiry of a PENDING record replaces it by the ACTIVE one (R89). -/
theorem filterExpires_pending {key : CondKey} {m : Monitor} {c : CondRecord} {t : Time} (sound : m.Sound)
    (found : m.find key = some c) (pending : c.state = .pending) (timer : c.timer = some t)
    (due : Time.atOrBefore t env.now = true) :
    m.filterExpires env key
      = { m with list := m.list.map fun x => if x.key = key then c.enterActive env.now m.lastRange else x } := by
  rw [Monitor.filterExpires_eq,
    updateKey_eq_map sound.keys found (if_pos ⟨pending, Time.reached_iff.mpr ⟨t, timer, due⟩⟩)]

/-! ## The choice of an entry under the changes of an event -/

theorem any_radioReported {p : CondRecord → Bool} (unseen : ∀ c : CondRecord, (CondKey.radio c.key).isSome → p c = false)
    {m m' : Monitor} (h : RadioReported env m m') : m'.list.any p = m.list.any p := by
  induction h with
  | refl => rfl
  | report key x q about _ ih =>
    rw [any_report (fun c same => unseen c (by rw [same, about]; rfl)), ih]

/-- What the choice of an entry for a radio reads (R79, R80). -/
structure SameChoice (env : Env) (r : Radio) (b b' : Blocks) : Prop where
  cells : b'.cells = b.cells
  tracker : b'.tracker = b.tracker
  survey : b'.survey = b.survey
  declined : (b'.chans.get r).declined = (b.chans.get r).declined
  capability : (b'.links.get r).capability = (b.links.get r).capability
  level : ∀ k, guardLevel env b'.monitor k = guardLevel env b.monitor k
  reported : RadioReported env b.monitor b'.monitor

theorem SameChoice.unavailable {b b' : Blocks} (h : SameChoice env r b b') (e : PlanEntry) :
    unavailable env b' r e = unavailable env b r e := by
  simp only [Machine.unavailable, h.cells, h.declined, h.capability, h.level]

theorem SameChoice.channelCost {b b' : Blocks} (h : SameChoice env r b b') (ch : Channel) :
    channelCost env b' ch = channelCost env b ch := by
  have oven := any_radioReported (p := fun x => x.key == .oven && x.inForce) (fun c about => by
    cases key : c.key <;> simp_all [CondKey.radio]) h.reported
  simp only [Machine.channelCost, scoreSum, ovenCells, nearCount, h.cells, h.tracker, h.survey, oven]

theorem SameChoice.chooseEntry {b b' : Blocks} (h : SameChoice env r b b') : chooseEntry env b' r = chooseEntry env b r := by
  unfold Machine.chooseEntry
  refine congrArg (fun f => env.retained.plan.foldl f none) (funext₂ fun best e => ?_)
  simp only [betterEntry, h.unavailable, h.channelCost]

/-! ## The delivery of a guard change in RUN -/

theorem takeGuardChange_run (run : env.mode = .run) (changed : List Nat) (b : Blocks) :
    ∃ p, takeGuardChange env changed b
      = reviewAirs env p ((radios.filter fun r => channelBarred env b r).foldl (cutOff env) b) := ⟨_, if_pos run⟩

theorem settleMonitor_changed {env0 : Env} {m0 : Monitor} {b : Blocks} (run : env.mode = .run)
    (anyChanged : changedCells env0 m0 env b.monitor ≠ []) :
    let delivered := radios.foldl (requestMove env (risenCells env0 m0 env b.monitor))
      (endClearedWaits env (takeGuardChange env (changedCells env0 m0 env b.monitor) b))
    settleMonitor env0 m0 env b = delivered ∨ ∃ on, settleMonitor env0 m0 env b = takeShaping env on delivered := by
  intro delivered
  have first : (if (changedCells env0 m0 env b.monitor).isEmpty then b
      else deliverGuardChange env (changedCells env0 m0 env b.monitor) (risenCells env0 m0 env b.monitor) b) = delivered := by
    rw [if_neg (by simpa using anyChanged), deliverGuardChange, run]
  unfold settleMonitor
  dsimp only
  rw [first]
  split
  · exact .inl rfl
  · exact .inr ⟨_, rfl⟩

/-! ## Radios that get no directive (R132) -/

theorem moveRequest_other {q : Radio} (other : r ≠ q) (cells : List Nat) (b : Blocks) :
    (moveRequest env q cells b).chans.get r = b.chans.get r := by
  unfold moveRequest
  repeat' split
  · rfl
  · rfl
  · rfl
  · next chosen =>
    unfold guardChoice at chosen
    split at chosen
    · cases chosen
    · rw [(issueMove_some chosen).2, PerRadio.get_modify_other _ _ other]
  · rw [enterMoveWait_chans, PerRadio.get_modify_other _ _ other]

theorem requestMove_other {q : Radio} (other : r ≠ q) (risen : List Nat) (b : Blocks) :
    (requestMove env risen b q).chans.get r = b.chans.get r := by
  unfold requestMove
  dsimp only
  split
  · rfl
  · exact moveRequest_other other _ _

/-- A radio that gets no directive: one is pending, or it cannot be directed. -/
def Closed (r : Radio) (b : Blocks) : Prop := (b.chans.get r).directive.isSome = true ∨ cannotDirect b r = true

theorem Closed.of_same {b b' : Blocks} (h : Closed r b) (chan : (b'.chans.get r)
    = { b.chans.get r with moveWait := (b'.chans.get r).moveWait }) (link : SameLink (b.links.get r) (b'.links.get r)) :
    Closed r b' := by
  rw [Closed, cannotDirect_iff, chan, link.port]
  rw [Closed, cannotDirect_iff] at h
  exact h

theorem moveRequest_closed {b : Blocks} (closed : Closed r b) (cells : List Nat) : moveRequest env r cells b = b := by
  unfold moveRequest
  by_cases pending : (b.chans.get r).directive.isSome = true
  · exact if_pos pending
  · rw [if_neg pending]
    exact if_pos (closed.resolve_left pending)

theorem requestMove_closed {b : Blocks} (closed : Closed r b) (risen : List Nat) (q : Radio) :
    (requestMove env risen b q).chans.get r = b.chans.get r := by
  by_cases other : r = q
  · subst other
    unfold requestMove
    dsimp only
    rw [moveRequest_closed closed, ite_self]
  · exact requestMove_other other risen b

theorem foldl_requestMove_closed (risen : List Nat) (l : List Radio) {b : Blocks} (closed : Closed r b) :
    (l.foldl (requestMove env risen) b).chans.get r = b.chans.get r := by
  induction l generalizing b with
  | nil => rfl
  | cons q l ih =>
    have same := requestMove_closed (env := env) closed risen q
    rw [List.foldl_cons, ih (closed.of_same (by rw [same]) ((Directed.requestMove risen b q).links r)), same]

/-! ## The radio that gets one -/

theorem foldl_requestMove_others {risen : List Nat} {l : List Radio} (others : ∀ q ∈ l, r ≠ q) (b : Blocks) :
    (l.foldl (requestMove env risen) b).chans.get r = b.chans.get r
      ∧ Reported (fun key _ => ∃ q, q ≠ r ∧ key = .noChannel q) env b.monitor (l.foldl (requestMove env risen) b).monitor := by
  induction l generalizing b with
  | nil => exact ⟨rfl, .refl _⟩
  | cons q l ih =>
    obtain ⟨chan, reported⟩ := ih (fun x mem => others x (List.mem_cons_of_mem _ mem)) (requestMove env risen b q)
    have other := others q List.mem_cons_self
    refine ⟨chan.trans (requestMove_other other risen b), Reported.trans ?_ reported⟩
    unfold requestMove
    dsimp only
    split
    · exact .refl _
    · exact (MoveTaken.moveRequest q _ b).reported.weaken fun _ _ h => ⟨q, other.symm, h⟩

theorem foldl_requestMove_idle {risen : List Nat} {l : List Radio} {b : Blocks}
    (idle : ∀ q ∈ l, ∀ k ∈ operatingCells b q, k ∉ risen) : l.foldl (requestMove env risen) b = b := by
  induction l with
  | nil => rfl
  | cons q l ih =>
    have none : ((operatingCells b q).filter risen.contains).isEmpty = true := by
      rw [List.isEmpty_iff, List.filter_eq_nil_iff]
      intro k mem
      simpa using idle q List.mem_cons_self k mem
    rw [List.foldl_cons, show requestMove env risen b q = b from if_pos none]
    exact ih fun x mem => idle x (List.mem_cons_of_mem _ mem)

theorem radios_split (r : Radio) : ∃ before after, radios = before ++ r :: after
    ∧ (∀ q ∈ before, Radio.number q < Radio.number r) ∧ ∀ q ∈ after, r ≠ q := by
  cases r with
  | r0 => exact ⟨[], [.r1, .r2], rfl, by simp, by simp⟩
  | r1 => exact ⟨[.r0], [.r2], rfl, by simp [Radio.number], by simp⟩
  | r2 => exact ⟨[.r0, .r1], [], rfl, by simp [Radio.number], by simp⟩

/-- A move request of a radio that can be directed and has a guarded cell (R132). -/
theorem moveRequest_open {b : Blocks} (free : (b.chans.get r).directive = none) (open' : cannotDirect b r = false)
    (guarded : guardedCells env b r ≠ []) (cells : List Nat) :
    (∀ b', guardChoice env r b = some b' → moveRequest env r cells b = b')
      ∧ (guardChoice env r b = none → moveRequest env r cells b = enterMoveWait env r cells b) := by
  unfold moveRequest
  rw [if_neg (by simp [free]), if_neg (by simp [open']), if_neg (by simpa using guarded)]
  constructor
  · intro b' chosen
    rw [chosen]
  · intro none
    rw [none]

theorem mem_unionCells {a b : List Nat} {k : Nat} : k ∈ unionCells a b ↔ k < cellCount ∧ (k ∈ a ∨ k ∈ b) := by
  simp [unionCells]

theorem mem_risenCells {env0 : Env} {m0 m : Monitor} {k : Nat} : k ∈ risenCells env0 m0 env m
    ↔ k < cellCount ∧ (guardLevel env0 m0 k).strength < (guardLevel env m k).strength := by
  simp [risenCells]

theorem endClearedWaits_wait {b : Blocks} (none : (b.chans.get r).moveWait = none) :
    ((endClearedWaits env b).chans.get r).moveWait = .none := by
  unfold endClearedWaits
  induction radios generalizing b with
  | nil => exact none
  | cons q l ih =>
    refine ih ?_
    dsimp only
    repeat' split
    · exact none
    · exact none
    · rw [endMoveWait_chans, PerRadio.get_modify]
      split
      · rfl
      · exact none

/-- The radio's own move request in the delivery of a guard change (R98, R132, R136). -/
theorem requestMove_directed {risen : List Nat} {b : Blocks} (free : (b.chans.get r).directive = none)
    (open' : cannotDirect b r = false) {k : Nat} (mem : k ∈ operatingCells b r) (rises : k ∈ risen)
    (level : guardLevel env b.monitor k ≠ .clear) :
    (∀ e cost cells, chooseEntry env b r = some (e, cost) → reserveTarget r e.chan b.cells = some cells →
      ∃ b', issueMove env r e (guardReason env b r) b = some b' ∧ requestMove env risen b r = b')
    ∧ (chooseEntry env b r = none →
      requestMove env risen b r = enterMoveWait env r ((operatingCells b r).filter risen.contains) b) := by
  have guarded : guardedCells env b r ≠ [] := by
    refine List.ne_nil_of_mem (List.mem_filter.mpr ⟨mem, ?_⟩)
    exact bne_iff_ne.mpr level
  have named : ¬ ((operatingCells b r).filter risen.contains).isEmpty = true := by
    rw [List.isEmpty_iff]
    exact List.ne_nil_of_mem (List.mem_filter.mpr ⟨mem, by simpa using rises⟩)
  have taken : requestMove env risen b r = moveRequest env r ((operatingCells b r).filter risen.contains) b := if_neg named
  obtain ⟨chosen, waits⟩ := moveRequest_open free open' guarded ((operatingCells b r).filter risen.contains)
  refine ⟨fun e cost cells choice reserved => ?_, fun none => ?_⟩
  · obtain ⟨b', issued⟩ : ∃ b', issueMove env r e (guardReason env b r) b = some b' := by
      unfold issueMove
      rw [reserved]
      exact ⟨_, rfl⟩
    refine ⟨b', issued, taken.trans (chosen b' ?_)⟩
    unfold guardChoice
    rw [choice]
    exact issued
  · rw [taken]
    refine waits ?_
    unfold guardChoice
    rw [none]

/-! ## The whole event -/

theorem SchedOnly.cutOff (b : Blocks) (q : Radio) : SchedOnly b (cutOff env b q) :=
  .after (.answerWaits _ _ _) (.after (.endHoldOf _ _) (.endGrantOf _ _ _ _))

/-- Where a level has changed in RUN: the cuts, what follows them, and the state at the move requests (R98, R101, R121). -/
theorem settleMonitor_run {env0 : Env} {m0 : Monitor} {b : Blocks} (run : env.mode = .run)
    (anyChanged : changedCells env0 m0 env b.monitor ≠ []) :
    ∃ requested, Calm env b requested ∧ Directed env b requested
      ∧ (∀ r, (b.chans.get r).moveWait = none → (requested.chans.get r).moveWait = none)
      ∧ (∀ r, Followed env r ((radios.filter fun r => channelBarred env b r).foldl (cutOff env) b)
          (settleMonitor env0 m0 env b))
      ∧ ∃ delivered, delivered = radios.foldl (requestMove env (risenCells env0 m0 env b.monitor)) requested
        ∧ (∀ r, Followed env r delivered (settleMonitor env0 m0 env b))
        ∧ (settleMonitor env0 m0 env b).chans = delivered.chans
        ∧ (settleMonitor env0 m0 env b).monitor = delivered.monitor := by
  let taken := takeGuardChange env (changedCells env0 m0 env b.monitor) b
  let requested := endClearedWaits env taken
  let delivered := radios.foldl (requestMove env (risenCells env0 m0 env b.monitor)) requested
  have only : SchedOnly b taken := .takeGuardChange _ _ _
  have last : (∀ r, Followed env r delivered (settleMonitor env0 m0 env b))
      ∧ (settleMonitor env0 m0 env b).chans = delivered.chans
      ∧ (settleMonitor env0 m0 env b).monitor = delivered.monitor := by
    rcases settleMonitor_changed run anyChanged with eq | ⟨on, eq⟩
    · rw [eq]
      exact ⟨fun r => .refl _, rfl, rfl⟩
    · rw [eq]
      have shaped := SchedOnly.applyShaping env { delivered with sched := { delivered.sched with shaping := on } }
      exact ⟨fun r => .takeShaping on _, shaped.chans, shaped.monitor⟩
  refine ⟨requested, (Calm.of_schedOnly only).trans (.endClearedWaits _), .after (.endClearedWaits _) only.directed,
    fun r none => endClearedWaits_wait (by rw [only.chans]; exact none), fun r => ?_, delivered, rfl, last⟩
  obtain ⟨p, eq⟩ := takeGuardChange_run run (changedCells env0 m0 env b.monitor) b
  refine Followed.trans ?_ (last.1 r)
  refine Followed.trans ?_ (.foldl (fun b q => .requestMove _ b q) _ _)
  refine Followed.trans ?_ (.endClearedWaits _)
  rw [show taken = _ from eq]
  exact .reviewAirs _ _

theorem changedCells_ne_nil {env0 : Env} {m0 m : Monitor} {k : Nat} (low : k < cellCount)
    (changed : guardLevel env0 m0 k ≠ guardLevel env m k) : changedCells env0 m0 env m ≠ [] :=
  List.ne_nil_of_mem (List.mem_filter.mpr ⟨List.mem_range.mpr low, bne_iff_ne.mpr changed⟩)

theorem radios_nodup : radios.Nodup := by decide

theorem mem_radios (r : Radio) : r ∈ radios := by cases r <;> decide

/-- Settles O38. -/
theorem guardRise : Obligations.GuardRise := by
  intro key s c t0 m active b level changed rises sound run found pending timer due ⟨cell, low, differs⟩
  have entered : m.filterExpires s.env key = b.monitor := filterExpires_pending sound found pending timer due
  have soundNow : b.monitor.Sound := by
    rw [← entered]
    exact sound.filterExpires s.env key
  let after := settleMonitor s.env m s.env b
  have ran : exec (.filterTimerExpiry key) s = .next { s with blocks := after } := by
    refine next_blocks ?_
    show monitorEvent s.env (Monitor.filterExpires s.env key) s.blocks = _
    rw [monitorEvent, entered]
  have anyChanged : changedCells s.env m s.env b.monitor ≠ [] := changedCells_ne_nil low differs
  obtain ⟨requested, calm, directed, noWait, followed, delivered, isDelivered, tail, chans, monitor⟩ :=
    settleMonitor_run run anyChanged
  have settled : RadioReported s.env b.monitor after.monitor := (Settled.settleMonitor _ _ _).monitor
  have levels : ∀ k, guardLevel s.env requested.monitor k = level k :=
    guardLevel_radioReported directed.monitor soundNow s.env
  refine ⟨{ s with blocks := after }, ran, rfl, rfl, guardLevel_radioReported settled soundNow s.env,
    fun r barred => ?_, ?_, ?_⟩
  · intro x
    have isBarred : channelBarred s.env b r = true := channelBarred_iff.mpr barred
    have cut : CutOff s.env r b ((radios.filter fun r => channelBarred s.env b r).foldl (cutOff s.env) b) :=
      foldl_cutOff (radios_nodup.filter _) (List.mem_filter.mpr ⟨mem_radios r, isBarred⟩) b
    have only : SchedOnly b ((radios.filter fun r => channelBarred s.env b r).foldl (cutOff s.env) b) := .foldl .cutOff _ _
    have kept : ShutKept r _ after := (followed r).shut (by rw [only.monitor]; exact soundNow)
      (by rw [only.channelBarred]; exact isBarred)
    refine ⟨kept.waits cut.waits, kept.posted.trans cut.posted, fun q mem => (cut.refused q mem).grows (followed r).queue,
      fun a held => (kept.holds a).trans (cut.hold a held), fun a g granted grant => ?_⟩
    obtain ⟨gone, message, record⟩ := cut.grant a g granted grant
    refine ⟨kept.grants a fun g' h => (by rw [gone] at h; cases h), message.grows (followed r).queue, fun alone => ?_⟩
    refine (kept.lastEnded fun a' g' h => ?_).trans record
    by_cases same : a' = a
    · subst same
      rw [gone] at h
      cases h
    · exact alone a' g' same (cut.fewer a' g' h)
  · intro r y closed
    have isClosed : Closed r b := by
      rw [Closed, cannotDirect_iff, Option.isSome_iff_ne_none]
      exact closed
    have same : after.chans.get r = requested.chans.get r := by
      rw [chans, isDelivered]
      exact foldl_requestMove_closed _ _ (isClosed.of_same (calm.chans r) (directed.links r))
    dsimp only
    rw [same]
    exact calm.chans r
  · rintro r y ⟨k, mem, rise⟩ lowest free up clash isolated withdrawn
    have operating : ∀ q, operatingCells requested q = operatingCells b q := fun q => by
      have same : (requested.chans.get q).operating = (b.chans.get q).operating := by rw [calm.chans q]
      simp only [operatingCells, same]
    obtain ⟨before, others, split, numbers, apart⟩ := radios_split r
    have risen : ∀ j, j ∈ risenCells s.env m s.env b.monitor ↔ rises j := fun j => mem_risenCells
    have idle : before.foldl (requestMove s.env (risenCells s.env m s.env b.monitor)) requested = requested := by
      refine foldl_requestMove_idle fun q hq j hj up => ?_
      rw [operating] at hj
      exact lowest q (numbers q hq) j hj ((risen j).mp up)
    have turn : delivered = others.foldl (requestMove s.env (risenCells s.env m s.env b.monitor))
        (requestMove s.env (risenCells s.env m s.env b.monitor) requested r) := by
      rw [isDelivered, split, List.foldl_append, List.foldl_cons, idle]
    obtain ⟨chanLast, reported⟩ := foldl_requestMove_others (env := s.env)
      (risen := risenCells s.env m s.env b.monitor) apart
      (requestMove s.env (risenCells s.env m s.env b.monitor) requested r)
    rw [← turn] at chanLast reported
    have chan : requested.chans.get r = { y with moveWait := (requested.chans.get r).moveWait } := calm.chans r
    have open' : cannotDirect requested r = false := by
      rw [← Bool.not_eq_true, cannotDirect_iff, chan, (directed.links r).port]
      simp only [y] at clash isolated withdrawn ⊢
      simp [b, up, clash, isolated, withdrawn]
    have high : guardLevel s.env requested.monitor k ≠ .clear := by
      rw [levels]
      intro clear
      have strong := rise.2
      rw [clear] at strong
      exact absurd strong (Nat.not_lt_zero _)
    have choice : SameChoice s.env r b requested :=
      ⟨calm.cells, calm.tracker, calm.survey, by rw [chan], (directed.links r).capability, levels, directed.monitor⟩
    obtain ⟨moves, waits⟩ := requestMove_directed (env := s.env) (risen := risenCells s.env m s.env b.monitor) (b := requested)
      (by rw [chan]; exact free) open' (by rw [operating]; exact mem) ((risen k).mpr rise) high
    refine ⟨fun e cost cells chosen reserved => ?_, fun none unwaiting => ?_⟩
    · rw [← choice.chooseEntry] at chosen
      rw [show s.blocks.cells = requested.cells from calm.cells.symm] at reserved
      obtain ⟨b', issued, took⟩ := moves e cost cells chosen reserved
      rw [took] at chanLast turn
      have why : guardReason s.env requested r
          = if ∃ k ∈ operatingCells b r, level k = .barred then MoveReason.bar else .avoid := by
        have same : channelBarred s.env requested r = true ↔ ∃ k ∈ operatingCells b r, level k = .barred := by
          rw [channelBarred_iff, operating]
          simp only [levels]
        unfold guardReason
        simp only [same]
      refine ⟨?_, ?_⟩
      · rw [chans, chanLast, (issueMove_some issued).2, PerRadio.get_modify_same, issuedDirective, chan, why]
        rfl
      · have sent := (issueMove_sent issued).2.sent
        rw [chan, why] at sent
        refine sent.grows (List.IsPrefix.trans ?_ (tail r).queue)
        rw [turn]
        exact (Followed.foldl (fun b q => .requestMove _ b q) _ _ : Followed s.env r _ _).queue
    · rw [← choice.chooseEntry] at none
      rw [waits none] at chanLast reported
      have quiet := noWait r unwaiting
      have cellsIff : ∀ j, j ∈ waitCells requested r ((operatingCells requested r).filter
          (risenCells s.env m s.env b.monitor).contains) ↔ j ∈ operatingCells b r ∧ rises j := by
        intro j
        rw [waitCells, quiet, mem_unionCells, operating]
        simp only [Option.map_none, Option.getD_none, List.not_mem_nil, false_or, List.mem_filter, List.contains_iff_mem, risen]
        exact ⟨fun h => h.2, fun h => ⟨h.2.1, h⟩⟩
      refine ⟨⟨_, ?_, cellsIff⟩, ?_⟩
      · rw [chans, chanLast, enterMoveWait_chans, PerRadio.get_modify_same, chan]
      · dsimp only
        rw [monitor]
        refine reported.recordedOrFull (fun x ⟨q, other, same⟩ => ?_) ?_
        · cases same
          exact other rfl
        · unfold enterMoveWait
          rw [quiet]
          exact Monitor.recordedOrFull_report _ _

end Sys2Proof.Machine
end

