-- ==== Sys2Proof/Proofs/ShapingRules.lean ====
section
/-! PROOF. What a change of shaping or prediction does to the grants (R97, R111, R120): O45. -/

namespace Sys2Proof.Machine

variable {env : Env}

/-! ## The cut of one air's grant -/

/-- No other air than one holds a grant of a radio. -/
def AloneIn (a : AirId) (r : Radio) (b : Blocks) : Prop := ∀ c g, c ≠ a → (b.air c).grant = some g → g.radio ≠ r

theorem cutGrant_air_other {a c : AirId} (other : c ≠ a) (b : Blocks) : (cutGrant env a b).air c = b.air c := by
  unfold cutGrant
  split
  · rfl
  · exact Blocks.modAir_air_other b (fun x => { x with grant := none }) other

theorem shapeGrant_air_other {a c : AirId} (other : c ≠ a) (b : Blocks) : (shapeGrant env b a).air c = b.air c := by
  have stands : ∀ x, (b.modAir a fun y => { y with grant := x }).air c = b.air c := fun _ => Blocks.modAir_air_other _ _ other
  unfold shapeGrant
  dsimp only
  repeat' split
  all_goals first
    | rfl
    | exact cutGrant_air_other other b
    | exact stands _

/-- The air itself keeps its hold and its review timer, and no grant enters it (R120). -/
theorem shapeGrant_air_same (a : AirId) (b : Blocks) :
    ((shapeGrant env b a).air a).hold = (b.air a).hold ∧ ((shapeGrant env b a).air a).review = (b.air a).review
      ∧ ∀ g, ((shapeGrant env b a).air a).grant = some g → ∃ g', (b.air a).grant = some g' ∧ g'.radio = g.radio := by
  have changed : ∀ g', (b.air a).grant = some g' → ∀ (b' : Blocks) (x : Option Grant),
      b'.air a = (b.modAir a fun y => { y with grant := x }).air a → (∀ g, x = some g → g'.radio = g.radio) →
      (b'.air a).hold = (b.air a).hold ∧ (b'.air a).review = (b.air a).review
        ∧ ∀ g, (b'.air a).grant = some g → ∃ g', (b.air a).grant = some g' ∧ g'.radio = g.radio := by
    intro g' grant b' x eq mine
    rw [Blocks.modAir_air_same] at eq
    rw [eq]
    exact ⟨rfl, rfl, fun g hg => ⟨g', grant, mine g hg⟩⟩
  have same : (b.air a).hold = (b.air a).hold ∧ (b.air a).review = (b.air a).review
      ∧ ∀ g, (b.air a).grant = some g → ∃ g', (b.air a).grant = some g' ∧ g'.radio = g.radio :=
    ⟨rfl, rfl, fun g hg => ⟨g, hg, rfl⟩⟩
  unfold shapeGrant
  split
  · exact same
  · next g grant =>
    split
    · dsimp only
      split
      · exact same
      · next w _ =>
        split
        · split
          · exact changed g grant _ (some { g with stop := w.start }) rfl fun _ h => by cases h; rfl
          · refine changed g grant (cutGrant env a b) none ?_ nofun
            unfold cutGrant
            rw [grant]
            rfl
        · split
          · exact same
          · exact changed g grant _ (some { g with exposed := true }) rfl fun _ h => by cases h; rfl
    · exact same

theorem shapeGrant_aloneIn {a c : AirId} {r : Radio} {b : Blocks} (alone : AloneIn a r b) : AloneIn a r (shapeGrant env b c) := by
  intro x g other grant
  by_cases same : x = c
  · subst same
    obtain ⟨g', before, mine⟩ := (shapeGrant_air_same (env := env) x b).2.2 g grant
    rw [← mine]
    exact alone x g' other before
  · rw [shapeGrant_air_other same] at grant
    exact alone x g other grant

/-- A radio keeps its lists (R120). -/
theorem shapeGrant_lists (a : AirId) (b : Blocks) (r : Radio) : ∃ e, (shapeGrant env b a).sched.radios.get r
    = { b.sched.radios.get r with lastEnded := e } := by
  unfold shapeGrant
  dsimp only
  repeat' split
  all_goals first
    | exact cutGrant_lists a b r
    | exact ⟨_, rfl⟩

/-- The cut of another radio's grant (R120). -/
theorem shapeGrant_other {a : AirId} {r : Radio} {b : Blocks} (other : ∀ g, (b.air a).grant = some g → g.radio ≠ r) :
    (shapeGrant env b a).sched.radios.get r = b.sched.radios.get r ∧ (shapeGrant env b a).links.get r = b.links.get r := by
  have linkOther : ∀ {g : Grant} (_ : (b.air a).grant = some g) (f : Link → Link),
      (b.links.modify g.radio f).get r = b.links.get r :=
    fun grant f => PerRadio.get_modify_other _ _ (other _ grant).symm
  have cut : (cutGrant env a b).links.get r = b.links.get r := by
    unfold cutGrant
    split
    · rfl
    · next g grant => exact linkOther grant _
  unfold shapeGrant
  split
  · exact ⟨rfl, rfl⟩
  · next g grant =>
    split
    · dsimp only
      split
      · exact ⟨rfl, rfl⟩
      · split
        · split
          · exact ⟨rfl, linkOther grant _⟩
          · exact ⟨cutGrant_radio other, cut⟩
        · split
          · exact ⟨rfl, rfl⟩
          · exact ⟨rfl, linkOther grant _⟩
    · exact ⟨rfl, rfl⟩

/-- What the cuts of the other airs leave of an air, and of a radio with no grant there. -/
theorem foldl_shapeGrant_others {a : AirId} {l : List AirId} (apart : a ∉ l) (b : Blocks) :
    (l.foldl (shapeGrant env) b).air a = b.air a
      ∧ ∀ r, AloneIn a r b → AloneIn a r (l.foldl (shapeGrant env) b)
        ∧ (l.foldl (shapeGrant env) b).sched.radios.get r = b.sched.radios.get r
        ∧ (l.foldl (shapeGrant env) b).links.get r = b.links.get r := by
  induction l generalizing b with
  | nil => exact ⟨rfl, fun _ alone => ⟨alone, rfl, rfl⟩⟩
  | cons c l ih =>
    rw [List.mem_cons, not_or] at apart
    obtain ⟨air, rest⟩ := ih apart.2 (shapeGrant env b c)
    refine ⟨air.trans (shapeGrant_air_other apart.1 b), fun r alone => ?_⟩
    obtain ⟨still, radios, links⟩ := rest r (shapeGrant_aloneIn alone)
    obtain ⟨radio, link⟩ := shapeGrant_other (env := env) (a := c) fun g => alone c g (Ne.symm apart.1)
    exact ⟨still, radios.trans radio, links.trans link⟩

theorem foldl_shapeGrant_noRequests {b : Blocks} (quiet : noRequests b) (l : List AirId) :
    noRequests (l.foldl (shapeGrant env) b) := by
  induction l generalizing b with
  | nil => exact quiet
  | cons c l ih =>
    refine ih fun r => ?_
    obtain ⟨e, lists⟩ := shapeGrant_lists (env := env) c b r
    rw [lists]
    exact quiet r

/-- With no request, reviews change review timers alone (R112, R113). -/
theorem reviewAirs_noRequests_rest {b : Blocks} (quiet : noRequests b) (p : AirId → Bool) :
    (reviewAirs env p b).sched.radios = b.sched.radios ∧ (reviewAirs env p b).links = b.links := by
  unfold reviewAirs
  induction airIds.filter p generalizing b with
  | nil => exact ⟨rfl, rfl⟩
  | cons a l ih =>
    rw [List.foldl_cons, reviewAir_noRequests quiet]
    exact ih (b := b.modAir a fun x => { x with review := none }) quiet

theorem airIds_split (a : AirId) : ∃ before after, airIds = before ++ a :: after ∧ a ∉ before ∧ a ∉ after := by
  cases a with
  | l => exact ⟨[], [.h0, .h1, .h2], rfl, by simp, by simp⟩
  | h0 => exact ⟨[.l], [.h1, .h2], rfl, by simp, by simp⟩
  | h1 => exact ⟨[.l, .h0], [.h2], rfl, by simp, by simp⟩
  | h2 => exact ⟨[.l, .h0, .h1], [], rfl, by simp, by simp⟩

/-- What a change of shaping or prediction leaves of one air, by the cut of that air's own grant (R120). -/
theorem applyShaping_air {b : Blocks} (quiet : noRequests b) (a : AirId) :
    ∃ c, SchedOnly b c ∧ c.air a = b.air a
      ∧ (applyShaping env b).air a = { (shapeGrant env c a).air a with review := none }
      ∧ ∀ r, ((shapeGrant env c a).links.get r).queue <+: ((applyShaping env b).links.get r).queue
        ∧ (AloneIn a r b → c.links.get r = b.links.get r
          ∧ (applyShaping env b).sched.radios.get r = (shapeGrant env c a).sched.radios.get r
          ∧ (applyShaping env b).links.get r = (shapeGrant env c a).links.get r) := by
  obtain ⟨before, after, split, first, last⟩ := airIds_split a
  let c := before.foldl (shapeGrant env) b
  let d := after.foldl (shapeGrant env) (shapeGrant env c a)
  have cuts : airIds.foldl (shapeGrant env) b = d := by rw [split, List.foldl_append, List.foldl_cons]
  have quietNow : noRequests d := by
    rw [← cuts]
    exact foldl_shapeGrant_noRequests quiet airIds
  have eq : applyShaping env b = reviewAirs env (fun _ => true) d := by rw [applyShaping, cuts]
  obtain ⟨radios, links⟩ := reviewAirs_noRequests_rest (env := env) quietNow fun _ => true
  obtain ⟨airBefore, othersBefore⟩ := foldl_shapeGrant_others (env := env) first b
  obtain ⟨airAfter, othersAfter⟩ := foldl_shapeGrant_others (env := env) last (shapeGrant env c a)
  refine ⟨c, .foldl (fun b a => .shapeGrant _ b a) _ _, airBefore, ?_, fun r => ⟨?_, fun alone => ?_⟩⟩
  · rw [eq, reviewAirs_noRequests_air quietNow, if_pos rfl, airAfter]
  · rw [eq, links]
    exact (Followed.foldl (fun b a => .shapeGrant b a) _ _ : Followed env r (shapeGrant env c a) d).queue
  · obtain ⟨still, -, linkBefore⟩ := othersBefore r alone
    obtain ⟨-, radioAfter, linkAfter⟩ := othersAfter r (shapeGrant_aloneIn still)
    rw [eq, radios, links]
    exact ⟨linkBefore, radioAfter, linkAfter⟩

/-! ## The cases of R120 -/

theorem find_first {α : Type} {p : α → Bool} {l earlier rest : List α} {x : α} (split : l = earlier ++ x :: rest)
    (missed : ∀ y ∈ earlier, ¬ p y = true) (hit : p x = true) : l.find? p = some x := by
  rw [split, List.find?_append, List.find?_eq_none.mpr missed, List.find?_cons_of_pos hit]
  rfl

section Cases

variable {b : Blocks} {a : AirId} {g : Grant}

theorem shapeGrant_stands (grant : (b.air a).grant = some g)
    (missed : ¬ shapingApplies b g.radio = true ∨ ∀ w ∈ b.sched.prediction.windows,
      ¬ Time.meets (Time.later env.now g.start) g.stop w.start w.stop = true) : shapeGrant env b a = b := by
  unfold shapeGrant
  rw [grant]
  dsimp only
  rcases missed with flat | none
  · exact if_neg flat
  · rw [List.find?_eq_none.mpr none]
    exact ite_self _

/-- A grant whose remainder meets a window (R120). -/
theorem shapeGrant_hit (grant : (b.air a).grant = some g) (shaped : shapingApplies b g.radio = true) {w : Window}
    (first : b.sched.prediction.windows.find? (fun w => Time.meets (Time.later env.now g.start) g.stop w.start w.stop) = some w) :
    (g.shortenable = true → (env.retained.params.minGrant : Int) ≤ Time.diff w.start (Time.later env.now g.start) →
      shapeGrant env b a
        = (b.modAir a fun x => { x with grant := some { g with stop := w.start } }).send g.radio (.cut g.id w.start))
    ∧ (g.shortenable = true → Time.diff w.start (Time.later env.now g.start) < env.retained.params.minGrant →
      shapeGrant env b a = cutGrant env a b)
    ∧ (g.shortenable = false → g.exposed = true → shapeGrant env b a = b)
    ∧ (g.shortenable = false → g.exposed = false →
      shapeGrant env b a
        = (b.modAir a fun x => { x with grant := some { g with exposed := true } }).count g.radio LinkCounters.exposedGrant) := by
  unfold shapeGrant
  rw [grant]
  dsimp only
  rw [if_pos shaped, first]
  refine ⟨fun short fits => ?_, fun short tight => ?_, fun long exposed => ?_, fun long hidden => ?_⟩
  · exact (if_pos short).trans (if_pos fits)
  · exact (if_pos short).trans (if_neg (Int.not_le.mpr tight))
  · exact (if_neg (by simp [long])).trans (if_pos exposed)
  · exact (if_neg (by simp [long])).trans (if_neg (by simp [hidden]))

end Cases

/-! ## OVEN shaping put on (R97) -/

theorem eq_of_key {key : CondKey} {l : List CondRecord} {c x : CondRecord} (keys : (l.map CondRecord.key).Nodup)
    (found : l.find? (fun x => x.key == key) = some c) (mem : x ∈ l) (same : x.key = key) : x = c :=
  List.inj_on_of_nodup_map keys mem (List.mem_of_find?_eq_some found) (same.trans (find_of_key found).symm)

/-- The test of a list in which one record was replaced by one that passes no more than it (R86). -/
theorem any_replaced {p : CondRecord → Bool} {key : CondKey} {l : List CondRecord} {c d : CondRecord}
    (keys : (l.map CondRecord.key).Nodup) (found : l.find? (fun x => x.key == key) = some c) (same : p d = p c) :
    (l.map fun x => if x.key = key then d else x).any p = l.any p := by
  have each : ∀ x ∈ l, p (if x.key = key then d else x) = p x := by
    intro x mem
    split
    · next e => rw [same, eq_of_key keys found mem e]
    · rfl
  rw [Bool.eq_iff_iff]
  simp only [List.any_map, List.any_eq_true, Function.comp_apply]
  exact exists_congr fun x => and_congr_right fun mem => by rw [each x mem]

theorem shapingCuts_oven (s : State) (c : CondRecord) (t0 : Time) (sound : s.blocks.monitor.Sound) (run : s.env.mode = .run)
    (found : s.blocks.monitor.find .oven = some c) (pending : c.state = .pending) (timer : c.timer = some t0)
    (due : Time.atOrBefore t0 s.env.now = true) (shape : c.config.reaction = .shape) :
    exec (.filterTimerExpiry .oven) s
      = .next { s with
          blocks := takeShaping s.env true { s.blocks with
            monitor := { s.blocks.monitor with
              list := s.blocks.monitor.list.map fun x =>
                if x.key = .oven then c.enterActive s.env.now s.blocks.monitor.lastRange else x } } } := by
  have entered := filterExpires_pending sound found pending timer due
  have named : c.key = .oven := find_of_key found
  have quiet : ∀ k, guardLevel s.env (s.blocks.monitor.filterExpires s.env .oven) k = guardLevel s.env s.blocks.monitor k := by
    intro k
    rw [entered]
    refine guardLevel_congr (any_replaced sound.keys found ?_) (any_replaced sound.keys found ?_)
    · simp only [CondRecord.bars, CondRecord.enterActive, shape]
      rfl
    · simp only [CondRecord.avoids, CondRecord.enterActive, shape]
      rfl
  have off : shapingHolds s.env s.blocks.monitor = false := by
    rw [shapingHolds, Bool.and_eq_false_iff]
    refine .inr (List.any_eq_false.mpr fun x mem holds => ?_)
    simp only [Bool.and_eq_true, beq_iff_eq] at holds
    have inForce := holds.1.2
    rw [eq_of_key sound.keys found mem holds.1.1, CondRecord.inForce_iff, pending] at inForce
    simp at inForce
  have on : shapingHolds s.env (s.blocks.monitor.filterExpires s.env .oven) = true := by
    rw [entered, shapingHolds, run]
    simp only [beq_self_eq_true, Bool.true_and, List.any_map, List.any_eq_true]
    refine ⟨c, List.mem_of_find?_eq_some found, ?_⟩
    simp [CondRecord.enterActive, CondRecord.inForce, named, shape]
  refine next_blocks ?_
  show monitorEvent s.env (Monitor.filterExpires s.env .oven) s.blocks = _
  rw [← entered, monitorEvent, settleMonitor]
  dsimp only
  rw [changedCells_eq_nil quiet, on, off]
  rfl

/-- Settles O45. -/
theorem shapingCuts : Obligations.ShapingCuts := by
  constructor
  rotate_left
  · intro s c t0 m active sound run found pending timer due shape
    exact shapingCuts_oven s c t0 sound run found pending timer due shape
  intro env b0 b b' quiet taken
  obtain ⟨is, airs, quietNow⟩ : b' = applyShaping env b ∧ (∀ a, b0.air a = b.air a) ∧ noRequests b := by
    rcases taken with ⟨on, stored, is⟩ | ⟨p, stored, is⟩
    · refine ⟨?_, ?_, ?_⟩
      · rw [is, stored, takeShaping]
      · intro a
        rw [stored]
        rfl
      · rw [stored]
        exact quiet
    · refine ⟨?_, ?_, ?_⟩
      · rw [is, stored, takePrediction]
      · intro a
        rw [stored]
        rfl
      · rw [stored]
        exact quiet
  rw [is]
  refine ⟨.applyShaping _ _, fun a => ?_, ?_⟩
  · obtain ⟨c, -, air, cut, -⟩ := applyShaping_air (env := env) quietNow a
    obtain ⟨hold, -, entered⟩ := shapeGrant_air_same (env := env) a c
    rw [cut, airs, ← air]
    refine ⟨hold, rfl, fun none => ?_⟩
    cases now : ((shapeGrant env c a).air a).grant with
    | none => rfl
    | some g =>
      obtain ⟨g', before, -⟩ := entered g now
      rw [none] at before
      cases before
  · intro a g grant ws shaped from' hits alone exposures
    obtain ⟨c, only, air, cut, rest⟩ := applyShaping_air (env := env) quietNow a
    obtain ⟨grown, aloneRest⟩ := rest g.radio
    rw [airs, ← air] at grant
    have isAlone : alone → AloneIn a g.radio b := fun h x g' other before => h x g' other (by rw [airs]; exact before)
    have same : shapingApplies c g.radio = true ↔ shaped ∧ ws ≠ [] := by
      rw [shapingApplies_iff, only.operatingCells, only.shaping, only.prediction]
      exact ⟨fun ⟨on, windows, cells⟩ => ⟨⟨on, cells⟩, windows⟩, fun ⟨⟨on, cells⟩, windows⟩ => ⟨on, windows, cells⟩⟩
    have windows : c.sched.prediction.windows = ws := by rw [only.prediction]
    rw [cut]
    refine ⟨fun missed => ?_, ?_⟩
    · have stands : shapeGrant env c a = c := by
        refine shapeGrant_stands grant ?_
        rw [same, windows]
        exact missed.imp_left fun flat h => flat h.1
      rw [stands]
      exact grant
    · intro w earlier later on split missed hit left
      have first : c.sched.prediction.windows.find? (fun w => Time.meets from' g.stop w.start w.stop) = some w := by
        rw [windows]
        exact find_first split missed hit
      obtain ⟨shortened, removed, exposed, exposes⟩ :=
        shapeGrant_hit grant (same.mpr ⟨on, by rw [split]; simp⟩) first
      refine ⟨fun short fits => ?_, fun short tight => ?_, fun long => ?_⟩
      · have is := shortened short fits
        rw [is] at grown ⊢
        exact ⟨congrArg Air.grant (Blocks.modAir_air_same c a fun x => { x with grant := some { g with stop := w.start } }),
          (sentLast_send _ _ _).sent.grows grown⟩
      · have is := removed short tight
        obtain ⟨message, record⟩ := cutGrant_sent (env := env) grant
        rw [is] at grown ⊢
        refine ⟨(cutGrant_air env a a c).trans (if_pos rfl), message.grows grown, fun h => ?_⟩
        rw [(aloneRest (isAlone h)).2.1, is]
        exact record
      · cases old : g.exposed with
        | true =>
          have is := exposed long old
          refine ⟨?_, fun h => ?_⟩
          · rw [is]
            refine grant.trans (congrArg some ?_)
            rw [← old]
          · obtain ⟨before, -, after⟩ := aloneRest (isAlone h)
            rw [if_pos rfl]
            simp only [exposures]
            rw [after, is, before]
        | false =>
          have is := exposes long old
          refine ⟨?_, fun h => ?_⟩
          · rw [is]
            exact congrArg Air.grant (Blocks.modAir_air_same c a fun x => { x with grant := some { g with exposed := true } })
          · obtain ⟨before, -, after⟩ := aloneRest (isAlone h)
            rw [if_neg Bool.false_ne_true]
            simp only [exposures]
            rw [after, is, Blocks.count_link_same]
            show (LinkCounters.exposedGrant (c.links.get g.radio).counters).exposedGrants = _
            rw [before]
            rfl

end Sys2Proof.Machine
end

