-- ==== Sys2Proof/Proofs/ModeRules.lean ====
section
/-! PROOF. RUN and SETUP: the fresh source reports, the cuts at the entry to RUN, and the grants and requests at the entry to
SETUP (R99, R126, R127, R134, R163, R164): O21. -/

namespace Sys2Proof.Machine

variable {env : Env} {r : Radio}

/-! ## Fresh reports (R99) -/

/-- The monitor after some source reports, one after the other. -/
def freshMonitor (env : Env) (l : List (CondKey × Bool)) (m : Monitor) : Monitor := l.foldl (fun m x => m.report env x.1 x.2) m

theorem freshReports_eq (b : Blocks) :
    freshReports env b = { b with monitor := freshMonitor env (radios.flatMap (radioSources b)) b.monitor } := by
  unfold freshReports freshMonitor
  generalize radios.flatMap (radioSources b) = l
  induction l generalizing b with
  | nil => rfl
  | cons x l ih => exact ih (b.report env x.1 x.2)

theorem CondRecord.enterPending_entered (now : Time) (x : Option Span) (c : CondRecord) :
    (c.enterPending now x).entered = c.entered := by
  unfold CondRecord.enterPending
  dsimp only
  split <;> rfl

theorem CondRecord.onPresent_entered (now : Time) (x : Option Span) (c : CondRecord) :
    (c.onPresent now x).entered = c.entered := by
  unfold CondRecord.onPresent
  split
  all_goals first | rfl | exact CondRecord.enterPending_entered _ _ _

theorem CondRecord.extensionEnds_entered {now : Time} {c d : CondRecord} (h : c.extensionEnds now = some d) :
    d.entered = c.entered := by
  unfold CondRecord.extensionEnds at h
  split at h <;> cases h
  rfl

theorem CondRecord.onAbsent_entered {now : Time} {c d : CondRecord} (h : c.onAbsent now = some d) : d.entered = c.entered := by
  unfold CondRecord.onAbsent at h
  split at h
  · cases h
  · split at h
    · cases h; rfl
    · dsimp only at h
      split at h
      · exact CondRecord.extensionEnds_entered h
      · cases h; rfl
  all_goals cases h; rfl

/-- A record that entered the list now, about a radio. -/
def Fresh (env : Env) (c : CondRecord) : Prop := CondKey.radio c.key ≠ none ∧ c.entered = env.now

theorem fresh_report {m : Monitor} (fresh : ∀ c ∈ m.list, Fresh env c) {key : CondKey} (about : CondKey.radio key ≠ none)
    (x : Bool) : ∀ c ∈ (m.report env key x).list, Fresh env c := by
  have updated : ∀ f : CondRecord → Option CondRecord, (∀ c d, f c = some d → d.key = c.key ∧ d.entered = c.entered) →
      ∀ c ∈ updateKey key f m.list, Fresh env c := by
    intro f kept c mem
    rcases updateKey_mem mem with old | ⟨d, old, image⟩
    · exact fresh c old
    · obtain ⟨key, entered⟩ := kept d c image
      rw [Fresh, key, entered]
      exact fresh d old
  unfold Monitor.report
  split
  · unfold Monitor.present
    split
    · exact updated _ fun c d h => by cases h; exact ⟨CondRecord.onPresent_key _ _ _, CondRecord.onPresent_entered _ _ _⟩
    · split
      · intro c mem
        rcases List.mem_append.mp mem with old | new
        · exact fresh c old
        · rw [List.mem_singleton.mp new]
          exact ⟨by rw [newRecord_key]; exact about, CondRecord.enterPending_entered _ _ _⟩
      · exact fresh
  · exact updated _ fun c d h => ⟨CondRecord.onAbsent_key h, CondRecord.onAbsent_entered h⟩

theorem fresh_freshMonitor {l : List (CondKey × Bool)} (about : ∀ x ∈ l, CondKey.radio x.1 ≠ none) {m : Monitor}
    (fresh : ∀ c ∈ m.list, Fresh env c) : ∀ c ∈ (freshMonitor env l m).list, Fresh env c := by
  unfold freshMonitor
  induction l generalizing m with
  | nil => exact fresh
  | cons x l ih =>
    exact ih (fun y mem => about y (List.mem_cons_of_mem _ mem)) (fresh_report fresh (about x List.mem_cons_self) x.2)

theorem radioSources_about (b : Blocks) : ∀ x ∈ radios.flatMap (radioSources b), CondKey.radio x.1 ≠ none := by
  intro x mem
  obtain ⟨q, -, mem⟩ := List.mem_flatMap.mp mem
  simp only [radioSources, List.mem_cons, List.not_mem_nil, or_false] at mem
  rcases mem with rfl | rfl | rfl | rfl | rfl <;> exact nofun

theorem freshReports_monitor (b : Blocks) :
    (freshReports env b).monitor = freshMonitor env (radios.flatMap (radioSources b)) b.monitor := by
  rw [freshReports_eq]

/-- The records after the fresh reports (R99). -/
theorem freshReports_fresh {b : Blocks} (empty : b.monitor.list = []) : ∀ c ∈ (freshReports env b).monitor.list, Fresh env c := by
  rw [freshReports_monitor]
  refine fresh_freshMonitor (radioSources_about b) fun c mem => ?_
  rw [empty] at mem
  cases mem

theorem Monitor.report_length (m : Monitor) (key : CondKey) (x : Bool) : (m.report env key x).list.length ≤ m.list.length + 1 := by
  cases x
  · exact Nat.le_succ_of_le (Monitor.absent_length m key)
  · exact Monitor.present_length m key

theorem updateKey_keys_same {key : CondKey} {f : CondRecord → CondRecord} (kept : ∀ c, (f c).key = c.key) (l : List CondRecord) :
    (updateKey key (fun c => some (f c)) l).map CondRecord.key = l.map CondRecord.key := by
  induction l with
  | nil => rfl
  | cons c cs ih =>
    unfold updateKey
    split
    · simp [kept]
    · simp [ih]

/-- Where there is room, a report of presence leaves a record (R88). -/
theorem Monitor.holds_present {m : Monitor} (room : m.list.length < listLimit) (key : CondKey) :
    (m.report env key true).holds key = true := by
  unfold Monitor.report Monitor.present
  rw [if_pos rfl, Monitor.holds_iff]
  split
  · next held =>
    rw [updateKey_keys_same fun c => CondRecord.onPresent_key _ _ _]
    exact (Monitor.holds_iff m key).mp held
  · simp

theorem freshMonitor_holds {l : List (CondKey × Bool)} (keys : (l.map Prod.fst).Nodup) {m : Monitor}
    (room : m.list.length + l.length ≤ listLimit) {key : CondKey} (mem : (key, true) ∈ l) :
    (freshMonitor env l m).holds key = true := by
  have stays : ∀ (l : List (CondKey × Bool)) (m : Monitor), key ∉ l.map Prod.fst → m.holds key = true →
      (freshMonitor env l m).holds key = true := by
    intro l
    induction l with
    | nil => exact fun _ _ h => h
    | cons x l ih =>
      intro m absent held
      rw [List.map_cons, List.mem_cons, not_or] at absent
      refine ih _ absent.2 ?_
      rw [Monitor.holds_iff_find] at held ⊢
      rw [Monitor.find_report_other m absent.1]
      exact held
  induction l generalizing m with
  | nil => cases mem
  | cons x l ih =>
    rw [List.map_cons, List.nodup_cons] at keys
    rw [List.length_cons] at room
    rcases List.mem_cons.mp mem with rfl | later
    · exact stays l _ keys.1 (Monitor.holds_present (by omega) key)
    · refine ih keys.2 (m := m.report env x.1 x.2) ?_ later
      have grown := Monitor.report_length (env := env) m x.1 x.2
      omega

theorem freshReports_holds {b : Blocks} (empty : b.monitor.list = []) {key : CondKey}
    (mem : (key, true) ∈ radios.flatMap (radioSources b)) : (freshReports env b).monitor.holds key = true := by
  have keys : ((radios.flatMap (radioSources b)).map Prod.fst).Nodup := by
    have list : (radios.flatMap (radioSources b)).map Prod.fst = radios.flatMap fun r =>
        [CondKey.overrun r, .link r, .clash r, .lapse r, .noChannel r] := rfl
    rw [list]
    decide
  rw [freshReports_monitor]
  refine freshMonitor_holds keys ?_ mem
  rw [empty]
  have length : (radios.flatMap (radioSources b)).length = 15 := rfl
  rw [length]
  decide

/-! ## The entry to RUN (R127) -/

/-- One pass-through grant cut to now. -/
def cutPass (env : Env) (r : Radio) (b : Blocks) (g : Grant) : Blocks :=
  (b.send r (.cut g.id env.now)).setLastEnded r g.id env.now .cut

theorem cutPassThrough_eq (r : Radio) (b : Blocks) : cutPassThrough env r b
    = (b.sched.radios.get r).passThrough.foldl (cutPass env r) (b.modSched r fun x => { x with passThrough := [] }) := rfl

theorem foldl_cutPass_queue (l : List Grant) (b : Blocks) :
    (b.links.get r).queue <+: ((l.foldl (cutPass env r) b).links.get r).queue := by
  induction l generalizing b with
  | nil => exact List.prefix_refl _
  | cons g l ih => exact (Blocks.send_queue b r (.cut g.id env.now) r).trans (ih (cutPass env r b g))

theorem foldl_cutPass_other {q : Radio} (other : r ≠ q) (l : List Grant) (b : Blocks) :
    (l.foldl (cutPass env q) b).sched.radios.get r = b.sched.radios.get r
      ∧ (l.foldl (cutPass env q) b).links.get r = b.links.get r := by
  induction l generalizing b with
  | nil => exact ⟨rfl, rfl⟩
  | cons g l ih =>
    obtain ⟨radio, link⟩ := ih (cutPass env q b g)
    exact ⟨radio.trans (PerRadio.get_modify_other _ _ other), link.trans (PerRadio.get_modify_other _ _ other)⟩

/-- A radio's pass-through grants cut to now (R118, R127). -/
theorem cutPassThrough_spec (r : Radio) (b : Blocks) :
    ((cutPassThrough env r b).sched.radios.get r).passThrough = []
      ∧ (∀ g ∈ (b.sched.radios.get r).passThrough, sent ((cutPassThrough env r b).links.get r) (.cut g.id env.now))
      ∧ ((b.sched.radios.get r).passThrough.getLast? = none →
        ((cutPassThrough env r b).sched.radios.get r).lastEnded = (b.sched.radios.get r).lastEnded)
      ∧ ∀ g, (b.sched.radios.get r).passThrough.getLast? = some g →
        ((cutPassThrough env r b).sched.radios.get r).lastEnded = some ⟨g.id, env.now, .cut⟩ := by
  refine ⟨cutPassThrough_passThrough r b, fun g mem => ?_, fun none => ?_, fun g last => ?_⟩
  · obtain ⟨before, after, split⟩ := List.append_of_mem mem
    rw [cutPassThrough_eq, split, List.foldl_append, List.foldl_cons]
    generalize before.foldl (cutPass env r) _ = c
    have message : sent ((cutPass env r c g).links.get r) (.cut g.id env.now) := (sentLast_send c r _).sent
    exact message.grows (foldl_cutPass_queue after _)
  · rw [cutPassThrough_eq, List.getLast?_eq_none_iff.mp none]
    rw [List.foldl_nil, Blocks.modSched_radios, PerRadio.get_modify_same]
  · obtain ⟨before, split⟩ := List.getLast?_eq_some_iff.mp last
    rw [cutPassThrough_eq, split, List.foldl_append, List.foldl_cons, List.foldl_nil]
    unfold cutPass Blocks.setLastEnded
    rw [Blocks.modSched_radios, PerRadio.get_modify_same]

theorem cutPassThrough_other {q : Radio} (other : r ≠ q) (b : Blocks) :
    (cutPassThrough env q b).sched.radios.get r = b.sched.radios.get r
      ∧ (cutPassThrough env q b).links.get r = b.links.get r := by
  obtain ⟨radio, link⟩ := foldl_cutPass_other (env := env) other (b.sched.radios.get q).passThrough
    (b.modSched q fun x => { x with passThrough := [] })
  exact ⟨radio.trans (PerRadio.get_modify_other _ _ other), link⟩

/-- What operations that each concern one radio leave of a radio, when they are done for every radio in turn. -/
theorem foldl_radios {f : Blocks → Radio → Blocks} (others : ∀ b r q, r ≠ q →
      (f b q).sched.radios.get r = b.sched.radios.get r ∧ (f b q).links.get r = b.links.get r) (b : Blocks) (r : Radio) :
    ∃ c, c.sched.radios.get r = b.sched.radios.get r ∧ c.links.get r = b.links.get r
      ∧ (radios.foldl f b).sched.radios.get r = (f c r).sched.radios.get r
      ∧ (radios.foldl f b).links.get r = (f c r).links.get r := by
  have walk : ∀ (l : List Radio), r ∉ l → ∀ b, (l.foldl f b).sched.radios.get r = b.sched.radios.get r
      ∧ (l.foldl f b).links.get r = b.links.get r := by
    intro l
    induction l with
    | nil => exact fun _ _ => ⟨rfl, rfl⟩
    | cons q l ih =>
      intro apart b
      rw [List.mem_cons, not_or] at apart
      obtain ⟨radio, link⟩ := ih apart.2 (f b q)
      obtain ⟨radioOne, linkOne⟩ := others b r q apart.1
      exact ⟨radio.trans radioOne, link.trans linkOne⟩
  obtain ⟨before, after, split, numbers, apart⟩ := radios_split r
  obtain ⟨radioBefore, linkBefore⟩ := walk before (fun mem => Nat.lt_irrefl _ (numbers r mem)) b
  obtain ⟨radioAfter, linkAfter⟩ := walk after (fun mem => apart r mem rfl) (f (before.foldl f b) r)
  refine ⟨before.foldl f b, radioBefore, linkBefore, ?_⟩
  rw [split, List.foldl_append, List.foldl_cons]
  exact ⟨radioAfter, linkAfter⟩

end Sys2Proof.Machine
end

