-- ==== Sys2Proof/Proofs/ModeChanges.lean ====
section
/-! PROOF. What the entry to SETUP makes of grants and requests, and both mode changes whole (R99, R126, R127, R134, R163, R164):
O21. -/

namespace Sys2Proof.Machine

variable {env : Env} {r : Radio}

/-! ## The monitor's reports at the entry to SETUP -/

/-- Nothing but shaping, holds and review timers has changed. -/
structure Stilled (b b' : Blocks) : Prop where
  cells : b'.cells = b.cells
  lanes : b'.lanes = b.lanes
  tracker : b'.tracker = b.tracker
  survey : b'.survey = b.survey
  monitor : b'.monitor = b.monitor
  chans : b'.chans = b.chans
  links : b'.links = b.links
  radios : b'.sched.radios = b.sched.radios
  grants : ∀ a, (b'.air a).grant = (b.air a).grant

theorem Stilled.refl (b : Blocks) : Stilled b b := ⟨rfl, rfl, rfl, rfl, rfl, rfl, rfl, rfl, fun _ => rfl⟩

theorem Stilled.trans {a b c : Blocks} (h : Stilled a b) (g : Stilled b c) : Stilled a c :=
  ⟨g.cells.trans h.cells, g.lanes.trans h.lanes, g.tracker.trans h.tracker, g.survey.trans h.survey,
    g.monitor.trans h.monitor, g.chans.trans h.chans, g.links.trans h.links, g.radios.trans h.radios,
    fun k => (g.grants k).trans (h.grants k)⟩

theorem members_setup (setup : env.mode = .setup) (b : Blocks) (a : AirId) : members env b a = [] := by
  simp [members, airOf, eligible, setup]

/-- In SETUP a review finds no candidate (R102, R112). -/
theorem reviewAir_setup (setup : env.mode = .setup) (a : AirId) (b : Blocks) :
    reviewAir env a b = b.modAir a fun x => { x with review := none } := by
  unfold reviewAir
  dsimp only
  rw [waitingCandidates, headCandidates, members_setup setup]
  simp only [List.flatMap_nil, sortByClass, sortByArrival, List.foldr_nil, List.foldl_nil, earliestOf, Option.map_none,
    modAir_modAir, ite_self]

theorem Stilled.reviewAirs (setup : env.mode = .setup) (p : AirId → Bool) (b : Blocks) : Stilled b (reviewAirs env p b) := by
  unfold Machine.reviewAirs
  induction airIds.filter p generalizing b with
  | nil => exact refl b
  | cons a l ih =>
    rw [List.foldl_cons, reviewAir_setup setup]
    refine trans (b := b.modAir a fun x => { x with review := none })
      ⟨rfl, rfl, rfl, rfl, rfl, rfl, rfl, rfl, fun c => ?_⟩ (ih _)
    by_cases e : c = a
    · subst e; rw [Blocks.modAir_air_same]
    · rw [Blocks.modAir_air_other _ _ e]

theorem shapeGrant_off {b : Blocks} (off : b.sched.shaping = false) (a : AirId) : shapeGrant env b a = b := by
  unfold shapeGrant
  split
  · rfl
  · exact if_neg (by simp [shapingApplies, off])

theorem Stilled.shapingOff (setup : env.mode = .setup) (b : Blocks) : Stilled b (takeShaping env false b) := by
  have idle : ∀ (l : List AirId) (c : Blocks), c.sched.shaping = false → l.foldl (shapeGrant env) c = c := by
    intro l
    induction l with
    | nil => exact fun _ _ => rfl
    | cons a l ih =>
      intro c off
      rw [List.foldl_cons, shapeGrant_off off, ih c off]
  have stored : Stilled b { b with sched := { b.sched with shaping := false } } :=
    ⟨rfl, rfl, rfl, rfl, rfl, rfl, rfl, rfl, fun _ => rfl⟩
  rw [takeShaping, applyShaping, idle airIds { b with sched := { b.sched with shaping := false } } rfl]
  exact stored.trans (reviewAirs setup _ _)

/-- At the entry to SETUP the monitor's reports touch no grant and no request (R97, R99, R126). -/
theorem Stilled.settleMonitor (setup : env.mode = .setup) (env0 : Env) (m0 : Monitor) (b : Blocks) :
    Stilled b (settleMonitor env0 m0 env b) := by
  have deliver : ∀ x y, deliverGuardChange env x y b = b := by
    intro x y
    simp [deliverGuardChange, takeGuardChange, setup]
  unfold Machine.settleMonitor
  dsimp only
  rw [deliver, ite_self, shapingHolds_setup setup]
  split
  · exact refl b
  · exact shapingOff setup b

/-! ## Grants at the entry to SETUP (R126) -/

/-- An ACTIVE grant of a radio. -/
def activeGrant (r : Radio) (g : Grant) : Bool := g.radio == r && g.state == .active

theorem airToSetup_air_other {a c : AirId} (other : c ≠ a) (b : Blocks) : (airToSetup env b a).air c = b.air c := by
  have cleared : (b.modAir a fun x => { x with hold := none, review := none }).air c = b.air c :=
    Blocks.modAir_air_other _ _ other
  unfold airToSetup
  dsimp only
  split
  · exact cleared
  · split
    · rw [Blocks.modSched_air, dropGrant, Blocks.modAir_air_other _ _ other, cleared]
    · rw [cutGrant_air_other other, cleared]

theorem airToSetup_air_same (a : AirId) (b : Blocks) : (airToSetup env b a).air a = ⟨none, none, none⟩ := by
  have grant := airToSetup_air env b a a
  rw [if_pos rfl] at grant
  have rest : ((airToSetup env b a).air a).hold = none ∧ ((airToSetup env b a).air a).review = none := by
    have cleared := Blocks.modAir_air_same b a fun x => { x with hold := none, review := none }
    unfold airToSetup
    dsimp only
    split
    · rw [cleared]
      exact ⟨rfl, rfl⟩
    · next g granted =>
      split
      · rw [Blocks.modSched_air, dropGrant, Blocks.modAir_air_same, cleared]
        exact ⟨rfl, rfl⟩
      · refine ⟨(cutGrant_hold _ _ _).trans (congrArg Air.hold cleared), ?_⟩
        have cut : (cutGrant env a (b.modAir a fun x => { x with hold := none, review := none })).air a
            = ((b.modAir a fun x => { x with hold := none, review := none }).modAir a fun x => { x with grant := none }).air a := by
          unfold cutGrant
          rw [granted]
          rfl
        rw [cut, Blocks.modAir_air_same, cleared]
  generalize (airToSetup env b a).air a = x at grant rest
  obtain ⟨hold, review⟩ := rest
  cases x
  cases grant; cases hold; cases review
  rfl

theorem airToSetup_grant (a : AirId) (b : Blocks) :
    ((b.modAir a fun x => { x with hold := none, review := none }).air a).grant = (b.air a).grant := by
  rw [Blocks.modAir_air_same]

/-- An air's ACTIVE grant becomes a pass-through grant of its radio (R126). -/
theorem airToSetup_radio (a : AirId) (b : Blocks) (r : Radio) : ∃ e, (airToSetup env b a).sched.radios.get r
    = { b.sched.radios.get r with
        passThrough := (b.sched.radios.get r).passThrough ++ (b.air a).grant.toList.filter (activeGrant r)
        lastEnded := e } := by
  unfold airToSetup
  dsimp only
  rw [airToSetup_grant]
  cases grant : (b.air a).grant with
  | none => exact ⟨_, by rw [Option.toList_none, List.filter_nil, List.append_nil]; rfl⟩
  | some g =>
    dsimp only
    rw [Option.toList_some]
    split
    · next active =>
      by_cases mine : r = g.radio
      · subst mine
        rw [List.filter_cons_of_pos (by simp [activeGrant, active])]
        exact ⟨_, PerRadio.get_modify_same _ _ _⟩
      · rw [List.filter_cons_of_neg (by simp [activeGrant, Ne.symm mine]), List.filter_nil, List.append_nil]
        exact ⟨_, PerRadio.get_modify_other _ _ mine⟩
    · next scheduled =>
      rw [List.filter_cons_of_neg (by simp [activeGrant, scheduled]), List.filter_nil, List.append_nil]
      exact cutGrant_lists a (b.modAir a fun x => { x with hold := none, review := none }) r

theorem airToSetup_other {a : AirId} {b : Blocks} (other : ∀ g, (b.air a).grant = some g → g.radio ≠ r) :
    (airToSetup env b a).sched.radios.get r = b.sched.radios.get r := by
  rw [← airToSetup_grant] at other
  unfold airToSetup
  dsimp only
  split
  · rfl
  · next g grant =>
    split
    · exact PerRadio.get_modify_other _ _ (other g grant).symm
    · exact cutGrant_radio other

theorem airToSetup_queue (a : AirId) (b : Blocks) (r : Radio) :
    (b.links.get r).queue <+: ((airToSetup env b a).links.get r).queue := by
  unfold airToSetup
  dsimp only
  split
  · exact List.prefix_refl _
  · split
    · exact List.prefix_refl _
    · exact cutGrant_queue a (b.modAir a fun x => { x with hold := none, review := none }) r

/-- A SCHEDULED grant is withdrawn with CUT (R126; log 9). -/
theorem airToSetup_scheduled {a : AirId} {b : Blocks} {g : Grant} (grant : (b.air a).grant = some g) (state : g.state = .scheduled) :
    sent ((airToSetup env b a).links.get g.radio) (.cut g.id g.start)
      ∧ ((airToSetup env b a).sched.radios.get g.radio).lastEnded = some ⟨g.id, g.start, .cut⟩ := by
  rw [← airToSetup_grant] at grant
  have cut := cutGrant_sent (env := env) grant
  have idle : ¬ g.state = .active := by rw [state]; exact nofun
  rw [if_neg idle] at cut
  unfold airToSetup
  dsimp only
  rw [grant]
  dsimp only
  rw [if_neg idle]
  exact cut

theorem foldl_airToSetup_queue (l : List AirId) (b : Blocks) (r : Radio) :
    (b.links.get r).queue <+: ((l.foldl (airToSetup env) b).links.get r).queue := by
  induction l generalizing b with
  | nil => exact List.prefix_refl _
  | cons a l ih => exact (airToSetup_queue a b r).trans (ih _)

theorem foldl_airToSetup_air {l : List AirId} {a : AirId} (apart : a ∉ l) (b : Blocks) :
    (l.foldl (airToSetup env) b).air a = b.air a := by
  induction l generalizing b with
  | nil => rfl
  | cons c l ih =>
    rw [List.mem_cons, not_or] at apart
    rw [List.foldl_cons, ih apart.2, airToSetup_air_other apart.1]

/-- What the airs' grants leave of a radio (R126). -/
theorem foldl_airToSetup_radio {l : List AirId} (nodup : l.Nodup) (b : Blocks) (r : Radio) :
    ∃ e, (l.foldl (airToSetup env) b).sched.radios.get r
      = { b.sched.radios.get r with
          passThrough := (b.sched.radios.get r).passThrough
            ++ (l.filterMap fun a => (b.air a).grant).filter (activeGrant r)
          lastEnded := e } := by
  induction l generalizing b with
  | nil => exact ⟨_, by rw [List.filterMap_nil, List.filter_nil, List.append_nil]; rfl⟩
  | cons a l ih =>
    rw [List.nodup_cons] at nodup
    obtain ⟨e, rest⟩ := ih nodup.2 (airToSetup env b a)
    obtain ⟨e', first⟩ := airToSetup_radio (env := env) a b r
    have same : l.filterMap (fun c => ((airToSetup env b a).air c).grant) = l.filterMap fun c => (b.air c).grant :=
      List.filterMap_congr fun c mem => by rw [airToSetup_air_other fun same : c = a => nodup.1 (by rw [← same]; exact mem)]
    refine ⟨e, ?_⟩
    rw [List.foldl_cons, rest, first, same]
    dsimp only
    rw [List.append_assoc, ← List.filter_append]
    cases grant : (b.air a).grant <;> simp [grant]

theorem foldl_airToSetup_other {l : List AirId} {b : Blocks} (nodup : l.Nodup)
    (others : ∀ a ∈ l, ∀ g, (b.air a).grant = some g → g.radio ≠ r) :
    (l.foldl (airToSetup env) b).sched.radios.get r = b.sched.radios.get r := by
  induction l generalizing b with
  | nil => rfl
  | cons a l ih =>
    rw [List.nodup_cons] at nodup
    rw [List.foldl_cons, ih nodup.2 fun c mem g grant => ?_, airToSetup_other (others a List.mem_cons_self)]
    rw [airToSetup_air_other fun same : c = a => nodup.1 (by rw [← same]; exact mem)] at grant
    exact others c (List.mem_cons_of_mem _ mem) g grant

/-- A SCHEDULED grant among those of the other airs (R126). -/
theorem foldl_airToSetup_scheduled {a : AirId} {b : Blocks} {g : Grant} (grant : (b.air a).grant = some g)
    (state : g.state = .scheduled) :
    sent ((airIds.foldl (airToSetup env) b).links.get g.radio) (.cut g.id g.start)
      ∧ ((∀ c g', c ≠ a → (b.air c).grant = some g' → g'.radio ≠ g.radio) →
        ((airIds.foldl (airToSetup env) b).sched.radios.get g.radio).lastEnded = some ⟨g.id, g.start, .cut⟩) := by
  obtain ⟨before, after, split, first, last⟩ := airIds_split a
  have nodup : airIds.Nodup := by decide
  rw [split] at nodup ⊢
  have apart := List.nodup_append.mp nodup
  rw [List.foldl_append, List.foldl_cons]
  have here := foldl_airToSetup_air (env := env) first b
  rw [← here] at grant
  obtain ⟨message, record⟩ := airToSetup_scheduled (env := env) grant state
  refine ⟨message.grows (foldl_airToSetup_queue _ _ _), fun alone => ?_⟩
  rw [foldl_airToSetup_other (List.nodup_cons.mp apart.2.1).2, record]
  intro c mem g' grant'
  have other : c ≠ a := fun same => last (by rw [← same]; exact mem)
  have outside : c ∉ before := fun earlier => apart.2.2 c earlier c (List.mem_cons_of_mem _ mem) rfl
  rw [airToSetup_air_other other, foldl_airToSetup_air outside] at grant'
  exact alone c g' other grant'

/-! ## Requests at the entry to SETUP (R126) -/

/-- The pass-through grant of a request at the entry to SETUP. -/
def setupGrant (env : Env) (r : Radio) (q : Request) : Grant :=
  { radio := r
    id := q.id
    start := env.now
    stop := Time.plus env.now q.length
    shortenable := q.shortenable
    shortened := false
    exposed := false
    state := .active }

/-- One request passed through. -/
def passRequest (env : Env) (r : Radio) (b : Blocks) (q : Request) : Blocks := passThrough env r q.id q.length q.shortenable b

theorem passRequest_radio (b : Blocks) (q : Request) : (passRequest env r b q).sched.radios.get r
    = { b.sched.radios.get r with passThrough := (b.sched.radios.get r).passThrough ++ [setupGrant env r q] } :=
  PerRadio.get_modify_same _ _ _

theorem passRequest_other {q : Radio} (other : r ≠ q) (b : Blocks) (x : Request) :
    (passRequest env q b x).sched.radios.get r = b.sched.radios.get r ∧ (passRequest env q b x).links.get r = b.links.get r :=
  ⟨PerRadio.get_modify_other _ _ other,
    (PerRadio.get_modify_other _ _ other).trans (PerRadio.get_modify_other _ _ other)⟩

theorem passRequest_queue (b : Blocks) (q : Request) :
    (b.links.get r).queue <+: ((passRequest env r b q).links.get r).queue :=
  (Reviewed.sendGrant (env := env) (b.modSched r fun x => { x with passThrough := x.passThrough ++ [setupGrant env r q] }) r q.id
    env.now q.length false).queues r

theorem passRequest_sent (b : Blocks) (q : Request) :
    sent ((passRequest env r b q).links.get r) (.grant q.id env.now q.length false) :=
  sent_count (sentLast_send (b.modSched r fun x => { x with passThrough := x.passThrough ++ [setupGrant env r q] }) r
    (.grant q.id env.now q.length false)).sent _

theorem foldl_passRequest_queue (l : List Request) (b : Blocks) :
    (b.links.get r).queue <+: ((l.foldl (passRequest env r) b).links.get r).queue := by
  induction l generalizing b with
  | nil => exact List.prefix_refl _
  | cons q l ih => exact (passRequest_queue b q).trans (ih _)

theorem foldl_passRequest_radio (l : List Request) (b : Blocks) : (l.foldl (passRequest env r) b).sched.radios.get r
    = { b.sched.radios.get r with passThrough := (b.sched.radios.get r).passThrough ++ l.map (setupGrant env r) } := by
  induction l generalizing b with
  | nil => rw [List.map_nil, List.append_nil]; rfl
  | cons q l ih =>
    rw [List.foldl_cons, ih, passRequest_radio, List.map_cons]
    dsimp only
    rw [List.append_assoc]
    rfl

theorem foldl_passRequest_other {q : Radio} (other : r ≠ q) (l : List Request) (b : Blocks) :
    (l.foldl (passRequest env q) b).sched.radios.get r = b.sched.radios.get r
      ∧ (l.foldl (passRequest env q) b).links.get r = b.links.get r := by
  induction l generalizing b with
  | nil => exact ⟨rfl, rfl⟩
  | cons x l ih =>
    obtain ⟨radio, link⟩ := ih (passRequest env q b x)
    obtain ⟨radioOne, linkOne⟩ := passRequest_other (env := env) other b x
    exact ⟨radio.trans radioOne, link.trans linkOne⟩

theorem requestsToSetup_eq (b : Blocks) (r : Radio) : requestsToSetup env b r
    = ((b.sched.radios.get r).waits ++ (b.sched.radios.get r).posted).foldl (passRequest env r)
      (b.modSched r fun x => { x with waits := [], posted := [], headAttempts := 0 }) := rfl

theorem requestsToSetup_other (b : Blocks) (r q : Radio) (other : r ≠ q) :
    (requestsToSetup env b q).sched.radios.get r = b.sched.radios.get r
      ∧ (requestsToSetup env b q).links.get r = b.links.get r := by
  obtain ⟨radio, link⟩ := foldl_passRequest_other (env := env) other
    ((b.sched.radios.get q).waits ++ (b.sched.radios.get q).posted)
    (b.modSched q fun x => { x with waits := [], posted := [], headAttempts := 0 })
  exact ⟨radio.trans (PerRadio.get_modify_other _ _ other), link⟩

/-- A radio's requests at the entry to SETUP (R126). -/
theorem requestsToSetup_spec (b : Blocks) (r : Radio) :
    (requestsToSetup env b r).sched.radios.get r = { b.sched.radios.get r with
        waits := []
        posted := []
        headAttempts := 0
        passThrough := (b.sched.radios.get r).passThrough
          ++ ((b.sched.radios.get r).waits ++ (b.sched.radios.get r).posted).map (setupGrant env r) }
      ∧ (b.links.get r).queue <+: ((requestsToSetup env b r).links.get r).queue
      ∧ ∀ q ∈ (b.sched.radios.get r).waits ++ (b.sched.radios.get r).posted,
        sent ((requestsToSetup env b r).links.get r) (.grant q.id env.now q.length false) := by
  rw [requestsToSetup_eq]
  refine ⟨?_, foldl_passRequest_queue _ (b.modSched r fun x => { x with waits := [], posted := [], headAttempts := 0 }),
    fun q mem => ?_⟩
  · rw [foldl_passRequest_radio, Blocks.modSched_radios, PerRadio.get_modify_same]
  · obtain ⟨before, after, split⟩ := List.append_of_mem mem
    rw [split, List.foldl_append, List.foldl_cons]
    exact (passRequest_sent _ q).grows (foldl_passRequest_queue after _)

/-! ## Both mode changes -/

theorem waitsEnded_chans (b : Blocks) (r : Radio) :
    (waitsEnded env b).chans.get r = { b.chans.get r with moveWait := none } := by
  simp only [waitsEnded, radios, List.foldl_cons, List.foldl_nil, endMoveWait_chans]
  cases r <;> rfl

/-- What the entry to SETUP leaves before the scheduler's part (R99, R126, R134). -/
theorem setupBlocks_begun (env : Env) (b : Blocks) :
    ∃ c, setupBlocks env b = schedToSetup (env.inMode .setup) c
      ∧ c.cells = b.cells ∧ c.lanes = b.lanes ∧ c.tracker = b.tracker ∧ c.survey = b.survey
      ∧ (∀ r, c.chans.get r = { b.chans.get r with moveWait := none })
      ∧ (∀ k ∈ c.monitor.list, Fresh (env.inMode .setup) k)
      ∧ c.links = b.links ∧ c.sched.radios = b.sched.radios ∧ ∀ a, (c.air a).grant = (b.air a).grant := by
  have ended : Calm (env.inMode .setup) b (waitsEnded env b) := Calm.foldl (fun b r => .endMoveWait r b) _ _
  have control : ControlOnly b (waitsEnded env b) := ControlOnly.foldl (fun b r => .endMoveWait r b) _ _
  let emptied := { waitsEnded env b with monitor := (waitsEnded env b).monitor.emptied }
  let settled := settleMonitor env (waitsEnded env b).monitor (env.inMode .setup) emptied
  have still : Stilled emptied settled := .settleMonitor rfl _ _ _
  have fresh := freshReports_fresh (env := env.inMode .setup) (b := settled) (by rw [still.monitor]; rfl)
  have reports := freshReports_eq (env := env.inMode .setup) settled
  refine ⟨freshReports (env.inMode .setup) settled, setupBlocks_eq env b, ?_, ?_, ?_, ?_, fun r => ?_, fresh, ?_, ?_,
    fun a => ?_⟩
  all_goals rw [reports]
  · exact still.cells.trans ended.cells
  · exact still.lanes.trans ended.lanes
  · exact still.tracker.trans ended.tracker
  · exact still.survey.trans ended.survey
  · exact (congrArg (PerRadio.get · r) still.chans).trans (waitsEnded_chans b r)
  · exact still.links.trans control.links
  · exact still.radios.trans (congrArg Scheduler.radios control.sched)
  · exact (still.grants a).trans (congrArg Air.grant (control.air a))

theorem schedToSetup_air (b : Blocks) (a : AirId) : (schedToSetup env b).air a = ⟨none, none, none⟩ := by
  obtain ⟨before, after, split, -, last⟩ := airIds_split a
  unfold schedToSetup
  rw [foldl_air fun b r => requestsToSetup_air env b r a, split, List.foldl_append, List.foldl_cons,
    foldl_airToSetup_air last, airToSetup_air_same]

/-- What the scheduler's part of the entry to RUN leaves of a radio (R127). -/
theorem schedToRun_radio (b : Blocks) (r : Radio) :
    ((schedToRun env b).sched.radios.get r).passThrough = []
      ∧ (∀ g ∈ (b.sched.radios.get r).passThrough, sent ((schedToRun env b).links.get r) (.cut g.id env.now))
      ∧ ((b.sched.radios.get r).passThrough.getLast? = none →
        ((schedToRun env b).sched.radios.get r).lastEnded = (b.sched.radios.get r).lastEnded)
      ∧ ∀ g, (b.sched.radios.get r).passThrough.getLast? = some g →
        ((schedToRun env b).sched.radios.get r).lastEnded = some ⟨g.id, env.now, .cut⟩ := by
  have reviewed : Reviewed env (radios.foldl (fun b r => cutPassThrough env r b) b) (schedToRun env b) := .reviewAirs _ _
  obtain ⟨c, radio, -, after, linkAfter⟩ := foldl_radios (fun b r q other => cutPassThrough_other (env := env) other b) b r
  obtain ⟨gone, messages, kept, last⟩ := cutPassThrough_spec (env := env) r c
  rw [radio] at messages kept last
  rw [← after] at gone kept last
  rw [← linkAfter] at messages
  have short := reviewed.radios r
  exact ⟨short.passThrough.trans gone, fun g mem => (messages g mem).grows (reviewed.queues r),
    fun none => short.lastEnded.trans (kept none), fun g ended => short.lastEnded.trans (last g ended)⟩

/-- What the scheduler's part of the entry to SETUP leaves of a radio (R126). -/
theorem schedToSetup_radio (b : Blocks) (r : Radio) :
    (∃ e, (schedToSetup env b).sched.radios.get r = { b.sched.radios.get r with
      waits := []
      posted := []
      headAttempts := 0
      passThrough := (b.sched.radios.get r).passThrough
        ++ (airIds.filterMap fun a => (b.air a).grant).filter (activeGrant r)
        ++ ((b.sched.radios.get r).waits ++ (b.sched.radios.get r).posted).map (setupGrant env r)
      lastEnded := e })
    ∧ (∀ q ∈ (b.sched.radios.get r).waits ++ (b.sched.radios.get r).posted,
      sent ((schedToSetup env b).links.get r) (.grant q.id env.now q.length false)) := by
  have nodup : airIds.Nodup := by decide
  obtain ⟨d, radio, -, after, linkAfter⟩ :=
    foldl_radios (requestsToSetup_other (env := env)) (airIds.foldl (airToSetup env) b) r
  obtain ⟨e, active⟩ := foldl_airToSetup_radio (env := env) nodup b r
  obtain ⟨record, -, messages⟩ := requestsToSetup_spec (env := env) d r
  rw [radio.trans active] at record messages
  unfold schedToSetup
  rw [after, linkAfter, record]
  exact ⟨⟨e, rfl⟩, messages⟩

/-- A SCHEDULED grant at the entry to SETUP (R126). -/
theorem schedToSetup_scheduled {a : AirId} {b : Blocks} {g : Grant} (grant : (b.air a).grant = some g)
    (state : g.state = .scheduled) :
    sent ((schedToSetup env b).links.get g.radio) (.cut g.id g.start)
      ∧ ((∀ c g', c ≠ a → (b.air c).grant = some g' → g'.radio ≠ g.radio) →
        ((schedToSetup env b).sched.radios.get g.radio).lastEnded = some ⟨g.id, g.start, .cut⟩) := by
  obtain ⟨message, record⟩ := foldl_airToSetup_scheduled (env := env) grant state
  obtain ⟨d, radio, link, after, linkAfter⟩ :=
    foldl_radios (requestsToSetup_other (env := env)) (airIds.foldl (airToSetup env) b) g.radio
  obtain ⟨own, grown, -⟩ := requestsToSetup_spec (env := env) d g.radio
  rw [← link] at message
  rw [← radio] at record
  unfold schedToSetup
  rw [after, linkAfter, own]
  exact ⟨message.grows grown, record⟩

theorem exec_run_entered {s : State} (setup : s.env.mode = .setup) : exec .run s = .next ((enterRun s).ok []) := by
  show execRun s = _
  rw [execRun, setup]

theorem exec_setup_entered {s : State} (run : s.env.mode = .run) : exec .setup s = .next ((enterSetup s).ok []) := by
  show execSetup s = _
  rw [execSetup, run]

/-- What the entry to RUN leaves before the scheduler's part (R99). -/
theorem runBlocks_begun (env : Env) (b : Blocks) :
    ∃ c, runBlocks env b = schedToRun (env.inMode .run) c ∧ c = { b with monitor := c.monitor }
      ∧ (∀ k ∈ c.monitor.list, Fresh (env.inMode .run) k)
      ∧ (∀ r, (b.chans.get r).clash = true → c.monitor.holds (.clash r) = true)
      ∧ ∀ r, (b.links.get r).linkSource = true → c.monitor.holds (.link r) = true := by
  have holds := fun key => freshReports_holds (env := env.inMode .run) (b := { b with monitor := b.monitor.emptied }) rfl (key := key)
  refine ⟨freshReports (env.inMode .run) { b with monitor := b.monitor.emptied }, rfl, ?_, freshReports_fresh rfl,
    fun r clash => holds _ (List.mem_flatMap.mpr ⟨r, mem_radios r, by simp [radioSources, clash]⟩),
    fun r source => holds _ (List.mem_flatMap.mpr ⟨r, mem_radios r, by simp [radioSources, source]⟩)⟩
  rw [freshReports_eq]

/-- Settles O21. -/
theorem modeChanges : Obligations.ModeChanges := by
  intro s
  refine ⟨fun run => ?_, fun setup => ?_, fun setup => ?_, fun run => ?_⟩
  · show execRun s = _
    rw [execRun, run]
  · obtain ⟨c, eq, begun, fresh, clashes, sources⟩ := runBlocks_begun s.env s.blocks
    have only := SchedOnly.schedToRun (s.env.inMode .run) c
    have sched : c.sched = s.blocks.sched := by
      have same := congrArg Blocks.sched begun
      exact same
    refine ⟨(enterRun s).ok [], exec_run_entered setup, rfl, rfl, fun r => ?_, ?_, fun r clash => ?_, fun r source => ?_, ?_⟩
    all_goals rw [State.ok_blocks, enterRun_blocks, eq]
    · obtain ⟨gone, messages, kept, last⟩ := schedToRun_radio (env := s.env.inMode .run) c r
      rw [sched] at messages kept last
      refine ⟨gone, messages, ?_⟩
      split
      · next none => exact kept none
      · next g ended => exact last g ended
    · rw [only.monitor]
      exact fresh
    · rw [only.monitor]
      exact clashes r clash
    · rw [only.monitor]
      exact sources r source
    · rw [only.monitor, ← begun]
      exact only
  · show execSetup s = _
    rw [execSetup, setup]
  · obtain ⟨c, eq, cells, lanes, tracker, survey, chans, fresh, links, scheds, grants⟩ := setupBlocks_begun s.env s.blocks
    have only := SchedOnly.schedToSetup (s.env.inMode .setup) c
    refine ⟨(enterSetup s).ok [], exec_setup_entered run, rfl, rfl, fun r => ?_, fun a => ?_, fun r => ?_,
      fun a g grant scheduled => ?_, ?_, ?_, ?_, ?_, ?_⟩
    all_goals rw [State.ok_blocks, enterSetup_blocks, eq]
    · rw [only.chans, chans]
    · exact schedToSetup_air c a
    · obtain ⟨⟨e, record⟩, messages⟩ := schedToSetup_radio (env := s.env.inMode .setup) c r
      simp only [scheds, grants] at record messages
      rw [record]
      exact ⟨rfl, rfl, rfl, messages, rfl, rfl⟩
    · rw [← grants] at grant
      obtain ⟨message, record⟩ := schedToSetup_scheduled (env := s.env.inMode .setup) grant scheduled
      exact ⟨message, fun alone => record fun x g' other found => alone x g' other (by rw [← grants]; exact found)⟩
    · rw [only.monitor]
      exact fresh
    · rw [only.cells, cells]
    · rw [only.lanes, lanes]
    · rw [only.tracker, tracker]
    · rw [only.survey, survey]

end Sys2Proof.Machine
end

