-- ==== Sys2Proof/Proofs/ReviewTurns.lean ====
section
/-! PROOF. The candidates of a review, taken one after the other: which are considered, what a turn without a placement does, and
what is known of the candidates passed over (R107, R110, R112, R113, R115): rules for O42. -/

namespace Sys2Proof.Machine

variable {env : Env} {a : AirId} {b : Blocks}

/-! ## One turn -/

/-- A candidate: a waiting request with `true`, a posted head with `false`. -/
abbrev Candidate := Bool × Request

/-- One candidate taken in a review. -/
def reviewOne (env : Env) (a : AirId) (v : Review) (c : Candidate) : Review :=
  if c.1 then reviewWaiting env a v c.2 else reviewHead env a v c.2

/-- A candidate that a review does not skip (R112). -/
def considered (env : Env) (b : Blocks) (c : Candidate) : Bool :=
  if c.1 then !channelBarred env b c.2.radio else !skipsHead env b c.2.radio

/-- The finder's result that stands for a candidate: a waiting request's not past its deadline (R110). -/
def standing (env : Env) (a : AirId) (b : Blocks) (c : Candidate) : Option Placement :=
  (findWindow env b (b.air a) c.2).filter fun x => !c.1 || !Time.after x.start c.2.latest

/-- What a turn without a placement does (R110, R115): a waiting request for which nothing stands is answered, a posted head
gains an attempt. -/
def turnedAway (env : Env) (a : AirId) (b : Blocks) (c : Candidate) (x : Blocks) : Blocks :=
  match c.1, standing env a b c with
  | true, some _ => x
  | true, none => (x.modSched c.2.radio fun y => y.dropWait c.2.id).sendRetry c.2.radio c.2.id .window
      (((findWindow env b (b.air a) c.2).map fun p => p.start).getD 0)
  | false, _ => attemptHead env c.2 x

/-- A turn without a placement. -/
def passOver (env : Env) (a : AirId) (b : Blocks) (c : Candidate) (v : Review) : Review :=
  { blocks := turnedAway env a b c v.blocks
    passed := v.passed ++ ((standing env a b c).map fun p => p.start).toList
    early := v.early ++ (((standing env a b c).filter fun p => !withinLead env p).map fun p => p.start).toList }

/-- A placed candidate leaves its list. -/
def leaveList (c : Candidate) (x : Blocks) : Blocks :=
  if c.1 then x.modSched c.2.radio fun y => y.dropWait c.2.id else x.modSched c.2.radio RadioSched.dropHead

/-- What the judgement of candidates reads is as it was at the beginning of the review, and the air has no grant. -/
structure Judging (env : Env) (a : AirId) (b : Blocks) (v : Review) : Prop where
  only : SchedOnly b v.blocks
  grant : (v.blocks.air a).grant = none
  hold : (v.blocks.air a).hold = (b.air a).hold

section Turn

variable {v : Review} {c : Candidate}

theorem Judging.find (h : Judging env a b v) (free : (b.air a).grant = none) (q : Request) :
    findWindow env v.blocks (v.blocks.air a) q = findWindow env b (b.air a) q :=
  findWindow_congr h.only.chans h.only.shaping h.only.prediction (h.grant.trans free.symm) h.hold env q

/-- A candidate that cannot be placed is passed over. -/
theorem reviewOne_passOver (h : Judging env a b v) (free : (b.air a).grant = none) (open' : considered env b c = true)
    (unfit : ∀ p, standing env a b c = some p → withinLead env p = true → v.admits a p = false) :
    reviewOne env a v c = passOver env a b c v := by
  obtain ⟨waiting, q⟩ := c
  cases waiting with
  | true =>
    have unbarred : channelBarred env v.blocks q.radio = false := by
      rw [h.only.channelBarred]
      simpa [considered] using open'
    cases found : findWindow env b (b.air a) q with
    | none =>
      have stands : standing env a b (true, q) = none := by simp [standing, found]
      simp [reviewOne, passOver, turnedAway, stands, reviewWaiting, unbarred, h.find free, found]
    | some p =>
      by_cases late : Time.after p.start q.latest = true
      · have stands : standing env a b (true, q) = none := by simp [standing, found, late]
        simp [reviewOne, passOver, turnedAway, stands, reviewWaiting, unbarred, h.find free, found, late]
      · rw [Bool.not_eq_true] at late
        have stands : standing env a b (true, q) = some p := by simp [standing, found, late]
        cases soon : withinLead env p with
        | true => simp [reviewOne, passOver, turnedAway, stands, reviewWaiting, unbarred, h.find free, found, late, soon,
            unfit p stands soon]
        | false => simp [reviewOne, passOver, turnedAway, stands, reviewWaiting, unbarred, h.find free, found, late,
            Option.filter_some, soon]
  | false =>
    have taken : (skipsHead env v.blocks q.radio || (v.blocks.air a).grant.isSome) = false := by
      rw [skipsHead_congr h.only.chans h.only.monitor, h.grant]
      simpa [considered] using open'
    cases found : findWindow env b (b.air a) q with
    | none =>
      have stands : standing env a b (false, q) = none := by simp [standing, found]
      simp [reviewOne, passOver, turnedAway, stands, reviewHead, taken, h.find free, found]
    | some p =>
      have stands : standing env a b (false, q) = some p := by simp [standing, found]
      cases soon : withinLead env p with
      | true => simp [reviewOne, passOver, turnedAway, stands, reviewHead, taken, h.find free, found, soon,
          unfit p stands soon]
      | false => simp [reviewOne, passOver, turnedAway, stands, reviewHead, taken, h.find free, found, Option.filter_some, soon]

/-- A candidate that can be placed is placed (R112). -/
theorem reviewOne_placed (h : Judging env a b v) (free : (b.air a).grant = none) (open' : considered env b c = true)
    {p : Placement} (stands : standing env a b c = some p) (soon : withinLead env p = true) (admitted : v.admits a p = true) :
    reviewOne env a v c = { v with blocks := enterGrant env a c.2 p (leaveList c v.blocks) } := by
  obtain ⟨waiting, q⟩ := c
  have found : findWindow env v.blocks (v.blocks.air a) q = some p := by
    rw [h.find free]
    exact (Option.filter_eq_some_iff.mp stands).1
  cases waiting with
  | true =>
    have timely : Time.after p.start q.latest = false := by
      simpa using (Option.filter_eq_some_iff.mp stands).2
    have unbarred : channelBarred env v.blocks q.radio = false := by
      rw [h.only.channelBarred]
      simpa [considered] using open'
    exact reviewWaiting_placed unbarred found timely soon admitted
  | false =>
    have taken : (skipsHead env v.blocks q.radio || (v.blocks.air a).grant.isSome) = false := by
      rw [skipsHead_congr h.only.chans h.only.monitor, h.grant]
      simpa [considered] using open'
    simp [reviewOne, reviewHead, taken, found, soon, admitted, leaveList]

theorem reviewOne_reviewed (v : Review) (c : Candidate) : Reviewed env v.blocks (reviewOne env a v c).blocks := by
  unfold reviewOne
  split
  · exact .reviewWaiting a v c.2
  · exact .reviewHead a v c.2

theorem reviewOne_oneAir (v : Review) (c : Candidate) : OneAir a v.blocks (reviewOne env a v c).blocks := by
  unfold reviewOne
  split
  · exact .reviewWaiting a v c.2
  · exact .reviewHead a v c.2

/-- Once a grant has entered the air, no head is considered (R112, R115). -/
theorem reviewOne_granted {g : Grant} (granted : (v.blocks.air a).grant = some g) (c : Candidate) (r : Radio) :
    WaitsOnly (v.blocks.sched.radios.get r) ((reviewOne env a v c).blocks.sched.radios.get r) := by
  unfold reviewOne
  split
  · exact reviewWaiting_waitsOnly a v c.2 r
  · unfold reviewHead
    rw [if_pos (by simp [granted])]
    exact .refl _

end Turn

/-- The candidates behind a placed one (R112). -/
theorem foldl_reviewOne_granted {v : Review} {g : Grant} (granted : (v.blocks.air a).grant = some g) (l : List Candidate)
    (r : Radio) : WaitsOnly (v.blocks.sched.radios.get r) ((l.foldl (reviewOne env a) v).blocks.sched.radios.get r) := by
  induction l generalizing v with
  | nil => exact .refl _
  | cons c l ih =>
    exact (reviewOne_granted granted c r).trans (ih ((reviewOne_reviewed v c).grants a g granted))

theorem foldl_reviewOne_reviewed (l : List Candidate) (v : Review) :
    Reviewed env v.blocks (l.foldl (reviewOne env a) v).blocks ∧ OneAir a v.blocks (l.foldl (reviewOne env a) v).blocks := by
  induction l generalizing v with
  | nil => exact ⟨.refl _, .refl _ _⟩
  | cons c l ih =>
    obtain ⟨reviewed, air⟩ := ih (reviewOne env a v c)
    exact ⟨(reviewOne_reviewed v c).trans reviewed, (reviewOne_oneAir v c).trans air⟩

/-! ## The candidates passed over -/

/-- What a considered head that was not placed leaves of its radio (R115). -/
def HeadTaken (env : Env) (id : Byte) (x y : RadioSched) (k : Link) : Prop :=
  let n := min (x.headAttempts + 1) 255
  (env.retained.params.postLimit ≤ n → y.posted = x.posted.tail ∧ y.headAttempts = 0 ∧ sent k (.expired id))
    ∧ (n < env.retained.params.postLimit → y.posted = x.posted ∧ y.headAttempts = n)

/-- What a candidate that was passed over leaves in some blocks (R110, R115). -/
structure PassedOver (env : Env) (a : AirId) (b : Blocks) (d : Candidate) (x : Blocks) : Prop where
  retried : d.1 = true → standing env a b d = none →
    (∀ q ∈ (x.sched.radios.get d.2.radio).waits, q.id ≠ d.2.id)
      ∧ sent (x.links.get d.2.radio) (.retry d.2.id .window (((findWindow env b (b.air a) d.2).map fun p => p.start).getD 0))
  head : d.1 = false →
    HeadTaken env d.2.id (b.sched.radios.get d.2.radio) (x.sched.radios.get d.2.radio) (x.links.get d.2.radio)

/-- No posted queue and no attempt count has changed but of the heads in a list (R115). -/
def Untouched (b : Blocks) (l : List Candidate) (x : Blocks) : Prop :=
  ∀ r, (∀ q, (false, q) ∈ l → q.radio ≠ r) →
    (x.sched.radios.get r).posted = (b.sched.radios.get r).posted
      ∧ (x.sched.radios.get r).headAttempts = (b.sched.radios.get r).headAttempts

/-- What is known when some candidates have been passed over. -/
structure Pending (env : Env) (a : AirId) (b : Blocks) (before : List Candidate) (v : Review) : Prop extends
    Judging env a b v where
  review : (v.blocks.air a).review = none
  passed : v.passed = (before.filterMap (standing env a b)).map fun p => p.start
  early : v.early = ((before.filterMap (standing env a b)).filter fun p => !withinLead env p).map fun p => p.start
  turned : ∀ d ∈ before, PassedOver env a b d v.blocks
  untouched : Untouched b before v.blocks

theorem WaitsOnly.headAttempts {x y : RadioSched} (h : WaitsOnly x y) : y.headAttempts = x.headAttempts := by rw [h]

theorem HeadTaken.kept {id : Byte} {x y z : RadioSched} {k k' : Link} (h : HeadTaken env id x y k)
    (posted : z.posted = y.posted) (attempts : z.headAttempts = y.headAttempts) (grown : k.queue <+: k'.queue) :
    HeadTaken env id x z k' := by
  obtain ⟨dropped, counted⟩ := h
  refine ⟨fun limit => ?_, fun below => ?_⟩
  · obtain ⟨p, n, message⟩ := dropped limit
    exact ⟨posted.trans p, attempts.trans n, message.grows grown⟩
  · obtain ⟨p, n⟩ := counted below
    exact ⟨posted.trans p, attempts.trans n⟩

/-- What a candidate passed over leaves stands while nothing but the wait list of a head's radio changes. -/
theorem PassedOver.kept {d : Candidate} {x y : Blocks} (h : PassedOver env a b d x) (reviewed : Reviewed env x y)
    (same : d.1 = false → WaitsOnly (x.sched.radios.get d.2.radio) (y.sched.radios.get d.2.radio)) : PassedOver env a b d y where
  retried waiting none := by
    obtain ⟨left, message⟩ := h.retried waiting none
    exact ⟨fun q mem => left q ((reviewed.radios d.2.radio).1.subset mem), message.grows (reviewed.queues _)⟩
  head head := (h.head head).kept (same head).posted (same head).headAttempts (reviewed.queues _)

theorem Untouched.snoc {l : List Candidate} {c : Candidate} {x y : Blocks} (h : Untouched b l x)
    (same : ∀ r, (c.1 = false → r ≠ c.2.radio) → WaitsOnly (x.sched.radios.get r) (y.sched.radios.get r)) :
    Untouched b (l ++ [c]) y := by
  intro r apart
  obtain ⟨posted, attempts⟩ := h r fun q mem => apart q (List.mem_append_left _ mem)
  have kept := same r fun head => Ne.symm (apart c.2 (by rw [← head]; simp))
  exact ⟨kept.posted.trans posted, kept.headAttempts.trans attempts⟩

/-- A considered head that is not placed (R115). -/
theorem attemptHead_taken (q : Request) (x : Blocks) :
    HeadTaken env q.id (x.sched.radios.get q.radio) ((attemptHead env q x).sched.radios.get q.radio)
      ((attemptHead env q x).links.get q.radio) := by
  have count : satAdd 255 (x.sched.radios.get q.radio).headAttempts 1 = min ((x.sched.radios.get q.radio).headAttempts + 1) 255 :=
    rfl
  unfold attemptHead
  dsimp only
  rw [count]
  refine ⟨fun limit => ?_, fun below => ?_⟩
  · rw [if_pos limit]
    have radio : ((x.modSched q.radio RadioSched.dropHead).sendExpired q.radio q.id).sched.radios.get q.radio
        = (x.sched.radios.get q.radio).dropHead := PerRadio.get_modify_same _ _ _
    rw [radio]
    exact ⟨rfl, rfl, sent_count (sentLast_send _ _ _).sent _⟩
  · rw [if_neg (Nat.not_le.mpr below), Blocks.modSched_radios, PerRadio.get_modify_same]
    exact ⟨rfl, rfl⟩

theorem turnedAway_oneAir (c : Candidate) (x : Blocks) :
    (turnedAway env a b c x).air a = x.air a ∧ Reviewed env x (turnedAway env a b c x) := by
  unfold turnedAway
  split
  · exact ⟨rfl, .refl _⟩
  · exact ⟨rfl, (Reviewed.dropWait x c.2.radio c.2.id).trans (.sendRetry _ _ _ _ _)⟩
  · refine ⟨?_, .attemptHead _ _⟩
    unfold attemptHead
    dsimp only
    split <;> rfl

/-- A turn without a placement changes the posted queue of no other head's radio. -/
theorem turnedAway_other {c : Candidate} {r : Radio} (other : c.1 = false → r ≠ c.2.radio) (x : Blocks) :
    WaitsOnly (x.sched.radios.get r) ((turnedAway env a b c x).sched.radios.get r) := by
  unfold turnedAway
  split
  · exact .refl _
  · exact WaitsOnly.dropWait x c.2.radio c.2.id r
  · next _ head =>
    rw [attemptHead_other (other head)]
    exact .refl _

theorem turnedAway_retried {c : Candidate} (waiting : c.1 = true) (none : standing env a b c = none) (x : Blocks) :
    (∀ q ∈ ((turnedAway env a b c x).sched.radios.get c.2.radio).waits, q.id ≠ c.2.id)
      ∧ sent ((turnedAway env a b c x).links.get c.2.radio)
        (.retry c.2.id .window (((findWindow env b (b.air a) c.2).map fun p => p.start).getD 0)) := by
  unfold turnedAway
  rw [waiting, none]
  dsimp only
  refine ⟨fun q mem => ?_, sent_count (sentLast_send _ _ _).sent _⟩
  have radio : (((x.modSched c.2.radio fun y => y.dropWait c.2.id).sendRetry c.2.radio c.2.id .window
      (((findWindow env b (b.air a) c.2).map fun p => p.start).getD 0)).sched.radios.get c.2.radio)
      = (x.sched.radios.get c.2.radio).dropWait c.2.id := PerRadio.get_modify_same _ _ _
  rw [radio] at mem
  simpa using (List.mem_filter.mp mem).2

theorem turnedAway_head {c : Candidate} (head : c.1 = false) (x : Blocks) : turnedAway env a b c x = attemptHead env c.2 x := by
  unfold turnedAway
  rw [head]

/-- One more candidate is passed over. -/
theorem Pending.passOver {before : List Candidate} {v : Review} {c : Candidate} (h : Pending env a b before v)
    (distinct : c.1 = false → ∀ q, (false, q) ∈ before → q.radio ≠ c.2.radio) :
    Pending env a b (before ++ [c]) (passOver env a b c v) := by
  obtain ⟨air, turn⟩ := turnedAway_oneAir (env := env) (a := a) (b := b) c v.blocks
  have heads : ∀ d ∈ before, d.1 = false → c.1 = false → d.2.radio ≠ c.2.radio := by
    rintro ⟨_, q⟩ mem rfl head
    exact distinct head q mem
  have other : ∀ r, (c.1 = false → r ≠ c.2.radio) →
      WaitsOnly (v.blocks.sched.radios.get r) ((turnedAway env a b c v.blocks).sched.radios.get r) :=
    fun r apart => turnedAway_other apart v.blocks
  refine
    { only := h.only.trans turn.only
      grant := (congrArg Air.grant air).trans h.grant
      hold := (congrArg Air.hold air).trans h.hold
      review := (congrArg Air.review air).trans h.review
      passed := ?_
      early := ?_
      turned := fun d mem => ?_
      untouched := h.untouched.snoc other }
  · rw [List.filterMap_append, List.map_append, ← h.passed]
    cases stands : standing env a b c <;> simp [Machine.passOver, stands]
  · rw [List.filterMap_append, List.filter_append, List.map_append, ← h.early]
    cases stands : standing env a b c with
    | none => simp [Machine.passOver, stands]
    | some p => cases soon : withinLead env p <;> simp [Machine.passOver, stands, soon]
  · rcases List.mem_append.mp mem with earlier | last
    · exact (h.turned d earlier).kept turn fun head => other _ (heads d earlier head)
    · rw [List.mem_singleton.mp last]
      refine ⟨fun waiting none => turnedAway_retried waiting none v.blocks, fun head => ?_⟩
      obtain ⟨posted, attempts⟩ := h.untouched c.2.radio (distinct head)
      have taken := attemptHead_taken (env := env) c.2 v.blocks
      rw [← turnedAway_head (env := env) (a := a) (b := b) head] at taken
      unfold HeadTaken at taken ⊢
      rw [posted, attempts] at taken
      exact taken

end Sys2Proof.Machine
end

