-- ==== Sys2Proof/Proofs/ReviewCandidates.lean ====
section
/-! PROOF. Which candidates a review considers, and in which order; the first that fits is placed, and without one the review
timer is set (R107, R110, R112, R113, R115): O42. -/

namespace Sys2Proof.Machine

variable {env : Env} {a : AirId} {b : Blocks}

/-! ## The candidates -/

/-- The candidates of an air in the order in which a review takes them. -/
def turns (env : Env) (a : AirId) (b : Blocks) : List Candidate :=
  (waitingCandidates env b a).map (fun q => (true, q)) ++ (headCandidates env b a).map fun q => (false, q)

/-- The waiting requests that a review of the air considers. -/
def consideredWaits (env : Env) (a : AirId) (b : Blocks) : List Request :=
  (waitingCandidates env b a).filter fun q => !channelBarred env b q.radio

/-- The posted heads that a review of the air considers. -/
def consideredHeads (env : Env) (a : AirId) (b : Blocks) : List Request :=
  (headCandidates env b a).filter fun q => !skipsHead env b q.radio

/-- The candidates that a review of the air considers, in the order in which it takes them (R112). -/
def consideredTurns (env : Env) (a : AirId) (b : Blocks) : List Candidate :=
  (consideredWaits env a b).map (fun q => (true, q)) ++ (consideredHeads env a b).map fun q => (false, q)

theorem turns_considered : (turns env a b).filter (considered env b) = consideredTurns env a b := by
  rw [turns, List.filter_append, List.filter_map, List.filter_map]
  rfl

theorem reviewOne_skipped {v : Review} {c : Candidate} (only : SchedOnly b v.blocks) (skipped : considered env b c = false) :
    reviewOne env a v c = v := by
  obtain ⟨waiting, q⟩ := c
  cases waiting with
  | true =>
    have barred : channelBarred env v.blocks q.radio = true := by
      rw [only.channelBarred]
      simpa [considered] using skipped
    simp [reviewOne, reviewWaiting, barred]
  | false =>
    have skips : skipsHead env v.blocks q.radio = true := by
      rw [skipsHead_congr only.chans only.monitor]
      simpa [considered] using skipped
    simp [reviewOne, reviewHead, skips]

/-- The candidates that a review skips leave nothing behind (R112). -/
theorem foldl_reviewOne_filter {v : Review} (only : SchedOnly b v.blocks) (l : List Candidate) :
    l.foldl (reviewOne env a) v = (l.filter (considered env b)).foldl (reviewOne env a) v := by
  induction l generalizing v with
  | nil => rfl
  | cons c l ih =>
    by_cases taken : considered env b c = true
    · rw [List.filter_cons_of_pos taken]
      exact ih (only.trans (reviewOne_reviewed v c).only)
    · rw [List.filter_cons_of_neg taken, List.foldl_cons, reviewOne_skipped only (Bool.not_eq_true _ ▸ taken)]
      exact ih only

/-- The blocks at the beginning of a review (R113). -/
def reviewBegun (a : AirId) (b : Blocks) : Blocks := b.modAir a fun x => { x with review := none }

theorem reviewBegun_only : SchedOnly b (reviewBegun a b) := .modAir _ _ _

theorem reviewBegun_air : (reviewBegun a b).air a = { b.air a with review := none } := Blocks.modAir_air_same _ _ _

/-- A review takes the considered candidates one after the other (R112), and then sets the air's review timer (R113). -/
theorem reviewAir_eq_turns :
    reviewAir env a b
      = let v := (consideredTurns env a b).foldl (reviewOne env a) ⟨reviewBegun a b, [], []⟩
        if (v.blocks.air a).grant.isNone then
          v.blocks.modAir a fun x => { x with review := (earliestOf v.early).map fun t => Time.minus t env.retained.params.startLead }
        else v.blocks := by
  have walk : (headCandidates env (reviewBegun a b) a).foldl (reviewHead env a)
      ((waitingCandidates env (reviewBegun a b) a).foldl (reviewWaiting env a) ⟨reviewBegun a b, [], []⟩)
      = (turns env a b).foldl (reviewOne env a) ⟨reviewBegun a b, [], []⟩ := by
    rw [turns, List.foldl_append, List.foldl_map, List.foldl_map]
    rfl
  rw [← turns_considered, ← foldl_reviewOne_filter reviewBegun_only, ← walk]
  rfl

/-- The requests of an air's members whose radio passes a test. -/
theorem filter_flatMap_members {f : Radio → List Request} (own : ∀ r, ∀ q ∈ f r, q.radio = r) (p : Radio → Bool) (l : List Radio) :
    (l.flatMap f).filter (fun q => p q.radio) = (l.filter p).flatMap f := by
  induction l with
  | nil => rfl
  | cons r l ih =>
    rw [List.flatMap_cons, List.filter_append, ih]
    by_cases passes : p r = true
    · rw [List.filter_cons_of_pos passes, List.flatMap_cons, List.filter_eq_self.mpr fun q mem => by rw [own r q mem]; exact passes]
    · rw [List.filter_cons_of_neg passes, List.filter_eq_nil_iff.mpr fun q mem => by rw [own r q mem]; exact passes, List.nil_append]

theorem consideredWaits_perm (sound : requestsSound b) :
    (consideredWaits env a b).Perm
      ((radios.filter fun r => airOf env b r == some a && !channelBarred env b r).flatMap fun r =>
        (b.sched.radios.get r).waits) := by
  refine ((sortByClass_perm _).filter _).trans (.of_eq ?_)
  rw [filter_flatMap_members (fun r q mem => (sound r).waits q mem) fun r => !channelBarred env b r, members, List.filter_filter]
  simp only [Bool.and_comm]

theorem own_head (sound : requestsSound b) (r : Radio) (q : Request) (mem : q ∈ (b.sched.radios.get r).posted.take 1) : q.radio = r :=
  (sound r).posted q (List.mem_of_mem_take mem)

theorem consideredHeads_perm (sound : requestsSound b) :
    (consideredHeads env a b).Perm
      ((radios.filter fun r =>
          airOf env b r == some a && !channelBarred env b r && (b.chans.get r).directive.isNone).flatMap fun r =>
        (b.sched.radios.get r).posted.take 1) := by
  refine ((sortByArrival_perm _).filter _).trans (.of_eq ?_)
  rw [filter_flatMap_members (own_head sound) fun r => !skipsHead env b r, members, List.filter_filter]
  congr 1
  refine List.filter_congr fun r _ => ?_
  rw [skipsHead, Bool.not_or, Option.not_isSome, Bool.and_comm, ← Bool.and_assoc, Bool.and_right_comm, Bool.and_assoc]

/-- A radio posts at most one head. -/
theorem consideredHeads_apart (sound : requestsSound b) :
    (consideredHeads env a b).Pairwise fun q q' => q.radio ≠ q'.radio := by
  refine .filter _ (((sortByArrival_perm _).pairwise_iff fun ne => ne.symm).mpr ?_)
  refine List.pairwise_flatMap.mpr ⟨fun r _ => ?_, (members_nodup env b a).imp fun ne q mem q' mem' => ?_⟩
  · cases (b.sched.radios.get r).posted with
    | nil => exact .nil
    | cons q l => exact List.pairwise_singleton _ _
  · rw [own_head sound _ q mem, own_head sound _ q' mem']
    exact ne

/-! ## The first candidate that fits -/

/-- A placement stands for a candidate, starts early enough and ends no later than what was found for every candidate before it
(R110, R112). -/
def Fits (env : Env) (a : AirId) (b : Blocks) (before : List Candidate) (c : Candidate) (x : Placement) : Prop :=
  standing env a b c = some x ∧ withinLead env x = true
    ∧ ∀ d ∈ before, ∀ y, standing env a b d = some y → Time.atOrBefore x.stop y.start = true

theorem Pending.admits_iff {before : List Candidate} {v : Review} (h : Pending env a b before v) {x : Placement} :
    v.admits a x = true ↔ ∀ d ∈ before, ∀ y, standing env a b d = some y → Time.atOrBefore x.stop y.start = true := by
  simp only [Review.admits, h.grant, h.passed, Option.isNone_none, Bool.true_and, List.all_map, List.all_eq_true,
    List.mem_filterMap, Function.comp_apply]
  exact ⟨fun all d mem y stands => all y ⟨d, mem, stands⟩, fun all y ⟨d, mem, stands⟩ => all d mem y stands⟩

theorem Pending.begun (free : (b.air a).grant = none) : Pending env a b [] ⟨reviewBegun a b, [], []⟩ where
  only := reviewBegun_only
  grant := (congrArg Air.grant reviewBegun_air).trans free
  hold := (congrArg Air.hold reviewBegun_air).trans rfl
  review := congrArg Air.review reviewBegun_air
  passed := rfl
  early := rfl
  turned := fun _ mem => absurd mem List.not_mem_nil
  untouched := fun _ _ => ⟨rfl, rfl⟩

/-- Two posted heads are of different radios. -/
def HeadsApart (c d : Candidate) : Prop := c.1 = false → d.1 = false → c.2.radio ≠ d.2.radio

theorem HeadsApart.before {before after : List Candidate} {c : Candidate} (h : (before ++ c :: after).Pairwise HeadsApart)
    (head : c.1 = false) (q : Request) (mem : (false, q) ∈ before) : q.radio ≠ c.2.radio :=
  (List.pairwise_append.mp h).2.2 (false, q) mem c List.mem_cons_self rfl head

/-- While no candidate fits, all are passed over (R112). -/
theorem Pending.of_unfit (free : (b.air a).grant = none) (l : List Candidate) (taken : ∀ c ∈ l, considered env b c = true)
    (apart : l.Pairwise HeadsApart) (unfit : ∀ u d v y, l = u ++ d :: v → ¬ Fits env a b u d y) :
    Pending env a b l (l.foldl (reviewOne env a) ⟨reviewBegun a b, [], []⟩) := by
  induction l using List.reverseRecOn with
  | nil => exact .begun free
  | append_singleton l c ih =>
    have before := ih (fun d mem => taken d (List.mem_append_left _ mem)) (List.pairwise_append.mp apart).1
      fun u d v y e => unfit u d (v ++ [c]) y (by rw [e, List.append_assoc, List.cons_append])
    rw [List.foldl_append, List.foldl_cons, List.foldl_nil,
      reviewOne_passOver before.toJudging free (taken c (List.mem_append_right _ (List.mem_singleton.mpr rfl))) ?_]
    · exact before.passOver (HeadsApart.before apart)
    · intro p stands soon
      rw [← Bool.not_eq_true, before.admits_iff]
      exact fun admitted => unfit l c [] p rfl ⟨stands, soon, admitted⟩

/-! ## The placed candidate -/

theorem leaveList_air (c : Candidate) (x : Blocks) : (leaveList c x).air a = x.air a := by
  unfold leaveList
  split <;> rfl

theorem leaveList_other {c : Candidate} {r : Radio} (other : c.1 = false → r ≠ c.2.radio) (x : Blocks) :
    WaitsOnly (x.sched.radios.get r) ((leaveList c x).sched.radios.get r) := by
  unfold leaveList
  split
  · exact .dropWait x c.2.radio c.2.id r
  · next head =>
    have same : (x.modSched c.2.radio RadioSched.dropHead).sched.radios.get r = x.sched.radios.get r :=
      PerRadio.get_modify_other _ _ (other (Bool.not_eq_true _ ▸ head))
    rw [same]
    exact .refl _

theorem leaveList_waits {c : Candidate} (waiting : c.1 = true) (x : Blocks) :
    ∀ q ∈ ((leaveList c x).sched.radios.get c.2.radio).waits, q.id ≠ c.2.id := by
  have radio : (leaveList c x).sched.radios.get c.2.radio = (x.sched.radios.get c.2.radio).dropWait c.2.id := by
    rw [leaveList, if_pos waiting]
    exact PerRadio.get_modify_same _ _ _
  intro q mem
  rw [radio] at mem
  simpa using (List.mem_filter.mp mem).2

theorem leaveList_head {c : Candidate} (head : c.1 = false) (x : Blocks) :
    (leaveList c x).sched.radios.get c.2.radio = (x.sched.radios.get c.2.radio).dropHead := by
  rw [leaveList, if_neg (by rw [head]; exact Bool.false_ne_true)]
  exact PerRadio.get_modify_same _ _ _

/-- What a review that places a candidate leaves in the blocks (R110, R112, R115). -/
structure Placed (env : Env) (a : AirId) (b : Blocks) (before : List Candidate) (c : Candidate) (x : Placement) (b' : Blocks) :
    Prop where
  grant : (b'.air a).grant = some (placedGrant env c.2 x)
  review : (b'.air a).review = none
  message : sent (b'.links.get c.2.radio) (.grant c.2.id x.start x.length x.shortened)
  waits : c.1 = true → ∀ q ∈ (b'.sched.radios.get c.2.radio).waits, q.id ≠ c.2.id
  head : c.1 = false → (b'.sched.radios.get c.2.radio).posted = (b.sched.radios.get c.2.radio).posted.tail
    ∧ (b'.sched.radios.get c.2.radio).headAttempts = 0
  turned : ∀ d ∈ before, PassedOver env a b d b'
  untouched : Untouched b (before ++ [c]) b'

/-- The candidate that fits is placed, and no candidate behind it is considered but to be answered (R112, R115). -/
theorem Pending.placed {before : List Candidate} {v : Review} {c : Candidate} {x : Placement} (h : Pending env a b before v)
    (free : (b.air a).grant = none) (taken : considered env b c = true) (fits : Fits env a b before c x)
    (apart : c.1 = false → ∀ q, (false, q) ∈ before → q.radio ≠ c.2.radio) (after : List Candidate) :
    Placed env a b before c x ((c :: after).foldl (reviewOne env a) v).blocks := by
  obtain ⟨stands, soon, admitted⟩ := fits
  have turn := reviewOne_placed h.toJudging free taken stands soon (h.admits_iff.mpr admitted)
  have entered : Reviewed env v.blocks (reviewOne env a v c).blocks := reviewOne_reviewed v c
  rw [List.foldl_cons]
  obtain ⟨rest, restAir⟩ := foldl_reviewOne_reviewed (env := env) (a := a) after (reviewOne env a v c)
  have air : (reviewOne env a v c).blocks.air a = { v.blocks.air a with grant := some (placedGrant env c.2 x) } := by
    rw [turn, enterGrant_air, leaveList_air]
  have granted : ((reviewOne env a v c).blocks.air a).grant = some (placedGrant env c.2 x) := by rw [air]
  have last := foldl_reviewOne_granted (env := env) granted after
  have radios : ∀ r, (reviewOne env a v c).blocks.sched.radios.get r = (leaveList c v.blocks).sched.radios.get r := by
    intro r
    rw [turn]
    rfl
  have others : ∀ r, (c.1 = false → r ≠ c.2.radio) → WaitsOnly (v.blocks.sched.radios.get r)
      ((after.foldl (reviewOne env a) (reviewOne env a v c)).blocks.sched.radios.get r) := by
    intro r other
    refine WaitsOnly.trans ?_ (last r)
    rw [radios]
    exact leaveList_other other v.blocks
  refine
    { grant := rest.grants a _ granted
      review := restAir.review.trans ((congrArg Air.review air).trans h.review)
      message := ?_
      waits := fun waiting q mem => ?_
      head := fun head => ?_
      turned := fun d mem => (h.turned d mem).kept (entered.trans rest) fun head => others _ fun head' => ?_
      untouched := h.untouched.snoc others }
  · have message := enterGrant_sentLast (env := env) a c.2 x (leaveList c v.blocks)
    rw [turn] at rest ⊢
    exact message.sent.grows (rest.queues _)
  · have left := (rest.radios c.2.radio).1.subset mem
    rw [radios] at left
    exact leaveList_waits waiting v.blocks q left
  · obtain ⟨posted, -⟩ := h.untouched c.2.radio (apart head)
    have dropped := (radios c.2.radio).trans (leaveList_head head v.blocks)
    refine ⟨(last c.2.radio).posted.trans ?_, (last c.2.radio).headAttempts.trans ?_⟩
    · rw [dropped, ← posted]
      rfl
    · rw [dropped]
      rfl
  · obtain ⟨_, q⟩ := d
    cases head
    exact apart head' q mem

/-! ## The review timer -/

theorem earliestOf_mem {l : List Time} {t : Time} (h : earliestOf l = some t) : t ∈ l := by
  induction l generalizing t with
  | nil => cases h
  | cons u l ih =>
    unfold earliestOf at h
    split at h
    · cases h
      exact List.mem_cons_self
    · next w found =>
      cases h
      unfold Time.earlier
      split
      · exact List.mem_cons_self
      · exact List.mem_cons_of_mem _ (ih found)

theorem earliestOf_isSome {l : List Time} (h : l ≠ []) : ∃ t, earliestOf l = some t := by
  cases l with
  | nil => exact absurd rfl h
  | cons u l =>
    unfold earliestOf
    split
    · exact ⟨_, rfl⟩
    · exact ⟨_, rfl⟩

theorem Time.earlier_le {now t u : Time} (nearT : (t - now).toNat < 2 ^ 31) (nearU : (u - now).toNat < 2 ^ 31) :
    (Time.earlier t u - now).toNat ≤ (t - now).toNat ∧ (Time.earlier t u - now).toNat ≤ (u - now).toNat := by
  have apart : (u - t).toNat = (2 ^ 32 - (t - now).toNat + (u - now).toNat) % 2 ^ 32 := by
    rw [← sub_sub_sub_cancel_right u t now, BitVec.toNat_sub]
  unfold Time.earlier Time.atOrBefore
  split
  · next before =>
    rw [decide_eq_true_eq, apart] at before
    omega
  · next after =>
    rw [decide_eq_true_eq, apart] at after
    omega

/-- Of times within 2^31 µs from now, none is nearer than the earliest. -/
theorem earliestOf_le {now : Time} {l : List Time} {t : Time} (near : ∀ u ∈ l, (u - now).toNat < 2 ^ 31)
    (h : earliestOf l = some t) : ∀ u ∈ l, (t - now).toNat ≤ (u - now).toNat := by
  induction l generalizing t with
  | nil => cases h
  | cons w l ih =>
    have nearRest : ∀ u ∈ l, (u - now).toNat < 2 ^ 31 := fun u mem => near u (List.mem_cons_of_mem _ mem)
    unfold earliestOf at h
    split at h
    · next none =>
      cases h
      have nil : l = [] := by
        by_contra some
        obtain ⟨_, found⟩ := earliestOf_isSome some
        rw [found] at none
        cases none
      intro u mem
      rw [nil] at mem
      rw [List.mem_singleton.mp mem]
    · next s found =>
      cases h
      obtain ⟨first, second⟩ := Time.earlier_le (near w List.mem_cons_self) (nearRest s (earliestOf_mem found))
      intro u mem
      rcases List.mem_cons.mp mem with rfl | mem
      · exact first
      · exact second.trans (ih nearRest found u mem)

/-! ## The review -/

theorem consideredTurns_considered (c : Candidate) (mem : c ∈ consideredTurns env a b) : considered env b c = true := by
  rw [← turns_considered] at mem
  exact (List.mem_filter.mp mem).2

theorem consideredTurns_apart (sound : requestsSound b) : (consideredTurns env a b).Pairwise HeadsApart := by
  refine List.pairwise_append.mpr ⟨?_, ?_, ?_⟩
  · refine List.pairwise_map.mpr (List.pairwise_of_forall fun _ _ head => ?_)
    cases head
  · exact List.pairwise_map.mpr ((consideredHeads_apart sound).imp fun ne _ _ => ne)
  · intro c waiting d _ head
    obtain ⟨q, -, rfl⟩ := List.mem_map.mp waiting
    cases head

/-- The first considered candidate that fits is placed (R112). -/
theorem reviewAir_placed (free : (b.air a).grant = none) (sound : requestsSound b) {before after : List Candidate}
    {c : Candidate} {x : Placement} (split : consideredTurns env a b = before ++ c :: after) (fits : Fits env a b before c x)
    (first : ∀ u d v y, before = u ++ d :: v → ¬ Fits env a b u d y) : Placed env a b before c x (reviewAir env a b) := by
  have taken := consideredTurns_considered (env := env) (a := a) (b := b)
  have apart := consideredTurns_apart (env := env) (a := a) sound
  rw [split] at taken apart
  have pending := Pending.of_unfit free before (fun d mem => taken d (List.mem_append_left _ mem))
    (List.pairwise_append.mp apart).1 first
  have placed := pending.placed free (taken c (List.mem_append_right _ List.mem_cons_self)) fits (HeadsApart.before apart) after
  rw [reviewAir_eq_turns, split, List.foldl_append]
  dsimp only
  rw [if_neg (by rw [placed.grant]; exact Bool.false_ne_true)]
  exact placed

/-- When no considered candidate fits, all are passed over and the review timer is set (R113). -/
theorem reviewAir_unplaced (free : (b.air a).grant = none) (sound : requestsSound b)
    (unfit : ∀ u d v y, consideredTurns env a b = u ++ d :: v → ¬ Fits env a b u d y) :
    ∃ v, Pending env a b (consideredTurns env a b) v
      ∧ reviewAir env a b = v.blocks.modAir a fun x =>
          { x with review := (earliestOf v.early).map fun t => Time.minus t env.retained.params.startLead } := by
  have pending := Pending.of_unfit free _ consideredTurns_considered (consideredTurns_apart sound) unfit
  refine ⟨_, pending, ?_⟩
  rw [reviewAir_eq_turns]
  exact if_pos (by rw [pending.grant]; rfl)

/-- The finder's result stands for a waiting request unless it lies past its deadline (R110). -/
theorem standing_iff {c : Candidate} {x : Placement} :
    standing env a b c = some x
      ↔ findWindow env b (b.air a) c.2 = some x ∧ (c.1 = true → Time.after x.start c.2.latest = false) := by
  rw [standing, Option.filter_eq_some_iff]
  cases c.1 <;> simp

/-- The too-early starts found in a review that places none (R113). -/
theorem Pending.mem_early {l : List Candidate} {v : Review} (h : Pending env a b l v) {t : Time} :
    t ∈ v.early ↔ ∃ c ∈ l, ∃ x, standing env a b c = some x ∧ ¬ withinLead env x = true ∧ x.start = t := by
  rw [h.early]
  simp only [List.mem_map, List.mem_filter, List.mem_filterMap, Bool.not_eq_true, Bool.not_eq_eq_eq_not, Bool.not_true]
  constructor
  · rintro ⟨x, ⟨⟨c, mem, stands⟩, early⟩, rfl⟩
    exact ⟨c, mem, x, stands, early, rfl⟩
  · rintro ⟨c, mem, x, stands, early, rfl⟩
    exact ⟨x, ⟨⟨c, mem, stands⟩, early⟩, rfl⟩

theorem Pending.earliest {l : List Candidate} {v : Review} (h : Pending env a b l v)
    (late : ∃ c ∈ l, ∃ x, standing env a b c = some x ∧ ¬ withinLead env x = true) :
    ∃ c ∈ l, ∃ x, standing env a b c = some x ∧ ¬ withinLead env x = true ∧ earliestOf v.early = some x.start
      ∧ ((∀ d ∈ l, ∀ y, standing env a b d = some y → ¬ withinLead env y = true → (y.start - env.now).toNat < 2 ^ 31) →
        ∀ d ∈ l, ∀ y, standing env a b d = some y → ¬ withinLead env y = true →
          (x.start - env.now).toNat ≤ (y.start - env.now).toNat) := by
  obtain ⟨c, mem, x, found, early⟩ := late
  obtain ⟨t, earliest⟩ := earliestOf_isSome (List.ne_nil_of_mem (h.mem_early.mpr ⟨c, mem, x, found, early, rfl⟩))
  obtain ⟨d, mem, y, found, early, rfl⟩ := h.mem_early.mp (earliestOf_mem earliest)
  refine ⟨d, mem, y, found, early, earliest, fun near e mem z found early => ?_⟩
  refine earliestOf_le (fun u listed => ?_) earliest z.start (h.mem_early.mpr ⟨e, mem, z, found, early, rfl⟩)
  obtain ⟨e, mem, z, found, early, rfl⟩ := h.mem_early.mp listed
  exact near e mem z found early

/-- Settles O42. -/
theorem reviewTakesCandidates : Obligations.ReviewTakesCandidates := by
  unfold Obligations.ReviewTakesCandidates
  refine ⟨fun a s ⟨t0, timer, due⟩ => next_blocks (if_pos (Time.reached_iff.mpr ⟨t0, timer, due⟩)), ?_⟩
  intro env a b free sound p b' old new rank barred find stands soon fits passed untouched
  have fits_iff : ∀ u d y, fits u d y ↔ Fits env a b u d y := by
    intro u d y
    simp only [fits, stands, find, Fits, ← standing_iff]
    rfl
  have of_passed : ∀ d, PassedOver env a b d b' → passed d := by
    intro d left
    refine ⟨fun waiting none => ?_, fun head => left.head head⟩
    have nothing : standing env a b d = Option.none := by
      rw [Option.eq_none_iff_forall_ne_some]
      exact fun x found => none x (standing_iff.mp found)
    obtain ⟨gone, message⟩ := left.retried waiting nothing
    refine ⟨gone, ?_⟩
    cases found : find d with
    | none => simpa [show findWindow env b (b.air a) d.2 = Option.none from found] using message
    | some x => simpa [show findWindow env b (b.air a) d.2 = some x from found] using message
  refine ⟨consideredWaits env a b, consideredHeads env a b, consideredWaits_perm sound, ?_, consideredHeads_perm sound,
    (sortByArrival_sorted _).filter _, ?_⟩
  · have rank_eq : ∀ c, rank c = c.rank := fun c => by cases c <;> rfl
    simp only [rank_eq]
    exact (sortByClass_sorted _).filter _
  intro cs
  refine ⟨fun before c after x split fit first => ?_, fun unfit => ?_⟩
  · have placed := reviewAir_placed free sound split ((fits_iff _ _ _).mp fit) fun u d v y e found =>
      first u d v y e ((fits_iff _ _ _).mpr found)
    exact ⟨placed.grant, placed.review, placed.message, placed.waits, placed.head,
      fun d mem => of_passed d (placed.turned d mem), placed.untouched⟩
  · obtain ⟨v, pending, result⟩ := reviewAir_unplaced (env := env) free sound fun u d v y e found =>
      unfit u d v y e ((fits_iff _ _ _).mpr found)
    have air : b'.air a = { v.blocks.air a with
        review := (earliestOf v.early).map fun t => Time.minus t env.retained.params.startLead } := by
      rw [show b' = _ from result, Blocks.modAir_air_same]
    have turned : ∀ d ∈ cs, PassedOver env a b d b' := by
      rw [show b' = _ from result]
      exact fun d mem => ⟨(pending.turned d mem).retried, (pending.turned d mem).head⟩
    refine ⟨(congrArg Air.grant air).trans pending.grant, fun d mem => of_passed d (turned d mem), ?_, fun all => ?_, ?_⟩
    · intro r apart
      rw [show new r = _ from congrArg (fun x : Blocks => x.sched.radios.get r) result]
      exact pending.untouched r apart
    · have none : v.early = [] := List.eq_nil_iff_forall_not_mem.mpr fun t mem => by
        obtain ⟨c, mem, x, found, early, -⟩ := pending.mem_early.mp mem
        exact early (all c mem x (standing_iff.mp found))
      rw [air, none]
      rfl
    · rintro ⟨c, mem, x, found, early⟩
      obtain ⟨d, mem, y, found, early, earliest, least⟩ := pending.earliest ⟨c, mem, x, standing_iff.mpr found, early⟩
      refine ⟨d, mem, y, standing_iff.mp found, early, by rw [air, earliest]; rfl, fun near e mem z found early => ?_⟩
      exact least (fun e mem z found early => near e mem z (standing_iff.mp found) early) e mem z (standing_iff.mpr found) early

end Sys2Proof.Machine
end
